-- ==== Sys2Proof/Word.lean ====
section
/-! DEFINITION. The words of the Peltar Z9 and the sparse tables its state is made of: plain types and the plainest
arithmetic. -/

namespace Sys2Proof

/-- The control thread's register width (R12). -/
abbrev Word := BitVec 64

/-- One byte of any memory (R4). -/
abbrev Byte := BitVec 8

/-- A table from numbers to values in one canonical form: keys strictly rising, and no entry that holds the table's
default. Every register file, memory and queue of the model that is addressed by number has this type. -/
abbrev SMap (α : Type) := List (Nat × α)

/-- A byte memory: `Host.Cell` pairs of an address and a byte; an unlisted address reads zero (log 2). -/
abbrev Mem := SMap Byte

/-- Cell cycles of a tick (R6). -/
abbrev tickCycles : Nat := 4096

/-- Register encodings of ports are 28 to 31 (R32). -/
abbrev SReg := BitVec 5
abbrev PReg := BitVec 3
abbrev VReg := BitVec 5
abbrev MReg := BitVec 3
abbrev Tok := BitVec 4
abbrev Strm := BitVec 3

end Sys2Proof
end

