-- ==== Sys2Proof/Config.lean ====
section
/-! DEFINITION. What an implementation fixes and the free values: constants without a body, so that nothing in Lean can
evaluate one or prove a value of one (log 4, log 5). -/

namespace Sys2Proof.Config

/-- A value the manual leaves open, taken afresh from the counter `State.free` (log 4). -/
opaque freeValue : Nat → Word

/-- Cycles a host command takes to be read and to complete: the manual promises none (R337). -/
opaque hostCycles : Nat → Nat

/-- Whether the PCIe fabric completes an access to a host tensor with an error status, for each access anew (R340, log 4). -/
opaque hostError : Nat → Bool

/-- Flits in which a port sends a message of best-effort traffic, for each anew (R311, R324, log 4). -/
opaque flitCount : Nat → Nat

/-- Cycles a binding takes, below the bound of R273. -/
opaque bindCycles : Nat → Nat

/-- Ticks a training takes; the model uses at most 16 (R326). -/
opaque trainTicks : Nat → Nat

/-- Whether a signature verifies under a public key over a message (FIPS 205, named by R346 and R348). -/
opaque sigVerifies : (key message signature : List Byte) → Bool

/-- Whether a root public key has the hash held in the hub's ROM (R345). -/
opaque romKeyHash : List Byte → Bool

/-- The identity key pair, public and secret, that the secret of a PUF gives (R345, R347). -/
opaque identityPair : (puf : List Byte) → List Byte × List Byte

/-- The signature made with a secret key over a message (R348, R349). -/
opaque sign : (secret message : List Byte) → List Byte

/-- The SHA-256 measurement of a byte string (R345, R349). -/
opaque sha256 : List Byte → List Byte

end Sys2Proof.Config
end

