-- ==== Sys2Proof/Syntax.lean ====
section
/-! DEFINITION. The one syntax of everything that happens in the device: a constructor for every row of the opcode table,
the instructions of a control thread first, then the events of the other agents. -/

namespace Sys2Proof

/-- Scalar widths (R54). -/
inductive Width where
  | w64 | w32 | w16
  deriving DecidableEq, Repr

/-- Compare conditions (R83). -/
inductive Cond where
  | eq | ne | lt | ge | ltu | geu | tb | tnb
  deriving DecidableEq, Repr

/-- Combining types of a compare (R83). -/
inductive Comb where
  | set | setz | all | any | none | notall | xany | xall
  deriving DecidableEq, Repr

/-- Sizes of a scalar access (R64). -/
inductive Size where
  | b | h | w | d
  deriving DecidableEq, Repr

/-- Scopes (R54, R230). -/
inductive Scope where
  | cell | cluster | die | package | system
  deriving DecidableEq, Repr

/-- Rounding modes (R54, R131). -/
inductive Rnd where
  | rne | rtz | rto | rst
  deriving DecidableEq, Repr

/-- Formats as an instruction names them: the codes of R121, with code 0x2F joined to the format word it uses. -/
inductive Fmt where
  | i8 | n8 | i4 | i16 | i32 | fp32 | bf16 | fp16 | e4m3 | e5m2 | e2m1 | e3m2 | e2m3 | mxfp8 | mxfp6 | mxfp4
  | ffa | ffb | ffc | cbf16 | cfp16 | ce4m3 | cfp32
  deriving DecidableEq, Repr

/-- Block sizes of spectral instructions (R54). -/
inductive Bsz where
  | b4 | b8 | b16 | b32 | b64 | b128 | b256
  deriving DecidableEq, Repr

/-- N:M codes of `mma.sp` (R73). -/
inductive Pat where
  | p24 | p14 | p48
  deriving DecidableEq, Repr

/-- The two scalar spaces: the cell's scratchpad and the cluster's buffer slice (R41). -/
inductive Space where
  | sp | cb
  deriving DecidableEq, Repr

/-- The modifiers of a long scalar access or of a vector access besides its format: strong or weak, space and stream. -/
structure Route where
  strong : Bool
  space : Space
  stream : Strm
  deriving DecidableEq, Repr

/-- Scalar register operations with their modifiers (R57, R58): what `WIDE_IMMEDIATE` carries, and what the meanings of the
register forms share. -/
inductive SOp where
  | add (w : Width) (n sat : Bool) | sub (w : Width) (n sat : Bool) | mul (w : Width) (n sat : Bool)
  | madd (w : Width) (n sat : Bool)
  | mulh (w : Width) | div (w : Width) | rem (w : Width) | min (w : Width) | max (w : Width) | sra (w : Width)
  | sext (w : Width) | bfx (w : Width)
  | mulhn (w : Width) | divn (w : Width) | remn (w : Width) | minn (w : Width) | maxn (w : Width) | shr (w : Width)
  | zext (w : Width)
  | and (w : Width) | or (w : Width) | xor (w : Width) | andn (w : Width) | orn (w : Width) | shl (w : Width)
  | rol (w : Width) | clz (w : Width) | ctz (w : Width) | pop (w : Width) | bfi (w : Width)
  | sel (w : Width) (p : PReg) | ix (scale : BitVec 2)
  deriving DecidableEq, Repr

/-- Vector compute operations of maps A and B (R68). -/
inductive VOp where
  | vadd | vsub | vmul | vfma | vfnma | vmin | vmax | vabs | vneg | vrcp | vrsqrt | vexp2 | vlog2 | vtanh | vsigm | vcmul
  | vceq | vcne | vclt | vcle | vsel | vand | vor | vxor | vshl | vshr | vsra | vrelu | vsplat | vins | vext | vmov
  | vrsum | vrmax | vrmin | vramax | vscan | vscanx | vperm | vshuf | vrot | vzip | vunzip | vbcl
  deriving DecidableEq, Repr

/-- Outcome of a boot for one die (R345, R328): present in the package, harvested, and the results of the steps. -/
structure DieBoot where
  inPackage : Bool
  harvested : Bool
  trains : Bool
  /-- Whether it derives a key pair from its PUF, and the PUF's secret (R347). -/
  derives : Bool
  puf : List Byte
  /-- The nonces of the mutual authentication: the one the die signs, and the one the hub signs (R348). -/
  hubNonce : List Byte
  dieNonce : List Byte
  memoryOk : Bool
  firmware : List Byte
  deriving DecidableEq, Repr

/-- What the boot finds outside the state: flash contents and the physical results of each step (R345, R346). -/
structure BootFind where
  firmware : List Byte
  firmwareSig : List Byte
  config : List Byte
  configSig : List Byte
  pufOk : Bool
  hubPuf : List Byte
  pcieOk : Bool
  dies : List DieBoot
  harvest : BitVec 16
  spanNumber : Nat
  spanRing : Bool
  spanCount : Nat
  lp6Gb : List Nat
  imageKeys : List (List Byte)
  /-- The identity public keys that the configuration record enrolls: of each die, and the hub's (R346, R348, log 80). -/
  dieKeys : List (List Byte)
  hubKey : List Byte
  rootKey : List Byte
  signature : BitVec 32
  deriving DecidableEq, Repr

/-- What a soft error strikes (R309): a word of a scratchpad, an accumulator word, a slice word, a code-store word, a scalar
register, a vector register word, a mask, an LP6 line; in the table store an entry, or a word of the slot map of an LP6 channel or of a
link direction (R109, R214, R315). -/
inductive ErrAt where
  | scratchpad (cell word : Nat)
  | accumulator (cell element : Nat)
  | slice (cluster word : Nat)
  | code (cell block word : Nat)
  | sreg (cell reg : Nat)
  | vreg (cell reg word : Nat)
  | mask (cell reg word : Nat)
  | lp6 (die line : Nat)
  | table (dom cell entry : Nat)
  | lp6Map (dom die ch word : Nat)
  | linkMap (dom dir word : Nat)
  deriving DecidableEq, Repr

/-- A place of a held cell that the debug port reaches (R303, R332). -/
inductive DbgAt where
  | sreg (n : Nat) | vreg (n : Nat) | mask (n : Nat) | acc (element : Nat) | pred | pc | cw (number : Nat)
  | vmeta (n : Nat) | tmeta (n : Nat) | loop (n : Nat) | scratchpad (word : Nat)
  /-- The deferred-fault bit of a scalar register (R16), and whether a token is pending (R95). -/
  | dfb (n : Nat) | token (k : Nat)
  /-- A configuration context, with FMTA, FMTB, FMTC, SDA and SDB as words 0 to 4, and the current context's number (R164, R196). -/
  | context (n word : Nat) | current
  /-- Flags, OOR, DFC, the trap words, the repeat count and SPOVF by their numbers, written as they stand (R18). -/
  | status (number : Nat)
  /-- The generators of the vector unit, the drain and the transform unit, and a word of the code store (R51, R124). -/
  | gen (n : Nat) | code (block word : Nat)
  deriving DecidableEq, Repr

/-- Every operation and event of the device: one constructor for each row of the opcode table. -/
inductive Instr where
  -- add group (R77)
  | add (g : PReg) (d a b : SReg) (w : Width) (n o : Bool)
  | sub (g : PReg) (d a b : SReg) (w : Width) (n o : Bool)
  | mul (g : PReg) (d a b : SReg) (w : Width) (n o : Bool)
  | madd (g : PReg) (d a b : SReg) (w : Width) (n o : Bool)
  -- signed group (R78)
  | mulh (g : PReg) (d a b : SReg) (w : Width)
  | div (g : PReg) (d a b : SReg) (w : Width)
  | rem (g : PReg) (d a b : SReg) (w : Width)
  | min (g : PReg) (d a b : SReg) (w : Width)
  | max (g : PReg) (d a b : SReg) (w : Width)
  | sra (g : PReg) (d a b : SReg) (w : Width)
  | sext (g : PReg) (d a : SReg) (w : Width)
  | bfx (g : PReg) (d a b : SReg) (w : Width)
  -- unsigned group (R78)
  | mulhn (g : PReg) (d a b : SReg) (w : Width)
  | divn (g : PReg) (d a b : SReg) (w : Width)
  | remn (g : PReg) (d a b : SReg) (w : Width)
  | minn (g : PReg) (d a b : SReg) (w : Width)
  | maxn (g : PReg) (d a b : SReg) (w : Width)
  | shr (g : PReg) (d a b : SReg) (w : Width)
  | zext (g : PReg) (d a : SReg) (w : Width)
  -- bit group (R79)
  | and (g : PReg) (d a b : SReg) (w : Width)
  | or (g : PReg) (d a b : SReg) (w : Width)
  | xor (g : PReg) (d a b : SReg) (w : Width)
  | andn (g : PReg) (d a b : SReg) (w : Width)
  | orn (g : PReg) (d a b : SReg) (w : Width)
  | shl (g : PReg) (d a b : SReg) (w : Width)
  | rol (g : PReg) (d a b : SReg) (w : Width)
  | clz (g : PReg) (d a : SReg) (w : Width)
  | ctz (g : PReg) (d a : SReg) (w : Width)
  | pop (g : PReg) (d a : SReg) (w : Width)
  | bfi (g : PReg) (d a b : SReg) (w : Width)
  | sel (g : PReg) (d a b : SReg) (w : Width) (p : PReg)
  | ix (g : PReg) (d a b : SReg) (scale : BitVec 2)
  -- short immediates (R59), wide immediate (R60)
  | addImm (g : PReg) (d a : SReg) (imm : BitVec 13)
  | andImm (g : PReg) (d a : SReg) (imm : BitVec 13)
  | orImm (g : PReg) (d a : SReg) (imm : BitVec 13)
  | xorImm (g : PReg) (d a : SReg) (imm : BitVec 13)
  | shlImm (g : PReg) (d a : SReg) (imm : BitVec 13)
  | shrImm (g : PReg) (d a : SReg) (imm : BitVec 13)
  | sraImm (g : PReg) (d a : SReg) (imm : BitVec 13)
  | wideImmediate (g : PReg) (d a : SReg) (imm : BitVec 13) (op : SOp)
  -- compares (R83) and control (R85, R88, R118 to R120)
  | cmp (g pd1 pd2 : PReg) (ct : Comb) (cond : Cond) (a b : SReg)
  | cmpImm (g pd1 pd2 : PReg) (ct : Comb) (cond : Cond) (a : SReg) (imm : BitVec 5)
  | br (g : PReg) (off : BitVec 23)
  | call (g : PReg) (off : BitVec 23)
  | nop (g : PReg)
  | done (g : PReg)
  | ret (g : PReg)
  | brr (g : PReg) (a : SReg)
  | rep (g : PReg) (a : SReg)
  | tickw (g : PReg) (a : SReg)
  | fsel (g : PReg) (d : SReg)
  | chk (g : PReg) (a : SReg) (off : BitVec 18)
  -- scalar memory (R90 to R93)
  | ldD (g : PReg) (d a : SReg) (tok : Tok) (imm : BitVec 9)
  | ldW (g : PReg) (d a : SReg) (tok : Tok) (imm : BitVec 9)
  | stD (g : PReg) (d a : SReg) (tok : Tok) (imm : BitVec 9)
  | stW (g : PReg) (d a : SReg) (tok : Tok) (imm : BitVec 9)
  | ld (g : PReg) (d a : SReg) (tok : Tok) (imm : BitVec 9) (size : Size) (n : Bool) (rt : Route)
  | ldsp (g : PReg) (d a : SReg) (tok : Tok) (imm : BitVec 9) (size : Size) (n : Bool) (rt : Route)
  | st (g : PReg) (d a : SReg) (tok : Tok) (imm : BitVec 9) (size : Size) (rt : Route)
  | amoAdd (g : PReg) (d a : SReg) (tok : Tok) (imm : BitVec 9) (dbl : Bool) (space : Space) (stream : Strm) (b : SReg)
  | amoMin (g : PReg) (d a : SReg) (tok : Tok) (imm : BitVec 9) (dbl : Bool) (space : Space) (stream : Strm) (b : SReg)
  | amoMax (g : PReg) (d a : SReg) (tok : Tok) (imm : BitVec 9) (dbl : Bool) (space : Space) (stream : Strm) (b : SReg)
  | amoMinn (g : PReg) (d a : SReg) (tok : Tok) (imm : BitVec 9) (dbl : Bool) (space : Space) (stream : Strm) (b : SReg)
  | amoMaxn (g : PReg) (d a : SReg) (tok : Tok) (imm : BitVec 9) (dbl : Bool) (space : Space) (stream : Strm) (b : SReg)
  | amoSwap (g : PReg) (d a : SReg) (tok : Tok) (imm : BitVec 9) (dbl : Bool) (space : Space) (stream : Strm) (b : SReg)
  | amoCas (g : PReg) (d a : SReg) (tok : Tok) (imm : BitVec 9) (dbl : Bool) (space : Space) (stream : Strm) (b : SReg)
  | amoAmax (g : PReg) (d a : SReg) (tok : Tok) (imm : BitVec 9) (dbl : Bool) (space : Space) (stream : Strm) (b : SReg)
  -- control words, ports, ordering (R97, R98, R232 to R235)
  | cwget (g : PReg) (d : SReg) (num : BitVec 8)
  | cwput (g : PReg) (a : SReg) (num : BitVec 8)
  | qcnt (g : PReg) (d : SReg) (port : BitVec 2)
  | fence (g : PReg) (scope : Scope)
  | sbar (g : PReg) (mask : BitVec 11)
  | tokw (g : PReg) (tok : Tok)
  -- synchronisation and publication (R256, R257, R261, R262)
  | semAdd (g : PReg) (a b : SReg)
  | semWait (g : PReg) (a b : SReg)
  | barInit (g : PReg) (a b : SReg)
  | barArrive (g : PReg) (a : SReg)
  | barWait (g : PReg) (a : SReg)
  | pub (g : PReg) (a : SReg)
  | hres (g : PReg) (d a : SReg)
  -- system (R295, R301, R304, R312, R228)
  | trap (g : PReg) (a : SReg)
  | brk (g : PReg)
  | tret (g : PReg)
  | modeReq (g : PReg) (a : SReg)
  | inject (g : PReg)
  | ttsync (g : PReg) (a : SReg)
  -- vector map A in a short word (R68): the format is one of the eight majors
  | vadd (f : BitVec 3) (g : PReg) (vd va vb : VReg) (m : MReg)
  | vsub (f : BitVec 3) (g : PReg) (vd va vb : VReg) (m : MReg)
  | vmul (f : BitVec 3) (g : PReg) (vd va vb : VReg) (m : MReg)
  | vfma (f : BitVec 3) (g : PReg) (vd va vb : VReg) (m : MReg)
  | vfnma (f : BitVec 3) (g : PReg) (vd va vb : VReg) (m : MReg)
  | vmin (f : BitVec 3) (g : PReg) (vd va vb : VReg) (m : MReg)
  | vmax (f : BitVec 3) (g : PReg) (vd va vb : VReg) (m : MReg)
  | vabs (f : BitVec 3) (g : PReg) (vd va : VReg) (m : MReg)
  | vneg (f : BitVec 3) (g : PReg) (vd va : VReg) (m : MReg)
  | vrcp (f : BitVec 3) (g : PReg) (vd va : VReg) (m : MReg)
  | vrsqrt (f : BitVec 3) (g : PReg) (vd va : VReg) (m : MReg)
  | vexp2 (f : BitVec 3) (g : PReg) (vd va : VReg) (m : MReg)
  | vlog2 (f : BitVec 3) (g : PReg) (vd va : VReg) (m : MReg)
  | vtanh (f : BitVec 3) (g : PReg) (vd va : VReg) (m : MReg)
  | vsigm (f : BitVec 3) (g : PReg) (vd va : VReg) (m : MReg)
  | vcmul (f : BitVec 3) (g : PReg) (vd va vb : VReg) (m : MReg)
  | vceq (f : BitVec 3) (g : PReg) (md : MReg) (va vb : VReg) (m : MReg)
  | vcne (f : BitVec 3) (g : PReg) (md : MReg) (va vb : VReg) (m : MReg)
  | vclt (f : BitVec 3) (g : PReg) (md : MReg) (va vb : VReg) (m : MReg)
  | vcle (f : BitVec 3) (g : PReg) (md : MReg) (va vb : VReg) (m : MReg)
  | vsel (f : BitVec 3) (g : PReg) (vd va vb : VReg) (m : MReg)
  | vand (f : BitVec 3) (g : PReg) (vd va vb : VReg) (m : MReg)
  | vor (f : BitVec 3) (g : PReg) (vd va vb : VReg) (m : MReg)
  | vxor (f : BitVec 3) (g : PReg) (vd va vb : VReg) (m : MReg)
  | vshl (f : BitVec 3) (g : PReg) (vd va vb : VReg) (m : MReg)
  | vshr (f : BitVec 3) (g : PReg) (vd va vb : VReg) (m : MReg)
  | vsra (f : BitVec 3) (g : PReg) (vd va vb : VReg) (m : MReg)
  | vrelu (f : BitVec 3) (g : PReg) (vd va : VReg) (m : MReg)
  | vsplat (f : BitVec 3) (g : PReg) (vd : VReg) (a : SReg) (m : MReg)
  | vins (f : BitVec 3) (g : PReg) (vd : VReg) (a b : SReg) (m : MReg)
  | vext (f : BitVec 3) (g : PReg) (d : SReg) (va : VReg) (b : SReg) (m : MReg)
  | vmov (f : BitVec 3) (g : PReg) (vd va : VReg) (m : MReg)
  -- vector map B in a short word (R68): the format is one of the four majors
  | vrsum (f : BitVec 2) (g : PReg) (vd va : VReg) (m : MReg)
  | vrmax (f : BitVec 2) (g : PReg) (vd va : VReg) (m : MReg)
  | vrmin (f : BitVec 2) (g : PReg) (vd va : VReg) (m : MReg)
  | vramax (f : BitVec 2) (g : PReg) (vd va : VReg) (m : MReg)
  | vscan (f : BitVec 2) (g : PReg) (vd va : VReg) (m : MReg)
  | vscanx (f : BitVec 2) (g : PReg) (vd va : VReg) (m : MReg)
  | vperm (f : BitVec 2) (g : PReg) (vd va vb : VReg) (m : MReg)
  | vshuf (f : BitVec 2) (g : PReg) (vd va vb : VReg) (m : MReg)
  | vrot (f : BitVec 2) (g : PReg) (vd va : VReg) (b : SReg) (m : MReg)
  | vzip (f : BitVec 2) (g : PReg) (vd va vb : VReg) (m : MReg)
  | vunzip (f : BitVec 2) (g : PReg) (vd va vb : VReg) (m : MReg)
  | vbcl (f : BitVec 2) (g : PReg) (vd va : VReg) (b : SReg) (m : MReg)
  -- long vector compute (R70), map C (R155 to R158)
  | vectorLong (g : PReg) (vd va vb : BitVec 5) (m : MReg) (op : VOp) (fmt : Fmt) (rnd : Rnd)
  | vcvt (g : PReg) (vd va : VReg) (p : BitVec 3) (m : MReg) (fmt : Fmt) (rnd : Rnd) (fmt2 : Fmt)
  | vquant (g : PReg) (vd va : VReg) (p : BitVec 3) (fmt : Fmt) (rnd : Rnd) (fmt2 : Fmt)
  | vdequant (g : PReg) (vd va : VReg) (p : BitVec 3) (fmt : Fmt) (rnd : Rnd) (fmt2 : Fmt)
  | vamax (g : PReg) (vd va : VReg) (m : MReg) (fmt : Fmt) (rnd : Rnd)
  -- vector memory (R160)
  | vld (g : PReg) (vd : VReg) (a : SReg) (tok : Tok) (m : MReg) (fmt : Fmt) (rt : Route) (imm : BitVec 15)
  | vlds (g : PReg) (vd : VReg) (a b : SReg) (tok : Tok) (m : MReg) (fmt : Fmt) (rt : Route) (imm : BitVec 15)
  | vldx (g : PReg) (vd : VReg) (a : SReg) (vb : VReg) (tok : Tok) (m : MReg) (fmt : Fmt) (rt : Route) (imm : BitVec 15)
  | vst (g : PReg) (vd : VReg) (a : SReg) (tok : Tok) (m : MReg) (fmt : Fmt) (rt : Route) (imm : BitVec 15)
  | vsts (g : PReg) (vd : VReg) (a b : SReg) (tok : Tok) (m : MReg) (fmt : Fmt) (rt : Route) (imm : BitVec 15)
  | vstx (g : PReg) (vd : VReg) (a : SReg) (vb : VReg) (tok : Tok) (m : MReg) (fmt : Fmt) (rt : Route) (imm : BitVec 15)
  -- matrix (R175 to R183)
  | mma (g : PReg) (acc : BitVec 3) (a b : SReg) (fmt : Fmt)
  | mmaCk (g : PReg) (acc : BitVec 3) (a b : SReg) (fmt : Fmt)
  | mmaCo (g : PReg) (acc : BitVec 3) (a b : SReg) (fmt : Fmt)
  | mz (g : PReg) (acc : BitVec 3) (i32 : Bool)
  | mld (g : PReg) (acc : BitVec 3) (a : SReg) (i32 : Bool)
  | mst (g : PReg) (acc : BitVec 3) (a : SReg) (i32 : Bool)
  | mdrain (g : PReg) (acc : BitVec 3) (a b : SReg) (fmt : Fmt)
  | cfgsel (g : PReg) (n : BitVec 2)
  -- spectral (R192, R197, R198)
  | xfmFwd (g : PReg) (bsz : Bsz) (vd va : VReg)
  | xfmInv (g : PReg) (bsz : Bsz) (vd va : VReg)
  | xfmPack (g : PReg) (bsz : Bsz) (vd va : VReg)
  | xfmUnpack (g : PReg) (bsz : Bsz) (vd va : VReg)
  | dtag (g : PReg) (bsz : Bsz) (a : SReg) (tag : BitVec 2)
  | mmaC (g : PReg) (acc : BitVec 3) (a b : SReg) (bsz : Bsz)
  | mmaG (g : PReg) (acc : BitVec 3) (a b : SReg) (fmt : Fmt) (vi : VReg)
  | mmaSp (g : PReg) (acc : BitVec 3) (a b : SReg) (fmt : Fmt) (c : SReg) (pat : Pat)
  -- copy commands (R239)
  | cpNd (g : PReg) (e : Bool) (a : SReg) (tok : Tok)
  | cpCvt (g : PReg) (e : Bool) (a : SReg) (tok : Tok) (rnd : Rnd)
  | cpCrc (g : PReg) (e : Bool) (a b : SReg) (tok : Tok)
  | cpFill (g : PReg) (e : Bool) (a b : SReg) (tok : Tok)
  | cpAlias (g : PReg) (e : Bool) (a : SReg) (tok : Tok)
  | cpRtn (g : PReg) (e : Bool) (a b : SReg) (tok : Tok)
  -- streams, links, power (R320, R325, R326, R330, R331)
  | strSend (g : PReg) (port : BitVec 1) (b : SReg)
  | strRecv (g : PReg) (d : SReg) (port : BitVec 1)
  | lnkStat (g : PReg) (d a : SReg)
  | lnkPause (g : PReg) (a : SReg)
  | lnkRemap (g : PReg) (a b : SReg)
  | lnkTrain (g : PReg) (a b : SReg)
  | lnkResume (g : PReg) (a : SReg)
  | pwrBorrow (g : PReg) (a b : SReg)
  | pwrRepay (g : PReg) (a b : SReg)
  | pwrGate (g : PReg) (a : SReg)
  -- MAJ 0x3A (R63)
  | loop (g : PReg) (a : SReg) (dist : BitVec 15) (bound : BitVec 32)
  | liLow (g : PReg) (d : SReg) (imm : BitVec 32)
  | liHigh (g : PReg) (d : SReg) (imm : BitVec 32)
  | adr (g : PReg) (d : SReg) (off : BitVec 16)
  -- events of a cell (R90, R138, R112 to R119, R296, R297)
  | storePerformed (cell id : Nat)
  | instructionCompletion (cell : Nat) (flags : BitVec 8)
  | blockRelease (cell entry : Nat)
  | forkRead (cell entry : Nat)
  | forkRelease (cell : Nat)
  | rampStart (cell : Nat)
  | tickwExpiry (cell : Nat)
  | detentStop (dom firing : Nat)
  | fallbackRelease (dom firing : Nat)
  | deadlineCommit (dom firing : Nat)
  | doubleOverrun (dom firing : Nat)
  | safeModeSwitch (dom : Nat)
  | modeChangePoint (dom entry : Nat)
  | modeRequestPending (dom mode die cluster cx : Nat) (host : Bool)
  | modeRequestLatch (dom : Nat)
  | mmaCoRendezvous (dom firing ordinal : Nat)
  | matrixStepEnd (cell : Nat)
  | semWaitPass (cell : Nat)
  | barWaitPass (cell : Nat)
  | pubSwap (cell : Nat)
  | strRecvPass (cell : Nat)
  -- events of the engines and LP6 (R215, R223, R238, R248 to R251)
  | commandStart (engine cell : Nat)
  | engineStep (engine : Nat)
  | tileWalk (engine cell : Nat)
  | commandCompletion (engine cell : Nat)
  | routineStart (engine : Nat)
  | routineOverrun (engine : Nat)
  | lp6Slot (die channel : Nat)
  | lp6Refresh (die channel : Nat)
  | lp6Delivery (die channel id : Nat)
  -- events of time (R100 to R104)
  -- debug halts, frozen time, partition reset, injection (R302 to R306, R311)
  | freeze (dom : Nat)
  | thaw (dom : Nat)
  | debugHalt (cell cause : Nat)
  | cwDbgen (v : Word)
  | partitionReset (dom : Nat)
  | partitionResetClear (dom : Nat)
  | partitionResetComplete (dom : Nat)
  | scratchpadFlip (cell word bit : Nat)
  -- power and gating (R330, R331)
  | wakeComplete (cluster : Nat)
  | gateComplete (cluster : Nat)
  | powerGiverCheck (die : Nat) (right : Bool) (n : Nat)
  | powerTransferDone (die : Nat) (right : Bool) (n : Nat) (repay ok : Bool)
  | budgetUpdate (die : Nat)
  -- links (R313 to R327, R343)
  | linkSlot (port slot : Nat)
  | streamArrival (dom channel count firing : Nat)
  | spanArrival (dom channel : Nat) (bytes : List Byte) (count : Nat)
  | lateRecordArrival (dom channel : Nat)
  | flitReplay (port : Nat)
  | linkPauseEffect (port : Nat)
  | linkTrainDone (port run half latency : Nat)
  | linkResumeEffect (port : Nat)
  -- the hub and the host (R272, R281, R336 to R345)
  | bind (dom ring tag : Nat) (image length affinity arrival : Nat)
  | bindingComplete (dom ring tag : Nat)
  | launch (dom ring tag : Nat) (mode start : Nat) (seed : BitVec 32)
  | launchEffect (dom : Nat)
  | reset (dom ring tag : Nat)
  | hostTtsync (dom ring tag : Nat) (tid : Nat) (all : Bool)
  | modereq (dom ring tag : Nat) (mode : Nat)
  | chpush (dom ring tag : Nat) (channel : Nat) (v : Word)
  | chpop (dom ring tag : Nat) (channel : Nat)
  | rtnload (dom ring tag : Nat) (die cluster engine rid rwcet code length : Nat)
  | attest (dom ring tag : Nat) (nonce response : Nat)
  | badop (dom ring tag : Nat)
  | doorbell (dom ring : Nat) (tail : BitVec 32)
  | ringMap (dom ring slot : Nat)
  | coalesceWindowExpiry (dom : Nat) (flt : Bool)
  | unassignedEncoding (w0 w1 : BitVec 32) (long : Bool)
  -- what reaches the device from outside, and the tick
  | timeSample (ns : Nat)
  | regCtl (v : Word)
  | regEpoch (v : Word)
  | cwDfc (cell : Nat) (v : Word)
  | cwFmt (cell which : Nat) (v : Word)
  | cwInject (cell : Nat) (v : Word)
  | cwTfreeze (v : Word)
  | hreq (die : Nat)
  | rst (v : Word)
  | cwXinj (cell : Nat) (v : Word)
  | wake (cluster : Nat)
  | laneFailure (port module lane : Nat) (rx : Bool)
  | deviceReset (find : BootFind)
  | ringUnmap (dom ring : Nat)
  | grantWrite (dom offset : Nat) (v : Word)
  | fltTail (dom : Nat) (head : BitVec 32)
  | hostMemoryAccess (die addr : Nat) (write : Bool) (v : Word)
  | debugPortAccess (cell : Nat) (place : DbgAt) (write : Bool) (v : BitVec 2048)
  | registerWrite (offset : Nat) (v : Option Word)
  | softError (place : ErrAt) (bits : Nat)
  | linkClockLoss
  | thermalShutdown
  | tick
  | holdover
  deriving DecidableEq, Repr

end Sys2Proof
end

