-- ==== Sys2Proof/WellFormed.lean ====
section
/-! DEFINITION. Which instructions are well formed: what the encodings of R54 to R73 and the format rows of R143, R170, R175
to R177 and R191 ask of operands beyond their field widths. -/

namespace Sys2Proof

/-- Storage width in bits of one element (R121). -/
def Fmt.width : Fmt → Nat
  | .i8 | .n8 | .e4m3 | .e5m2 | .mxfp8 | .ffa | .ffb | .ffc => 8
  | .i4 | .e2m1 | .mxfp4 => 4
  | .i16 | .bf16 | .fp16 | .ce4m3 => 16
  | .i32 | .fp32 | .cbf16 | .cfp16 => 32
  | .e3m2 | .e2m3 | .mxfp6 => 6
  | .cfp32 => 64

/-- Format code (R121). -/
def Fmt.code : Fmt → Nat
  | .i8 => 0x01 | .n8 => 0x02 | .i4 => 0x03 | .i16 => 0x04 | .i32 => 0x05
  | .fp32 => 0x10 | .bf16 => 0x11 | .fp16 => 0x12
  | .e4m3 => 0x20 | .e5m2 => 0x21 | .e2m1 => 0x22 | .e3m2 => 0x23 | .e2m3 => 0x24
  | .mxfp8 => 0x28 | .mxfp6 => 0x29 | .mxfp4 => 0x2A
  | .ffa | .ffb | .ffc => 0x2F
  | .cbf16 => 0x30 | .cfp16 => 0x31 | .ce4m3 => 0x32 | .cfp32 => 0x33

/-- Number of the free-form word a format names (R70), zero for every other format. -/
def Fmt.ffsel : Fmt → Nat
  | .ffb => 1 | .ffc => 2 | _ => 0

def Fmt.isInt : Fmt → Bool
  | .i8 | .n8 | .i4 | .i16 | .i32 => true
  | _ => false

def Fmt.isMx : Fmt → Bool
  | .mxfp8 | .mxfp6 | .mxfp4 => true
  | _ => false

def Fmt.isComplex : Fmt → Bool
  | .cbf16 | .cfp16 | .ce4m3 | .cfp32 => true
  | _ => false

def Fmt.isFree : Fmt → Bool
  | .ffa | .ffb | .ffc => true
  | _ => false

/-- Real compute formats (R143). -/
def Fmt.realCompute : Fmt → Bool
  | .fp32 | .bf16 | .fp16 | .i32 | .i16 | .i8 | .n8 => true
  | _ => false

/-- Complex compute formats (R143). -/
def Fmt.complexCompute : Fmt → Bool
  | .cfp32 | .cbf16 | .cfp16 => true
  | _ => false

/-- The three formats of the transcendentals, `vamax` and the quantisers (R143). -/
def Fmt.floatCompute : Fmt → Bool
  | .fp32 | .bf16 | .fp16 => true
  | _ => false

/-- Elements one vector register holds (R140). -/
def Fmt.count (f : Fmt) : Nat :=
  match f.width with
  | 64 => 32 | 32 => 64 | 16 => 128 | 8 => 256 | 6 => 256 | _ => 512

/-- Formats of the short vector majors 0x20 to 0x27 (R56). -/
def fmtA (f : BitVec 3) : Fmt :=
  match f.toNat with
  | 0 => .fp32 | 1 => .bf16 | 2 => .fp16 | 3 => .i32 | 4 => .i16 | 5 => .i8 | 6 => .n8 | _ => .cfp32

/-- Formats of the short vector majors 0x28 to 0x2B (R56). -/
def fmtB (f : BitVec 2) : Fmt :=
  match f.toNat with
  | 0 => .fp32 | 1 => .bf16 | 2 => .i32 | _ => .i16

/-- The formats a vector compute operation accepts (R69, R143). -/
def VOp.accepts (op : VOp) (f : Fmt) : Bool :=
  match op with
  | .vadd | .vsub | .vmul | .vsel | .vsplat | .vins | .vext | .vmov => f.realCompute || f.complexCompute
  | .vfma | .vfnma | .vmin | .vmax | .vabs | .vneg | .vceq | .vcne | .vclt | .vcle | .vrelu => f.realCompute
  | .vrcp | .vrsqrt | .vexp2 | .vlog2 | .vtanh | .vsigm => f.floatCompute
  | .vcmul => f.complexCompute
  | .vand | .vor | .vxor | .vshl | .vshr | .vsra => f.realCompute && f.isInt
  | .vrsum | .vrmax | .vrmin | .vramax | .vscan | .vscanx | .vperm | .vshuf | .vrot | .vzip | .vunzip | .vbcl =>
    f.realCompute

/-- Operations whose vb field is not named (R144). -/
def VOp.unary : VOp → Bool
  | .vabs | .vneg | .vrcp | .vrsqrt | .vexp2 | .vlog2 | .vtanh | .vsigm | .vrelu | .vsplat | .vmov
  | .vrsum | .vrmax | .vrmin | .vramax | .vscan | .vscanx => true
  | _ => false

/-- Operations that write a mask (R151). -/
def VOp.isCompare : VOp → Bool
  | .vceq | .vcne | .vclt | .vcle => true
  | _ => false

/-- The operand formats of `mma`, `mma.ck` and `mma.co` (R170). -/
def Fmt.mmaOk : Fmt → Bool
  | .i4 | .e2m1 | .e3m2 | .e2m3 | .mxfp4 | .mxfp6 | .ffa | .i8 | .n8 | .e4m3 | .e5m2 | .mxfp8 | .i16 | .bf16 | .fp16 => true
  | _ => false

/-- The formats `mdrain` accepts (R177); its word can name CW.FMTA only (R55). -/
def Fmt.drainOk (f : Fmt) : Bool := !f.isMx && f != .ffb && f != .ffc

def Bsz.size : Bsz → Nat
  | .b4 => 4 | .b8 => 8 | .b16 => 16 | .b32 => 32 | .b64 => 64 | .b128 => 128 | .b256 => 256

def Bsz.code : Bsz → Nat
  | .b4 => 0 | .b8 => 1 | .b16 => 2 | .b32 => 3 | .b64 => 4 | .b128 => 5 | .b256 => 6

/-- Registers of a real or packed group (R191). -/
def Bsz.group (b : Bsz) : Nat :=
  match b with
  | .b128 => 2 | .b256 => 4 | _ => 1

/-- The larger element count over the smaller (R155). -/
def ratio (f1 f2 : Fmt) : Nat :=
  Nat.max f1.count f2.count / Nat.min f1.count f2.count

/-- Formats a strided or indexed vector access accepts (R160). -/
def Fmt.stridedOk (f : Fmt) : Bool := f.width == 8 || f.width == 16 || f.width == 32 || f.width == 64

/-- The unary scalar operations, which have no wide immediate form (R60). -/
def SOp.unary : SOp → Bool
  | .sext _ | .zext _ | .clz _ | .ctz _ | .pop _ => true
  | _ => false

def VReg.aligned (v : VReg) (n : Nat) : Bool := v.toNat % n == 0

/-- `vcvt` (R143, R155): no MX format, both real or both complex, and a part below the ratio. -/
def cvtOk (fmt fmt2 : Fmt) (p : BitVec 3) : Bool :=
  !fmt.isMx && !fmt2.isMx && fmt.isComplex == fmt2.isComplex && p.toNat < ratio fmt fmt2

/-- `vquant` and `vdequant` (R143, R157): a compute float, an MX format, an even register pair, and a part below the ratio. -/
def quantOk (flt mx : Fmt) (pair : VReg) (p : BitVec 3) : Bool :=
  flt.floatCompute && mx.isMx && pair.toNat % 2 == 0 && p.toNat < ratio flt mx

/-- Whether an instruction's operands meet its encoding's demands. Event rows have no encoding: they are well formed. -/
def Instr.wf : Instr → Bool
  | .wideImmediate _ _ _ _ op => !op.unary
  | .vadd f _ _ _ _ _ => VOp.vadd.accepts (fmtA f)
  | .vsub f _ _ _ _ _ => VOp.vsub.accepts (fmtA f)
  | .vmul f _ _ _ _ _ => VOp.vmul.accepts (fmtA f)
  | .vfma f _ _ _ _ _ => VOp.vfma.accepts (fmtA f)
  | .vfnma f _ _ _ _ _ => VOp.vfnma.accepts (fmtA f)
  | .vmin f _ _ _ _ _ => VOp.vmin.accepts (fmtA f)
  | .vmax f _ _ _ _ _ => VOp.vmax.accepts (fmtA f)
  | .vabs f _ _ _ _ => VOp.vabs.accepts (fmtA f)
  | .vneg f _ _ _ _ => VOp.vneg.accepts (fmtA f)
  | .vrcp f _ _ _ _ => VOp.vrcp.accepts (fmtA f)
  | .vrsqrt f _ _ _ _ => VOp.vrsqrt.accepts (fmtA f)
  | .vexp2 f _ _ _ _ => VOp.vexp2.accepts (fmtA f)
  | .vlog2 f _ _ _ _ => VOp.vlog2.accepts (fmtA f)
  | .vtanh f _ _ _ _ => VOp.vtanh.accepts (fmtA f)
  | .vsigm f _ _ _ _ => VOp.vsigm.accepts (fmtA f)
  | .vcmul f _ _ _ _ _ => VOp.vcmul.accepts (fmtA f)
  | .vceq f _ _ _ _ _ => VOp.vceq.accepts (fmtA f)
  | .vcne f _ _ _ _ _ => VOp.vcne.accepts (fmtA f)
  | .vclt f _ _ _ _ _ => VOp.vclt.accepts (fmtA f)
  | .vcle f _ _ _ _ _ => VOp.vcle.accepts (fmtA f)
  | .vand f _ _ _ _ _ => VOp.vand.accepts (fmtA f)
  | .vor f _ _ _ _ _ => VOp.vor.accepts (fmtA f)
  | .vxor f _ _ _ _ _ => VOp.vxor.accepts (fmtA f)
  | .vshl f _ _ _ _ _ => VOp.vshl.accepts (fmtA f)
  | .vshr f _ _ _ _ _ => VOp.vshr.accepts (fmtA f)
  | .vsra f _ _ _ _ _ => VOp.vsra.accepts (fmtA f)
  | .vrelu f _ _ _ _ => VOp.vrelu.accepts (fmtA f)
  | .vectorLong _ vd _ vb _ op fmt _ =>
    op.accepts fmt && (!op.unary || vb == 0) && (!op.isCompare || vd.toNat < 8)
  | .vcvt _ _ _ p _ fmt _ fmt2 => cvtOk fmt fmt2 p
  | .vquant _ vd _ p fmt _ fmt2 => quantOk fmt2 fmt vd p
  | .vdequant _ _ va p fmt _ fmt2 => quantOk fmt fmt2 va p
  | .vamax _ _ _ _ fmt _ => fmt.floatCompute
  | .vlds _ _ _ _ _ _ fmt _ _ => fmt.stridedOk
  | .vldx _ _ _ _ _ _ fmt _ _ => fmt.stridedOk
  | .vsts _ _ _ _ _ _ fmt _ _ => fmt.stridedOk
  | .vstx _ _ _ _ _ _ fmt _ _ => fmt.stridedOk
  | .mma _ acc _ _ fmt => acc.toNat < 6 && fmt.mmaOk
  | .mmaCk _ acc _ _ fmt => acc.toNat < 6 && acc.toNat % 2 == 0 && fmt.mmaOk
  | .mmaCo _ acc _ _ fmt => acc.toNat < 6 && fmt.mmaOk
  | .mz _ acc _ => acc.toNat < 6
  | .mld _ acc _ _ => acc.toNat < 6
  | .mst _ acc _ _ => acc.toNat < 6
  | .mdrain _ acc _ _ fmt => acc.toNat < 6 && fmt.drainOk
  | .xfmFwd _ bsz vd va => VReg.aligned vd bsz.group && VReg.aligned va bsz.group
  | .xfmInv _ bsz vd va => VReg.aligned vd bsz.group && VReg.aligned va bsz.group
  | .xfmPack _ bsz vd va => VReg.aligned vd bsz.group && VReg.aligned va (2 * bsz.group)
  | .xfmUnpack _ bsz vd va => VReg.aligned vd (2 * bsz.group) && VReg.aligned va bsz.group
  | .mmaC _ acc _ _ _ => acc.toNat < 6 && acc.toNat % 2 == 0
  | .mmaG _ acc _ _ fmt _ => acc.toNat < 6 && fmt.mmaOk && !fmt.isMx
  | .mmaSp _ acc _ _ fmt _ _ => acc.toNat < 6 && fmt.mmaOk && !fmt.isMx
  | .hres _ d _ => d.toNat % 2 == 0 && 2 ≤ d.toNat && d.toNat ≤ 26
  | .loop _ _ dist _ => 2 ≤ dist.toNat && dist.toNat ≤ 16383
  | .adr _ _ off => off.toNat % 4 == 0
  | _ => true

end Sys2Proof
end

