-- ==== Sys2Proof/Decode.lean ====
section
/-! DEFINITION. Decoding and encoding: every word of R49 to R74, total on any bytes, each rejection by the name of the check
of R74 that fails. The encoder is written from the same tables. -/

namespace Sys2Proof

/-- Why a word is no instruction: the checks 1 to 5 of R74. -/
inductive DecodeError where
  /-- Check 1: the major opcode is unassigned. -/
  | unassignedMajor
  /-- Check 2: the first word of a 64-bit form is the last word of the code. -/
  | truncated
  /-- Check 3: the fn, sf, op or sop value is unassigned, or the format is not allowed (R69, R143, R170). -/
  | unassignedFn
  /-- Check 4: a must-be-zero field is nonzero. -/
  | nonzeroField
  /-- Check 5: a field holds a reserved code. -/
  | reservedCode
  deriving DecidableEq, Repr

abbrev Dec := Except DecodeError Instr

/-- Bits `lo + n - 1` to `lo` of a word. -/
def fld (w lo n : Nat) : BitVec n := BitVec.ofNat n (w / 2 ^ lo)

/-- The same field as a number. -/
def fldN (w lo n : Nat) : Nat := w / 2 ^ lo % 2 ^ n

/-- Continue when a check holds; otherwise reject with its name. -/
def need (c : Bool) (e : DecodeError) (k : Dec) : Dec := if c then k else .error e

/-- Continue with the value of a field; a reserved code is rejected (R74 check 5). -/
def reservedElse {α : Type} (o : Option α) (k : α → Dec) : Dec :=
  match o with
  | some x => k x
  | none => .error .reservedCode

def mbz (c : Bool) (k : Dec) : Dec := need c .nonzeroField k

/-! Field codes (R54, R64, R70 to R73). -/

def widthOf (n : Nat) : Option Width :=
  match n with
  | 0 => some .w64 | 1 => some .w32 | 2 => some .w16 | _ => none

def Width.code : Width → Nat
  | .w64 => 0 | .w32 => 1 | .w16 => 2

def condOf (n : Nat) : Option Cond :=
  match n with
  | 0 => some .eq | 1 => some .ne | 2 => some .lt | 3 => some .ge | 4 => some .ltu | 5 => some .geu | 6 => some .tb
  | 7 => some .tnb | _ => none

def Cond.code : Cond → Nat
  | .eq => 0 | .ne => 1 | .lt => 2 | .ge => 3 | .ltu => 4 | .geu => 5 | .tb => 6 | .tnb => 7

/-- Combining types in the order of R41. -/
def combOf (n : Nat) : Comb :=
  match n with
  | 0 => .set | 1 => .setz | 2 => .all | 3 => .any | 4 => .none | 5 => .notall | 6 => .xany | _ => .xall

def Comb.code : Comb → Nat
  | .set => 0 | .setz => 1 | .all => 2 | .any => 3 | .none => 4 | .notall => 5 | .xany => 6 | .xall => 7

def sizeOf' (n : Nat) : Size :=
  match n with
  | 0 => .b | 1 => .h | 2 => .w | _ => .d

def Size.code : Size → Nat
  | .b => 0 | .h => 1 | .w => 2 | .d => 3

def scopeOf (n : Nat) : Option Scope :=
  match n with
  | 0 => some .cell | 1 => some .cluster | 2 => some .die | 3 => some .package | 4 => some .system | _ => none

def Scope.code : Scope → Nat
  | .cell => 0 | .cluster => 1 | .die => 2 | .package => 3 | .system => 4

def rndOf (n : Nat) : Rnd :=
  match n with
  | 0 => .rne | 1 => .rtz | 2 => .rto | _ => .rst

def Rnd.code : Rnd → Nat
  | .rne => 0 | .rtz => 1 | .rto => 2 | .rst => 3

def bszOf (n : Nat) : Option Bsz :=
  match n with
  | 0 => some .b4 | 1 => some .b8 | 2 => some .b16 | 3 => some .b32 | 4 => some .b64 | 5 => some .b128 | 6 => some .b256
  | _ => none

def patOf (n : Nat) : Option Pat :=
  match n with
  | 0 => some .p24 | 1 => some .p14 | 2 => some .p48 | _ => none

def Pat.code : Pat → Nat
  | .p24 => 0 | .p14 => 1 | .p48 => 2

def spaceOf (n : Nat) : Space := if n = 0 then .sp else .cb

def Space.code : Space → Nat
  | .sp => 0 | .cb => 1

/-- The format of a code (R121), with the free-form word a format selector names; an unassigned code is none. -/
def fmtOf (code sel : Nat) : Option Fmt :=
  match code with
  | 0x01 => some .i8 | 0x02 => some .n8 | 0x03 => some .i4 | 0x04 => some .i16 | 0x05 => some .i32
  | 0x10 => some .fp32 | 0x11 => some .bf16 | 0x12 => some .fp16
  | 0x20 => some .e4m3 | 0x21 => some .e5m2 | 0x22 => some .e2m1 | 0x23 => some .e3m2 | 0x24 => some .e2m3
  | 0x28 => some .mxfp8 | 0x29 => some .mxfp6 | 0x2A => some .mxfp4
  | 0x2F => match sel with
    | 0 => some .ffa | 1 => some .ffb | 2 => some .ffc | _ => none
  | 0x30 => some .cbf16 | 0x31 => some .cfp16 | 0x32 => some .ce4m3 | 0x33 => some .cfp32
  | _ => none

/-! Scalar register operations (R57, R58): an op of a major with the rest of its fn. -/

/-- A width field and fn bits 1:0 zero. -/
def fnW (fn : Nat) (k : Width → Except DecodeError SOp) : Except DecodeError SOp :=
  if fn % 4 = 0 then
    match widthOf (fn / 4 % 4) with
    | some w => k w
    | none => .error .reservedCode
  else .error .nonzeroField

/-- A width field and the two modifier bits of the add group. -/
def fnA (fn : Nat) (k : Width → Bool → Bool → SOp) : Except DecodeError SOp :=
  match widthOf (fn / 4 % 4) with
  | some w => .ok (k w (fn / 2 % 2 == 1) (fn % 2 == 1))
  | none => .error .reservedCode

/-- The scalar operation of a register-form major and fn. -/
def sopOf (maj fn : Nat) : Except DecodeError SOp :=
  match maj with
  | 0 => match fn / 16 with
    | 0 => fnA fn .add | 1 => fnA fn .sub | 2 => fnA fn .mul | 3 => fnA fn .madd | _ => .error .unassignedFn
  | 1 => match fn / 16 with
    | 0 => fnW fn (.ok ∘ .mulh) | 1 => fnW fn (.ok ∘ .div) | 2 => fnW fn (.ok ∘ .rem) | 3 => fnW fn (.ok ∘ .min)
    | 4 => fnW fn (.ok ∘ .max) | 5 => fnW fn (.ok ∘ .sra) | 6 => fnW fn (.ok ∘ .sext) | 7 => fnW fn (.ok ∘ .bfx)
    | _ => .error .unassignedFn
  | 2 => match fn / 16 with
    | 0 => fnW fn (.ok ∘ .mulhn) | 1 => fnW fn (.ok ∘ .divn) | 2 => fnW fn (.ok ∘ .remn) | 3 => fnW fn (.ok ∘ .minn)
    | 4 => fnW fn (.ok ∘ .maxn) | 5 => fnW fn (.ok ∘ .shr) | 6 => fnW fn (.ok ∘ .zext)
    | _ => .error .unassignedFn
  | 3 => match fn / 16 with
    | 0 => fnW fn (.ok ∘ .and) | 1 => fnW fn (.ok ∘ .or) | 2 => fnW fn (.ok ∘ .xor) | 3 => fnW fn (.ok ∘ .andn)
    | 4 => fnW fn (.ok ∘ .orn) | 5 => fnW fn (.ok ∘ .shl) | 6 => fnW fn (.ok ∘ .rol) | 7 => fnW fn (.ok ∘ .clz)
    | 8 => fnW fn (.ok ∘ .ctz) | 9 => fnW fn (.ok ∘ .pop) | 10 => fnW fn (.ok ∘ .bfi)
    | _ => .error .unassignedFn
  | 4 => match fn / 32 with
    | 0 => match widthOf (fn / 8 % 4) with
      | some w => .ok (.sel w (BitVec.ofNat 3 fn))
      | none => .error .reservedCode
    | 1 => if fn / 8 % 4 = 0 then
        if fn % 8 < 4 then .ok (.ix (BitVec.ofNat 2 fn)) else .error .reservedCode
      else .error .nonzeroField
    | _ => .error .unassignedFn
  | _ => .error .reservedCode

/-- Major of an operation's register form. -/
def SOp.maj : SOp → Nat
  | .add .. | .sub .. | .mul .. | .madd .. => 0
  | .mulh _ | .div _ | .rem _ | .min _ | .max _ | .sra _ | .sext _ | .bfx _ => 1
  | .mulhn _ | .divn _ | .remn _ | .minn _ | .maxn _ | .shr _ | .zext _ => 2
  | .and _ | .or _ | .xor _ | .andn _ | .orn _ | .shl _ | .rol _ | .clz _ | .ctz _ | .pop _ | .bfi _ => 3
  | .sel .. | .ix _ => 4

def Bool.code (b : Bool) : Nat := if b then 1 else 0

/-- The fn of an operation's register form. -/
def SOp.fn : SOp → Nat
  | .add w n s => 0x00 + w.code * 4 + Bool.code n * 2 + Bool.code s
  | .sub w n s => 0x10 + w.code * 4 + Bool.code n * 2 + Bool.code s
  | .mul w n s => 0x20 + w.code * 4 + Bool.code n * 2 + Bool.code s
  | .madd w n s => 0x30 + w.code * 4 + Bool.code n * 2 + Bool.code s
  | .mulh w | .mulhn w | .and w => 0x00 + w.code * 4
  | .div w | .divn w | .or w => 0x10 + w.code * 4
  | .rem w | .remn w | .xor w => 0x20 + w.code * 4
  | .min w | .minn w | .andn w => 0x30 + w.code * 4
  | .max w | .maxn w | .orn w => 0x40 + w.code * 4
  | .sra w | .shr w | .shl w => 0x50 + w.code * 4
  | .sext w | .zext w | .rol w => 0x60 + w.code * 4
  | .bfx w | .clz w => 0x70 + w.code * 4
  | .ctz w => 0x80 + w.code * 4
  | .pop w => 0x90 + w.code * 4
  | .bfi w => 0xA0 + w.code * 4
  | .sel w p => w.code * 8 + p.toNat
  | .ix s => 0x20 + s.toNat

/-- The register form of a scalar operation; `sopOf` has checked its fn. A unary form has b must-be-zero (R57). -/
def sopInstr (g : PReg) (d a b : SReg) (op : SOp) : Dec :=
  match op with
  | .add w n s => .ok (.add g d a b w n s)
  | .sub w n s => .ok (.sub g d a b w n s)
  | .mul w n s => .ok (.mul g d a b w n s)
  | .madd w n s => .ok (.madd g d a b w n s)
  | .mulh w => .ok (.mulh g d a b w)
  | .div w => .ok (.div g d a b w)
  | .rem w => .ok (.rem g d a b w)
  | .min w => .ok (.min g d a b w)
  | .max w => .ok (.max g d a b w)
  | .sra w => .ok (.sra g d a b w)
  | .bfx w => .ok (.bfx g d a b w)
  | .mulhn w => .ok (.mulhn g d a b w)
  | .divn w => .ok (.divn g d a b w)
  | .remn w => .ok (.remn g d a b w)
  | .minn w => .ok (.minn g d a b w)
  | .maxn w => .ok (.maxn g d a b w)
  | .shr w => .ok (.shr g d a b w)
  | .and w => .ok (.and g d a b w)
  | .or w => .ok (.or g d a b w)
  | .xor w => .ok (.xor g d a b w)
  | .andn w => .ok (.andn g d a b w)
  | .orn w => .ok (.orn g d a b w)
  | .shl w => .ok (.shl g d a b w)
  | .rol w => .ok (.rol g d a b w)
  | .bfi w => .ok (.bfi g d a b w)
  | .sext w => mbz (b == 0) (.ok (.sext g d a w))
  | .zext w => mbz (b == 0) (.ok (.zext g d a w))
  | .clz w => mbz (b == 0) (.ok (.clz g d a w))
  | .ctz w => mbz (b == 0) (.ok (.ctz g d a w))
  | .pop w => mbz (b == 0) (.ok (.pop g d a w))
  | .sel w p => .ok (.sel g d a b w p)
  | .ix s => .ok (.ix g d a b s)

/-! Vector operations (R68). -/

def vopA (sf : Nat) : VOp :=
  match sf with
  | 0 => .vadd
  | 1 => .vsub
  | 2 => .vmul
  | 3 => .vfma
  | 4 => .vfnma
  | 5 => .vmin
  | 6 => .vmax
  | 7 => .vabs
  | 8 => .vneg
  | 9 => .vrcp
  | 10 => .vrsqrt
  | 11 => .vexp2
  | 12 => .vlog2
  | 13 => .vtanh
  | 14 => .vsigm
  | 15 => .vcmul
  | 16 => .vceq
  | 17 => .vcne
  | 18 => .vclt
  | 19 => .vcle
  | 20 => .vsel
  | 21 => .vand
  | 22 => .vor
  | 23 => .vxor
  | 24 => .vshl
  | 25 => .vshr
  | 26 => .vsra
  | 27 => .vrelu
  | 28 => .vsplat
  | 29 => .vins
  | 30 => .vext
  | _ => .vmov

def vopB (sf : Nat) : Option VOp :=
  match sf with
  | 0 => some .vrsum
  | 1 => some .vrmax
  | 2 => some .vrmin
  | 3 => some .vramax
  | 4 => some .vscan
  | 5 => some .vscanx
  | 6 => some .vperm
  | 7 => some .vshuf
  | 8 => some .vrot
  | 9 => some .vzip
  | 10 => some .vunzip
  | 11 => some .vbcl
  | _ => none

/-- The map of an operation: zero for map A, one for map B. -/
def VOp.map : VOp → Nat
  | .vrsum | .vrmax | .vrmin | .vramax | .vscan | .vscanx | .vperm | .vshuf | .vrot | .vzip | .vunzip | .vbcl => 1
  | _ => 0

def VOp.sf : VOp → Nat
  | .vadd => 0
  | .vsub => 1
  | .vmul => 2
  | .vfma => 3
  | .vfnma => 4
  | .vmin => 5
  | .vmax => 6
  | .vabs => 7
  | .vneg => 8
  | .vrcp => 9
  | .vrsqrt => 10
  | .vexp2 => 11
  | .vlog2 => 12
  | .vtanh => 13
  | .vsigm => 14
  | .vcmul => 15
  | .vceq => 16
  | .vcne => 17
  | .vclt => 18
  | .vcle => 19
  | .vsel => 20
  | .vand => 21
  | .vor => 22
  | .vxor => 23
  | .vshl => 24
  | .vshr => 25
  | .vsra => 26
  | .vrelu => 27
  | .vsplat => 28
  | .vins => 29
  | .vext => 30
  | .vmov => 31
  | .vrsum => 0
  | .vrmax => 1
  | .vrmin => 2
  | .vramax => 3
  | .vscan => 4
  | .vscanx => 5
  | .vperm => 6
  | .vshuf => 7
  | .vrot => 8
  | .vzip => 9
  | .vunzip => 10
  | .vbcl => 11

/-- A short word of map A, its sub-function allowed for its format and its must-be-zero fields checked. -/
def vInstrA (op : VOp) (f : BitVec 3) (g : PReg) (vd va vb : VReg) (m : MReg) : Dec :=
  match op with
  | .vadd => .ok (.vadd f g vd va vb m)
  | .vsub => .ok (.vsub f g vd va vb m)
  | .vmul => .ok (.vmul f g vd va vb m)
  | .vfma => .ok (.vfma f g vd va vb m)
  | .vfnma => .ok (.vfnma f g vd va vb m)
  | .vmin => .ok (.vmin f g vd va vb m)
  | .vmax => .ok (.vmax f g vd va vb m)
  | .vabs => mbz (vb == 0) (.ok (.vabs f g vd va m))
  | .vneg => mbz (vb == 0) (.ok (.vneg f g vd va m))
  | .vrcp => mbz (vb == 0) (.ok (.vrcp f g vd va m))
  | .vrsqrt => mbz (vb == 0) (.ok (.vrsqrt f g vd va m))
  | .vexp2 => mbz (vb == 0) (.ok (.vexp2 f g vd va m))
  | .vlog2 => mbz (vb == 0) (.ok (.vlog2 f g vd va m))
  | .vtanh => mbz (vb == 0) (.ok (.vtanh f g vd va m))
  | .vsigm => mbz (vb == 0) (.ok (.vsigm f g vd va m))
  | .vcmul => .ok (.vcmul f g vd va vb m)
  | .vceq => mbz (decide (vd.toNat < 8)) (.ok (.vceq f g (BitVec.ofNat 3 vd.toNat) va vb m))
  | .vcne => mbz (decide (vd.toNat < 8)) (.ok (.vcne f g (BitVec.ofNat 3 vd.toNat) va vb m))
  | .vclt => mbz (decide (vd.toNat < 8)) (.ok (.vclt f g (BitVec.ofNat 3 vd.toNat) va vb m))
  | .vcle => mbz (decide (vd.toNat < 8)) (.ok (.vcle f g (BitVec.ofNat 3 vd.toNat) va vb m))
  | .vsel => .ok (.vsel f g vd va vb m)
  | .vand => .ok (.vand f g vd va vb m)
  | .vor => .ok (.vor f g vd va vb m)
  | .vxor => .ok (.vxor f g vd va vb m)
  | .vshl => .ok (.vshl f g vd va vb m)
  | .vshr => .ok (.vshr f g vd va vb m)
  | .vsra => .ok (.vsra f g vd va vb m)
  | .vrelu => mbz (vb == 0) (.ok (.vrelu f g vd va m))
  | .vsplat => mbz (vb == 0) (.ok (.vsplat f g vd va m))
  | .vins => .ok (.vins f g vd va vb m)
  | .vext => .ok (.vext f g vd va vb m)
  | .vmov => mbz (vb == 0) (.ok (.vmov f g vd va m))
  | _ => .error .unassignedFn

/-- A short word of map B. -/
def vInstrB (op : VOp) (f : BitVec 2) (g : PReg) (vd va vb : VReg) (m : MReg) : Dec :=
  match op with
  | .vrsum => mbz (vb == 0) (.ok (.vrsum f g vd va m))
  | .vrmax => mbz (vb == 0) (.ok (.vrmax f g vd va m))
  | .vrmin => mbz (vb == 0) (.ok (.vrmin f g vd va m))
  | .vramax => mbz (vb == 0) (.ok (.vramax f g vd va m))
  | .vscan => mbz (vb == 0) (.ok (.vscan f g vd va m))
  | .vscanx => mbz (vb == 0) (.ok (.vscanx f g vd va m))
  | .vperm => .ok (.vperm f g vd va vb m)
  | .vshuf => .ok (.vshuf f g vd va vb m)
  | .vrot => .ok (.vrot f g vd va vb m)
  | .vzip => .ok (.vzip f g vd va vb m)
  | .vunzip => .ok (.vunzip f g vd va vb m)
  | .vbcl => .ok (.vbcl f g vd va vb m)
  | _ => .error .unassignedFn

/-! The 32-bit words, by major (R56, R61 to R73). -/

def maj (w : Nat) : Nat := w / 2 ^ 26 % 64

/-- Whether a first word is followed by a second word (R49). -/
def isLong (w : Nat) : Bool := decide (0x38 ≤ maj w) && decide (maj w ≤ 0x3E)

def decCmp (ct cond : Nat) (k : Comb → Cond → Dec) : Dec :=
  match condOf cond with
  | some c => k (combOf ct) c
  | none => .error .reservedCode

def decControl (g : PReg) (d a b : SReg) (fn : Nat) : Dec :=
  match fn with
  | 0 => mbz (d == 0 && a == 0 && b == 0) (.ok (.nop g))
  | 1 => mbz (d == 0 && a == 0 && b == 0) (.ok (.done g))
  | 2 => mbz (d == 0 && a == 0 && b == 0) (.ok (.ret g))
  | 3 => mbz (d == 0 && b == 0) (.ok (.brr g a))
  | 4 => mbz (d == 0 && b == 0) (.ok (.rep g a))
  | 5 => mbz (d == 0 && b == 0) (.ok (.tickw g a))
  | 6 => mbz (a == 0 && b == 0) (.ok (.fsel g d))
  | _ => .error .unassignedFn

def decCw (g : PReg) (d a : SReg) (op num : Nat) : Dec :=
  match op with
  | 0 => mbz (a == 0) (.ok (.cwget g d (BitVec.ofNat 8 num)))
  | 1 => mbz (d == 0) (.ok (.cwput g a (BitVec.ofNat 8 num)))
  | 2 => mbz (num == 0) (need (decide (28 ≤ a.toNat)) .reservedCode (.ok (.qcnt g d (BitVec.ofNat 2 a.toNat))))
  | _ => .error .unassignedFn

def decOrder (g : PReg) (op z arg : Nat) : Dec :=
  match op with
  | 0 => mbz (z == 0 && arg / 8 == 0) (reservedElse (scopeOf (arg % 8)) fun s => .ok (.fence g s))
  | 1 => mbz (z == 0 && arg / 2048 == 0) (.ok (.sbar g (BitVec.ofNat 11 arg)))
  | 2 => mbz (z == 0 && arg / 16 == 0) (.ok (.tokw g (BitVec.ofNat 4 arg)))
  | _ => .error .unassignedFn

def decSync (g : PReg) (d a b : SReg) (fn : Nat) : Dec :=
  match fn with
  | 0 => mbz (d == 0) (.ok (.semAdd g a b))
  | 1 => mbz (d == 0) (.ok (.semWait g a b))
  | 2 => mbz (d == 0) (.ok (.barInit g a b))
  | 3 => mbz (d == 0 && b == 0) (.ok (.barArrive g a))
  | 4 => mbz (d == 0 && b == 0) (.ok (.barWait g a))
  | 5 => mbz (d == 0 && b == 0) (.ok (.pub g a))
  | 6 => mbz (b == 0) (need (d.toNat % 2 == 0 && decide (2 ≤ d.toNat) && decide (d.toNat ≤ 26)) .reservedCode
      (.ok (.hres g d a)))
  | _ => .error .unassignedFn

def decSystem (g : PReg) (d a b : SReg) (fn : Nat) : Dec :=
  match fn with
  | 0 => mbz (d == 0 && b == 0) (.ok (.trap g a))
  | 1 => mbz (d == 0 && a == 0 && b == 0) (.ok (.brk g))
  | 2 => mbz (d == 0 && a == 0 && b == 0) (.ok (.tret g))
  | 3 => mbz (d == 0 && b == 0) (.ok (.modeReq g a))
  | 4 => mbz (d == 0 && a == 0 && b == 0) (.ok (.inject g))
  | 5 => mbz (d == 0 && b == 0) (.ok (.ttsync g a))
  | _ => .error .unassignedFn

def decVA (f : BitVec 3) (g : PReg) (vd va vb : VReg) (m : MReg) (sf : Nat) : Dec :=
  need ((vopA sf).accepts (fmtA f)) .unassignedFn (vInstrA (vopA sf) f g vd va vb m)

def decVB (f : BitVec 2) (g : PReg) (vd va vb : VReg) (m : MReg) (sf : Nat) : Dec :=
  match vopB sf with
  | some op => need (op.accepts (fmtB f)) .unassignedFn (vInstrB op f g vd va vb m)
  | none => .error .unassignedFn

/-- The format of an MX or MA word: code 0x2F is CW.FMTA (R55). -/
def fmtM (code : Nat) : Option Fmt := fmtOf code 0

def accOk (acc : BitVec 3) : Bool := decide (acc.toNat < 6)

/-- A multiplying word: the format is allowed, then the tile is no reserved code. -/
def decMma (acc : BitVec 3) (fmt : Nat) (pair : Bool) (k : Fmt → Dec) : Dec :=
  match fmtM fmt with
  | some f => need f.mmaOk .unassignedFn (need (accOk acc && (!pair || acc.toNat % 2 == 0)) .reservedCode (k f))
  | none => .error .reservedCode

def decMx (g : PReg) (acc : BitVec 3) (a b : SReg) (fmt sop : Nat) : Dec :=
  match sop with
  | 0 => decMma acc fmt false fun f => .ok (.mma g acc a b f)
  | 1 => decMma acc fmt true fun f => .ok (.mmaCk g acc a b f)
  | 2 => decMma acc fmt false fun f => .ok (.mmaCo g acc a b f)
  | _ => .error .unassignedFn

/-- The format of `mz`, `mld` and `mst`: fp32 or i32 (R175, R176). -/
def tileFmt (fmt : Nat) (k : Bool → Dec) : Dec :=
  match fmt with
  | 0x10 => k false | 0x05 => k true | _ => .error .reservedCode

def decMa (g : PReg) (acc : BitVec 3) (a b : SReg) (fmt sop : Nat) : Dec :=
  match sop with
  | 0 => mbz (a == 0 && b == 0) (tileFmt fmt fun i => need (accOk acc) .reservedCode (.ok (.mz g acc i)))
  | 1 => mbz (b == 0) (tileFmt fmt fun i => need (accOk acc) .reservedCode (.ok (.mld g acc a i)))
  | 2 => mbz (b == 0) (tileFmt fmt fun i => need (accOk acc) .reservedCode (.ok (.mst g acc a i)))
  | _ => reservedElse (fmtM fmt) fun f =>
    need (f.drainOk && accOk acc) .reservedCode (.ok (.mdrain g acc a b f))

def decCfgsel (g : PReg) (acc : BitVec 3) (a b : SReg) (fmt sop : Nat) : Dec :=
  match sop with
  | 0 => mbz (decide (acc.toNat < 4) && a == 0 && b == 0)
      (need (fmt == 0x10) .reservedCode (.ok (.cfgsel g (BitVec.ofNat 2 acc.toNat))))
  | _ => .error .unassignedFn

/-- A transform: both groups start at a multiple of their size (R191). -/
def decXfm (bsz : Nat) (vd va : VReg) (dk sk : Nat) (k : Bsz → Dec) : Dec :=
  match bszOf bsz with
  | some b => need (VReg.aligned vd (dk * b.group) && VReg.aligned va (sk * b.group)) .reservedCode (k b)
  | none => .error .reservedCode

def decSx (g : PReg) (bsz : Nat) (a b : BitVec 5) (op arg : Nat) : Dec :=
  match op with
  | 0 => mbz (arg == 0) (decXfm bsz a b 1 1 fun z => .ok (.xfmFwd g z a b))
  | 1 => mbz (arg == 0) (decXfm bsz a b 1 1 fun z => .ok (.xfmInv g z a b))
  | 2 => mbz (arg == 0) (decXfm bsz a b 1 2 fun z => .ok (.xfmPack g z a b))
  | 3 => mbz (arg == 0) (decXfm bsz a b 2 1 fun z => .ok (.xfmUnpack g z a b))
  | 4 => mbz (arg / 4 == 0 && b == 0)
      (reservedElse (bszOf bsz) fun z => .ok (.dtag g z a (BitVec.ofNat 2 arg)))
  | _ => .error .unassignedFn

def decMc (g : PReg) (acc : BitVec 3) (a b : SReg) (bsz z : Nat) : Dec :=
  mbz (z == 0) (match bszOf bsz with
    | some s => need (accOk acc && acc.toNat % 2 == 0) .reservedCode (.ok (.mmaC g acc a b s))
    | none => .error .reservedCode)

def decCp (g : PReg) (e : Bool) (op : Nat) (a b : SReg) (tok : Tok) (rnd z : Nat) : Dec :=
  match op with
  | 0 => mbz (z == 0 && b == 0 && rnd == 0) (.ok (.cpNd g e a tok))
  | 1 => mbz (z == 0 && b == 0) (.ok (.cpCvt g e a tok (rndOf rnd)))
  | 2 => mbz (z == 0 && rnd == 0) (.ok (.cpCrc g e a b tok))
  | 3 => mbz (z == 0 && rnd == 0) (.ok (.cpFill g e a b tok))
  | 4 => mbz (z == 0 && b == 0 && rnd == 0) (.ok (.cpAlias g e a tok))
  | 5 => mbz (z == 0 && rnd == 0) (.ok (.cpRtn g e a b tok))
  | _ => .error .unassignedFn

/-- `str.send` names port 30 or 31 and `str.recv` port 28 or 29 (R320). -/
def decStr (g : PReg) (d a b : SReg) (fn : Nat) : Dec :=
  match fn with
  | 0 => mbz (d == 0) (need (decide (30 ≤ a.toNat)) .reservedCode (.ok (.strSend g (BitVec.ofNat 1 a.toNat) b)))
  | 1 => mbz (b == 0) (need (decide (28 ≤ a.toNat) && decide (a.toNat < 30)) .reservedCode
      (.ok (.strRecv g d (BitVec.ofNat 1 a.toNat))))
  | _ => .error .unassignedFn

def decLnk (g : PReg) (d a b : SReg) (fn : Nat) : Dec :=
  match fn with
  | 0 => mbz (b == 0) (.ok (.lnkStat g d a))
  | 1 => mbz (d == 0 && b == 0) (.ok (.lnkPause g a))
  | 2 => mbz (d == 0) (.ok (.lnkRemap g a b))
  | 3 => mbz (d == 0) (.ok (.lnkTrain g a b))
  | 4 => mbz (d == 0 && b == 0) (.ok (.lnkResume g a))
  | _ => .error .unassignedFn

def decPwr (g : PReg) (d a b : SReg) (fn : Nat) : Dec :=
  match fn with
  | 0 => mbz (d == 0) (.ok (.pwrBorrow g a b))
  | 1 => mbz (d == 0) (.ok (.pwrRepay g a b))
  | 2 => mbz (d == 0 && b == 0) (.ok (.pwrGate g a))
  | _ => .error .unassignedFn

/-- A register-form scalar word. -/
def decScalar (g : PReg) (d a b : SReg) (m fn : Nat) : Dec :=
  match sopOf m fn with
  | .ok op => sopInstr g d a b op
  | .error e => .error e

/-- A 32-bit word. -/
def decodeShort (w : Nat) : Dec :=
  let g := fld w 23 3
  let d := fld w 18 5
  let a := fld w 13 5
  let b := fld w 8 5
  let fn := fldN w 0 8
  let acc := fld w 20 3
  let ma := fld w 15 5
  let mb := fld w 10 5
  match maj w with
  | 0x00 => decScalar g d a b 0 fn
  | 0x01 => decScalar g d a b 1 fn
  | 0x02 => decScalar g d a b 2 fn
  | 0x03 => decScalar g d a b 3 fn
  | 0x04 => decScalar g d a b 4 fn
  | 0x08 => .ok (.addImm g d a (fld w 0 13))
  | 0x09 => .ok (.andImm g d a (fld w 0 13))
  | 0x0A => .ok (.orImm g d a (fld w 0 13))
  | 0x0B => .ok (.xorImm g d a (fld w 0 13))
  | 0x0C => .ok (.shlImm g d a (fld w 0 13))
  | 0x0D => .ok (.shrImm g d a (fld w 0 13))
  | 0x0E => .ok (.sraImm g d a (fld w 0 13))
  | 0x10 => decCmp (fldN w 14 3) (fldN w 10 4) fun t c =>
      .ok (.cmp g acc (fld w 17 3) t c (fld w 5 5) (fld w 0 5))
  | 0x11 => decCmp (fldN w 14 3) (fldN w 10 4) fun t c =>
      .ok (.cmpImm g acc (fld w 17 3) t c (fld w 5 5) (fld w 0 5))
  | 0x14 => .ok (.br g (fld w 0 23))
  | 0x15 => .ok (.call g (fld w 0 23))
  | 0x16 => decControl g d a b fn
  | 0x17 => .ok (.chk g d (fld w 0 18))
  | 0x18 => .ok (.ldD g d a (fld w 9 4) (fld w 0 9))
  | 0x19 => .ok (.ldW g d a (fld w 9 4) (fld w 0 9))
  | 0x1A => .ok (.stD g d a (fld w 9 4) (fld w 0 9))
  | 0x1B => .ok (.stW g d a (fld w 9 4) (fld w 0 9))
  | 0x1C => decCw g d a (fldN w 8 5) fn
  | 0x1D => decOrder g (fldN w 20 3) (fldN w 16 4) (fldN w 0 16)
  | 0x1E => decSync g d a b fn
  | 0x1F => decSystem g d a b fn
  | 0x20 | 0x21 | 0x22 | 0x23 | 0x24 | 0x25 | 0x26 | 0x27 => decVA (fld w 26 3) g d a b (fld w 5 3) (fldN w 0 5)
  | 0x28 | 0x29 | 0x2A | 0x2B => decVB (fld w 26 2) g d a b (fld w 5 3) (fldN w 0 5)
  | 0x2C => decMx g acc ma mb (fldN w 2 8) (fldN w 0 2)
  | 0x2D => decMa g acc ma mb (fldN w 2 8) (fldN w 0 2)
  | 0x2E => decCfgsel g acc ma mb (fldN w 2 8) (fldN w 0 2)
  | 0x2F => decSx g (fldN w 20 3) ma mb (fldN w 7 3) (fldN w 0 7)
  | 0x30 => decMc g acc ma mb (fldN w 7 3) (fldN w 0 7)
  | 0x32 => decCp g (fldN w 22 1 == 1) (fldN w 19 3) (fld w 14 5) (fld w 9 5) (fld w 5 4) (fldN w 3 2) (fldN w 0 3)
  | 0x33 => decStr g d a b fn
  | 0x34 => decLnk g d a b fn
  | 0x35 => decPwr g d a b fn
  | _ => .error .unassignedMajor

/-! The 64-bit forms (R60, R63, R64, R70, R71, R73). -/

/-- The instruction of a long scalar access, its constraints on the second word checked (R64). -/
def decMem (g : PReg) (d a : SReg) (tok : Tok) (imm : BitVec 9) (w1 : Nat) : Dec :=
  let size := sizeOf' (fldN w1 26 2)
  let ext := fldN w1 25 1 == 1
  let rt : Route := ⟨fldN w1 24 1 == 1, spaceOf (fldN w1 23 1), fld w1 20 3⟩
  let b := fld w1 15 5
  let z := fldN w1 0 15 == 0
  let atomic (k : Bool → Dec) : Dec :=
    mbz (z && !ext) (need ((size == .w || size == .d) && rt.strong) .reservedCode (k (size == .d)))
  match fldN w1 28 4 with
  | 0 => mbz (z && b == 0) (.ok (.ld g d a tok imm size ext rt))
  | 1 => mbz (z && b == 0) (.ok (.ldsp g d a tok imm size ext rt))
  | 2 => mbz (z && b == 0 && !ext) (.ok (.st g d a tok imm size rt))
  | 3 => atomic fun x => .ok (.amoAdd g d a tok imm x rt.space rt.stream b)
  | 4 => atomic fun x => .ok (.amoMin g d a tok imm x rt.space rt.stream b)
  | 5 => atomic fun x => .ok (.amoMax g d a tok imm x rt.space rt.stream b)
  | 6 => atomic fun x => .ok (.amoMinn g d a tok imm x rt.space rt.stream b)
  | 7 => atomic fun x => .ok (.amoMaxn g d a tok imm x rt.space rt.stream b)
  | 8 => atomic fun x => .ok (.amoSwap g d a tok imm x rt.space rt.stream b)
  | 9 => atomic fun x => .ok (.amoCas g d a tok imm x rt.space rt.stream b)
  | 10 => atomic fun x => .ok (.amoAmax g d a tok imm x rt.space rt.stream b)
  | _ => .error .unassignedFn

def decWide (g : PReg) (d a : SReg) (imm : BitVec 13) (w1 : Nat) : Dec :=
  match sopOf (fldN w1 8 6) (fldN w1 0 8) with
  | .ok op => need (!op.unary) .unassignedFn (mbz (fldN w1 14 18 == 0) (.ok (.wideImmediate g d a imm op)))
  | .error e => .error e

def decLi (g : PReg) (r : SReg) (op imm15 w1 : Nat) : Dec :=
  match op with
  | 0 => need (decide (2 ≤ imm15) && decide (imm15 ≤ 16383)) .reservedCode
      (.ok (.loop g r (BitVec.ofNat 15 imm15) (BitVec.ofNat 32 w1)))
  | 1 => mbz (imm15 == 0) (.ok (.liLow g r (BitVec.ofNat 32 w1)))
  | 2 => mbz (imm15 == 0) (.ok (.liHigh g r (BitVec.ofNat 32 w1)))
  | 3 => mbz (imm15 == 0 && w1 % 4 == 0 && w1 / 65536 == 0) (.ok (.adr g r (BitVec.ofNat 16 w1)))
  | _ => .error .unassignedFn

/-- A format with its selector: a selector is zero unless the code is 0x2F (R70). -/
def decFmt (code sel : Nat) (k : Fmt → Dec) : Dec :=
  mbz (sel == 0 || code == 0x2F) (reservedElse (fmtOf code sel) k)

/-- Maps A and B of the long vector form (R70). -/
def decVLong (g : PReg) (vd va vb : VReg) (m : MReg) (op : VOp) (f : Fmt) (r : Rnd) (w1 : Nat) : Dec :=
  need (op.accepts f) .unassignedFn
    (mbz (fldN w1 8 10 == 0 && fldN w1 0 8 == 0 && (!op.unary || vb == 0) && (!op.isCompare || decide (vd.toNat < 8)))
      (.ok (.vectorLong g vd va vb m op f r)))

/-- Map C (R155 to R158). -/
def decVC (g : PReg) (vd va : VReg) (vb : Nat) (m : MReg) (sf : Nat) (f : Fmt) (r : Rnd) (w1 : Nat) : Dec :=
  let p : BitVec 3 := BitVec.ofNat 3 vb
  let f2 (k : Fmt → Dec) : Dec := mbz (decide (vb < 8) && fldN w1 0 8 == 0) (decFmt (fldN w1 10 8) (fldN w1 8 2) k)
  match sf with
  | 0 => f2 fun f2 => need (!f.isMx && !f2.isMx && f.isComplex == f2.isComplex) .unassignedFn
      (need (decide (p.toNat < ratio f f2)) .reservedCode (.ok (.vcvt g vd va p m f r f2)))
  | 1 => f2 fun f2 => need (f2.floatCompute && f.isMx) .unassignedFn
      (need (quantOk f2 f vd p && m == 0) .reservedCode (.ok (.vquant g vd va p f r f2)))
  | 2 => f2 fun f2 => need (f.floatCompute && f2.isMx) .unassignedFn
      (need (quantOk f f2 va p && m == 0) .reservedCode (.ok (.vdequant g vd va p f r f2)))
  | 3 => need f.floatCompute .unassignedFn
      (mbz (vb == 0 && fldN w1 8 10 == 0 && fldN w1 0 8 == 0) (.ok (.vamax g vd va m f r)))
  | _ => .error .unassignedFn

def decVec (g : PReg) (vd va vb : VReg) (m : MReg) (sf w1 : Nat) : Dec :=
  let f (k : Fmt → Dec) : Dec := decFmt (fldN w1 24 8) (fldN w1 18 2) k
  let r := rndOf (fldN w1 22 2)
  match fldN w1 20 2 with
  | 0 => f fun f => decVLong g vd va vb m (vopA sf) f r w1
  | 1 => match vopB sf with
    | some op => f fun f => decVLong g vd va vb m op f r w1
    | none => .error .unassignedFn
  | 2 => f fun f => decVC g vd va vb.toNat m sf f r w1
  | _ => .error .reservedCode

def decVmem (g : PReg) (vd : VReg) (a b : BitVec 5) (tok : Tok) (m : MReg) (store : Bool) (w1 : Nat) : Dec :=
  let rt : Route := ⟨fldN w1 21 1 == 1, spaceOf (fldN w1 20 1), fld w1 17 3⟩
  let imm : BitVec 15 := fld w1 0 15
  decFmt (fldN w1 24 8) (fldN w1 15 2) fun f =>
    match fldN w1 22 2 with
    | 0 => mbz (b == 0) (.ok (if store then .vst g vd a tok m f rt imm else .vld g vd a tok m f rt imm))
    | 1 => need f.stridedOk .reservedCode
        (.ok (if store then .vsts g vd a b tok m f rt imm else .vlds g vd a b tok m f rt imm))
    | 2 => need f.stridedOk .reservedCode
        (.ok (if store then .vstx g vd a b tok m f rt imm else .vldx g vd a b tok m f rt imm))
    | _ => .error .reservedCode

/-- `mma.g` and `mma.sp` (R73). -/
def decMm3 (g : PReg) (acc : BitVec 3) (a b : SReg) (fmt sop w1 : Nat) : Dec :=
  match sop with
  | 0 => decMma acc fmt false fun f => need (!f.isMx) .unassignedFn
      (mbz (fldN w1 0 27 == 0) (.ok (.mmaG g acc a b f (fld w1 27 5))))
  | 1 => decMma acc fmt false fun f => need (!f.isMx) .unassignedFn
      (mbz (fldN w1 0 24 == 0) (reservedElse (patOf (fldN w1 24 3)) fun p => .ok (.mmaSp g acc a b f (fld w1 27 5) p)))
  | _ => .error .unassignedFn

/-- A 64-bit form. -/
def decodeLong (w w1 : Nat) : Dec :=
  let g := fld w 23 3
  let d := fld w 18 5
  let a := fld w 13 5
  match maj w with
  | 0x38 => decMem g d a (fld w 9 4) (fld w 0 9) w1
  | 0x39 => decWide g d a (fld w 0 13) w1
  | 0x3A => decLi g (fld w 15 5) (fldN w 20 3) (fldN w 0 15) w1
  | 0x3B => decVec g d a (fld w 8 5) (fld w 5 3) (fldN w 0 5) w1
  | 0x3C => decVmem g d a (fld w 8 5) (fld w 4 4) (fld w 1 3) (fldN w 0 1 == 1) w1
  | 0x3D => decMm3 g (fld w 20 3) (fld w 15 5) (fld w 10 5) (fldN w 2 8) (fldN w 0 2) w1
  | _ => .error .unassignedMajor

/-- Decode the word at the program counter and, for a 64-bit form, the word after it, none at the end of the code. -/
def decodeWords (w0 : Nat) (w1 : Option Nat) : Dec :=
  if isLong w0 then
    if maj w0 = 0x3E then .error .unassignedMajor
    else
      match w1 with
      | some w => decodeLong w0 w
      | none => .error .truncated
  else decodeShort w0

/-- The little-endian word of four bytes (R49). -/
def wordOf (b0 b1 b2 b3 : Byte) : Nat := b0.toNat + b1.toNat * 2 ^ 8 + b2.toNat * 2 ^ 16 + b3.toNat * 2 ^ 24

/-- Decode the front of a byte string. Fewer than four bytes hold no first word. -/
def decodeBytes : List Byte → Dec
  | b0 :: b1 :: b2 :: b3 :: rest =>
    decodeWords (wordOf b0 b1 b2 b3) (match rest with
      | c0 :: c1 :: c2 :: c3 :: _ => some (wordOf c0 c1 c2 c3)
      | _ => none)
  | _ => .error .truncated

/-- Bytes an instruction occupies (R49); an event occupies none. -/
def Instr.long : Instr → Bool
  | .wideImmediate .. | .ld .. | .ldsp .. | .st .. | .amoAdd .. | .amoMin .. | .amoMax .. | .amoMinn .. | .amoMaxn ..
  | .amoSwap .. | .amoCas .. | .amoAmax .. | .loop .. | .liLow .. | .liHigh .. | .adr .. | .vectorLong .. | .vcvt ..
  | .vquant .. | .vdequant .. | .vamax .. | .vld .. | .vlds .. | .vldx .. | .vst .. | .vsts .. | .vstx .. | .mmaG ..
  | .mmaSp .. => true
  | .unassignedEncoding _ _ long => long
  | _ => false

/-! The encoder. -/

def encS3 (m : Nat) (g : PReg) (d a b fn : Nat) : Nat :=
  m * 2 ^ 26 + g.toNat * 2 ^ 23 + d * 2 ^ 18 + a * 2 ^ 13 + b * 2 ^ 8 + fn

def encI (m : Nat) (g : PReg) (d a imm : Nat) : Nat :=
  m * 2 ^ 26 + g.toNat * 2 ^ 23 + d * 2 ^ 18 + a * 2 ^ 13 + imm

def encC (m : Nat) (g pd1 pd2 : PReg) (ct : Comb) (cond : Cond) (a b : Nat) : Nat :=
  m * 2 ^ 26 + g.toNat * 2 ^ 23 + pd1.toNat * 2 ^ 20 + pd2.toNat * 2 ^ 17 + ct.code * 2 ^ 14 + cond.code * 2 ^ 10 + a * 2 ^ 5 + b

def encB (m : Nat) (g : PReg) (off : Nat) : Nat := m * 2 ^ 26 + g.toNat * 2 ^ 23 + off

def encM (m : Nat) (g : PReg) (d a : SReg) (tok : Tok) (imm : BitVec 9) : Nat :=
  m * 2 ^ 26 + g.toNat * 2 ^ 23 + d.toNat * 2 ^ 18 + a.toNat * 2 ^ 13 + tok.toNat * 2 ^ 9 + imm.toNat

def encO (g : PReg) (op arg : Nat) : Nat := 0x1D * 2 ^ 26 + g.toNat * 2 ^ 23 + op * 2 ^ 20 + arg

def encV3 (m : Nat) (g : PReg) (vd va vb : Nat) (mask : MReg) (sf : Nat) : Nat :=
  m * 2 ^ 26 + g.toNat * 2 ^ 23 + vd * 2 ^ 18 + va * 2 ^ 13 + vb * 2 ^ 8 + mask.toNat * 2 ^ 5 + sf

def encVm (g : PReg) (vd : VReg) (a b : Nat) (tok : Tok) (mask : MReg) (dir : Nat) : Nat :=
  0x3C * 2 ^ 26 + g.toNat * 2 ^ 23 + vd.toNat * 2 ^ 18 + a * 2 ^ 13 + b * 2 ^ 8 + tok.toNat * 2 ^ 4 + mask.toNat * 2 + dir

def encVm1 (f : Fmt) (mode : Nat) (rt : Route) (imm : BitVec 15) : Nat :=
  f.code * 2 ^ 24 + mode * 2 ^ 22 + Bool.code rt.strong * 2 ^ 21 + rt.space.code * 2 ^ 20 + rt.stream.toNat * 2 ^ 17 +
    f.ffsel * 2 ^ 15 + imm.toNat

def encMx (m : Nat) (g : PReg) (acc a b fmt sop : Nat) : Nat :=
  m * 2 ^ 26 + g.toNat * 2 ^ 23 + acc * 2 ^ 20 + a * 2 ^ 15 + b * 2 ^ 10 + fmt * 2 ^ 2 + sop

def encSx (g : PReg) (bsz : Bsz) (a b op arg : Nat) : Nat :=
  0x2F * 2 ^ 26 + g.toNat * 2 ^ 23 + bsz.code * 2 ^ 20 + a * 2 ^ 15 + b * 2 ^ 10 + op * 2 ^ 7 + arg

def encCp (g : PReg) (e : Bool) (op : Nat) (a : SReg) (b : Nat) (tok : Tok) (rnd : Nat) : Nat :=
  0x32 * 2 ^ 26 + g.toNat * 2 ^ 23 + Bool.code e * 2 ^ 22 + op * 2 ^ 19 + a.toNat * 2 ^ 14 + b * 2 ^ 9 + tok.toNat * 2 ^ 5 + rnd * 2 ^ 3

def encLi (g : PReg) (op : Nat) (r : SReg) (imm : Nat) : Nat :=
  0x3A * 2 ^ 26 + g.toNat * 2 ^ 23 + op * 2 ^ 20 + r.toNat * 2 ^ 15 + imm

/-- Second word of a long scalar access. -/
def encMem1 (op size : Nat) (ext strong : Bool) (space : Space) (stream : Strm) (b : Nat) : Nat :=
  op * 2 ^ 28 + size * 2 ^ 26 + Bool.code ext * 2 ^ 25 + Bool.code strong * 2 ^ 24 + space.code * 2 ^ 23 +
    stream.toNat * 2 ^ 20 + b * 2 ^ 15

/-- Second word of an atomic: size w or d, kind strong. -/
def encAmo1 (op : Nat) (dbl : Bool) (space : Space) (stream : Strm) (b : SReg) : Nat :=
  encMem1 op (if dbl then 3 else 2) false true space stream b.toNat

/-- Second word of the long vector form. -/
def encVec1 (f : Fmt) (r : Rnd) (map fmt2 ffsel2 : Nat) : Nat :=
  f.code * 2 ^ 24 + r.code * 2 ^ 22 + map * 2 ^ 20 + f.ffsel * 2 ^ 18 + fmt2 * 2 ^ 10 + ffsel2 * 2 ^ 8

/-- The register form of a scalar operation as a word. -/
def encSop (g : PReg) (d a b : Nat) (op : SOp) : Nat := encS3 op.maj g d a b op.fn

def tileCode (i32 : Bool) : Nat := if i32 then 0x05 else 0x10

/-- The words of an instruction: the first and, for a 64-bit form, the second. Events have no words. -/
def encode : Instr → List Nat
  | .add g d a b w n o => [encSop g d.toNat a.toNat b.toNat (.add w n o)]
  | .sub g d a b w n o => [encSop g d.toNat a.toNat b.toNat (.sub w n o)]
  | .mul g d a b w n o => [encSop g d.toNat a.toNat b.toNat (.mul w n o)]
  | .madd g d a b w n o => [encSop g d.toNat a.toNat b.toNat (.madd w n o)]
  | .mulh g d a b w => [encSop g d.toNat a.toNat b.toNat (.mulh w)]
  | .div g d a b w => [encSop g d.toNat a.toNat b.toNat (.div w)]
  | .rem g d a b w => [encSop g d.toNat a.toNat b.toNat (.rem w)]
  | .min g d a b w => [encSop g d.toNat a.toNat b.toNat (.min w)]
  | .max g d a b w => [encSop g d.toNat a.toNat b.toNat (.max w)]
  | .sra g d a b w => [encSop g d.toNat a.toNat b.toNat (.sra w)]
  | .bfx g d a b w => [encSop g d.toNat a.toNat b.toNat (.bfx w)]
  | .mulhn g d a b w => [encSop g d.toNat a.toNat b.toNat (.mulhn w)]
  | .divn g d a b w => [encSop g d.toNat a.toNat b.toNat (.divn w)]
  | .remn g d a b w => [encSop g d.toNat a.toNat b.toNat (.remn w)]
  | .minn g d a b w => [encSop g d.toNat a.toNat b.toNat (.minn w)]
  | .maxn g d a b w => [encSop g d.toNat a.toNat b.toNat (.maxn w)]
  | .shr g d a b w => [encSop g d.toNat a.toNat b.toNat (.shr w)]
  | .and g d a b w => [encSop g d.toNat a.toNat b.toNat (.and w)]
  | .or g d a b w => [encSop g d.toNat a.toNat b.toNat (.or w)]
  | .xor g d a b w => [encSop g d.toNat a.toNat b.toNat (.xor w)]
  | .andn g d a b w => [encSop g d.toNat a.toNat b.toNat (.andn w)]
  | .orn g d a b w => [encSop g d.toNat a.toNat b.toNat (.orn w)]
  | .shl g d a b w => [encSop g d.toNat a.toNat b.toNat (.shl w)]
  | .rol g d a b w => [encSop g d.toNat a.toNat b.toNat (.rol w)]
  | .bfi g d a b w => [encSop g d.toNat a.toNat b.toNat (.bfi w)]
  | .sext g d a w => [encSop g d.toNat a.toNat 0 (.sext w)]
  | .zext g d a w => [encSop g d.toNat a.toNat 0 (.zext w)]
  | .clz g d a w => [encSop g d.toNat a.toNat 0 (.clz w)]
  | .ctz g d a w => [encSop g d.toNat a.toNat 0 (.ctz w)]
  | .pop g d a w => [encSop g d.toNat a.toNat 0 (.pop w)]
  | .sel g d a b w p => [encSop g d.toNat a.toNat b.toNat (.sel w p)]
  | .ix g d a b s => [encSop g d.toNat a.toNat b.toNat (.ix s)]
  | .addImm g d a imm => [encI 0x08 g d.toNat a.toNat imm.toNat]
  | .andImm g d a imm => [encI 0x09 g d.toNat a.toNat imm.toNat]
  | .orImm g d a imm => [encI 0x0A g d.toNat a.toNat imm.toNat]
  | .xorImm g d a imm => [encI 0x0B g d.toNat a.toNat imm.toNat]
  | .shlImm g d a imm => [encI 0x0C g d.toNat a.toNat imm.toNat]
  | .shrImm g d a imm => [encI 0x0D g d.toNat a.toNat imm.toNat]
  | .sraImm g d a imm => [encI 0x0E g d.toNat a.toNat imm.toNat]
  | .wideImmediate g d a imm op => [encI 0x39 g d.toNat a.toNat imm.toNat, op.maj * 2 ^ 8 + op.fn]
  | .cmp g pd1 pd2 ct cond a b => [encC 0x10 g pd1 pd2 ct cond a.toNat b.toNat]
  | .cmpImm g pd1 pd2 ct cond a imm => [encC 0x11 g pd1 pd2 ct cond a.toNat imm.toNat]
  | .br g off => [encB 0x14 g off.toNat]
  | .call g off => [encB 0x15 g off.toNat]
  | .nop g => [encS3 0x16 g 0 0 0 0]
  | .done g => [encS3 0x16 g 0 0 0 1]
  | .ret g => [encS3 0x16 g 0 0 0 2]
  | .brr g a => [encS3 0x16 g 0 a.toNat 0 3]
  | .rep g a => [encS3 0x16 g 0 a.toNat 0 4]
  | .tickw g a => [encS3 0x16 g 0 a.toNat 0 5]
  | .fsel g d => [encS3 0x16 g d.toNat 0 0 6]
  | .chk g a off => [0x17 * 2 ^ 26 + g.toNat * 2 ^ 23 + a.toNat * 2 ^ 18 + off.toNat]
  | .ldD g d a tok imm => [encM 0x18 g d a tok imm]
  | .ldW g d a tok imm => [encM 0x19 g d a tok imm]
  | .stD g d a tok imm => [encM 0x1A g d a tok imm]
  | .stW g d a tok imm => [encM 0x1B g d a tok imm]
  | .ld g d a tok imm size n rt => [encM 0x38 g d a tok imm, encMem1 0 size.code n rt.strong rt.space rt.stream 0]
  | .ldsp g d a tok imm size n rt => [encM 0x38 g d a tok imm, encMem1 1 size.code n rt.strong rt.space rt.stream 0]
  | .st g d a tok imm size rt => [encM 0x38 g d a tok imm, encMem1 2 size.code false rt.strong rt.space rt.stream 0]
  | .amoAdd g d a tok imm dbl space stream b => [encM 0x38 g d a tok imm, encAmo1 3 dbl space stream b]
  | .amoMin g d a tok imm dbl space stream b => [encM 0x38 g d a tok imm, encAmo1 4 dbl space stream b]
  | .amoMax g d a tok imm dbl space stream b => [encM 0x38 g d a tok imm, encAmo1 5 dbl space stream b]
  | .amoMinn g d a tok imm dbl space stream b => [encM 0x38 g d a tok imm, encAmo1 6 dbl space stream b]
  | .amoMaxn g d a tok imm dbl space stream b => [encM 0x38 g d a tok imm, encAmo1 7 dbl space stream b]
  | .amoSwap g d a tok imm dbl space stream b => [encM 0x38 g d a tok imm, encAmo1 8 dbl space stream b]
  | .amoCas g d a tok imm dbl space stream b => [encM 0x38 g d a tok imm, encAmo1 9 dbl space stream b]
  | .amoAmax g d a tok imm dbl space stream b => [encM 0x38 g d a tok imm, encAmo1 10 dbl space stream b]
  | .cwget g d num => [encI 0x1C g d.toNat 0 num.toNat]
  | .cwput g a num => [encI 0x1C g 0 a.toNat (2 ^ 8 + num.toNat)]
  | .qcnt g d port => [encI 0x1C g d.toNat (28 + port.toNat) (2 * 2 ^ 8)]
  | .fence g s => [encO g 0 s.code]
  | .sbar g mask => [encO g 1 mask.toNat]
  | .tokw g tok => [encO g 2 tok.toNat]
  | .semAdd g a b => [encS3 0x1E g 0 a.toNat b.toNat 0]
  | .semWait g a b => [encS3 0x1E g 0 a.toNat b.toNat 1]
  | .barInit g a b => [encS3 0x1E g 0 a.toNat b.toNat 2]
  | .barArrive g a => [encS3 0x1E g 0 a.toNat 0 3]
  | .barWait g a => [encS3 0x1E g 0 a.toNat 0 4]
  | .pub g a => [encS3 0x1E g 0 a.toNat 0 5]
  | .hres g d a => [encS3 0x1E g d.toNat a.toNat 0 6]
  | .trap g a => [encS3 0x1F g 0 a.toNat 0 0]
  | .brk g => [encS3 0x1F g 0 0 0 1]
  | .tret g => [encS3 0x1F g 0 0 0 2]
  | .modeReq g a => [encS3 0x1F g 0 a.toNat 0 3]
  | .inject g => [encS3 0x1F g 0 0 0 4]
  | .ttsync g a => [encS3 0x1F g 0 a.toNat 0 5]
  | .vadd f g vd va vb m => [encV3 (0x20 + f.toNat) g vd.toNat va.toNat vb.toNat m 0]
  | .vsub f g vd va vb m => [encV3 (0x20 + f.toNat) g vd.toNat va.toNat vb.toNat m 1]
  | .vmul f g vd va vb m => [encV3 (0x20 + f.toNat) g vd.toNat va.toNat vb.toNat m 2]
  | .vfma f g vd va vb m => [encV3 (0x20 + f.toNat) g vd.toNat va.toNat vb.toNat m 3]
  | .vfnma f g vd va vb m => [encV3 (0x20 + f.toNat) g vd.toNat va.toNat vb.toNat m 4]
  | .vmin f g vd va vb m => [encV3 (0x20 + f.toNat) g vd.toNat va.toNat vb.toNat m 5]
  | .vmax f g vd va vb m => [encV3 (0x20 + f.toNat) g vd.toNat va.toNat vb.toNat m 6]
  | .vabs f g vd va m => [encV3 (0x20 + f.toNat) g vd.toNat va.toNat 0 m 7]
  | .vneg f g vd va m => [encV3 (0x20 + f.toNat) g vd.toNat va.toNat 0 m 8]
  | .vrcp f g vd va m => [encV3 (0x20 + f.toNat) g vd.toNat va.toNat 0 m 9]
  | .vrsqrt f g vd va m => [encV3 (0x20 + f.toNat) g vd.toNat va.toNat 0 m 10]
  | .vexp2 f g vd va m => [encV3 (0x20 + f.toNat) g vd.toNat va.toNat 0 m 11]
  | .vlog2 f g vd va m => [encV3 (0x20 + f.toNat) g vd.toNat va.toNat 0 m 12]
  | .vtanh f g vd va m => [encV3 (0x20 + f.toNat) g vd.toNat va.toNat 0 m 13]
  | .vsigm f g vd va m => [encV3 (0x20 + f.toNat) g vd.toNat va.toNat 0 m 14]
  | .vcmul f g vd va vb m => [encV3 (0x20 + f.toNat) g vd.toNat va.toNat vb.toNat m 15]
  | .vceq f g md va vb m => [encV3 (0x20 + f.toNat) g md.toNat va.toNat vb.toNat m 16]
  | .vcne f g md va vb m => [encV3 (0x20 + f.toNat) g md.toNat va.toNat vb.toNat m 17]
  | .vclt f g md va vb m => [encV3 (0x20 + f.toNat) g md.toNat va.toNat vb.toNat m 18]
  | .vcle f g md va vb m => [encV3 (0x20 + f.toNat) g md.toNat va.toNat vb.toNat m 19]
  | .vsel f g vd va vb m => [encV3 (0x20 + f.toNat) g vd.toNat va.toNat vb.toNat m 20]
  | .vand f g vd va vb m => [encV3 (0x20 + f.toNat) g vd.toNat va.toNat vb.toNat m 21]
  | .vor f g vd va vb m => [encV3 (0x20 + f.toNat) g vd.toNat va.toNat vb.toNat m 22]
  | .vxor f g vd va vb m => [encV3 (0x20 + f.toNat) g vd.toNat va.toNat vb.toNat m 23]
  | .vshl f g vd va vb m => [encV3 (0x20 + f.toNat) g vd.toNat va.toNat vb.toNat m 24]
  | .vshr f g vd va vb m => [encV3 (0x20 + f.toNat) g vd.toNat va.toNat vb.toNat m 25]
  | .vsra f g vd va vb m => [encV3 (0x20 + f.toNat) g vd.toNat va.toNat vb.toNat m 26]
  | .vrelu f g vd va m => [encV3 (0x20 + f.toNat) g vd.toNat va.toNat 0 m 27]
  | .vsplat f g vd va m => [encV3 (0x20 + f.toNat) g vd.toNat va.toNat 0 m 28]
  | .vins f g vd va vb m => [encV3 (0x20 + f.toNat) g vd.toNat va.toNat vb.toNat m 29]
  | .vext f g d va b m => [encV3 (0x20 + f.toNat) g d.toNat va.toNat b.toNat m 30]
  | .vmov f g vd va m => [encV3 (0x20 + f.toNat) g vd.toNat va.toNat 0 m 31]
  | .vrsum f g vd va m => [encV3 (0x28 + f.toNat) g vd.toNat va.toNat 0 m 0]
  | .vrmax f g vd va m => [encV3 (0x28 + f.toNat) g vd.toNat va.toNat 0 m 1]
  | .vrmin f g vd va m => [encV3 (0x28 + f.toNat) g vd.toNat va.toNat 0 m 2]
  | .vramax f g vd va m => [encV3 (0x28 + f.toNat) g vd.toNat va.toNat 0 m 3]
  | .vscan f g vd va m => [encV3 (0x28 + f.toNat) g vd.toNat va.toNat 0 m 4]
  | .vscanx f g vd va m => [encV3 (0x28 + f.toNat) g vd.toNat va.toNat 0 m 5]
  | .vperm f g vd va vb m => [encV3 (0x28 + f.toNat) g vd.toNat va.toNat vb.toNat m 6]
  | .vshuf f g vd va vb m => [encV3 (0x28 + f.toNat) g vd.toNat va.toNat vb.toNat m 7]
  | .vrot f g vd va vb m => [encV3 (0x28 + f.toNat) g vd.toNat va.toNat vb.toNat m 8]
  | .vzip f g vd va vb m => [encV3 (0x28 + f.toNat) g vd.toNat va.toNat vb.toNat m 9]
  | .vunzip f g vd va vb m => [encV3 (0x28 + f.toNat) g vd.toNat va.toNat vb.toNat m 10]
  | .vbcl f g vd va vb m => [encV3 (0x28 + f.toNat) g vd.toNat va.toNat vb.toNat m 11]
  | .vectorLong g vd va vb m op fmt rnd => [encV3 0x3B g vd.toNat va.toNat vb.toNat m op.sf, encVec1 fmt rnd op.map 0 0]
  | .vcvt g vd va p m fmt rnd fmt2 => [encV3 0x3B g vd.toNat va.toNat p.toNat m 0, encVec1 fmt rnd 2 fmt2.code fmt2.ffsel]
  | .vquant g vd va p fmt rnd fmt2 => [encV3 0x3B g vd.toNat va.toNat p.toNat 0 1, encVec1 fmt rnd 2 fmt2.code fmt2.ffsel]
  | .vdequant g vd va p fmt rnd fmt2 => [encV3 0x3B g vd.toNat va.toNat p.toNat 0 2, encVec1 fmt rnd 2 fmt2.code fmt2.ffsel]
  | .vamax g vd va m fmt rnd => [encV3 0x3B g vd.toNat va.toNat 0 m 3, encVec1 fmt rnd 2 0 0]
  | .vld g vd a tok m fmt rt imm => [encVm g vd a.toNat 0 tok m 0, encVm1 fmt 0 rt imm]
  | .vlds g vd a b tok m fmt rt imm => [encVm g vd a.toNat b.toNat tok m 0, encVm1 fmt 1 rt imm]
  | .vldx g vd a vb tok m fmt rt imm => [encVm g vd a.toNat vb.toNat tok m 0, encVm1 fmt 2 rt imm]
  | .vst g vd a tok m fmt rt imm => [encVm g vd a.toNat 0 tok m 1, encVm1 fmt 0 rt imm]
  | .vsts g vd a b tok m fmt rt imm => [encVm g vd a.toNat b.toNat tok m 1, encVm1 fmt 1 rt imm]
  | .vstx g vd a vb tok m fmt rt imm => [encVm g vd a.toNat vb.toNat tok m 1, encVm1 fmt 2 rt imm]
  | .mma g acc a b fmt => [encMx 0x2C g acc.toNat a.toNat b.toNat fmt.code 0]
  | .mmaCk g acc a b fmt => [encMx 0x2C g acc.toNat a.toNat b.toNat fmt.code 1]
  | .mmaCo g acc a b fmt => [encMx 0x2C g acc.toNat a.toNat b.toNat fmt.code 2]
  | .mz g acc i32 => [encMx 0x2D g acc.toNat 0 0 (tileCode i32) 0]
  | .mld g acc a i32 => [encMx 0x2D g acc.toNat a.toNat 0 (tileCode i32) 1]
  | .mst g acc a i32 => [encMx 0x2D g acc.toNat a.toNat 0 (tileCode i32) 2]
  | .mdrain g acc a b fmt => [encMx 0x2D g acc.toNat a.toNat b.toNat fmt.code 3]
  | .cfgsel g n => [encMx 0x2E g n.toNat 0 0 0x10 0]
  | .xfmFwd g bsz vd va => [encSx g bsz vd.toNat va.toNat 0 0]
  | .xfmInv g bsz vd va => [encSx g bsz vd.toNat va.toNat 1 0]
  | .xfmPack g bsz vd va => [encSx g bsz vd.toNat va.toNat 2 0]
  | .xfmUnpack g bsz vd va => [encSx g bsz vd.toNat va.toNat 3 0]
  | .dtag g bsz a tag => [encSx g bsz a.toNat 0 4 tag.toNat]
  | .mmaC g acc a b bsz =>
    [0x30 * 2 ^ 26 + g.toNat * 2 ^ 23 + acc.toNat * 2 ^ 20 + a.toNat * 2 ^ 15 + b.toNat * 2 ^ 10 + bsz.code * 2 ^ 7]
  | .mmaG g acc a b fmt vi => [encMx 0x3D g acc.toNat a.toNat b.toNat fmt.code 0, vi.toNat * 2 ^ 27]
  | .mmaSp g acc a b fmt c pat =>
    [encMx 0x3D g acc.toNat a.toNat b.toNat fmt.code 1, c.toNat * 2 ^ 27 + pat.code * 2 ^ 24]
  | .cpNd g e a tok => [encCp g e 0 a 0 tok 0]
  | .cpCvt g e a tok rnd => [encCp g e 1 a 0 tok rnd.code]
  | .cpCrc g e a b tok => [encCp g e 2 a b.toNat tok 0]
  | .cpFill g e a b tok => [encCp g e 3 a b.toNat tok 0]
  | .cpAlias g e a tok => [encCp g e 4 a 0 tok 0]
  | .cpRtn g e a b tok => [encCp g e 5 a b.toNat tok 0]
  | .strSend g port b => [encS3 0x33 g 0 (30 + port.toNat) b.toNat 0]
  | .strRecv g d port => [encS3 0x33 g d.toNat (28 + port.toNat) 0 1]
  | .lnkStat g d a => [encS3 0x34 g d.toNat a.toNat 0 0]
  | .lnkPause g a => [encS3 0x34 g 0 a.toNat 0 1]
  | .lnkRemap g a b => [encS3 0x34 g 0 a.toNat b.toNat 2]
  | .lnkTrain g a b => [encS3 0x34 g 0 a.toNat b.toNat 3]
  | .lnkResume g a => [encS3 0x34 g 0 a.toNat 0 4]
  | .pwrBorrow g a b => [encS3 0x35 g 0 a.toNat b.toNat 0]
  | .pwrRepay g a b => [encS3 0x35 g 0 a.toNat b.toNat 1]
  | .pwrGate g a => [encS3 0x35 g 0 a.toNat 0 2]
  | .loop g a dist bound => [encLi g 0 a dist.toNat, bound.toNat]
  | .liLow g d imm => [encLi g 1 d 0, imm.toNat]
  | .liHigh g d imm => [encLi g 2 d 0, imm.toNat]
  | .adr g d off => [encLi g 3 d 0, off.toNat]
  | .unassignedEncoding w0 w1 long => if long then [w0.toNat, w1.toNat] else [w0.toNat]
  | .storePerformed .. => []
  | .instructionCompletion .. => []
  | .blockRelease .. => []
  | .forkRead .. => []
  | .forkRelease .. => []
  | .rampStart .. => []
  | .tickwExpiry .. => []
  | .detentStop .. => []
  | .fallbackRelease .. => []
  | .deadlineCommit .. => []
  | .doubleOverrun .. => []
  | .safeModeSwitch .. => []
  | .modeChangePoint .. => []
  | .modeRequestPending .. => []
  | .modeRequestLatch .. => []
  | .mmaCoRendezvous .. => []
  | .matrixStepEnd .. => []
  | .semWaitPass .. => []
  | .barWaitPass .. => []
  | .pubSwap .. => []
  | .strRecvPass .. => []
  | .commandStart .. => []
  | .engineStep .. => []
  | .tileWalk .. => []
  | .commandCompletion .. => []
  | .routineStart .. => []
  | .routineOverrun .. => []
  | .lp6Slot .. => []
  | .lp6Refresh .. => []
  | .lp6Delivery .. => []
  | .tick .. => []
  | .timeSample .. => []
  | .holdover .. => []
  | .regCtl .. => []
  | .regEpoch .. => []
  | .cwDfc .. => []
  | .cwFmt .. => []
  | .cwInject .. => []
  | .cwTfreeze .. => []
  | .freeze .. => []
  | .thaw .. => []
  | .hreq .. => []
  | .debugHalt .. => []
  | .cwDbgen .. => []
  | .rst .. => []
  | .partitionReset .. => []
  | .partitionResetClear .. => []
  | .partitionResetComplete .. => []
  | .scratchpadFlip .. => []
  | .cwXinj .. => []
  | .wake .. => []
  | .wakeComplete .. => []
  | .gateComplete .. => []
  | .powerGiverCheck .. => []
  | .powerTransferDone .. => []
  | .budgetUpdate .. => []
  | .linkSlot .. => []
  | .streamArrival .. => []
  | .spanArrival .. => []
  | .lateRecordArrival .. => []
  | .flitReplay .. => []
  | .laneFailure .. => []
  | .linkPauseEffect .. => []
  | .linkTrainDone .. => []
  | .linkResumeEffect .. => []
  | .deviceReset .. => []
  | .bind .. => []
  | .bindingComplete .. => []
  | .launch .. => []
  | .launchEffect .. => []
  | .reset .. => []
  | .hostTtsync .. => []
  | .modereq .. => []
  | .chpush .. => []
  | .chpop .. => []
  | .rtnload .. => []
  | .attest .. => []
  | .badop .. => []
  | .doorbell .. => []
  | .ringMap .. => []
  | .ringUnmap .. => []
  | .grantWrite .. => []
  | .fltTail .. => []
  | .coalesceWindowExpiry .. => []
  | .hostMemoryAccess .. => []
  | .debugPortAccess .. => []
  | .registerWrite .. => []
  | .softError .. => []
  | .linkClockLoss .. => []
  | .thermalShutdown .. => []

/-- Whether a constructor is an instruction of a control thread, with words of its own. -/
def Instr.isProgram (i : Instr) : Bool :=
  match i with
  | .unassignedEncoding .. => false
  | i => encode i != []

/-- Decode a list of one or two words. -/
def decodeList : List Nat → Dec
  | [w] => decodeWords w none
  | [w, x] => decodeWords w (some x)
  | _ => .error .truncated

/-- The four bytes of a word, the lowest address first (R49). -/
def bytesOf (w : Nat) : List Byte :=
  [BitVec.ofNat 8 w, BitVec.ofNat 8 (w / 2 ^ 8), BitVec.ofNat 8 (w / 2 ^ 16), BitVec.ofNat 8 (w / 2 ^ 24)]

/-- The instruction the decoder reads from bits numbered as the opcode table numbers them; the second word of a 64-bit
form counts on from the first, and the bits above `nbits` are zero. -/
def decodeTableWord (nbits w : Nat) : Option Instr :=
  let v := w % 2 ^ nbits
  match decodeBytes (bytesOf v ++ bytesOf (v / 2 ^ 32)) with
  | .ok i => some i
  | .error _ => none

end Sys2Proof
end

