-- ==== Sys2Proof/Machine/State.lean ====
section
/-! DEFINITION. The state of the device as plain data: every register, memory, queue and table the manual gives it, the
events that are due, and the state right after device reset. -/

namespace Sys2Proof.Machine

/-- A memory whose 64-bit words carry a check: its bytes as written, the bits of each word that an error has flipped, and
the words marked poisoned (R91, R309). Words are numbered from byte 0. -/
structure Ram where
  bytes : Mem := []
  err : SMap Word := []
  poison : SMap Bool := []
  deriving DecidableEq, Repr

/-- Trap causes (R292). -/
inductive Cause where
  | none | illegal | priv | align | loopbound | memerr | xlate | wprot | qscope | qempty | domain | fmt | overrun
  | doubleOverrun | trapi | brk | step | barflow | spill | kill | streamlate | ratecount
  deriving DecidableEq, Repr

/-- A hardware loop (R12): start and last word addresses, remaining count, active. -/
structure HwLoop where
  st : Nat := 0
  en : Nat := 0
  cnt : Nat := 0
  act : Bool := false
  deriving DecidableEq, Repr

/-- A configuration context (R164, R196): its format words and its spectral operand descriptions. -/
structure Ctx where
  fmta : BitVec 18 := 0
  fmtb : BitVec 18 := 0
  fmtc : BitVec 18 := 0
  sda : BitVec 21 := 0
  sdb : BitVec 22 := 0
  deriving DecidableEq, Repr

/-- Metadata of a vector register (R142), and with TY of a tile (R165). -/
structure Meta where
  tag : BitVec 2 := 0
  bsz : BitVec 3 := 0
  eoff : BitVec 8 := 0
  ty : Bool := false
  deriving DecidableEq, Repr

/-- A tile: its words by element index 64 i + j, and its metadata. -/
structure Tile where
  words : SMap (BitVec 32) := []
  info : Meta := {}
  deriving DecidableEq, Repr

/-- What an update of a cluster object or an atomic access does when it is performed (R93, R256, R257). -/
inductive Update where
  /-- Masked bytes of a store: address, byte, mask of the bits written. -/
  | store (bytes : List (Nat × Byte × Byte))
  /-- An atomic: the place a MEMERR names, and of an output port as d the place of its push. -/
  | amo (op : Nat) (addr : Nat) (dbl : Bool) (b expect : Word) (d : SReg) (place push : Nat)
  | sem (n : Nat) (b : Int)
  | barAdd (n : Nat) (b : Nat)
  | barSub (n b : Nat)
  deriving DecidableEq, Repr

/-- An access issued and not yet performed (R90, R95, R162): its stream, 8 for the array's, its memory, the cycle in which it
begins at its port, and the cycle in which it is performed. -/
structure Access where
  id : Nat
  starts : Nat
  strm : Nat
  space : Space
  strong : Bool
  tok : Nat
  due : Nat
  pc : Nat
  upd : Update
  deriving DecidableEq, Repr

/-- A copy command between its issue and its checks (R242): engine, operation, instruction words, PC, the cycle of the checks, a
register that carries a deferred fault, the register values, the descriptor, and the context's free-form words. -/
structure CopyAsk where
  eng : Nat
  op : Nat
  words : Word
  pc : Nat
  due : Nat
  dfr : Option SReg
  a : Word
  b : Word
  tok : Nat
  rnd : Rnd
  desc : List Word
  ff : List (BitVec 18)
  deriving DecidableEq, Repr

/-- Why a control thread cannot issue until something else happens. -/
inductive Wait where
  | none
  /-- `sem.wait` on a semaphore and its threshold (R256). -/
  | sem (n b : Nat)
  /-- `bar.wait` (R257). -/
  | bar (n : Nat)
  /-- `str.recv` into d from input port 28 or 29, with its PC (R320). -/
  | recv (d : SReg) (port pc : Nat)
  /-- `tickw` until its expiry (R119). -/
  | tickw
  /-- The copy commands of the engines in bits 0 and 1 of a mask, the array's work in bit 2 (R232, R234). -/
  | copies (mask : BitVec 3)
  /-- The copy commands of a token (R235). -/
  | token (k : Nat)
  /-- `dtag` with a word from a port: the metadata for a tile, or else for a vector register, once earlier writes to it are done
  (R197). -/
  | tag (tile : Bool) (idx : Nat) (info : Meta)
  /-- `ttsync` of a tensor or all (R229): the accesses known at issue end at the cycle. -/
  | sync (tid : Nat) (all : Bool) (upTo : Nat)
  /-- `pub` (R261): buffer, count and the upper doubleword of the entry; the accesses known at issue end at the cycle. -/
  | pub (buf count : Nat) (hi : Word) (ready : Nat)
  /-- A copy command whose descriptor is read (R242). -/
  | copy (x : CopyAsk)
  deriving DecidableEq, Repr

/-- An exact value: `±(m + δ) × 2^e`, with 0 < δ < 1 where `more` is set and δ = 0 otherwise. -/
inductive Num where
  | nan
  | inf (neg : Bool)
  | fin (neg : Bool) (m : Nat) (e : Int) (more : Bool)
  deriving DecidableEq, Repr

/-- What a chunk of products has read (R134, R174): lines of A and of B along k as values, a complex value as its real and
imaginary parts, and, of a sparse product, for each row of A the values of each column of B that its pattern selects. -/
structure Chunk where
  a : List (List Num) := []
  b : List (List Num) := []
  perRow : List (List (List Num)) := []
  deriving DecidableEq, Repr

/-- Matrix operations with their operand words, read at issue (R165, R169); of `mdrain` the byte of its amax word in the slice and
its offset in the share, if it has one; of `mma.g` the row indices. -/
inductive MatOp where
  | zero | load (w : Word) | save (w : Word) | drain (w : Word) (amax : Option (Nat × Nat)) (fmt : Fmt)
  | mma (ck : Bool) (a b : Word) (fmt : Fmt)
  | gather (a b : Word) (fmt : Fmt) (rows : List Nat)
  | sparse (a b maddr : Word) (fmt : Fmt) (pat : Pat)
  | complex (a b : Word) (bsz : Bsz)
  | coop (a b : Word) (fmt : Fmt)
  deriving DecidableEq, Repr

/-- An instruction in the sequencer's hands (R172 to R174). -/
structure SeqOp where
  op : MatOp
  acc : Nat
  /-- The context as it stood at issue. -/
  ctx : Ctx
  /-- TY of its tile at issue. -/
  ty : Bool := false
  pc : Nat
  issued : Nat
  /-- Work start, none yet (0) while an `mma.co` waits for its partners; cycles of work. -/
  ws : Nat := 0
  n : Nat := 0
  /-- Cycles at full rate, table overhead, reduction length, first ramp cycle (R173). -/
  full : Nat := 0
  extra : Nat := 0
  k : Nat := 0
  ramp : Nat := 0
  /-- Steps ended; values of k, or stored rows, done. -/
  step : Nat := 0
  done : Nat := 0
  /-- Values of k read, and the operands of the chunk still open (R174). -/
  read : Nat := 0
  part0 : Chunk := {}
  flags : BitVec 8 := 0
  /-- Lowest scratchpad address beyond the carve-out. -/
  oor : Option Nat := none
  /-- Rows stored by completed steps, written when the work ends (R172). -/
  rows : List (Nat × Byte × Byte) := []
  /-- Largest magnitude so far, as an FP32 pattern (R177). -/
  big : Nat := 0
  /-- Of an `mma.co` in a set (R183): its ordinal, the cells that hold A and B, and of a K split whether the partial stands in a
  tile apart, as that of every member but 0 does, that tile, in the end the joined one, and whether the partials are joined. -/
  ordinal : Nat := 0
  aCell : Nat := 0
  bCell : Nat := 0
  split : Bool := false
  apart : Bool := false
  part : SMap (BitVec 32) := []
  joined : Bool := false
  deriving DecidableEq, Repr

/-- A vector load whose port cycles go on (R148, R162): its register, the cycle after its last, the register before it, and for
each port cycle its number and the register bits it serves. -/
structure VLoad where
  reg : Nat
  upTo : Nat
  old : BitVec 2048
  parts : List (Nat × BitVec 2048)
  deriving DecidableEq, Repr

/-- Run state of a control thread (R24, R303): idle, running, held by a debug halt, or past its `done` and waiting for the
rest of its set. -/
inductive Run where
  | idle | running | held | finished
  deriving DecidableEq, Repr

/-- A write an engine has moved and that is not performed (R238): destination kind (0 scratchpad, 1 slice), place, cycle,
masked bytes, words it leaves poisoned. -/
structure Write where
  id : Nat
  kind : Nat
  place : Nat
  due : Nat
  bytes : List (Nat × Byte × Byte)
  poison : List Nat
  deriving DecidableEq, Repr

/-- Where a beat lies on a side: nowhere (out of range), at a bit of a memory, beyond the share at an offset, or at a bit of a
tile. -/
inductive Loc where
  | out | mem (bit : Nat) | far (ofs : Nat) | tile (t bit : Nat)
  deriving DecidableEq, Repr

/-- A beat (R241): how many elements, and where its first lies on each side. -/
structure Beat where
  n : Nat
  src : Loc
  dst : Loc
  deriving DecidableEq, Repr

/-- A line of a tile delivered to an engine: the tile, the line in it, its 64 bytes, and its words that are poisoned. -/
structure Line where
  tile : Nat
  idx : Nat
  bytes : List Byte
  poison : List Nat
  deriving DecidableEq, Repr

/-- A copy command (R239 to R252) from its queueing to its completion. -/
structure Cmd where
  id : Nat
  eng : Nat
  op : Nat
  pc : Nat
  issue : Nat
  tok : Nat
  rnd : Rnd
  b : Word
  desc : List Word
  /-- The free-form words CW.FMTA to CW.FMTC as the issuing context held them. -/
  ff : List (BitVec 18)
  started : Bool := false
  /-- The earliest cycle of its start. -/
  h : Nat
  /-- Beats to move; tiles to translate, each with its side (true for the destination). -/
  beats : List Beat := []
  tiles : List (Bool × Nat) := []
  /-- Versions of the tensors it names, resolved at the start (R260, R277): source, destination. -/
  srcVer : Nat := 0
  dstVer : Nat := 0
  /-- A walk is asked for or in progress; the cycle in which it ends, once it has its slot (R223). -/
  walking : Option (Option Nat) := none
  /-- Source tiles whose lines are asked for, and the lines delivered and not used up. -/
  asked : List Nat := []
  lines : List Line := []
  /-- The line of a tile being written, with its frame, and its bytes so far, with poison. -/
  held : List (Nat × Byte × Byte) := []
  heldAt : Option (Nat × Nat × Nat) := none
  heldPoison : List Nat := []
  crc : BitVec 32 := 0
  /-- Bits of a byte not yet whole for the CRC: value and count. -/
  crcBits : Nat × Nat := (0, 0)
  flags : BitVec 8 := 0
  oor : Bool := false
  poisoned : Bool := false
  short : Bool := false
  /-- LP6 writes asked for and not performed. -/
  lpWrites : Nat := 0
  /-- The cycle of its last performed write, and the cycle its completion is set for. -/
  lastWrite : Nat := 0
  finishing : Option Nat := none
  /-- Of `cp.rtn`: 0 filling SB0, 1 running, 2 draining SB1 (R248); of a stream buffer, the bytes filled or drained. -/
  phase : Nat := 0
  sbPos : Nat := 0
  outLen : Nat := 0
  deriving DecidableEq, Repr

/-- A table entry (R107) with the stage and firing ordinal it serves and its link slots (R318): each a direction key and the
slot's cycle from the period's origin. -/
structure Entry where
  word : BitVec 128
  stage : Nat := 0
  k : Nat := 0
  slots : List (Nat × Nat) := []
  /-- Versions of renamed tensors that the firing reads and writes (R277): tensor, version read, version written. -/
  vers : List (Nat × Nat × Nat) := []
  /-- A table-store parity error (R109). -/
  bad : Bool := false
  deriving DecidableEq, Repr

/-- A cell: its control thread (R12, R18), vector unit (R139), array (R164), transform unit, escapement place and queues. The
routine core of an engine (R248) is one too. -/
structure Cell where
  dom : Nat := 0
  sreg : SMap Word := []
  dfb : SMap Bool := []
  pred : SMap Bool := []
  pc : Nat := 0
  loops : SMap HwLoop := []
  /-- Repeat counter, zero before the first issue (R88), and the count before it. -/
  rep : Nat := 0
  repPend : Option Nat := none
  cellix : BitVec 7 := 0
  block : Nat := 0
  fb : Bool := false
  sticky : BitVec 8 := 0
  /-- Flags set in the cycle `stickyAt` (R19). -/
  stickyNow : BitVec 8 := 0
  stickyAt : Nat := 0
  oor : BitVec 20 := 0
  dfc : Word := 0
  tcause : Cause := .none
  tdbg : Bool := false
  tval : Word := 0
  tpc : BitVec 16 := 0
  tblk : BitVec 16 := 0
  spovf : BitVec 23 := 0
  inject : Word := 0
  /-- Flips that `inject` has started (R312). -/
  injStarted : Bool := false
  /-- A link flip: flits the port has sent since the `inject`. -/
  injFlits : Nat := 0
  xinj : Word := 0
  xinjCount : Nat := 0
  spc : BitVec 16 := 0
  uec : BitVec 8 := 0
  ctxs : SMap Ctx := []
  ctx : BitVec 2 := 0
  vreg : SMap (BitVec 2048) := []
  vmeta : SMap Meta := []
  mask : SMap (BitVec 256) := []
  tiles : SMap Tile := []
  /-- Release images (R185). -/
  images : SMap Tile := []
  /-- Flipped bits of tile words (64-bit pairs), registers and masks; marks of poison (R309). -/
  accErr : SMap Word := []
  accPoison : SMap Bool := []
  regErr : SMap Word := []
  regPoison : SMap Bool := []
  sp : Ram := {}
  genV : BitVec 32 := 0
  genD : BitVec 32 := 0
  genX : BitVec 32 := 0
  /-- Code store (R51): words of each block, active and standby bank; marks of uncorrectable and flipped words. -/
  code : SMap (List (BitVec 32)) := []
  codeStandby : SMap (List (BitVec 32)) := []
  codeErr : SMap Word := []
  codePoison : SMap Bool := []
  /-- Limits of R207. -/
  limL : Nat := 0
  limC : Nat := 0
  limOB : Nat := 0
  limSOV : Nat := 0
  run : Run := .idle
  wait : Wait := .none
  firing : Nat := 0
  t : Nat := 0
  ready : SMap Nat := []
  pend : List Access := []
  seqr : List SeqOp := []
  /-- Whether a step-end event of the sequencer stands on the agenda. -/
  seqBusy : Bool := false
  /-- The cycle from which a debug halt holds the sequencer (R187). -/
  seqHeld : Option Nat := none
  stepNo : Nat := 0
  /-- Ordinal of the firing's next `mma.co` (R183). -/
  coNo : Nat := 0
  /-- First cycle of the array's ramp; none while it is idle (R115). -/
  ramp : Option Nat := none
  queue : List Cmd := []
  /-- Vector loads in progress (R148). -/
  vloads : List VLoad := []
  /-- Cycle by which every flag of an issued instruction is set (R22). -/
  flagsAt : Nat := 0
  /-- Cycle by which every issued vector and transform instruction has completed (R118, R148). -/
  vecAt : Nat := 0
  /-- Cycle by which every `ldsp` has written its destination (R16). -/
  ldspAt : Nat := 0
  /-- A halt is asked for: HREQ, or a single step with the issues left (R303, R304). -/
  hreq : Bool := false
  haltAt : Nat := 0
  sstep : Bool := false
  /-- First cycle a block may be released after a pass of domains (R23). -/
  clearUntil : Nat := 0
  /-- The fork decision of a set's first sound cell: the entry as read, 0 for BLK, 1 for ALT, 2 for a word that cannot be read, and
  the members that stay idle (R114, R109). -/
  fork : Option (Entry × Nat × List Nat) := none
  deriving DecidableEq, Repr

/-- What an engine held before the step it has just started: the cycle, the command's cell, and the parts that a step of a cell
stopped in that cycle gives back (R254). -/
structure Undo where
  cycle : Nat
  cell : Nat
  cache : List (Nat × Word)
  genC : BitVec 32
  sp : Ram
  deriving DecidableEq, Repr

/-- A copy engine's own state (R236): translation cache as (key, entry) from the most recently used, routine store as (RWCET, code),
routines loaded with the domains for which they have not taken effect (R249), the converter's generator, and the routine core, whose scratchpad is SB0 and SB1 (R248). -/
structure Engine where
  cache : List (Nat × Word) := []
  routines : SMap (Nat × List (BitVec 32)) := []
  routinesNext : SMap (Nat × List (BitVec 32) × List Nat) := []
  genC : BitVec 32 := 0
  core : Cell := {}
  /-- Writes moved and not performed. -/
  writes : List Write := []
  /-- Whether a step event stands on the agenda, and the first cycle the next step may start. -/
  busy : Bool := false
  nextStep : Nat := 0
  undo : Option Undo := none
  /-- Cell whose routine runs. -/
  owner : Option Nat := none
  deriving DecidableEq, Repr

/-- A cluster (R209, R255, R331). -/
structure Cluster where
  slice : Ram := {}
  sems : SMap (BitVec 32) := []
  bars : SMap (BitVec 32) := []
  cbc : BitVec 16 := 0
  gate : BitVec 2 := 0
  /-- First cycle a release is allowed, and the cycle in which its last wake completed (R116). -/
  allowed : Nat := 0
  wokenAt : Option Nat := none
  /-- Ramp starts already fixed. -/
  ramps : List Nat := []
  deriving DecidableEq, Repr

/-- What a request at an LP6 channel does: reads a line for an engine, reads a line of the transposed image of a tile with elements
of so many bits (R225), writes bytes of a line and leaves words poisoned, reads a
tile-table entry, or is a host's access to a doubleword. -/
inductive LpOp where
  | read
  | gather (w : Nat)
  | write (bytes : List (Nat × Byte × Byte)) (poison : List Nat)
  | walk
  | hostRead
  | hostWrite (v : Word)
  deriving DecidableEq, Repr

/-- Whose slots a request takes (R213, R253): its domain's own, service and unused ones, or service slots alone. -/
inductive LpClass where
  | owned | best | service
  deriving DecidableEq, Repr

/-- A request at an LP6 channel (R215): the cycle it is ready, the engine, cell and command it serves, the tensor, the tile and
the line in it, the address, whether that is a host bus address, and the cycles its completion takes beyond the slot's. -/
structure LpReq where
  id : Nat
  dom : Nat
  cls : LpClass
  ready : Nat
  eng : Nat := 0
  cell : Nat := 0
  cmd : Nat := 0
  tid : Nat := 0
  tile : Nat := 0
  idx : Nat := 0
  addr : Nat
  host : Bool := false
  extra : Nat := 0
  op : LpOp
  deriving DecidableEq, Repr

/-- Bytes of a record on their way over a ring link (R351): the cycle in which the expander delivers them, the record by domain,
channel and serial number, and the run of its bytes. -/
structure Seg where
  due : Nat
  dom : Nat
  chan : Nat
  uid : Nat
  first : Nat
  count : Nat
  deriving DecidableEq, Repr

/-- The status of a link port (R325) with what the model keeps beside it. -/
structure Port where
  st : BitVec 3 := 0
  alert : Bool := false
  modon : BitVec 4 := 0xF
  modhalf : BitVec 4 := 0
  retry : BitVec 16 := 0
  crce : BitVec 16 := 0
  spare : BitVec 8 := 0
  late : BitVec 8 := 0
  /-- Spares used per module and direction (index 2 module + direction). -/
  used : SMap Nat := []
  /-- One-way latency M of a span port (R343). -/
  lat : Nat := 0
  /-- Replays in a slot, and the cycle in which that slot starts (R324). -/
  replays : Nat := 0
  replayAt : Nat := 0
  /-- The start of the last slot that carried a scheduled record, and records that become late at the end of the slot in progress
  (R319). -/
  busyAt : Option Nat := none
  lateNow : Nat := 0
  /-- What it has sent and the other end's expander has not delivered, in order. -/
  segs : List Seg := []
  deriving DecidableEq, Repr

/-- A die (R212, R302, R329). -/
structure Die where
  lp6 : Ram := {}
  /-- Flipped bits of LP6 lines, by line (R212). -/
  lineErr : SMap (BitVec 512) := []
  reqs : List LpReq := []
  /-- Reads placed in a slot and not delivered. -/
  inFlight : List LpReq := []
  /-- Channels with a slot event on the agenda. -/
  slotting : SMap Bool := []
  lpc : BitVec 16 := 0
  dbgctl : BitVec 11 := 0
  bud : BitVec 11 := 340
  pend : Int := 0
  loanL : Int := 0
  loanR : Int := 0
  last : BitVec 2 := 0
  /-- The neighbours, right or left, whose decreases a positive PEND waits for, each with the cycle of its report (R330). -/
  givers : List (Bool × Option Nat) := []
  /-- Units that the die has agreed to give in transfers that are not done yet (R330). -/
  promised : Nat := 0
  /-- The key pair, public and secret, that the die derived at boot (R347). -/
  identity : List Byte × List Byte := ([], [])
  deriving DecidableEq, Repr

/-- Grant registers of a domain (R333). -/
structure Grant where
  cells : BitVec 256 := 0
  ggran : SMap Nat := []
  /-- Granules taken of each slice, ascending. -/
  granules : SMap (List Nat) := []
  semBase : Nat := 0
  semCnt : Nat := 0
  barBase : Nat := 0
  barCnt : Nat := 0
  carve : Nat := 0
  lp6 : SMap Nat := []
  link : SMap Nat := []
  span : SMap Nat := []
  deriving DecidableEq, Repr

/-- A host ring (R335, R338, R339). -/
structure Ring where
  reg : Word := 0
  head : BitVec 32 := 0
  tail : BitVec 32 := 0
  saved : BitVec 32 := 0
  shadow : Option (BitVec 32) := none
  slot : Option Nat := none
  stopped : Bool := false
  busy : Bool := false
  /-- A `ttsync` command of the ring at work (R229): n + 1 while it waits for the host's writes numbered below n, 0 once it has
  invalidated. -/
  syncing : Option Nat := none
  deriving DecidableEq, Repr

/-- A block entry of an image (R48). -/
structure BlockInfo where
  id : Nat := 0
  fbk : Nat := 0
  logsz : Nat := 0
  exit : Bool := false
  ramp : Bool := false
  wcet : Nat := 0
  code : List (BitVec 32) := []
  tiles : List (Nat × Bool × Nat × Nat) := []
  copies : List Nat := []
  deriving DecidableEq, Repr

/-- A stage record (R48) with its placement (R279): first cell, none before step 6. -/
structure Stage where
  blk : Nat
  alt : Nat
  fix : Nat
  at0 : Option Nat := none
  deriving DecidableEq, Repr

/-- A channel record (R48) with what the binding gives it (R267, R278, R316). Stage 0xFFFF is the host, 0xFFFE a span. -/
structure Chan where
  fstg : Nat
  fport : Nat
  tport : Nat
  tstg : Nat
  fmt : Nat
  scope : Nat
  push : Nat
  pop : Nat
  size : Nat
  init : Nat
  carry : Bool
  dataOfs : Nat
  cap : Nat := 0
  kind : Nat := 0
  /-- Share cluster or cell of the consumer side, and its base; tensor id of a die-scope channel. -/
  home : Nat := 0
  base : Nat := 0
  /-- Share cluster and base of the staging side of a package or system channel. -/
  phome : Nat := 0
  pbase : Nat := 0
  deriving DecidableEq, Repr

/-- The tables of one mode (R105, R106, R214, R315): period, columns by cell, slot maps. -/
structure Table where
  id : Nat := 0
  period : Nat := 1
  safe : Bool := false
  linkdeg : Bool := false
  peak : Nat := 340
  stages : List Stage := []
  chans : List Chan := []
  columns : SMap (List Entry) := []
  /-- OWN of LP6 channel 8 d + ch, of link direction 2 L + dir, of span direction 2 q + dir + 8. -/
  lp6Own : SMap (BitVec 512) := []
  linkOwn : SMap (BitVec 512) := []
  /-- Arrival cycles A of each span channel's firings (R344): channel, firing, cycle. -/
  arrivals : List (Nat × Nat × Nat) := []
  deriving DecidableEq, Repr

/-- A publishable buffer (R260, R266): writer block, kind, front version and the entries of both versions. -/
structure PubBuf where
  writer : Nat
  kind : Bool
  front : Bool := false
  entry0 : BitVec 128 := 0
  entry1 : BitVec 128 := 0
  deriving DecidableEq, Repr

/-- A binding (R272, R281): the image's blocks, the tables of its modes, bound tensor descriptors, buffers and limits. -/
structure Binding where
  blocks : SMap BlockInfo := []
  tables : List Table := []
  tensors : SMap (BitVec 512) := []
  /-- Tile-table address of each version of each tensor (R277). -/
  versions : SMap (List Nat) := []
  /-- Tile tables of cluster-homed tensors as bound: cluster, share offset, entries. -/
  shareTabs : List (Nat × Nat × List Word) := []
  /-- Tile tables in LP6: die, address, entries. -/
  dieTabs : List (Nat × Nat × List Word) := []
  /-- Initial contents of tensors and channels: the DATA section. -/
  data : List Byte := []
  tensorData : SMap (Nat × Nat) := []
  pubs : SMap PubBuf := []
  /-- L, C, OB and SOV of each cell (R207). -/
  limits : SMap (Nat × Nat × Nat × Nat) := []
  /-- LP6 frames held: die, base in 4 KiB units, count. -/
  frames : List (Nat × Nat × Nat) := []
  image : List Byte := []
  /-- The arrival sections of the binding's report (R344). -/
  report : List Byte := []
  writtenAt : Nat := 0
  deriving DecidableEq, Repr

/-- A committed record on its way (R316, R317): its serial number on the channel, its place in the producer's share, the firing's
ordinal in the period, what has left of it with the poison of each byte, and whether it is late (R319). -/
structure Staged where
  uid : Nat := 0
  ofs : Nat
  k : Nat
  sent : List (Byte × Bool) := []
  late : Bool := false
  /-- The end of the slot that it has missed. -/
  lateAt : Nat := 0
  deriving DecidableEq, Repr

/-- What a binding comes to (R272): its status code, its 32-byte status record, and on success the tables. -/
structure BindResult where
  status : Nat
  record : List Byte
  tables : Option Binding := none
  deriving DecidableEq, Repr

/-- A channel in being (R268, R269, R316 to R319): committed values, counts, records on their way. -/
structure ChanState where
  queue : List Word := []
  head : Nat := 0
  tail : Nat := 0
  drop : Nat := 0
  /-- The producer's side of a channel whose records cross. -/
  phead : Nat := 0
  ptail : Nat := 0
  pdrop : Nat := 0
  staged : List Staged := []
  /-- The serial number of the next record, and the firings of the period that have committed theirs. -/
  serial : Nat := 0
  commits : List Nat := []
  /-- Records whose last byte leaves in the slot in progress: HEAD grows by them at its end. -/
  leaving : Nat := 0
  /-- Records that have left and not arrived; late ones apart. -/
  inFlight : List Staged := []
  lateFlight : List Staged := []
  /-- Records that are missing at the consumer, and span records arrived for the firing next due. -/
  owed : Nat := 0
  got : Nat := 0
  /-- Bytes of a span record that the port has delivered in earlier slots than its last. -/
  part : List (Byte × Bool) := []
  deriving DecidableEq, Repr

/-- A firing (R111 to R120, R296, R297): a cell set running one block of one entry. -/
structure Firing where
  id : Nat
  dom : Nat
  base : Nat
  logsz : Nat
  entry : Entry
  blk : Nat
  fb : Bool
  start : Nat
  deadline : Nat
  release : Nat
  /-- What `fsel` reads (R120). -/
  fsel : Word
  doneBy : List Nat := []
  ended : Bool := false
  stopped : Bool := false
  cause : Cause := .none
  /-- Tentative pops of q0 and q1, pushes of q2 and q3 in order (R269, R270). -/
  pop0 : Nat := 0
  pop1 : Nat := 0
  push2 : List Word := []
  push3 : List Word := []
  /-- Records each input channel held at a fallback's release (R319). -/
  held0 : Nat := 0
  held1 : Nat := 0
  /-- Channels whose STREAMLATE stopped the firing or, in a fallback, the stopped firing (R319). -/
  late : List Nat := []
  /-- Members that have trapped in this cycle, whose words stand; causes that an engine or a sequencer has raised in it: cell,
  PC, cause, value (R294). -/
  trapped : List Nat := []
  causes : List (Nat × Nat × Cause × Word) := []
  /-- Members that a bad entry of their column keeps idle (R109). -/
  out : List Nat := []
  /-- The mode request that stands: mode, sender (R301). -/
  request : Option (Nat × Nat) := none
  reqAt : Nat := 0
  bars : List Nat := []
  deriving DecidableEq, Repr

/-- A replica mark (R222): the frame's die, base and size in 4 KiB units, and the tile it holds. -/
structure Mark where
  die : Nat
  base : Nat
  count : Nat
  tid : Nat
  tile : Nat
  deriving DecidableEq, Repr

/-- A domain: partitions 0 to 7 and the supervisor, 8 (R332 to R341, R299 to R306). -/
structure Domain where
  grant : Grant := {}
  state : BitVec 2 := 0
  gerr : Bool := false
  ren : BitVec 8 := 0
  rings : SMap Ring := []
  /-- The command ring that is looked at next, and the one whose entry the hub is about to read (R337). -/
  turn : Nat := 0
  reading : Option Nat := none
  cplReg : SMap Word := []
  cplTail : SMap (BitVec 32) := []
  cplHead : SMap (BitVec 32) := []
  fltReg : Word := 0
  fltTail : BitVec 32 := 0
  fltHead : BitVec 32 := 0
  fltLost : BitVec 32 := 0
  coal : BitVec 32 := 0
  /-- Unsignalled entries of the completion rings and of the fault ring, and the windows' ends. -/
  unsigC : Nat := 0
  unsigF : Nat := 0
  winC : Option Nat := none
  winF : Option Nat := none
  /-- Recent-fault sets by die (R227): (tensor, tile), repeats, completion of the first `ttsync` that covers it; most recent
  first. -/
  faults : SMap (List ((Nat × Nat) × Nat × Option Nat)) := []
  /-- Synchronisations that have not completed: tensor, all of them, and the cycle of completion (R229). -/
  syncs : List (Nat × Bool × Nat) := []
  active : Option Binding := none
  standby : Option Binding := none
  /-- A binding in progress: ring, tag, and what it comes to (R273). -/
  binding : Option (Nat × Nat × BindResult) := none
  mode : Nat := 0
  /-- The cycle T0 tk + 0 cyc in which the table took effect; a thaw moves it (R112, R305). -/
  t0 : Nat := 0
  running : Bool := false
  /-- A launch accepted: ring, tag, mode, start tick, seed (R336). -/
  launching : Option (Nat × Nat × Nat × Nat × BitVec 32) := none
  seed : BitVec 32 := 0
  /-- Ordinals, from the effect of the table, of the next mode-change point and of the point that the next latch serves. -/
  pointNo : Nat := 1
  latchNo : Nat := 1
  /-- The standby binding has not taken effect (R273), and the first point that may take it (R299). -/
  fresh : Bool := false
  bindReady : Option Nat := none
  /-- Pending request, requests latched by the point they serve, the request kept apart; a link-degraded order: mode and point
  (R301, R327). -/
  pending : Option Nat := none
  pendingAt : Nat := 0
  latched : List (Nat × Nat) := []
  apart : Option Nat := none
  degraded : Option (Nat × Nat) := none
  /-- Cycle from which the phase stands still, and the phase events held (R305). -/
  frozen : Option Nat := none
  thawAt : Option Nat := none
  heldEvents : List (Nat × Instr) := []
  firings : List Firing := []
  /-- By cell, the cycle of the phase to which a corrupt table entry holds it idle (R109). -/
  heldTo : SMap Nat := []
  chans : SMap ChanState := []
  /-- Replica marks of its tensors' frames (R222). -/
  marks : List Mark := []
  /-- Reset commands that wait: ring, tag, and the cycle in which each completes; the cycle r of the reset in progress (R306). -/
  resetWaits : List (Nat × Nat × Nat) := []
  resetAt : Option Nat := none
  deriving DecidableEq, Repr

/-- The hub: regulator (R99 to R105), debug and freeze words (R302), boot (R345), configuration record (R346), span ports,
queue slots, interrupts, host memory. -/
structure Hub where
  src : BitVec 2 := 0
  en : Bool := false
  holdth : BitVec 16 := 1024
  epoch : Word := 0
  rstate : BitVec 2 := 0
  cset : Bool := false
  /-- A phase error has been measured since device reset. -/
  sampled : Bool := false
  pherr : BitVec 20 := 0
  fofs : BitVec 24 := 0
  age : BitVec 16 := 0
  /-- Consecutive ticks within the bound of R105. -/
  within : Nat := 0
  /-- The clock, tick count times 4,096 plus cycle, minus the model's `now`, modulo 2^60. -/
  clockOfs : Nat := 0
  anyTable : Bool := false
  /-- CW.DBGEN as written, and as in effect 32 cycles later (R302). -/
  dbgen : BitVec 16 := 0
  dbgenNow : BitVec 16 := 0
  tfreeze : BitVec 8 := 0
  dieMap : BitVec 40 := 0
  stage : BitVec 4 := 0
  berr : BitVec 4 := 0
  config : List Byte := []
  firmware : List Byte := []
  dieFirmware : List (List Byte) := []
  imageKeys : List (List Byte) := []
  /-- The identity public keys enrolled for each die, and for the hub; the hub's own pair (R345, R346, R348). -/
  dieKeys : List (List Byte) := []
  hubKey : List Byte := []
  identity : List Byte × List Byte := ([], [])
  spanNumber : Nat := 0
  spanRing : Bool := false
  spanCount : Nat := 1
  lp6Gb : List Nat := []
  signature : BitVec 32 := 0
  /-- Ports: 2 d + p for ring port p of die d, 8 + d for hub modules, 12 and 13 for span ports. -/
  ports : SMap Port := []
  slots : SMap (Nat × Nat) := []
  msix : SMap Nat := []
  /-- The first table of the device has taken effect, at this tick's start (R116). -/
  firstTable : Option Nat := none
  /-- The value of the last read by the host or the debug port, and whether it completed as an unsupported request (R328). -/
  readVal : BitVec 2048 := 0
  readUr : Bool := false
  up : Bool := false
  deriving DecidableEq, Repr

/-- An event that is due: its cycle, its place in the cycle, and the event. -/
structure Timed where
  due : Nat
  prio : Nat
  ev : Instr
  deriving DecidableEq, Repr

/-- The device. `now` counts cell cycles since reset; `cur` is the cell whose instruction `exec` issues (cells 0 to 255, and
256 + e for the routine core of engine e); `free` counts the free values taken (log 4). -/
structure State where
  now : Nat := 0
  cur : Nat := 0
  agenda : List Timed := []
  cells : SMap Cell := []
  clusters : SMap Cluster := []
  engines : SMap Engine := []
  dies : SMap Die := []
  doms : SMap Domain := []
  hub : Hub := {}
  host : Mem := []
  nextId : Nat := 1
  free : Nat := 0
  deriving DecidableEq, Repr

/-- Why the machine stops. -/
inductive Fault where
  /-- `step`, when no cell can issue and no event is due: nothing more happens without an input (safe). -/
  | nothingDue
  /-- `step`, after loss of the link clock or thermal shutdown (R117): every clock has stopped (safe). -/
  | clocksStopped
  deriving DecidableEq, Repr

/-- Why the model gives no meaning. -/
inductive Refusal where
  /-- Raised by an arm of `exec` for an instruction without a meaning in this model (safe). -/
  | notModelled (mnemonic : String)
  deriving DecidableEq, Repr

/-- The device right after reset: nothing runs, every memory and register as logs 1 and 2 say, the power words at 340
MU, and the first tick boundary on the agenda. -/
def State.reset : State :=
  { agenda := [⟨tickCycles, 0, .tick⟩], hub := { up := true } }

end Sys2Proof.Machine
end

