-- ==== Sys2Proof/Machine/Mem.lean ====
section
/-! DEFINITION. The operations on sparse tables and on memories: one byte at a time, wider accesses in one byte order (R4),
and the check bits of R91 and R309. -/

namespace Sys2Proof.Machine

/-- The value at a key; the default where none is listed. -/
def SMap.get {α : Type} (d : α) (m : SMap α) (k : Nat) : α :=
  match m with
  | [] => d
  | (j, v) :: r => if j = k then v else SMap.get d r k

/-- List a value at a key, keeping keys rising. -/
def SMap.put {α : Type} (m : SMap α) (k : Nat) (v : α) : SMap α :=
  match m with
  | [] => [(k, v)]
  | (j, w) :: r => if k < j then (k, v) :: (j, w) :: r else if j = k then (k, v) :: r else (j, w) :: SMap.put r k v

/-- Drop a key. -/
def SMap.del {α : Type} (m : SMap α) (k : Nat) : SMap α :=
  match m with
  | [] => []
  | (j, w) :: r => if j = k then SMap.del r k else (j, w) :: SMap.del r k

/-- Write a value; the default is not listed. -/
def SMap.set {α : Type} [DecidableEq α] (d : α) (m : SMap α) (k : Nat) (v : α) : SMap α :=
  if v = d then SMap.del m k else SMap.put m k v

/-- Keys strictly rise from a bound. -/
def SMap.risesFrom {α : Type} (b : Nat) (m : SMap α) : Bool :=
  match m with
  | [] => true
  | (k, _) :: r => decide (b ≤ k) && SMap.risesFrom (k + 1) r

/-- The canonical form: keys strictly rising and no default listed. -/
def SMap.canon {α : Type} [DecidableEq α] (d : α) (m : SMap α) : Bool :=
  SMap.risesFrom 0 m && m.all (fun e => decide (e.2 ≠ d))

/-! Bytes. -/

/-- What an address that is not listed reads as (log 2). -/
def emptyByte : Byte := 0

def Mem.byte (m : Mem) (a : Nat) : Byte := SMap.get emptyByte m a
def Mem.setByte (m : Mem) (a : Nat) (b : Byte) : Mem := SMap.set emptyByte m a b
/-- The canonical form of a memory. -/
def Mem.wf (m : Mem) : Bool := SMap.canon emptyByte m

/-- `n` bytes from an address. -/
def Mem.bytesAt (m : Mem) (a n : Nat) : List Byte :=
  match n with
  | 0 => []
  | n + 1 => Mem.byte m a :: Mem.bytesAt m (a + 1) n

/-- Little-endian number of a byte list (R4). -/
def leNat (bs : List Byte) : Nat :=
  match bs with
  | [] => 0
  | b :: r => b.toNat + 256 * leNat r

/-- The `n` bytes of a number, lowest first. -/
def leBytes (n v : Nat) : List Byte :=
  match n with
  | 0 => []
  | n + 1 => BitVec.ofNat 8 v :: leBytes n (v / 256)

def Mem.readN (m : Mem) (a n : Nat) : Nat := leNat (Mem.bytesAt m a n)

def Mem.writeBytes (m : Mem) (a : Nat) (bs : List Byte) : Mem :=
  match bs with
  | [] => m
  | b :: r => Mem.writeBytes (Mem.setByte m a b) (a + 1) r

def Mem.writeN (m : Mem) (a n v : Nat) : Mem := Mem.writeBytes m a (leBytes n v)

/-- One masked byte over what stands. -/
def Mem.mergeByte (m : Mem) (a : Nat) (b mask : Byte) : Mem :=
  Mem.setByte m a ((Mem.byte m a &&& ~~~mask) ||| (b &&& mask))

def Mem.mergeAll (m : Mem) (ws : List (Nat × Byte × Byte)) : Mem :=
  match ws with
  | [] => m
  | (a, b, k) :: r => Mem.mergeAll (Mem.mergeByte m a b k) r

/-- Whole bytes as masked writes. -/
def fullBytes (a : Nat) (bs : List Byte) : List (Nat × Byte × Byte) :=
  match bs with
  | [] => []
  | b :: r => (a, b, 0xFF) :: fullBytes (a + 1) r

/-! Check bits (R91, R309). -/

/-- Number of one bits among the low `n`. -/
def popcount (n v : Nat) : Nat :=
  match n with
  | 0 => 0
  | n + 1 => v % 2 + popcount n (v / 2)

/-- Numbers from `a` up, `n` of them. -/
def upFrom (a n : Nat) : List Nat :=
  match n with
  | 0 => []
  | n + 1 => a :: upFrom (a + 1) n

/-- The 64-bit words that `n` bytes from `a` touch. -/
def wordsOf (a n : Nat) : List Nat := if n = 0 then [] else upFrom (a / 8) ((a + n - 1) / 8 - a / 8 + 1)

/-- A word no read can deliver: poisoned, or with two flipped bits or more. -/
def Ram.bad (r : Ram) (w : Nat) : Bool :=
  SMap.get false r.poison w || decide (2 ≤ popcount 64 (SMap.get 0 r.err w).toNat)

def Ram.anyBad (r : Ram) (a n : Nat) : Bool := (wordsOf a n).any (Ram.bad r)

/-- Words with one flipped bit among those an access touches: each is corrected and counted. -/
def Ram.oneBit (r : Ram) (a n : Nat) : List Nat :=
  (wordsOf a n).filter fun w => !Ram.bad r w && decide (SMap.get 0 r.err w ≠ 0)

/-- Rewrite words corrected. -/
def Ram.scrub (r : Ram) (ws : List Nat) : Ram :=
  match ws with
  | [] => r
  | w :: rest => Ram.scrub { r with err := SMap.del r.err w } rest

/-- Uncorrectable words not yet marked among those an access touches: each is marked poisoned and counted in UEC. -/
def Ram.newBad (r : Ram) (a n : Nat) : List Nat :=
  (wordsOf a n).filter fun w => Ram.bad r w && !SMap.get false r.poison w

def Ram.mark (r : Ram) (ws : List Nat) : Ram :=
  match ws with
  | [] => r
  | w :: rest => Ram.mark { r with err := SMap.del r.err w, poison := SMap.put r.poison w true } rest

def Ram.readN (r : Ram) (a n : Nat) : Nat := Mem.readN r.bytes a n

/-- Words wholly covered by `n` bytes from `a`. -/
def wholeWords (a n : Nat) : List Nat := (wordsOf a n).filter fun w => decide (a ≤ 8 * w) && decide (8 * w + 8 ≤ a + n)

/-- Fresh check bits for words written whole. -/
def Ram.fresh (r : Ram) (ws : List Nat) : Ram :=
  match ws with
  | [] => r
  | w :: rest => Ram.fresh { r with err := SMap.del r.err w, poison := SMap.del r.poison w } rest

/-- Whether `n` bytes from `a` write part of an undeliverable word. -/
def Ram.partBad (r : Ram) (a n : Nat) : Bool := (wordsOf a n).any fun w => Ram.bad r w && !(wholeWords a n).contains w

/-- Words with one flipped bit of which `n` bytes from `a` write a part. -/
def Ram.partOne (r : Ram) (a n : Nat) : List Nat := (Ram.oneBit r a n).filter fun w => !(wholeWords a n).contains w

/-- Whether the first eight masked writes of a list write one word whole, lowest byte first. -/
def wordRun (ws : List (Nat × Byte × Byte)) : Bool :=
  match ws with
  | (a, _, ka) :: (b, _, kb) :: (c, _, kc) :: (d, _, kd) :: (e, _, ke) :: (f, _, kf) :: (g, _, kg) :: (h, _, kh) :: _ =>
    a % 8 == 0 && b == a + 1 && c == a + 2 && d == a + 3 && e == a + 4 && f == a + 5 && g == a + 6 && h == a + 7 &&
    [ka, kb, kc, kd, ke, kf, kg, kh].all fun k => k == 0xFF
  | _ => false

/-- Words that runs of a list write whole, and the writes outside such runs; `skip` writes belong to the run before. -/
def splitRuns (skip : Nat) (ws : List (Nat × Byte × Byte)) : List Nat × List (Nat × Byte × Byte) :=
  match ws with
  | [] => ([], [])
  | w :: r =>
    match skip with
    | k + 1 => splitRuns k r
    | 0 =>
      if wordRun (w :: r) then let z := splitRuns 7 r; (w.1 / 8 :: z.1, z.2)
      else let z := splitRuns 0 r; (z.1, w :: z.2)

/-- The bits of a byte that masked writes write. -/
def bitsWritten (a : Nat) (ws : List (Nat × Byte × Byte)) : Byte := ws.foldl (fun m w => if w.1 = a then m ||| w.2.2 else m) 0

/-- The words of which masked writes cover every bit. -/
def coveredWords (ws : List (Nat × Byte × Byte)) : List Nat :=
  let z := splitRuns 0 ws
  let starts := (z.2.filter fun w => w.1 % 8 == 0).map fun w => w.1 / 8
  z.1 ++ starts.filter fun k => (upFrom (8 * k) 8).all fun a => bitsWritten a z.2 == 0xFF

/-- Perform masked writes: whole words get fresh check bits, and their poison ends; part of a poisoned word is written
under a poison that stays. -/
def Ram.merge (r : Ram) (ws : List (Nat × Byte × Byte)) : Ram :=
  Ram.fresh { r with bytes := Mem.mergeAll r.bytes ws } (coveredWords ws)

def Ram.writeN (r : Ram) (a n v : Nat) : Ram :=
  Ram.fresh { r with bytes := Mem.writeN r.bytes a n v } (wholeWords a n)

/-- Write one byte of plain data, check bits fresh where nothing is wrong with its word. -/
def Ram.setByte (r : Ram) (a : Nat) (b : Byte) : Ram := { r with bytes := Mem.setByte r.bytes a b }

end Sys2Proof.Machine
end

