-- ==== Sys2Proof/Machine/Ops.lean ====
section
/-! DEFINITION. The named operations the meanings share: the parts of the state, the agenda, flags and trap words, channel
ports, taking a trap and the stop of a firing, debug halts, and the end of an issue. -/

namespace Sys2Proof.Machine

/-! Parts of the state. A cell number of 256 or more names the routine core of an engine. -/

def State.engine (s : State) (e : Nat) : Engine := SMap.get {} s.engines e
def State.setEngine (s : State) (e : Nat) (x : Engine) : State := { s with engines := SMap.put s.engines e x }
def State.modEngine (s : State) (e : Nat) (f : Engine → Engine) : State := s.setEngine e (f (s.engine e))

def State.cell (s : State) (c : Nat) : Cell := if c < 256 then SMap.get {} s.cells c else (s.engine (c - 256)).core
def State.setCell (s : State) (c : Nat) (x : Cell) : State :=
  if c < 256 then { s with cells := SMap.put s.cells c x } else s.setEngine (c - 256) { s.engine (c - 256) with core := x }
def State.modCell (s : State) (c : Nat) (f : Cell → Cell) : State := s.setCell c (f (s.cell c))

/-- The acting cell. -/
def State.me (s : State) : Cell := s.cell s.cur
def State.setMe (s : State) (x : Cell) : State := s.setCell s.cur x
def State.modMe (s : State) (f : Cell → Cell) : State := s.setMe (f s.me)

def State.cluster (s : State) (k : Nat) : Cluster := SMap.get {} s.clusters k
def State.modCluster (s : State) (k : Nat) (f : Cluster → Cluster) : State :=
  { s with clusters := SMap.put s.clusters k (f (s.cluster k)) }
def State.die (s : State) (d : Nat) : Die := SMap.get {} s.dies d
def State.modDie (s : State) (d : Nat) (f : Die → Die) : State := { s with dies := SMap.put s.dies d (f (s.die d)) }
def State.dom (s : State) (d : Nat) : Domain := SMap.get {} s.doms d
def State.modDom (s : State) (d : Nat) (f : Domain → Domain) : State := { s with doms := SMap.put s.doms d (f (s.dom d)) }
def State.modHub (s : State) (f : Hub → Hub) : State := { s with hub := f s.hub }

/-- Cluster and die of a cell (R18): cell number 16 cluster + CX. -/
def clusterOf (c : Nat) : Nat := if c < 256 then c / 16 else (c - 256) / 2
def dieOf (c : Nat) : Nat := clusterOf c / 4

/-! Time. -/

/-- The clock of the device in cell cycles: tick count and cycle count (R6, R101). -/
def State.clock (s : State) : Nat := (s.now + s.hub.clockOfs) % 2 ^ 60
def State.tickNo (s : State) : Nat := s.clock / tickCycles % 2 ^ 48
def State.tcyc (s : State) : Nat := s.clock % tickCycles
/-- Whether PCIe is up: the boot has ended (R345). -/
def State.pcie (s : State) : Bool := s.hub.stage == 6
/-- The cycle, on the model's count, at which the clock next shows a value. -/
def State.atClock (s : State) (v : Nat) : Nat := s.now + (v % 2 ^ 60 + 2 ^ 60 - s.clock) % 2 ^ 60

/-- Where an event stands among those of one cycle: below 409,600 before the issues, above after them; the detent last
(R113, R258, R294, R308). The second number orders events of one kind, ascending by cell. -/
def eventPlace : Instr → Nat × Nat
  | .deviceReset _ => (0, 0) | .tick => (1, 0) | .timeSample _ => (2, 0) | .holdover => (2, 1)
  | .partitionReset d => (3, d) | .partitionResetClear d => (3, d) | .partitionResetComplete d => (3, d)
  | .freeze d => (4, d) | .thaw d => (5, d) | .safeModeSwitch d => (6, d) | .launchEffect d => (7, d)
  | .modeRequestPending _ _ die cl cx host => (8, if host then 4000 else 256 * die + 16 * cl + cx)
  | .modeChangePoint d _ => (9, d) | .modeRequestLatch d => (10, d) | .budgetUpdate d => (11, d)
  | .wakeComplete k => (12, k) | .gateComplete k => (12, k)
  | .forkRead c _ => (15, c) | .lp6Delivery d ch _ => (20, 8 * d + ch) | .storePerformed c _ => (21, c)
  | .commandCompletion e c => (22, 256 * (e % 2) + c) | .scratchpadFlip c _ _ => (24, c)
  | .instructionCompletion c _ => (24, c) | .matrixStepEnd c => (190, c)
  | .streamArrival d _ _ _ => (26, d) | .spanArrival d _ _ _ => (25, d) | .lateRecordArrival d _ => (27, d)
  | .deadlineCommit d _ => (28, d) | .fallbackRelease d _ => (30, d) | .forkRelease c => (31, c)
  | .blockRelease c _ => (32, c) | .rampStart c => (33, c) | .tickwExpiry c => (34, c)
  | .mmaCoRendezvous d _ _ => (35, d) | .commandStart e _ => (40, e) | .debugHalt c _ => (90, c)
  | .pubSwap c => (230, c) | .semWaitPass c => (110, c) | .barWaitPass c => (111, c) | .strRecvPass c => (112, c)
  | .engineStep e => (210, e) | .tileWalk e _ => (41, e) | .routineStart e => (42, e) | .routineOverrun e => (43, e)
  | .lp6Slot d ch => (220, 8 * d + ch) | .lp6Refresh d ch => (221, 8 * d + ch) | .linkSlot p n => (if n < 512 then 134 else if n < 5120 then 132 else if n < 10240 then 131 else if n < 15360 then 24 else 133, p)
  | .ringUnmap _ _ => (48, 0) | .ringMap _ _ _ => (49, 0)
  | .linkPauseEffect p => (13, p) | .linkTrainDone p _ _ _ => (13, p) | .linkResumeEffect p => (13, p) | .detentStop d _ => (200, d) | .doubleOverrun d _ => (201, d)
  | _ => (50, 0)

def eventPrio (i : Instr) : Nat := (eventPlace i).1 * 4096 + (eventPlace i).2

/-- The place of the issues in a cycle. -/
def issuePlace : Nat := 100 * 4096

def insertTimed (l : List Timed) (x : Timed) : List Timed :=
  match l with
  | [] => [x]
  | y :: r => if x.due < y.due ∨ (x.due = y.due ∧ x.prio < y.prio) then x :: y :: r else y :: insertTimed r x

/-- Put an event on the agenda for a cycle. -/
def State.sched (s : State) (due : Nat) (i : Instr) : State := { s with agenda := insertTimed s.agenda ⟨due, eventPrio i, i⟩ }

/-- Take an event's further occurrences off the agenda. -/
def State.unsched (s : State) (i : Instr) : State := { s with agenda := s.agenda.filter fun x => decide (x.ev ≠ i) }

def State.isSched (s : State) (i : Instr) : Bool := s.agenda.any fun x => decide (x.ev = i)

/-- Put a phase event of a domain on the agenda; a frozen domain holds it until the thaw (R305). -/
def State.schedPhase (s : State) (d due : Nat) (i : Instr) : State :=
  match (s.dom d).frozen with
  | none => s.sched due i
  | some _ => s.modDom d fun x => { x with heldEvents := x.heldEvents ++ [(due, i)] }

/-- Hold an event that stands on the agenda for a later cycle (R305). -/
def State.holdEvent (s : State) (d : Nat) (i : Instr) : State :=
  let mine (x : Timed) : Bool := decide (x.ev = i ∧ s.now < x.due)
  match s.agenda.find? mine with
  | none => s
  | some x =>
    { s with agenda := s.agenda.filter fun y => !mine y }.modDom d fun y => { y with heldEvents := y.heldEvents ++ [(x.due, i)] }

/-! Results of an operation that may trap. -/

/-- A value with the state after it, or a trap with its cause and value. -/
inductive Ret (α : Type) where
  | ok (a : α) (s : State)
  | trap (c : Cause) (v : Word) (s : State)

def Ret.bind {α β : Type} (r : Ret α) (f : α → State → Ret β) : Ret β :=
  match r with
  | .ok a s => f a s
  | .trap c v s => .trap c v s

/-- Trap unless a check holds. -/
def Ret.need (s : State) (ok : Bool) (c : Cause) (v : Word) : Ret Unit := if ok then .ok () s else .trap c v s

/-! Flags and trap words (R19, R292, R293). -/

def flagOOR : BitVec 8 := 0x01
def flagSPMETA : BitVec 8 := 0x02
def flagINVALID : BitVec 8 := 0x04
def flagOVERFLOW : BitVec 8 := 0x08
def flagUNDERFLOW : BitVec 8 := 0x10
def flagSATD : BitVec 8 := 0x20
def flagQMIS : BitVec 8 := 0x40
def flagPOISON : BitVec 8 := 0x80

/-- Set flags at a cycle, and remember those of that cycle: a clear in the same cycle does not remove them (R19). -/
def Cell.setFlags (c : Cell) (now : Nat) (f : BitVec 8) : Cell :=
  { c with sticky := c.sticky ||| f, stickyNow := (if c.stickyAt = now then c.stickyNow else 0) ||| f, stickyAt := now }

/-- An out-of-range scratchpad address: CW.OOR takes it when the flag goes from 0 to 1 (R18). -/
def Cell.setOOR (c : Cell) (now : Nat) (a : Nat) : Cell :=
  let c' := c.setFlags now flagOOR
  if c.sticky &&& flagOOR = 0 then { c' with oor := BitVec.ofNat 20 a } else c'

def Cause.code : Cause → BitVec 8
  | .none => 0x00 | .illegal => 0x01 | .priv => 0x02 | .align => 0x03 | .loopbound => 0x04 | .memerr => 0x06
  | .xlate => 0x07 | .wprot => 0x08 | .qscope => 0x09 | .qempty => 0x0A | .domain => 0x0B | .fmt => 0x0C
  | .overrun => 0x0D | .doubleOverrun => 0x0E | .trapi => 0x0F | .brk => 0x10 | .step => 0x11 | .barflow => 0x12
  | .spill => 0x13 | .kill => 0x14 | .streamlate => 0x15 | .ratecount => 0x16

/-- The kind and place of a MEMERR (R293). -/
def memPlace (kind place : Nat) : Word := BitVec.ofNat 64 (kind * 2 ^ 60 + place)

def satAdd16 (v : BitVec 16) (n : Nat) : BitVec 16 := BitVec.ofNat 16 (Nat.min 65535 (v.toNat + n))
def satAdd8 (v : BitVec 8) (n : Nat) : BitVec 8 := BitVec.ofNat 8 (Nat.min 255 (v.toNat + n))

/-- Count corrected errors in a cell's memories and mark uncorrectable ones (R302, R309). -/
def Cell.countErr (c : Cell) (one bad : Nat) : Cell := { c with spc := satAdd16 c.spc one, uec := satAdd8 c.uec bad }

/-! Firings. -/

def Domain.firing (d : Domain) (id : Nat) : Option Firing := d.firings.find? fun f => f.id == id

def modFirings (l : List Firing) (id : Nat) (g : Firing → Firing) : List Firing :=
  l.map fun f => if f.id = id then g f else f

def State.modFiring (s : State) (d id : Nat) (g : Firing → Firing) : State :=
  s.modDom d fun x => { x with firings := modFirings x.firings id g }

/-- The firing that runs on the acting cell. -/
def State.myFiring (s : State) : Option Firing := (s.dom s.me.dom).firing s.me.firing

/-- The members of a firing's set that were released (R110). -/
def Firing.cells (f : Firing) : List Nat := (upFrom f.base (2 ^ f.logsz)).filter fun c => !f.out.contains c

/-- The running mode's table of a domain. -/
def Binding.table (b : Binding) (mode : Nat) : Option Table := b.tables.find? fun t => t.id == mode

/-- The bindings in a domain's banks: the active one, and one in the standby bank that has not taken effect (R273, R278). -/
def Domain.boundBanks (x : Domain) : List Binding := x.active.toList ++ if x.fresh then x.standby.toList else []

def Domain.table (d : Domain) : Option Table :=
  match d.active with
  | some b => b.table d.mode
  | none => none

/-! Entries (R107). -/

def Entry.field (e : Entry) (lo n : Nat) : Nat := e.word.toNat / 2 ^ lo % 2 ^ n
def Entry.blk (e : Entry) : Nat := e.field 0 16
def Entry.fbk (e : Entry) : Nat := e.field 16 16
def Entry.start (e : Entry) : Nat := e.field 32 20 * tickCycles + e.field 52 12
def Entry.deadline (e : Entry) : Nat := e.field 64 20 * tickCycles + e.field 84 12
def Entry.kind (e : Entry) : Nat := e.field 96 4
def Entry.logsz (e : Entry) : Nat := e.field 100 4
def Entry.ramp (e : Entry) : Bool := e.field 104 1 == 1
def Entry.cad (e : Entry) : Bool := e.field 105 1 == 1
def Entry.fix (e : Entry) : Nat := e.field 106 6
def Entry.alt (e : Entry) : Nat := e.field 112 16

/-! Channel ports (R14, R96, R97, R316, R319). -/

/-- The channel a firing's port is bound to, by its number in the running mode. -/
def portChan (d : Domain) (f : Firing) (port : Nat) : Option (Nat × Chan) :=
  match d.table with
  | none => none
  | some t =>
    (List.zip (List.range t.chans.length) t.chans).find? fun x =>
      if port < 30 then x.2.tstg == f.entry.stage && x.2.tport == port
      else x.2.fstg == f.entry.stage && x.2.fport == port

def Domain.chan (d : Domain) (n : Nat) : ChanState := SMap.get {} d.chans n

def Firing.pops (f : Firing) (port : Nat) : Nat := if port = 28 then f.pop0 else f.pop1
def Firing.pushes (f : Firing) (port : Nat) : List Word := if port = 30 then f.push2 else f.push3
def Firing.addPop (f : Firing) (port : Nat) : Firing :=
  if port = 28 then { f with pop0 := f.pop0 + 1 } else { f with pop1 := f.pop1 + 1 }
def Firing.addPush (f : Firing) (port : Nat) (v : Word) : Firing :=
  if port = 30 then { f with push2 := f.push2 ++ [v] } else { f with push3 := f.push3 ++ [v] }

/-- Records a channel offers a firing: those committed less its tentative pops. -/
def avail (x : ChanState) (f : Firing) (port : Nat) : Nat := x.queue.length - f.pops port

/-- The value a pop returns: the committed value, or on a channel whose records cross to another die or device the offset of
the record's place (R316). -/
def popValue (c : Chan) (x : ChanState) (i : Nat) : Word :=
  if c.kind = 3 ∧ c.fstg ≠ 0xFFFF then BitVec.ofNat 64 (c.base + (x.head + i) % Nat.max c.cap 1 * c.size)
  else x.queue.getD i 0

def State.me' (s : State) : Domain := s.dom s.me.dom

/-- Pop an input port, 28 or 29. -/
def popPort (s : State) (port : Nat) : Ret Word :=
  match s.myFiring with
  | none => .trap .qempty (BitVec.ofNat 64 port) s
  | some f =>
    match portChan s.me' f port with
    | none => .trap .qempty (BitVec.ofNat 64 port) s
    | some (n, c) =>
      if c.pop ≤ f.pops port then .trap .ratecount (BitVec.ofNat 64 port) s
      else if avail (s.me'.chan n) f port = 0 then
        if c.kind = 3 then .trap .streamlate (BitVec.ofNat 64 n) s else .trap .qempty (BitVec.ofNat 64 port) s
      else
        .ok (popValue c (s.me'.chan n) (f.pops port)) (s.modFiring s.me.dom f.id fun f => f.addPop port)

/-- Push an output port, 30 or 31. -/
def pushPort (s : State) (port : Nat) (v : Word) : Ret Unit :=
  match s.myFiring with
  | none => .ok () (s.modMe fun c => c.setFlags s.now flagQMIS)
  | some f =>
    match portChan s.me' f port with
    | none => .ok () (s.modMe fun c => c.setFlags s.now flagQMIS)
    | some (_, c) =>
      if c.push ≤ (f.pushes port).length then .trap .ratecount (BitVec.ofNat 64 port) s
      else .ok () (s.modFiring s.me.dom f.id fun f => f.addPush port v)

/-! Registers (R12 to R15). -/

/-- A predicate; p0 reads true. -/
def Cell.getP (c : Cell) (p : PReg) : Bool := if p = 0 then true else SMap.get false c.pred p.toNat
def Cell.setP (c : Cell) (p : PReg) (v : Bool) : Cell :=
  if p = 0 then c else { c with pred := SMap.set false c.pred p.toNat v }

/-- Fresh check bits for a register place. -/
def dropPlace (m : SMap Word) (k : Nat) : SMap Word := m.filter fun x => x.1 % 256 != k

/-- A scalar register; s0 reads zero. -/
def Cell.getS (c : Cell) (r : SReg) : Word := if r = 0 then 0 else SMap.get 0 c.sreg r.toNat
def Cell.getD (c : Cell) (r : SReg) : Bool := if r = 0 then false else SMap.get false c.dfb r.toNat
def Cell.setS (c : Cell) (r : SReg) (v : Word) (d : Bool) : Cell :=
  if r = 0 then c
  else { c with sreg := SMap.set 0 c.sreg r.toNat v, dfb := SMap.set false c.dfb r.toNat d,
                regErr := dropPlace c.regErr r.toNat, regPoison := SMap.del c.regPoison r.toNat }

/-- A register place no read can deliver (R309). Places: scalar register n, vector register 64 + n, mask 128 + n. Flips of 64-bit
word w of a place stand at place + 256 w. -/
def Cell.regBad (c : Cell) (k : Nat) : Bool :=
  SMap.get false c.regPoison k || c.regErr.any fun x => x.1 % 256 == k && decide (2 ≤ popcount 64 x.2.toNat)

/-- The sources of an instruction as read: values in order, and the first register that carries a deferred-fault bit. -/
structure Srcs where
  vals : List Word
  dfr : Option SReg

def Srcs.get (x : Srcs) (i : Nat) : Word := x.vals.getD i 0
def Srcs.dfb (x : Srcs) : Bool := x.dfr.isSome

/-- A read of a register place corrects the single flips of its words (R309). -/
def scrubReg (s : State) (k : Nat) : State :=
  if s.me.regErr.any fun x => x.1 % 256 == k then s.modMe fun c => { c with regErr := dropPlace c.regErr k } else s

/-- Read one source: a register, an input port already popped by this instruction or popped now, an output port (zero, QMIS). -/
def readSrc (s : State) (r : SReg) (popped : List (SReg × Word)) : Ret (Word × List (SReg × Word)) :=
  if r.toNat < 28 then
    if s.me.regBad r.toNat then .trap .memerr (memPlace 0 r.toNat) (s.modMe fun c =>
      { c with uec := if SMap.get false c.regPoison r.toNat then c.uec else satAdd8 c.uec 1,
               regPoison := SMap.put c.regPoison r.toNat true })
    else .ok (s.me.getS r, popped) (scrubReg s r.toNat)
  else if r.toNat < 30 then
    match popped.find? fun x => x.1 == r with
    | some x => .ok (x.2, popped) s
    | none => (popPort s r.toNat).bind fun v s => .ok (v, (r, v) :: popped) s
  else .ok (0, popped) (s.modMe fun c => c.setFlags s.now flagQMIS)

/-- Read sources in order, each distinct input port popped once (R96). -/
def readSrcs (s : State) (rs : List SReg) (popped : List (SReg × Word)) : Ret Srcs :=
  match rs with
  | [] => .ok ⟨[], none⟩ s
  | r :: rest =>
    (readSrc s r popped).bind fun x s =>
      (readSrcs s rest x.2).bind fun y s =>
        .ok ⟨x.1 :: y.vals, if decide (r.toNat < 28) && s.me.getD r then some r else y.dfr⟩ s

/-- Sources that must not carry a deferred-fault bit (R15). Every port is read first, so that an empty channel comes before a
deferred-fault bit of another source (DESIGN CHOICE, log 69). -/
def readClean (s : State) (rs : List SReg) : Ret Srcs :=
  (readSrcs s rs []).bind fun x s =>
    match x.dfr with
    | some r => .trap .memerr (memPlace 0 r.toNat) s
    | none => .ok x s

/-- Ready times (R25), never lowered. Resources: scalar register n, predicate 32 + n, vector register 64 + n, mask 96 + n,
unit 128 + n, tile 160 + n. -/
def Cell.setReady (c : Cell) (k v : Nat) : Cell := { c with ready := SMap.put c.ready k (Nat.max v (SMap.get 0 c.ready k)) }
def Cell.readyAt (c : Cell) (k : Nat) : Nat := SMap.get 0 c.ready k

def resPred (p : PReg) : Nat := 32 + p.toNat
def resVec (v : VReg) : Nat := 64 + v.toNat
def resMask (m : MReg) : Nat := 96 + m.toNat
def unitDiv : Nat := 128
def unitVec : Nat := 129
def unitVport : Nat := 130
def unitXfm : Nat := 131
def unitSeq : Nat := 132
def resTile (n : Nat) : Nat := 160 + n

/-- Write a destination with its deferred-fault bit, ready after a latency. q0 and q1 discard and set QMIS; q2 and q3 push,
and a deferred-fault bit there raises MEMERR naming its first source (R14, R15, R96), ahead of the push's own RATECOUNT or QMIS (log
83, the model's choice). -/
def writeDst (s : State) (d : SReg) (v : Word) (dfr : Option SReg) (lat : Nat) : Ret Unit :=
  if d.toNat < 28 then
    .ok () (s.modMe fun c => (c.setS d v dfr.isSome).setReady d.toNat (s.now + lat))
  else if d.toNat < 30 then .ok () (s.modMe fun c => c.setFlags s.now flagQMIS)
  else
    match dfr with
    | some r => .trap .memerr (memPlace 0 r.toNat) s
    | none => pushPort s d.toNat v

/-! Steps of the engines and slots of the channels, which begin at cycles of the tick that 8 divides (R213, R238). -/

/-- Cycles to the next one. -/
def State.toStep (s : State) : Nat := (8 - s.tcyc % 8) % 8

/-- Put an engine's next step on the agenda, at the earliest `from_` cycles on. -/
def kickFrom (s : State) (e from_ : Nat) : State :=
  if (s.engine e).busy then s
  else
    let t := Nat.max (s.now + from_) (s.engine e).nextStep
    (s.modEngine e fun x => { x with busy := true }).sched (t + { s with now := t }.toStep) (.engineStep e)

def kick (s : State) (e : Nat) : State := kickFrom s e 0

/-! The stop of a firing and taking a trap (R294 to R297). -/

/-- The trap words of a cell (R18). -/
def Cell.setTrap (c : Cell) (cause : Cause) (dbg : Bool) (v : Word) : Cell :=
  { c with tcause := cause, tdbg := dbg, tval := v, tpc := BitVec.ofNat 16 c.pc, tblk := BitVec.ofNat 16 c.block }

/-- The instruction in the middle of a sequencer step, which ends at the step's boundary (R186). -/
def Cell.openStep (c : Cell) (now : Nat) : List SeqOp :=
  (c.seqr.take 1).filter fun x => c.seqBusy && decide (0 < x.ws) && decide (x.ws + 16 * x.step < now)

/-- A vector load cut short: the elements of port cycles not begun keep their old values (R148). -/
def Cell.cutLoad (c : Cell) (now : Nat) (x : VLoad) : Cell :=
  let undone := (x.parts.filter fun p => decide (now < p.1)).foldl (fun m p => m ||| p.2) (0 : BitVec 2048)
  { c with vreg := SMap.set 0 c.vreg x.reg ((SMap.get 0 c.vreg x.reg &&& ~~~undone) ||| (x.old &&& undone)) }

/-- Vector work at a stop (R148): loads and stores keep the port cycles they have begun. -/
def Cell.cutVector (c : Cell) (now : Nat) : Cell :=
  let c := (c.vloads.filter fun x => decide (now < x.upTo)).foldl (fun c x => c.cutLoad now x) c
  { c with vloads := [], pend := c.pend.filter fun x => decide (x.starts ≤ now) }

/-- The sequencer of a stopped cell comes to rest: rows that `mst` and `mdrain` stored in completed steps stand, tiles and
metadata come back from the release images (R186). -/
def Cell.settle (c : Cell) : Cell :=
  { c with sp := c.sp.merge ((c.seqr.take 1).map fun x => x.rows).flatten, tiles := c.images, seqr := [], seqBusy := false,
           seqHeld := none }

/-- What the stop leaves of a cell: nothing issues or waits, the sequencer stops at its step boundary with tiles and metadata
from the release images, queued copy commands are dropped, the array is idle (R296, R186, R254, R115). -/
def Cell.stop (c : Cell) (now : Nat) : Cell :=
  let c := if (c.openStep now).isEmpty then c.settle else { c with seqr := c.openStep now }
  { c with run := .idle, wait := .none, queue := [], ramp := none, hreq := false, sstep := false, rep := 0, repPend := none }

/-- Record a cause on a member and stop it. -/
def stopCell (s : State) (c : Nat) (cause : Cause) (v : Word) : State :=
  s.modCell c fun x => ((x.setTrap cause false v).cutVector s.now).stop s.now

def stopCells (s : State) (cs : List Nat) (word : Nat → Cause × Word) : State :=
  match cs with
  | [] => s
  | c :: r => stopCells (stopCell s c (word c).1 (word c).2) r word

/-- End-of-cycle checks of the waits of a cluster's cells on semaphores and barriers (R258). -/
def wakeSync (s : State) (cs : List Nat) : State :=
  match cs with
  | [] => s
  | c :: r =>
    let s := match (s.cell c).wait with
      | .sem _ _ => s.sched s.now (.semWaitPass c)
      | .bar _ => s.sched s.now (.barWaitPass c)
      | _ => s
    wakeSync s r

def clusterCells (k : Nat) : List Nat := upFrom (16 * k) 16

/-- Set barriers of a cluster to zero, which releases the waits on them (R257, R289). -/
def zeroBars (s : State) (k : Nat) (bs : List Nat) : State :=
  wakeSync (s.modCluster k fun x => { x with bars := bs.foldl (fun m b => SMap.set 0 m b 0) x.bars }) (clusterCells k)

/-- Barriers named in BAR by the commands a stop drops. -/
def queueBars (q : List Cmd) : List Nat :=
  (q.filter fun m => (m.desc.getD 0 0).getLsbD 30).map fun m => (m.desc.getD 0 0).toNat / 2 ^ 40 % 64

def bars0 (s : State) (cs : List Nat) : List Nat := (cs.map fun c => queueBars (s.cell c).queue).flatten

/-- Stop the routine of a stopped cell, whether it runs or waits for its start (R254). -/
def stopRoutine (s : State) (cs : List Nat) (e : Nat) : State :=
  match (s.engine e).owner with
  | some c =>
    if cs.contains c then kick ((s.unsched (.routineStart e)).modEngine e fun x => { x with owner := none, core := { x.core with run := .idle } }) e else s
  | none => s

/-- A step that began in the cycle in which its cell stops moves nothing: the engine gives its parts back, and chooses again
(R254). -/
def undoStep (s : State) (cs : List Nat) (e : Nat) : State :=
  match (s.engine e).undo with
  | some u =>
    if u.cycle = s.now ∧ cs.contains u.cell then
      kick ((s.unsched (.engineStep e)).modEngine e fun x =>
        { x with cache := u.cache, genC := u.genC, core := { x.core with sp := u.sp }, undo := none, busy := false, nextStep := s.now,
                 writes := x.writes.filter fun w => decide (w.due ≠ s.now + 32) }) e
    else s
  | none => s

/-- The array's members of a stopped set: its firing is marked, its tentative operations gone (R296). -/
def stopFiring (s : State) (d : Nat) (f : Firing) (cause : Cause) (word : Nat → Cause × Word) : State :=
  let k := f.base / 16
  let named := f.bars ++ bars0 s f.cells
  let s := [2 * k, 2 * k + 1].foldl (fun s e => stopRoutine (undoStep s f.cells e) f.cells e) s
  let s := stopCells s f.cells word
  let s := zeroBars s k named
  s.modFiring d f.id fun f =>
    { f with stopped := true, ended := true, cause := cause, pop0 := 0, pop1 := 0, push2 := [], push3 := [], request := none,
             bars := named }

/-- A member's value when another member's trap stops the set (R292, R294). -/
def killWord (ix : Nat) : Word := BitVec.ofNat 64 (2 ^ 62 + ix)

/-- The stop of a firing by a trap, and the fallback's release at the deadline plus 64 (R296, R297). -/
def stopByTrap (s : State) (d : Nat) (f : Firing) (cause : Cause) (word : Nat → Cause × Word) : State :=
  let s := stopFiring s d f cause word
  if f.fb then s else s.schedPhase d (f.deadline + 64) (.fallbackRelease d f.id)

/-- The stop at the end of a cycle in which causes have been raised. -/
def armStop (s : State) (d f : Nat) : State :=
  if s.agenda.any fun x => decide (x.due = s.now ∧ x.ev = .detentStop d f) then s else s.sched s.now (.detentStop d f)

/-- Raise an abort-class cause of an issuing instruction: the firing's first trap ends it, every member stops, and the fallback
follows (R294, R296, R297). In a cell set the other members still issue in this cycle, and the stop follows at its end. A
cell without a running firing takes the words alone. -/
def trapCell (s : State) (c : Nat) (cause : Cause) (v : Word) : State :=
  let x := s.cell c
  match (s.dom x.dom).firing x.firing with
  | none => stopCell s c cause v
  | some f =>
    let late := if cause = .streamlate then v.toNat :: f.late else f.late
    if f.ended then s
    else if f.logsz = 0 then
      (stopByTrap s x.dom f cause fun _ => (cause, v)).modFiring x.dom f.id fun f => { f with late := late }
    else
      armStop ((s.modCell c fun y => { y.setTrap cause false v with run := .idle }).modFiring x.dom f.id fun f =>
        { f with trapped := f.trapped ++ [c], late := late }) x.dom f.id

/-- A trap that an engine, a sequencer or an earlier instruction raises: CW.TPC holds the PC of its instruction. The stop follows
at the end of the cycle, so that the issuing instruction's own trap comes first (R294). -/
def trapAt (s : State) (c pc : Nat) (cause : Cause) (v : Word) : State :=
  match (s.dom (s.cell c).dom).firing (s.cell c).firing with
  | some f =>
    if f.ended then s
    else
      armStop (s.modFiring (s.cell c).dom f.id fun f => { f with causes := f.causes ++ [(c, pc, cause, v)] }) (s.cell c).dom f.id
  | none => (stopCell s c cause v).modCell c fun x => { x with tpc := BitVec.ofNat 16 pc }

/-- The cause with the lowest code. -/
def lowestCause (l : List (Nat × Nat × Cause × Word)) : Option (Nat × Nat × Cause × Word) :=
  match l with
  | [] => none
  | x :: r =>
    match lowestCause r with
    | none => some x
    | some y => if y.2.2.1.code < x.2.2.1.code then some y else some x

/-- What a member of a stopped set records of its own (R294): the trap of its issuing instruction, else the lowest code of its
engine and sequencer causes, with the PC. -/
def ownCause (s : State) (f : Firing) (m : Nat) : Option (Nat × Cause × Word) :=
  if f.trapped.contains m then some ((s.cell m).pc, (s.cell m).tcause, (s.cell m).tval)
  else (lowestCause (f.causes.filter fun x => x.1 == m)).map fun x => x.2

/-- The stop that the causes of a cycle bring at its end (R294): each member that trapped records its own cause, every other one
KILL with the index of the member whose trap comes first: an issuing instruction's, then the lowest code. -/
def resolveStop (s : State) (d : Nat) (f : Firing) : State :=
  match f.trapped.head?.or ((lowestCause f.causes).map fun x => x.1) with
  | none => s
  | some c =>
    let own := ownCause s f
    let kill : Cause × Word := (.kill, killWord (c % 2 ^ f.logsz))
    let t := stopByTrap s d f (((own c).map fun x => x.2.1).getD .none) fun m => ((own m).map fun x => x.2).getD kill
    f.cells.foldl (fun s m => match own m with
      | some x => s.modCell m fun y => { y with tpc := BitVec.ofNat 16 x.1 }
      | none => s) t

/-- A trap of the acting control thread; a routine's fault aborts the firing that issued its command (R249). -/
def takeTrap (s : State) (cause : Cause) (v : Word) : State :=
  if s.cur < 256 then trapCell s s.cur cause v
  else
    match (s.engine (s.cur - 256)).owner with
    | some c =>
      let s := s.modMe fun x => { x with run := .idle }
      match (s.cell c).queue.find? fun m => m.op == 5 && m.eng == s.cur - 256 with
      | some m => trapAt s c m.pc cause v
      | none => trapAt s c (s.cell c).pc cause v
    | none => s.modMe fun x => { x with run := .idle }

/-! Debug halts (R303, R305). -/

/-- Whether the debug class is enabled for a domain: a partition whose EN bit is in effect. -/
def State.debugOn (s : State) (d : Nat) : Bool := decide (d < 8) && s.hub.dbgenNow.getLsbD d

/-- Hold the deadline of a held firing (R305). -/
def holdDeadline (s : State) (d f : Nat) : State :=
  ((s.holdEvent d (.detentStop d f)).holdEvent d (.doubleOverrun d f)).holdEvent d (.deadlineCommit d f)

/-- Set freeze bits: each that becomes 1 freezes its partition 32 cycles later; a bit set again cancels a thaw (R305). -/
def setFreeze (s : State) (n : Nat) : State :=
  let s := if s.hub.tfreeze.getLsbD n then s else
    if (s.dom n).thawAt.isSome then (s.unsched (.thaw n)).modDom n fun x => { x with thawAt := none }
    else s.sched (s.now + 32) (.freeze n)
  s.modHub fun h => { h with tfreeze := h.tfreeze ||| BitVec.ofNat 8 (2 ^ n) }

/-- What a halt leaves of the sequencer: at once held when no step is in progress (R174, R187). -/
def Cell.holdSeq (c : Cell) (now : Nat) : Cell :=
  if (c.openStep now).isEmpty then { c with seqHeld := some now, seqBusy := false } else c

/-- CW.TPC at a halt: the matrix instruction whose work has begun and not ended, or the next instruction (R187). -/
def Cell.haltPc (c : Cell) (now : Nat) : BitVec 16 :=
  match c.seqr.head? with
  | some x => BitVec.ofNat 16 (if 0 < x.ws ∧ x.ws < now then x.pc else c.pc)
  | none => BitVec.ofNat 16 c.pc

/-- Halt a cell in the debug class with a cause and value: it keeps everything and issues nothing. A halt may freeze its
partition's ticks (FOH). -/
def haltCell (s : State) (c : Nat) (cause : Cause) (v : Word) : State :=
  let s := s.modCell c fun x =>
    { (x.setTrap cause true v).holdSeq s.now with
        tpc := x.haltPc s.now, run := .held, hreq := false, sstep := false }
  let s := if (s.cell c).seqHeld.isSome then s.unsched (.matrixStepEnd c) else s
  let p := (s.cell c).dom
  if p < 8 ∧ s.hub.dbgenNow.getLsbD (8 + p) then setFreeze (holdDeadline s p (s.cell c).firing) p else s

/-! The end of an issue (R25, R87, R88). -/

def Cell.loop (c : Cell) (k : Nat) : HwLoop := SMap.get {} c.loops k
def Cell.setLoop (c : Cell) (k : Nat) (l : HwLoop) : Cell := { c with loops := SMap.set {} c.loops k l }

/-- Loops are active from loop 0 inward: the innermost active one, counted from 1; 0 when none is. -/
def Cell.depth (c : Cell) : Nat :=
  if (c.loop 3).act then 4 else if (c.loop 2).act then 3 else if (c.loop 1).act then 2 else if (c.loop 0).act then 1 else 0

/-- R87 from the innermost loop `k - 1` outward, for an instruction at word `x` whose successor is `next`. -/
def nextPcFrom (c : Cell) (k x next : Nat) : Cell × Nat :=
  match k with
  | 0 => (c, next)
  | k + 1 =>
    let l := c.loop k
    if l.act = true ∧ l.en = x then
      if 1 < l.cnt then (c.setLoop k { l with cnt := l.cnt - 1 }, l.st)
      else nextPcFrom (c.setLoop k { l with cnt := l.cnt - 1, act := false }) k x next
    else (c, next)

/-- The next PC after the word at `x` passes without a transfer (R87). -/
def Cell.pass (c : Cell) (x size : Nat) : Cell :=
  let r := nextPcFrom c c.depth x (x + size)
  { r.1 with pc := 4 * r.2 }

/-- The PC after an issue that transfers nothing: under `rep` it stays until the last issue (R88). -/
def Cell.stepPc (c : Cell) (size : Nat) : Cell :=
  match c.repPend with
  | some n => if 1 < n then { c with repPend := none, rep := n - 1 } else { c with repPend := none }.pass (c.pc / 4) size
  | none =>
    if 1 < c.rep then { c with rep := c.rep - 1 }
    else { c with rep := 0 }.pass (c.pc / 4) size

/-- Whether an instruction issues under `rep`. -/
def Cell.underRep (c : Cell) : Bool := c.repPend.isSome || decide (0 < c.rep)

/-- The next issue comes no earlier than this one plus its slots. -/
def Cell.spend (c : Cell) (now slots : Nat) : Cell := { c with t := Nat.max c.t (now + slots) }

/-- A single step halts the cell in the cycle after its issue (R304). -/
def afterIssue (s : State) : State :=
  if s.me.sstep then (s.modMe fun c => { c with sstep := false }).sched (s.now + 1) (.debugHalt s.cur 0x11) else s

/-- End an issue that transferred nothing: slots taken, the next PC chosen. -/
def advance (s : State) (size slots : Nat) : State :=
  afterIssue (s.modMe fun c => (c.stepPc size).spend s.now slots)

/-- The outcome of an issue's effect: its state, or the state after its trap is taken. -/
def finish (r : Ret Unit) (k : State → State) : Host.Outcome State Fault Refusal :=
  match r with
  | .ok _ s => .next (k s)
  | .trap c v s => .next (takeTrap s c v)

/-- Issue an instruction of `size` words under its guard: a false guard takes one slot and does nothing (R25). -/
def issue (s : State) (g : PReg) (size slots : Nat) (body : State → Ret Unit) : Host.Outcome State Fault Refusal :=
  if s.me.getP g then finish (body s) fun s => advance s size slots else .next (advance s size 1)

/-- The instruction words in the value of an ILLEGAL or PRIV trap (R74). -/
def wordsVal (ws : List Nat) : Word := BitVec.ofNat 64 (ws.getD 0 0 + ws.getD 1 0 * 2 ^ 32)

/-- Supervisor-only instructions raise PRIV in a partition, before the guard is read (R74 check 6). -/
def supervisor (s : State) (ws : List Nat) (k : Host.Outcome State Fault Refusal) : Host.Outcome State Fault Refusal :=
  if s.me.dom = 8 then k else .next (takeTrap s .priv (wordsVal ws))

end Sys2Proof.Machine
end

