-- ==== Sys2Proof/Machine/Flags.lean ====
section
/-! DEFINITION. The flag computations of the scalar unit: the fit of an exact result to a width, with SATD (R76). -/

namespace Sys2Proof.Machine

def Width.bits : Width → Nat
  | .w64 => 64 | .w32 => 32 | .w16 => 16

/-- Bounds of a type (R76): `n` true for the unsigned types. -/
def typeLo (w : Nat) (n : Bool) : Int := if n then 0 else -(2 : Int) ^ (w - 1)
def typeHi (w : Nat) (n : Bool) : Int := if n then (2 : Int) ^ w - 1 else (2 : Int) ^ (w - 1) - 1

/-- The low `w` bits of a register extended to 64. -/
def extend (w : Nat) (n : Bool) (v : Word) : Word :=
  if n then BitVec.ofNat 64 (v.toNat % 2 ^ w) else BitVec.ofInt 64 (Int.bmod v.toNat (2 ^ w))

/-- Fit without clamping: the value modulo 2^w, extended by the type. -/
def fitWrap (w : Nat) (n : Bool) (v : Int) : Word := extend w n (BitVec.ofInt 64 v)

/-- Fit (R76): the register value, and whether a clamp sets SATD. -/
def fit (w : Nat) (n sat : Bool) (v : Int) : Word × Bool :=
  if sat ∧ v < typeLo w n then (fitWrap w n (typeLo w n), true)
  else if sat ∧ typeHi w n < v then (fitWrap w n (typeHi w n), true)
  else (fitWrap w n v, false)

end Sys2Proof.Machine
end

