-- ==== Sys2Proof/Machine/Operands.lean ====
section
/-! DEFINITION. The operand forms of the scalar unit: registers read at a type, immediates, effective addresses and branch
offsets (R61, R76, R81, R85, R89). -/

namespace Sys2Proof.Machine

/-- Src (R76): the low bits of a register as an integer of the type. -/
def srcVal (w : Nat) (n : Bool) (x : Word) : Int :=
  if n then (x.toNat % 2 ^ w : Nat) else Int.bmod x.toNat (2 ^ w)

/-- A 13-bit immediate as a register value (R81). -/
def imm13 (i : BitVec 13) : Word := i.signExtend 64

/-- A compare's 5-bit immediate: signed, but the bit number of tb and tnb (R61, R83). -/
def imm5 (c : Cond) (i : BitVec 5) : Word :=
  match c with
  | .tb | .tnb => i.zeroExtend 64
  | _ => i.signExtend 64

/-- Bytes of an access size (R64). -/
def Size.bytes : Size → Nat
  | .b => 1 | .h => 2 | .w => 4 | .d => 8

/-- The effective address of a scalar access (R89). -/
def effAddr (base : Word) (imm : BitVec 9) (size : Nat) : Word := base + BitVec.ofInt 64 (imm.toInt * size)

/-- The effective address of a vector access (R160). -/
def vecAddr (base : Word) (imm : BitVec 15) : Word := base + BitVec.ofInt 64 (imm.toInt * 8)

/-- A branch target: the PC of the transferring instruction plus four times a signed word offset (R85). -/
def relTarget (pc : Nat) (off : Int) : Int := pc + 4 * off

end Sys2Proof.Machine
end

