-- ==== Sys2Proof/Machine/Scalar.lean ====
section
/-! DEFINITION. The scalar integer instructions (R76 to R84): one evaluation of every operation, one way to run it, and one
meaning per instruction. -/

namespace Sys2Proof.Machine

/-- Leading zeros of the low `n` bits. -/
def clzN (n v : Nat) : Nat :=
  match n with
  | 0 => 0
  | n + 1 => if v / 2 ^ n % 2 = 1 then 0 else 1 + clzN n v

/-- Trailing zeros of the low `n` bits. -/
def ctzN (n v : Nat) : Nat :=
  match n with
  | 0 => 0
  | n + 1 => if v % 2 = 1 then 0 else 1 + ctzN n (v / 2)

/-- The field of `bfx` and `bfi`: position and length from b, the length cut to the width; none when it is empty (R78, R79). -/
def bitField (w : Nat) (b : Word) : Option (Nat × Nat) :=
  let pos := b.toNat % 64
  let len := b.toNat / 256 % 128
  if len = 0 ∨ w ≤ pos then none else some (pos, Nat.min len (w - pos))

def bfxVal (w : Nat) (a b : Word) : Int :=
  match bitField w b with
  | none => 0
  | some (pos, len) => Int.bmod (a.toNat / 2 ^ pos % 2 ^ len : Nat) (2 ^ len)

def bfiVal (w : Nat) (a b d : Word) : Nat :=
  match bitField w b with
  | none => d.toNat
  | some (pos, len) =>
    d.toNat - d.toNat / 2 ^ pos % 2 ^ len * 2 ^ pos + a.toNat % 2 ^ len * 2 ^ pos

/-- Quotient truncated towards zero with the corners of R78. -/
def divVal (w : Nat) (n : Bool) (x y : Int) : Int :=
  if y = 0 then (if n then (2 : Int) ^ w - 1 else -1) else Int.tdiv x y

/-- Remainder with the sign of the dividend (R78). -/
def remVal (x y : Int) : Int := if y = 0 then x else Int.tmod x y

/-- The upper half of an exact product (R78). -/
def mulHigh (w : Nat) (x y : Int) : Int := x * y / 2 ^ w

/-- A scalar operation on register values: the result and whether SATD is set (R77 to R80). -/
def sopEval (op : SOp) (a b d : Word) (p : Bool) : Word × Bool :=
  match op with
  | .add w n s => fit (Width.bits w) n s (srcVal (Width.bits w) n a + srcVal (Width.bits w) n b)
  | .sub w n s => fit (Width.bits w) n s (srcVal (Width.bits w) n a - srcVal (Width.bits w) n b)
  | .mul w n s => fit (Width.bits w) n s (srcVal (Width.bits w) n a * srcVal (Width.bits w) n b)
  | .madd w n s =>
    fit (Width.bits w) n s (srcVal (Width.bits w) n d + srcVal (Width.bits w) n a * srcVal (Width.bits w) n b)
  | .mulh w => (fitWrap (Width.bits w) false (mulHigh (Width.bits w) (srcVal (Width.bits w) false a) (srcVal (Width.bits w) false b)), false)
  | .div w => (fitWrap (Width.bits w) false (divVal (Width.bits w) false (srcVal (Width.bits w) false a) (srcVal (Width.bits w) false b)), false)
  | .rem w => (fitWrap (Width.bits w) false (remVal (srcVal (Width.bits w) false a) (srcVal (Width.bits w) false b)), false)
  | .min w => (fitWrap (Width.bits w) false (min (srcVal (Width.bits w) false a) (srcVal (Width.bits w) false b)), false)
  | .max w => (fitWrap (Width.bits w) false (max (srcVal (Width.bits w) false a) (srcVal (Width.bits w) false b)), false)
  | .mulhn w => (fitWrap (Width.bits w) true (mulHigh (Width.bits w) (srcVal (Width.bits w) true a) (srcVal (Width.bits w) true b)), false)
  | .divn w => (fitWrap (Width.bits w) true (divVal (Width.bits w) true (srcVal (Width.bits w) true a) (srcVal (Width.bits w) true b)), false)
  | .remn w => (fitWrap (Width.bits w) true (remVal (srcVal (Width.bits w) true a) (srcVal (Width.bits w) true b)), false)
  | .minn w => (fitWrap (Width.bits w) true (min (srcVal (Width.bits w) true a) (srcVal (Width.bits w) true b)), false)
  | .maxn w => (fitWrap (Width.bits w) true (max (srcVal (Width.bits w) true a) (srcVal (Width.bits w) true b)), false)
  | .sra w => (fitWrap (Width.bits w) false ((srcVal (Width.bits w) false a) / 2 ^ (b.toNat % Width.bits w)), false)
  | .shr w => (fitWrap (Width.bits w) true ((srcVal (Width.bits w) true a) / 2 ^ (b.toNat % Width.bits w)), false)
  | .sext w => (fitWrap (Width.bits w) false (srcVal (Width.bits w) false a), false)
  | .zext w => (fitWrap (Width.bits w) true (srcVal (Width.bits w) true a), false)
  | .bfx w => (fitWrap (Width.bits w) false (bfxVal (Width.bits w) a b), false)
  | .and w => (fitWrap (Width.bits w) false ((a &&& b).toNat), false)
  | .or w => (fitWrap (Width.bits w) false ((a ||| b).toNat), false)
  | .xor w => (fitWrap (Width.bits w) false ((a ^^^ b).toNat), false)
  | .andn w => (fitWrap (Width.bits w) false ((a &&& ~~~b).toNat), false)
  | .orn w => (fitWrap (Width.bits w) false ((a ||| ~~~b).toNat), false)
  | .shl w => (fitWrap (Width.bits w) false (a.toNat * 2 ^ (b.toNat % Width.bits w)), false)
  | .rol w =>
    let k := b.toNat % Width.bits w
    let x := a.toNat % 2 ^ Width.bits w
    (fitWrap (Width.bits w) false (x * 2 ^ k + x / 2 ^ (Width.bits w - k) : Nat), false)
  | .clz w => (fitWrap (Width.bits w) false (clzN (Width.bits w) a.toNat), false)
  | .ctz w => (fitWrap (Width.bits w) false (ctzN (Width.bits w) a.toNat), false)
  | .pop w => (fitWrap (Width.bits w) false (popcount (Width.bits w) a.toNat), false)
  | .bfi w => (fitWrap (Width.bits w) false (bfiVal (Width.bits w) a b d), false)
  | .sel w _ => (fitWrap (Width.bits w) false (if p then a else b).toNat, false)
  | .ix sc => (a + b * BitVec.ofNat 64 (2 ^ sc.toNat), false)

/-- Operations that read d (R57, R79). -/
def sopReadsD : SOp → Bool
  | .madd .. | .bfi _ => true
  | _ => false

/-- The predicate `sel` reads; p0 for every other operation. -/
def sopPredicate : SOp → PReg
  | .sel _ p => p
  | _ => 0

def sopIsDiv : SOp → Bool
  | .div _ | .rem _ | .divn _ | .remn _ => true
  | _ => false

/-- Latency of the class (R25). -/
def sopLatency : SOp → Nat
  | .mul .. | .madd .. | .mulh _ | .mulhn _ => 3
  | .div _ | .rem _ | .divn _ | .remn _ => 34
  | _ => 1

/-- Registers an operation reads, in the order of R96. -/
def sopRegs (op : SOp) (d a : SReg) (b : Option SReg) : List SReg :=
  a :: (b.toList ++ if sopReadsD op then [d] else [])

/-- Run an operation: read a, then b or an immediate, then d where it is read; write d, SATD and the divider's time. -/
def runSop (op : SOp) (d a : SReg) (b : Option SReg) (imm : Word) (s : State) : Ret Unit :=
  (readSrcs s (sopRegs op d a b) []).bind fun x s =>
    let r := sopEval op (x.get 0) (if b.isSome then x.get 1 else imm) (x.get (if b.isSome then 2 else 1))
      (s.me.getP (sopPredicate op))
    let s := if r.2 then s.modMe fun c => c.setFlags s.now flagSATD else s
    let s := if sopIsDiv op then s.modMe fun c => c.setReady unitDiv (s.now + 34) else s
    writeDst s d r.1 x.dfr (sopLatency op)

abbrev Out := Host.Outcome State Fault Refusal

def execAdd (g : PReg) (d a b : SReg) (w : Width) (n o : Bool) (s : State) : Out :=
  issue s g 1 1 (runSop (.add w n o) d a (some b) 0)
def execSub (g : PReg) (d a b : SReg) (w : Width) (n o : Bool) (s : State) : Out :=
  issue s g 1 1 (runSop (.sub w n o) d a (some b) 0)
def execMul (g : PReg) (d a b : SReg) (w : Width) (n o : Bool) (s : State) : Out :=
  issue s g 1 1 (runSop (.mul w n o) d a (some b) 0)
def execMadd (g : PReg) (d a b : SReg) (w : Width) (n o : Bool) (s : State) : Out :=
  issue s g 1 1 (runSop (.madd w n o) d a (some b) 0)
def execMulh (g : PReg) (d a b : SReg) (w : Width) (s : State) : Out :=
  issue s g 1 1 (runSop (.mulh w) d a (some b) 0)
def execDiv (g : PReg) (d a b : SReg) (w : Width) (s : State) : Out :=
  issue s g 1 1 (runSop (.div w) d a (some b) 0)
def execRem (g : PReg) (d a b : SReg) (w : Width) (s : State) : Out :=
  issue s g 1 1 (runSop (.rem w) d a (some b) 0)
def execMin (g : PReg) (d a b : SReg) (w : Width) (s : State) : Out :=
  issue s g 1 1 (runSop (.min w) d a (some b) 0)
def execMax (g : PReg) (d a b : SReg) (w : Width) (s : State) : Out :=
  issue s g 1 1 (runSop (.max w) d a (some b) 0)
def execSra (g : PReg) (d a b : SReg) (w : Width) (s : State) : Out :=
  issue s g 1 1 (runSop (.sra w) d a (some b) 0)
def execBfx (g : PReg) (d a b : SReg) (w : Width) (s : State) : Out :=
  issue s g 1 1 (runSop (.bfx w) d a (some b) 0)
def execMulhn (g : PReg) (d a b : SReg) (w : Width) (s : State) : Out :=
  issue s g 1 1 (runSop (.mulhn w) d a (some b) 0)
def execDivn (g : PReg) (d a b : SReg) (w : Width) (s : State) : Out :=
  issue s g 1 1 (runSop (.divn w) d a (some b) 0)
def execRemn (g : PReg) (d a b : SReg) (w : Width) (s : State) : Out :=
  issue s g 1 1 (runSop (.remn w) d a (some b) 0)
def execMinn (g : PReg) (d a b : SReg) (w : Width) (s : State) : Out :=
  issue s g 1 1 (runSop (.minn w) d a (some b) 0)
def execMaxn (g : PReg) (d a b : SReg) (w : Width) (s : State) : Out :=
  issue s g 1 1 (runSop (.maxn w) d a (some b) 0)
def execShr (g : PReg) (d a b : SReg) (w : Width) (s : State) : Out :=
  issue s g 1 1 (runSop (.shr w) d a (some b) 0)
def execAnd (g : PReg) (d a b : SReg) (w : Width) (s : State) : Out :=
  issue s g 1 1 (runSop (.and w) d a (some b) 0)
def execOr (g : PReg) (d a b : SReg) (w : Width) (s : State) : Out :=
  issue s g 1 1 (runSop (.or w) d a (some b) 0)
def execXor (g : PReg) (d a b : SReg) (w : Width) (s : State) : Out :=
  issue s g 1 1 (runSop (.xor w) d a (some b) 0)
def execAndn (g : PReg) (d a b : SReg) (w : Width) (s : State) : Out :=
  issue s g 1 1 (runSop (.andn w) d a (some b) 0)
def execOrn (g : PReg) (d a b : SReg) (w : Width) (s : State) : Out :=
  issue s g 1 1 (runSop (.orn w) d a (some b) 0)
def execShl (g : PReg) (d a b : SReg) (w : Width) (s : State) : Out :=
  issue s g 1 1 (runSop (.shl w) d a (some b) 0)
def execRol (g : PReg) (d a b : SReg) (w : Width) (s : State) : Out :=
  issue s g 1 1 (runSop (.rol w) d a (some b) 0)
def execBfi (g : PReg) (d a b : SReg) (w : Width) (s : State) : Out :=
  issue s g 1 1 (runSop (.bfi w) d a (some b) 0)
def execSext (g : PReg) (d a : SReg) (w : Width) (s : State) : Out :=
  issue s g 1 1 (runSop (.sext w) d a none 0)
def execZext (g : PReg) (d a : SReg) (w : Width) (s : State) : Out :=
  issue s g 1 1 (runSop (.zext w) d a none 0)
def execClz (g : PReg) (d a : SReg) (w : Width) (s : State) : Out :=
  issue s g 1 1 (runSop (.clz w) d a none 0)
def execCtz (g : PReg) (d a : SReg) (w : Width) (s : State) : Out :=
  issue s g 1 1 (runSop (.ctz w) d a none 0)
def execPop (g : PReg) (d a : SReg) (w : Width) (s : State) : Out :=
  issue s g 1 1 (runSop (.pop w) d a none 0)
def execSel (g : PReg) (d a b : SReg) (w : Width) (q : PReg) (s : State) : Out :=
  issue s g 1 1 (runSop (.sel w q) d a (some b) 0)
def execIx (g : PReg) (d a b : SReg) (sc : BitVec 2) (s : State) : Out :=
  issue s g 1 1 (runSop (.ix sc) d a (some b) 0)
def execAddImm (g : PReg) (d a : SReg) (imm : BitVec 13) (s : State) : Out :=
  issue s g 1 1 (runSop (.add .w64 false false) d a none (imm13 imm))
def execAndImm (g : PReg) (d a : SReg) (imm : BitVec 13) (s : State) : Out :=
  issue s g 1 1 (runSop (.and .w64) d a none (imm13 imm))
def execOrImm (g : PReg) (d a : SReg) (imm : BitVec 13) (s : State) : Out :=
  issue s g 1 1 (runSop (.or .w64) d a none (imm13 imm))
def execXorImm (g : PReg) (d a : SReg) (imm : BitVec 13) (s : State) : Out :=
  issue s g 1 1 (runSop (.xor .w64) d a none (imm13 imm))
def execShlImm (g : PReg) (d a : SReg) (imm : BitVec 13) (s : State) : Out :=
  issue s g 1 1 (runSop (.shl .w64) d a none (imm13 imm))
def execShrImm (g : PReg) (d a : SReg) (imm : BitVec 13) (s : State) : Out :=
  issue s g 1 1 (runSop (.shr .w64) d a none (imm13 imm))
def execSraImm (g : PReg) (d a : SReg) (imm : BitVec 13) (s : State) : Out :=
  issue s g 1 1 (runSop (.sra .w64) d a none (imm13 imm))
def execWideImmediate (g : PReg) (d a : SReg) (imm : BitVec 13) (op : SOp) (s : State) : Out :=
  issue s g 2 1 (runSop op d a none (imm13 imm))

/-! Compares (R83, R84). -/

def condHolds (c : Cond) (a b : Word) : Bool :=
  match c with
  | .eq => a == b
  | .ne => a != b
  | .lt => decide (a.toInt < b.toInt)
  | .ge => decide (b.toInt ≤ a.toInt)
  | .ltu => decide (a.toNat < b.toNat)
  | .geu => decide (b.toNat ≤ a.toNat)
  | .tb => a.getLsbD (b.toNat % 64)
  | .tnb => !a.getLsbD (b.toNat % 64)

/-- The new values of pd1 and pd2 from the condition and their old values (R83). -/
def combine (t : Comb) (c p1 p2 : Bool) : Bool × Bool :=
  match t with
  | .set | .setz => (c, !c)
  | .all => (p1 && c, p2 && c)
  | .any => (p1 || c, p2 || c)
  | .none => (p1 && !c, p2 && !c)
  | .notall => (p1 || !c, p2 || !c)
  | .xany => (p1 || c, p2 && !c)
  | .xall => (p1 && c, p2 || !c)

/-- Write both predicates of a compare, pd2 last; they are ready one cycle after issue. -/
def writePreds (s : State) (pd1 pd2 : PReg) (v : Bool × Bool) : State :=
  s.modMe fun c =>
    (((c.setP pd1 v.1).setP pd2 v.2).setReady (resPred pd1) (s.now + 1)).setReady (resPred pd2) (s.now + 1)

/-- A compare with its sources and the guard's value; only setz gets here with a false guard. -/
def runCmp (g : Bool) (pd1 pd2 : PReg) (t : Comb) (cond : Cond) (rs : List SReg) (imm : Word) (s : State) : Ret Unit :=
  (readClean s rs).bind fun x s =>
    let c := condHolds cond (x.get 0) (if rs.length = 2 then x.get 1 else imm)
    let v := if g then combine t c (s.me.getP pd1) (s.me.getP pd2) else (false, false)
    .ok () (writePreds s pd1 pd2 v)

/-- The guard of a compare: setz takes its PG predicate as an input and is guarded by p0 (R83). -/
def cmpGuard (g : PReg) (t : Comb) : PReg := if t = .setz then 0 else g

def execCmp (g pd1 pd2 : PReg) (t : Comb) (cond : Cond) (a b : SReg) (s : State) : Out :=
  issue s (cmpGuard g t) 1 1 (runCmp (s.me.getP g) pd1 pd2 t cond [a, b] 0)
def execCmpImm (g pd1 pd2 : PReg) (t : Comb) (cond : Cond) (a : SReg) (imm : BitVec 5) (s : State) : Out :=
  issue s (cmpGuard g t) 1 1 (runCmp (s.me.getP g) pd1 pd2 t cond [a] (imm5 cond imm))

end Sys2Proof.Machine
end

