-- ==== Sys2Proof/Machine/Channels.lean ====
section
/-! DEFINITION. Shares of the cluster slices (R209), channel headers (R268), and the commit of a firing (R118, R269, R316). -/

namespace Sys2Proof.Machine

/-- Granules of a cluster's slice that a domain holds, ascending (R333). -/
def State.granules (s : State) (d k : Nat) : List Nat := SMap.get [] (s.dom d).grant.granules k

/-- Bytes of a domain's share of a cluster's slice (R209). -/
def State.shareSize (s : State) (d k : Nat) : Nat := 65536 * (s.granules d k).length

/-- The byte of the slice that a share offset below the share's size names (R209). -/
def State.shareByte (s : State) (d k o : Nat) : Nat := (s.granules d k).getD (o / 65536) 0 * 65536 + o % 65536

/-- Read `n` bytes at a share offset; bytes beyond the share read zero. -/
def State.readShare (s : State) (d k o n : Nat) : Nat :=
  if o + n ≤ s.shareSize d k then Ram.readN (s.cluster k).slice (s.shareByte d k o) n else 0

/-- A device's own write of `n` bytes at a share offset, performed at once. -/
def State.writeShare (s : State) (d k o n v : Nat) : State :=
  if o + n ≤ s.shareSize d k then
    s.modCluster k fun x => { x with slice := x.slice.writeN (s.shareByte d k o) n v }
  else s

/-- Write a run of bytes at a share offset. -/
def State.writeShareBytes (s : State) (d k o : Nat) (bs : List Byte) : State :=
  match bs with
  | [] => s
  | b :: r => (s.writeShare d k o 1 b.toNat).writeShareBytes d k (o + 1) r

/-- The modulus of HEAD and TAIL: the largest multiple of CAP that fits 32 bits (R268). -/
def countMod (cap : Nat) : Nat := Nat.max 1 cap * (2 ^ 32 / Nat.max 1 cap)

/-- Whether a channel's records cross to another die or device (R316, R343, R352). -/
def Chan.crosses (c : Chan) : Bool := (c.scope == 3 || c.scope == 4) && c.fstg != 0xFFFF && c.tstg != 0xFFFF

/-- Doubleword 0 of a header (R268), for the side whose area starts at `base`. -/
def headerWord (c : Chan) (base drop : Nat) : Nat :=
  base % 2 ^ 23 + c.kind * 2 ^ 23 + Nat.min drop 127 * 2 ^ 25 + c.cap * 2 ^ 32 + (c.size / 8 - 1) * 2 ^ 48

def stageCluster (t : Table) (n : Nat) : Option Nat :=
  match t.stages[n]? with
  | some st => st.at0.map fun c => c / 16
  | none => none

/-- Write one side's header of channel `n`. -/
def writeHeader (s : State) (d n k base : Nat) (c : Chan) (drop head tail : Nat) : State :=
  (s.writeShare d k (0x200 + 16 * n) 8 (headerWord c base drop)).writeShare d k (0x208 + 16 * n) 8 (head + tail * 2 ^ 32)

/-- Bring every copy of a channel's header up to date (R268, R316). -/
def writeHeaders (s : State) (d n : Nat) : State :=
  match (s.dom d).table with
  | none => s
  | some t =>
    match t.chans[n]? with
    | none => s
    | some c =>
      let x := (s.dom d).chan n
      let s := match stageCluster t c.tstg with
        | some k => writeHeader s d n k c.base c x.drop x.head x.tail
        | none => s
      match stageCluster t c.fstg with
      | some k =>
        if c.crosses then writeHeader s d n k c.pbase c x.pdrop x.phead x.ptail
        else writeHeader s d n k c.base c x.drop x.head x.tail
      | none => s

def State.modChan (s : State) (d n : Nat) (f : ChanState → ChanState) : State :=
  s.modDom d fun x => { x with chans := SMap.put x.chans n (f (x.chan n)) }

/-- Committed pops leave the head (R269). -/
def ChanState.pop (x : ChanState) (c : Chan) (k : Nat) : ChanState :=
  { x with queue := x.queue.drop k, head := (x.head + Nat.min k x.queue.length) % countMod c.cap }

/-- Committed pushes enter at the tail; what exceeds CAP is discarded and counted in DROP (R269). On a channel whose records
cross, they wait in the staging area (R316). -/
def ChanState.push (x : ChanState) (c : Chan) (k : Nat) (vs : List Word) : ChanState :=
  if c.crosses then
    let room := c.cap - (x.ptail + countMod c.cap - x.phead) % countMod c.cap
    let ok := vs.take room
    { x with staged := x.staged ++ List.zipWith (fun v i => { uid := i, ofs := v.toNat, k := k }) ok (upFrom x.serial ok.length),
             serial := x.serial + ok.length, commits := x.commits ++ [k], ptail := (x.ptail + ok.length) % countMod c.cap,
             pdrop := x.pdrop + (vs.length - ok.length) }
  else
    let ok := vs.take (c.cap - x.queue.length)
    { x with queue := x.queue ++ ok, tail := (x.tail + ok.length) % countMod c.cap, drop := x.drop + (vs.length - ok.length) }

/-- Check every cell of the domain that waits in `str.recv` for a record, at the end of this cycle (R320). -/
def wakeRecv (s : State) (d : Nat) (cs : List Nat) : State :=
  match cs with
  | [] => s
  | c :: r =>
    let s := match (s.cell c).wait with
      | .recv _ _ _ => if (s.cell c).dom = d then s.sched s.now (.strRecvPass c) else s
      | _ => s
    wakeRecv s d r

def cellKeys (s : State) : List Nat := s.cells.map fun x => x.1

/-- Commit one port of a firing (R269). -/
def commitPort (s : State) (f : Firing) (port : Nat) : State :=
  match portChan (s.dom f.dom) f port with
  | none => s
  | some (n, c) =>
    let s := s.modChan f.dom n fun x =>
      if port < 30 then x.pop c (f.pops port) else x.push c f.entry.k (f.pushes port)
    writeHeaders s f.dom n

/-- Commit a firing: its ports in the order q0 to q3, and its mode request, which is pending 64 cycles later (R118, R269,
R301). -/
def commitFiring (s : State) (f : Firing) : State :=
  let s := commitPort (commitPort (commitPort (commitPort s f 28) f 29) f 30) f 31
  let s := match f.request with
    | some (mode, c) => s.sched (s.now + 64) (.modeRequestPending f.dom mode (dieOf c) (clusterOf c) (c % 16) false)
    | none => s
  let s := s.modFiring f.dom f.id fun f => { f with pop0 := 0, pop1 := 0, push2 := [], push3 := [], request := none }
  wakeRecv s f.dom (cellKeys s)

/-- The count R118 asks for on a port: the declared one, or in a fallback after a STREAMLATE stop the lesser of it and the
records held at its release (R319). -/
def dueCount (f : Firing) (port n : Nat) (c : Chan) : Nat :=
  if port < 30 then
    if f.fb ∧ f.late.contains n then Nat.min c.pop (if port = 28 then f.held0 else f.held1) else c.pop
  else c.push

/-- The first port, in the order q0 to q3, on which a firing has too few operations (R118). -/
def shortPort (d : Domain) (f : Firing) : Option Nat :=
  [28, 29, 30, 31].find? fun port =>
    match portChan d f port with
    | none => false
    | some (n, c) => decide ((if port < 30 then f.pops port else (f.pushes port).length) < dueCount f port n c)

end Sys2Proof.Machine
end

