-- ==== Sys2Proof/Machine/Control.lean ====
section
/-! DEFINITION. Control flow, loops, `rep` and the end of a firing on a cell (R52, R63, R85 to R88, R118 to R120). -/

namespace Sys2Proof.Machine

/-- The words of the block that runs on a cell. -/
def Cell.codeWords (c : Cell) : List (BitVec 32) := SMap.get [] c.code c.block

/-- Bytes of the running block's code (R13). -/
def Cell.codeLen (c : Cell) : Nat := 4 * c.codeWords.length

/-- The word at a word address, zero beyond the end. -/
def Cell.wordAt (c : Cell) (x : Nat) : Nat := (c.codeWords.getD x 0).toNat

/-- A control instruction under `rep` raises ILLEGAL when it is reached (R88). -/
def notRepeated (s : State) (i : Instr) (k : Out) : Out :=
  if s.me.underRep then .next (takeTrap s .illegal (wordsVal (encode i))) else k

/-- A transfer leaves every loop whose body the target lies outside (R27, R85); the word after EN is outside, a second word of the
body's last instruction too (log 72). -/
def leaveLoop (c : Cell) (x k : Nat) : Cell :=
  let l := c.loop k
  if l.act = true ∧ (x < l.st ∨ l.en < x) then c.setLoop k { l with act := false } else c

def leaveLoops (c : Cell) (x : Nat) : Cell := leaveLoop (leaveLoop (leaveLoop (leaveLoop c x 3) x 2) x 1) x 0

/-- A taken branch: two slots (R25). -/
def transfer (s : State) (target : Nat) : State :=
  afterIssue (s.modMe fun c => { leaveLoops c (target / 4) with pc := target }.spend s.now 2)

/-- A transfer to an offset target, checked by R52: outside the code it raises ILLEGAL with the first word. -/
def relBranch (s : State) (i : Instr) (off : Int) (k : State → State) : Out :=
  let t := relTarget s.me.pc off
  if 0 ≤ t ∧ t < s.me.codeLen then .next (transfer (k s) t.toNat)
  else .next (takeTrap s .illegal (BitVec.ofNat 64 ((encode i).getD 0 0)))

/-- A transfer to a register's value, checked by R52. -/
def regBranch (s : State) (r : SReg) : Out :=
  match readClean s [r] with
  | .trap c v s => .next (takeTrap s c v)
  | .ok x s =>
    let t := (x.get 0).toNat
    if t % 4 ≠ 0 then .next (takeTrap s .align (x.get 0))
    else if s.me.codeLen ≤ t then .next (takeTrap s .illegal (x.get 0))
    else .next (transfer s t)

def notTaken (s : State) : Out := .next (advance s 1 1)

def execBr (g : PReg) (off : BitVec 23) (s : State) : Out :=
  notRepeated s (.br g off) (if s.me.getP g then relBranch s (.br g off) off.toInt id else notTaken s)

/-- `call` writes the return address to s27 (R85). -/
def linkReg (s : State) : State := s.modMe fun c => (c.setS 27 (BitVec.ofNat 64 (c.pc + 4)) false).setReady 27 (s.now + 1)

def execCall (g : PReg) (off : BitVec 23) (s : State) : Out :=
  notRepeated s (.call g off) (if s.me.getP g then relBranch s (.call g off) off.toInt linkReg else notTaken s)

def execNop (g : PReg) (s : State) : Out := notRepeated s (.nop g) (issue s g 1 1 fun s => .ok () s)

def execRet (g : PReg) (s : State) : Out :=
  notRepeated s (.ret g) (if s.me.getP g then regBranch s 27 else notTaken s)

def execBrr (g : PReg) (a : SReg) (s : State) : Out :=
  notRepeated s (.brr g a) (if s.me.getP g then regBranch s a else notTaken s)

/-- `chk` tests a register's deferred-fault bit; s0 and the ports have none and are not popped (R85). -/
def execChk (g : PReg) (a : SReg) (off : BitVec 18) (s : State) : Out :=
  notRepeated s (.chk g a off)
    (if s.me.getP g ∧ a.toNat < 28 ∧ s.me.getD a then relBranch s (.chk g a off) off.toInt id else notTaken s)

/-! `rep` and `loop`. -/

/-- Words of the instruction at a word address. -/
def Cell.sizeAt (c : Cell) (x : Nat) : Nat := if isLong (c.wordAt x) then 2 else 1

/-- Whether a word address ends the body of an active loop. -/
def Cell.endsLoop (c : Cell) (x : Nat) : Bool :=
  [0, 1, 2, 3].any fun k => (c.loop k).act && (c.loop k).en == x

/-- `rep` with its count: zero passes the next instruction at no slot (R88). -/
def runRep (a : SReg) (s : State) : Out :=
  match readClean s [a] with
  | .trap c v s => .next (takeTrap s c v)
  | .ok x s =>
    let n := (x.get 0).toNat
    if 2 ^ 32 ≤ n then .next (takeTrap s .loopbound (x.get 0))
    else if n = 0 then
      let s := s.modMe fun c => (c.pass (c.pc / 4) 1).spend s.now 1
      .next (afterIssue (s.modMe fun c => c.pass (c.pc / 4) (c.sizeAt (c.pc / 4))))
    else .next (afterIssue (s.modMe fun c => { (c.pass (c.pc / 4) 1).spend s.now 1 with repPend := some n }))

def execRep (g : PReg) (a : SReg) (s : State) : Out :=
  notRepeated s (.rep g a)
    (if s.me.endsLoop (s.me.pc / 4) then .next (takeTrap s .illegal (wordsVal (encode (.rep g a))))
     else if s.me.getP g then runRep a s else notTaken s)

/-- Whether the body from `st` to `en` lies inside the innermost active loop, if there is one (R86 check 3). -/
def Cell.bodyInside (c : Cell) (st en : Nat) : Bool :=
  match c.depth with
  | 0 => true
  | k + 1 => decide ((c.loop k).st ≤ st) && decide (en ≤ (c.loop k).en)

/-- `loop` with its count, checks 1 to 6 of R86. -/
def runLoop (i : Instr) (a : SReg) (dist : BitVec 15) (bound : BitVec 32) (s : State) : Out :=
  match readClean s [a] with
  | .trap c v s => .next (takeTrap s c v)
  | .ok x s =>
    let w := s.me.pc / 4
    let st := w + 2
    let en := w + dist.toNat
    let n := (x.get 0).toNat
    if s.me.depth = 4 ∨ s.me.bodyInside st en = false then .next (takeTrap s .loopbound (wordsVal (encode i)))
    else if bound.toNat < n then .next (takeTrap s .loopbound (x.get 0))
    else if n = 0 then
      .next (afterIssue (s.modMe fun c => (c.pass en (c.sizeAt en)).spend s.now 2))
    else
      .next (afterIssue (s.modMe fun c =>
        { c.setLoop c.depth { st := st, en := en, cnt := n, act := true } with pc := 4 * st }.spend s.now 1))

def execLoop (g : PReg) (a : SReg) (dist : BitVec 15) (bound : BitVec 32) (s : State) : Out :=
  notRepeated s (.loop g a dist bound)
    (if s.me.codeWords.length ≤ s.me.pc / 4 + dist.toNat then
       .next (takeTrap s .illegal (wordsVal (encode (.loop g a dist bound))))
     else if s.me.getP g then runLoop (.loop g a dist bound) a dist bound s
     else .next (advance s 2 1))

/-! `li` and `adr` (R63, R82). -/

def execLiLow (g : PReg) (d : SReg) (imm : BitVec 32) (s : State) : Out :=
  notRepeated s (.liLow g d imm) (issue s g 2 1 fun s => writeDst s d (imm.signExtend 64) none 1)

/-- The high form keeps bits 31:0 and the deferred-fault bit; a port as reg is read and written as one (R96). -/
def runLiHigh (d : SReg) (imm : BitVec 32) (s : State) : Ret Unit :=
  (readSrcs s [d] []).bind fun x s =>
    writeDst s d (BitVec.ofNat 64 (imm.toNat * 2 ^ 32 + (x.get 0).toNat % 2 ^ 32)) x.dfr 1

def execLiHigh (g : PReg) (d : SReg) (imm : BitVec 32) (s : State) : Out :=
  notRepeated s (.liHigh g d imm) (issue s g 2 1 (runLiHigh d imm))

def execAdr (g : PReg) (d : SReg) (off : BitVec 16) (s : State) : Out :=
  notRepeated s (.adr g d off) (issue s g 2 1 fun s => writeDst s d (off.zeroExtend 64) none 1)

/-! The end of a firing, `tickw` and `fsel` (R118 to R120). -/

/-- The cell and its array go idle (R115, R118). -/
def Cell.finishRun (c : Cell) : Cell :=
  { c with run := .finished, wait := .none, ramp := none, rep := 0, repPend := none }

/-- `done` on the acting cell: the last member checks the counts, and commits now or at the deadline (R118); a firing that a trap of
this cycle stops does not end by it (R294). -/
def runDone (s : State) : Ret Unit :=
  match s.myFiring with
  | none => .ok () (s.modMe fun c => c.finishRun)
  | some f =>
    let ix := s.cur % 2 ^ f.logsz
    let all := ix :: f.doneBy
    if all.length = 2 ^ f.logsz then
      match shortPort s.me' f with
      | some port => .trap .ratecount (BitVec.ofNat 64 port) s
      | none =>
        let s := s.modMe fun c => c.finishRun
        let stops := !(f.trapped.isEmpty && f.causes.isEmpty)
        let s := s.modFiring f.dom f.id fun f => { f with doneBy := all, ended := !stops }
        .ok () (if f.entry.cad && !stops then commitFiring s { f with doneBy := all, ended := true } else s)
    else .ok () ((s.modMe fun c => c.finishRun).modFiring f.dom f.id fun f => { f with doneBy := all })

/-- The routine core ends its routine (R248): the engine drains SB1 from its next step. -/
def runRoutineDone (s : State) : State := kick (s.modMe fun c => c.finishRun) (s.cur - 256)

def execDone (g : PReg) (s : State) : Out :=
  notRepeated s (.done g)
    (if s.me.getP g then
       if 256 ≤ s.cur then .next (runRoutineDone s)
       else finish (runDone s) fun s => s.modMe fun c => c.spend s.now 1
     else notTaken s)

/-- Cycles since the release, counted on the period phase: a frozen domain's stands still (R18, R305). -/
def State.bcyc (s : State) : Nat :=
  match s.myFiring with
  | none => 0
  | some f =>
    match s.me'.frozen with
    | some z => z - f.release
    | none => s.now - f.release

/-- `tickw` with its count: wait while release + a lies ahead, to the deadline at most (R119). -/
def runTickw (a : SReg) (s : State) : Ret Unit :=
  (readClean s [a]).bind fun x s =>
    match s.myFiring with
    | none => .ok () s
    | some f =>
      let n := (x.get 0).toNat
      if n ≤ s.bcyc + 1 then .ok () s
      else
        let s := s.modMe fun c => { c with wait := .tickw }
        .ok () (if f.release + n < f.deadline then s.schedPhase f.dom (f.release + n) (.tickwExpiry s.cur) else s)

def execTickw (g : PReg) (a : SReg) (s : State) : Out :=
  notRepeated s (.tickw g a) (issue s g 1 1 (runTickw a))

/-- The expiry of a `tickw`: the thread may issue again in this cycle. -/
def execTickwExpiry (c : Nat) (s : State) : Out :=
  .next (if (s.cell c).wait = .tickw then s.modCell c fun x => { x with wait := .none, t := Nat.max x.t s.now } else s)

def forkWord (s : State) : Word :=
  match s.myFiring with
  | some f => f.fsel
  | none => 0

def execFsel (g : PReg) (d : SReg) (s : State) : Out :=
  notRepeated s (.fsel g d) (issue s g 1 1 fun s => writeDst s d (forkWord s) none 1)

end Sys2Proof.Machine
end

