-- ==== Sys2Proof/Machine/ScalarMem.lean ====
section
/-! DEFINITION. Scalar memory: addresses and their checks, the stack redirect, loads, stores, atomics, and the performing of an
access (R89 to R95, R208). -/

namespace Sys2Proof.Machine

/-- The memory of a space as the acting cell reaches it. -/
def State.ram (s : State) (sp : Space) : Ram :=
  match sp with
  | .sp => s.me.sp
  | .cb => (s.cluster (clusterOf s.cur)).slice

def State.setRam (s : State) (c : Nat) (sp : Space) (r : Ram) : State :=
  match sp with
  | .sp => s.modCell c fun x => { x with sp := r }
  | .cb => s.modCluster (clusterOf c) fun x => { x with slice := r }

/-- Count errors found in a space: corrected ones in SPC or CBC, uncorrectable ones in UEC (R302, R309). -/
def State.count (s : State) (c : Nat) (sp : Space) (one bad : Nat) : State :=
  match sp with
  | .sp => s.modCell c fun x => x.countErr one bad
  | .cb => (s.modCluster (clusterOf c) fun x => { x with cbc := satAdd16 x.cbc one }).modCell c fun x => x.countErr 0 bad

/-- The kind of place of a space (R293). -/
def Space.kind : Space → Nat
  | .sp => 1 | .cb => 2

/-- Masked writes of the pending stores of one stream and space, in program order. -/
def pendingStores (l : List Access) (strm : Nat) (sp : Space) : List (Nat × Byte × Byte) :=
  match l with
  | [] => []
  | x :: r =>
    (if x.strm = strm ∧ x.space = sp then
      match x.upd with
      | .store bs => bs
      | _ => []
     else []) ++ pendingStores r strm sp

/-- The check bits of a memory as a stream meets them: its own pending stores of whole words have written fresh ones (R91,
R95). -/
def State.seen (s : State) (strm : Nat) (sp : Space) : Ram :=
  Ram.fresh (s.ram sp) (coveredWords (pendingStores s.me.pend strm sp))

/-- Words of a space with one flipped bit are rewritten and counted (R91, R309). -/
def State.corrected (s : State) (sp : Space) (ws : List Nat) : State :=
  if ws.isEmpty then s else (s.setRam s.cur sp (Ram.scrub (s.ram sp) ws)).count s.cur sp ws.length 0

/-- Meet the check bits of `n` bytes of a memory seen as `v`: an undeliverable word is marked and traps with its place; single
flips are corrected and counted (R91, R309). -/
def meetErrors (s : State) (v : Ram) (sp : Space) (a n place : Nat) : Ret Unit :=
  let r := s.ram sp
  if Ram.anyBad v a n then
    .trap .memerr (memPlace (Space.kind sp) place)
      ((s.setRam s.cur sp (Ram.mark r (Ram.newBad v a n))).count s.cur sp 0 (Ram.newBad v a n).length)
  else .ok () (s.corrected sp (Ram.oneBit v a n))

/-- Bytes of a memory as a stream sees them: its own stores not yet performed stand over what is performed (R95). -/
def seenMem (m : Mem) (ws : List (Nat × Byte × Byte)) (a n : Nat) : Nat :=
  match ws.filter (fun w => decide (a ≤ w.1) && decide (w.1 < a + n)) with
  | [] => Mem.readN m a n
  | w => Mem.readN (Mem.mergeAll m w) a n

def State.load (s : State) (strm : Nat) (sp : Space) (a n : Nat) : Nat :=
  seenMem (s.ram sp).bytes (pendingStores s.me.pend strm sp) a n

/-- Where a scalar access goes: a byte of a memory with the place a MEMERR names, or beyond the carve-out. -/
inductive Target where
  | mem (sp : Space) (byte place : Nat)
  | out (a : Nat)
  deriving DecidableEq, Repr

def xlateOfs (o : Nat) : Word := BitVec.ofNat 64 (o % 2 ^ 63 + 2 ^ 63)

/-- A cluster-buffer offset: beyond the share it raises XLATE (R89). -/
def cbTarget (s : State) (o : Nat) : Ret Target :=
  if s.shareSize s.me.dom (clusterOf s.cur) ≤ o then .trap .xlate (xlateOfs o) s
  else .ok (.mem .cb (s.shareByte s.me.dom (clusterOf s.cur) o) o) s

def spTarget (s : State) (ea : Nat) : Target := if s.me.limC ≤ ea then .out ea else .mem .sp ea ea

/-- Where a stack access goes (R208): the spill area, the overflow window in the cluster buffer, or SPILL. -/
def stackTarget (s : State) (ea : Nat) : Ret Target :=
  let c := s.me
  if c.limL ≤ ea then .ok (spTarget s ea) s
  else if c.limL ≤ ea + c.limSOV then cbTarget s (c.limOB + (ea + c.limSOV - c.limL))
  else .trap .spill (BitVec.ofNat 64 ea) s

/-- Checks 2 to 4 of R89 for an access of `n` bytes through base register `a`, and the redirect of R208. -/
def target (s : State) (a : SReg) (sp : Space) (ea : Word) (n : Nat) : Ret Target :=
  if ea.toNat % n ≠ 0 then .trap .align ea s
  else
    match sp with
    | .cb => cbTarget s ea.toNat
    | .sp => if a = 26 then stackTarget s ea.toNat else .ok (spTarget s ea.toNat) s

/-- The memory that an access of a space through a base register reaches, decided at issue (R26, R208). -/
def Cell.reach (c : Cell) (a : SReg) (sp : Space) (ea : Nat) : Space :=
  if a = 26 ∧ sp = .sp ∧ ea < c.limL ∧ c.limL ≤ ea + c.limSOV then .cb else sp

/-- CW.SPOVF keeps the deepest overflow word that a stack access of the scratchpad space has written (R208). -/
def markSpill (s : State) (sp reached : Space) (o : Nat) : State :=
  if sp = .sp ∧ reached = .cb ∧ o < s.me.spovf.toNat then s.modMe fun c => { c with spovf := BitVec.ofNat 23 o } else s

def latencyOf : Space → Nat
  | .sp => 4 | .cb => 24

/-- A loaded value extended to 64 bits (R90). -/
def loadExt (n : Nat) (zero : Bool) (v : Nat) : Word := extend (8 * n) zero (BitVec.ofNat 64 v)

/-- The value and latency of a load at a target, its errors met. -/
def loadAt (s : State) (t : Target) (n : Nat) (zero : Bool) (strm : Nat) : Ret (Word × Nat) :=
  match t with
  | .out a => .ok (0, 4) (s.modMe fun c => c.setOOR s.now a)
  | .mem sp b place =>
    (meetErrors s (s.seen strm sp) sp b n place).bind fun _ s => .ok (loadExt n zero (s.load strm sp b n), latencyOf sp) s

/-- `ld` (R90). -/
def runLoad (d a : SReg) (imm : BitVec 9) (n : Nat) (zero : Bool) (sp : Space) (strm : Nat) (s : State) : Ret Unit :=
  (readClean s [a]).bind fun x s =>
    (target s a sp (effAddr (x.get 0) imm n) n).bind fun t s =>
      (loadAt s t n zero strm).bind fun v s => writeDst s d v.1 none v.2

/-- CW.DFC takes the first deferral (R16). -/
def Cell.defer (c : Cell) (cause : Cause) (d : SReg) (addr : Nat) : Cell :=
  if c.dfc.getLsbD 16 then c
  else { c with dfc := BitVec.ofNat 64 (cause.code.toNat + d.toNat * 2 ^ 8 + 2 ^ 16 + addr % 2 ^ 32 * 2 ^ 32) }

/-- Deferral (R92): d reads zero with its bit set, at the usual latency; a port as d has no bit and takes the zero. -/
def deferLoad (s : State) (d : SReg) (cause : Cause) (addr lat : Nat) : Ret Unit :=
  let s := s.modMe fun c => c.defer cause d addr
  let s := if cause = .memerr then s.modMe fun c => c.setFlags s.now flagPOISON else s
  writeDst s d 0 (if d.toNat < 28 then some d else none) lat

/-- `ldsp` (R92): ALIGN, XLATE, MEMERR of the word and of a deferred base are deferred, at the latency of the memory that the
address reaches (R26); of a deferred base, which has no address, at that of the space named (DESIGN CHOICE, log 66). -/
def runLdsp (d a : SReg) (imm : BitVec 9) (n : Nat) (zero : Bool) (sp : Space) (strm : Nat) (s : State) : Ret Unit :=
  (readSrcs s [a] []).bind fun x s =>
    let ea := effAddr (x.get 0) imm n
    let lat := latencyOf (if x.dfb then sp else s.me.reach a sp ea.toNat)
    let s := s.modMe fun c => { c with ldspAt := Nat.max c.ldspAt (s.now + lat) }
    if x.dfb then deferLoad s d .memerr (2 ^ 64) lat
    else
      match target s a sp ea n with
      | .trap .spill v s => .trap .spill v s
      | .trap c _ s => deferLoad s d c ea.toNat lat
      | .ok t s =>
        match loadAt s t n zero strm with
        | .trap c _ s => deferLoad s d c ea.toNat lat
        | .ok v s => writeDst s d v.1 none v.2

/-- Decreases of an object come after the increases of the same cycle (R258). -/
def Update.late : Update → Bool
  | .sem _ b => decide (b < 0)
  | .barSub _ _ => true
  | _ => false

/-- The cycle by which the accesses of a list are performed. -/
def dueOf (l : List Access) : Nat := (l.map fun x => x.due).foldl Nat.max 0

/-- A write of memory, which keeps the program order of its stream and space; updates of cluster objects name no stream. -/
def Update.inStream : Update → Bool
  | .store _ | .amo .. => true
  | _ => false

/-- The cycle in which a memory write is performed: its own, or that of an earlier one of its stream and space where that is later
(R95, R163). An access that R208 redirects counts with those of the cluster buffer (DESIGN CHOICE, log 67). -/
def Cell.inOrder (c : Cell) (strm : Nat) (sp : Space) (due : Nat) : Nat :=
  Nat.max due (dueOf (c.pend.filter fun x => x.strm == strm && x.space == sp && Update.inStream x.upd))

/-- Put an access in flight, with the cycle it begins at its port and the event that performs it. -/
def State.addAccessAt (s : State) (pc starts strm : Nat) (sp : Space) (strong : Bool) (tok due : Nat) (u : Update) : State :=
  let s' := s.modMe fun c => { c with pend := c.pend ++ [⟨s.nextId, starts, strm, sp, strong, tok, due, pc, u⟩] }
  let ev : Instr := .storePerformed s.cur s.nextId
  { s' with nextId := s.nextId + 1,
            agenda := insertTimed s'.agenda ⟨due, eventPrio ev + (if Update.late u then 2 * 4096 else 0), ev⟩ }

def State.addAccess (s : State) (strm : Nat) (sp : Space) (strong : Bool) (tok due : Nat) (u : Update) : State :=
  s.addAccessAt s.me.pc s.now strm sp strong tok due u

/-- A store meets the words that it covers in part (R91, R309): each that no read can deliver is marked, and MEMERR raised; one flipped
bit is corrected. They are met at the issue alone (DESIGN CHOICE, log 68). -/
def meetPart (s : State) (v : Ram) (sp : Space) (a n place : Nat) : Ret Unit :=
  if Ram.partBad v a n then
    .trap .memerr (memPlace (Space.kind sp) place)
      ((s.setRam s.cur sp (Ram.mark (s.ram sp) (Ram.newBad v a n))).count s.cur sp 0 (Ram.newBad v a n).length)
  else .ok () (s.corrected sp (Ram.partOne v a n))

/-- `st` (R90, R91): a store of part of an undeliverable word raises MEMERR. A deferred-fault bit of the data register is met with
that of the base, before the address is checked (DESIGN CHOICE, log 66). A store dropped beyond the carve-out puts nothing in
flight, so that its token stays produced (DESIGN CHOICE, log 67). -/
def runStore (d a : SReg) (tok : Tok) (imm : BitVec 9) (n : Nat) (strong : Bool) (sp : Space) (strm : Nat) (s : State) :
    Ret Unit :=
  (readClean s [a, d]).bind fun x s =>
    (target s a sp (effAddr (x.get 0) imm n) n).bind fun t s =>
      match t with
      | .out ad => .ok () (s.modMe fun c => c.setOOR s.now ad)
      | .mem mp b place =>
        (meetPart s (s.seen strm mp) mp b n place).bind fun _ s =>
          .ok () ((markSpill s sp mp place).addAccess strm mp strong tok.toNat (s.me.inOrder strm mp (s.now + latencyOf mp))
            (.store (fullBytes b (leBytes n (x.get 1).toNat))))

/-- FP32 pattern of a NaN. -/
def isNan32 (v : Nat) : Bool := decide (0x7F800000 < v % 2 ^ 31)

/-- One lane of `amo.amax` (R93), and whether INVALID is set. -/
def amaxLane (m b : Nat) : Nat × Bool :=
  let m := m % 2 ^ 31
  let b := b % 2 ^ 31
  if isNan32 m then (m, true) else if isNan32 b then (b, true) else (Nat.max m b, false)

/-- New value of an atomic's word of `w` bits from its old value M, b and the expected value, and whether INVALID is set.
Operations: 0 add, 1 min, 2 max, 3 minn, 4 maxn, 5 swap, 6 cas, 7 amax. -/
def amoVal (op w : Nat) (m b e : Nat) : Nat × Bool :=
  let m := m % 2 ^ w
  let b := b % 2 ^ w
  match op with
  | 0 => ((m + b) % 2 ^ w, false)
  | 1 => (if Int.bmod m (2 ^ w) ≤ Int.bmod b (2 ^ w) then m else b, false)
  | 2 => (if Int.bmod m (2 ^ w) ≤ Int.bmod b (2 ^ w) then b else m, false)
  | 3 => (Nat.min m b, false)
  | 4 => (Nat.max m b, false)
  | 5 => (b, false)
  | 6 => (if m = e % 2 ^ w then b else m, false)
  | _ =>
    let lo := amaxLane (m % 2 ^ 32) (b % 2 ^ 32)
    if w = 32 then lo
    else
      let hi := amaxLane (m / 2 ^ 32) (b / 2 ^ 32)
      (lo.1 + hi.1 * 2 ^ 32, lo.2 || hi.2)

/-- Whether an atomic returns its old value sign-extended (R93). -/
def amoSigned (op : Nat) : Bool := decide (op < 3)

/-- The destination of an atomic at its issue: a register is ready when the access is performed; an output port takes its place
in program order and its count at once (R96), and the value when it is performed; q0 and q1 discard. -/
def holdDst (s : State) (d : SReg) (due : Nat) : Ret Nat :=
  if d.toNat < 28 then .ok 0 (s.modMe fun c => c.setReady d.toNat due)
  else
    (writeDst s d 0 none 0).bind fun _ s' =>
      .ok (match s.myFiring with | some f => (f.pushes d.toNat).length | none => 0) s'

/-- An atomic (R93, R94): performed 6 or 26 cycles after issue, when its old value reaches d. Its word is met at issue and again
when the access is performed (DESIGN CHOICE, log 68). An atomic beyond the carve-out puts nothing in flight (log 67). -/
def runAmo (op : Nat) (d a : SReg) (tok : Tok) (imm : BitVec 9) (dbl : Bool) (sp : Space) (strm : Nat) (b : SReg) (s : State) :
    Ret Unit :=
  let n := if dbl then 8 else 4
  (readClean s (a :: b :: if op = 6 then [d] else [])).bind fun x s =>
    (target s a sp (effAddr (x.get 0) imm n) n).bind fun t s =>
      match t with
      | .out ad => writeDst (s.modMe fun c => c.setOOR s.now ad) d 0 none 6
      | .mem mp by0 place =>
        (meetErrors s (s.seen strm mp) mp by0 n place).bind fun _ s =>
          let due := s.me.inOrder strm mp (s.now + latencyOf mp + 2)
          (holdDst s d due).bind fun k s =>
            .ok () (((markSpill s sp mp place).modMe fun c =>
              { c with flagsAt := Nat.max c.flagsAt (if op = 7 then due else 0) }).addAccess strm mp true tok.toNat due
                (.amo op by0 dbl (x.get 1) (x.get 2) d place k))

/-- Clamp to 32 bits unsigned, with whether it clamped (R256). -/
def clamp32 (v : Int) : BitVec 32 × Bool :=
  if v < 0 then (0, true) else if 2 ^ 32 ≤ v then (BitVec.ofNat 32 (2 ^ 32 - 1), true) else (BitVec.ofInt 32 v, false)

/-- Change a barrier's counter; a result outside 32 bits leaves it and answers false (R257). -/
def barChange (x : Cluster) (n : Nat) (v : Int) : Cluster × Bool :=
  let r := (SMap.get 0 x.bars n).toNat + v
  if r < 0 ∨ 2 ^ 32 ≤ r then (x, false) else ({ x with bars := SMap.set 0 x.bars n (BitVec.ofInt 32 r) }, true)

/-- Put a value in a place of a list. -/
def setAt (l : List Word) (k : Nat) (v : Word) : List Word :=
  match l, k with
  | [], _ => []
  | _ :: r, 0 => v :: r
  | x :: r, k + 1 => x :: setAt r k v

/-- The value of an atomic reaches the place its issue has held: a register, or a push of q2 or q3. -/
def fillDst (s : State) (d : SReg) (k : Nat) (v : Word) : State :=
  if d.toNat < 28 then s.modMe fun c => c.setS d v false
  else
    match s.myFiring with
    | none => s
    | some f =>
      s.modFiring f.dom f.id fun f =>
        if d.toNat = 30 then { f with push2 := setAt f.push2 k v } else if d.toNat = 31 then { f with push3 := setAt f.push3 k v }
        else f

/-- Perform an access of a cell. -/
def perform (s : State) (c : Nat) (x : Access) : State :=
  let k := clusterOf c
  match x.upd with
  | .store bs =>
    match x.space with
    | .sp => s.modCell c fun y => { y with sp := y.sp.merge bs }
    | .cb => s.modCluster k fun y => { y with slice := y.slice.merge bs }
  | .amo op a dbl b e d place push =>
    let n := if dbl then 8 else 4
    let s0 := { s with cur := c }
    match meetErrors s0 (s0.ram x.space) x.space a n place with
    | .trap cause v s1 => { trapAt s1 c x.pc cause v with cur := s.cur }
    | .ok _ s0 =>
      let m := Ram.readN (s0.ram x.space) a n
      let r := amoVal op (8 * n) m b.toNat e.toNat
      let s1 := s0.setRam c x.space ((s0.ram x.space).writeN a n r.1)
      let s2 := if r.2 then s1.modMe fun y => y.setFlags s.now flagINVALID else s1
      { fillDst s2 d push (extend (8 * n) (!amoSigned op) (BitVec.ofNat 64 m)) with cur := s.cur }
  | .sem n b =>
    let r := clamp32 ((SMap.get 0 (s.cluster k).sems n).toNat + b)
    let s := s.modCluster k fun y => { y with sems := SMap.set 0 y.sems n r.1 }
    let s := if r.2 then s.modCell c fun y => y.setFlags s.now flagSATD else s
    wakeSync s (clusterCells k)
  | .barAdd n b =>
    let r := barChange (s.cluster k) n b
    if r.2 then wakeSync (s.modCluster k fun _ => r.1) (clusterCells k)
    else trapAt s c x.pc .barflow (BitVec.ofNat 64 n)
  | .barSub n b =>
    let r := barChange (s.cluster k) n (-(b : Int))
    if r.2 then wakeSync (s.modCluster k fun _ => r.1) (clusterCells k)
    else trapAt s c x.pc .barflow (BitVec.ofNat 64 n)

/-- Perform a write that an engine has moved (R238). -/
def performWrite (s : State) (w : Write) : State :=
  let put (r : Ram) : Ram := Ram.mark (r.merge w.bytes) w.poison
  if w.kind = 0 then s.modCell w.place fun y => { y with sp := put y.sp }
  else s.modCluster w.place fun y => { y with slice := put y.slice }

/-- A store, atomic or object update is performed, or an engine's write (numbered from 256 by engine). -/
def execStorePerformed (c id : Nat) (s : State) : Out :=
  match (s.cell c).pend.find? fun x => x.id == id with
  | some x =>
    let s := s.modCell c fun y => { y with pend := y.pend.filter fun z => z.id != id }
    .next (perform s c x)
  | none =>
    if c < 256 then .next s
    else
      match (s.engine (c - 256)).writes.find? fun w => w.id == id with
      | none => .next s
      | some w =>
        .next (performWrite (s.modEngine (c - 256) fun e => { e with writes := e.writes.filter fun z => z.id != id }) w)

/-! One meaning per instruction. -/

def execLdD (g : PReg) (d a : SReg) (_tok : Tok) (imm : BitVec 9) (s : State) : Out :=
  issue s g 1 1 (runLoad d a imm 8 false .sp 0)
def execLdW (g : PReg) (d a : SReg) (_tok : Tok) (imm : BitVec 9) (s : State) : Out :=
  issue s g 1 1 (runLoad d a imm 4 false .sp 0)
def execStD (g : PReg) (d a : SReg) (tok : Tok) (imm : BitVec 9) (s : State) : Out :=
  issue s g 1 1 (runStore d a tok imm 8 false .sp 0)
def execStW (g : PReg) (d a : SReg) (tok : Tok) (imm : BitVec 9) (s : State) : Out :=
  issue s g 1 1 (runStore d a tok imm 4 false .sp 0)
def execLd (g : PReg) (d a : SReg) (_tok : Tok) (imm : BitVec 9) (size : Size) (n : Bool) (rt : Route) (s : State) : Out :=
  issue s g 2 1 (runLoad d a imm (Size.bytes size) n rt.space rt.stream.toNat)
def execLdsp (g : PReg) (d a : SReg) (_tok : Tok) (imm : BitVec 9) (size : Size) (n : Bool) (rt : Route) (s : State) : Out :=
  issue s g 2 1 (runLdsp d a imm (Size.bytes size) n rt.space rt.stream.toNat)
def execSt (g : PReg) (d a : SReg) (tok : Tok) (imm : BitVec 9) (size : Size) (rt : Route) (s : State) : Out :=
  issue s g 2 1 (runStore d a tok imm (Size.bytes size) rt.strong rt.space rt.stream.toNat)
def execAmoAdd (g : PReg) (d a : SReg) (tok : Tok) (imm : BitVec 9) (dbl : Bool) (sp : Space) (strm : Strm) (b : SReg)
    (s : State) : Out :=
  issue s g 2 1 (runAmo 0 d a tok imm dbl sp strm.toNat b)
def execAmoMin (g : PReg) (d a : SReg) (tok : Tok) (imm : BitVec 9) (dbl : Bool) (sp : Space) (strm : Strm) (b : SReg)
    (s : State) : Out :=
  issue s g 2 1 (runAmo 1 d a tok imm dbl sp strm.toNat b)
def execAmoMax (g : PReg) (d a : SReg) (tok : Tok) (imm : BitVec 9) (dbl : Bool) (sp : Space) (strm : Strm) (b : SReg)
    (s : State) : Out :=
  issue s g 2 1 (runAmo 2 d a tok imm dbl sp strm.toNat b)
def execAmoMinn (g : PReg) (d a : SReg) (tok : Tok) (imm : BitVec 9) (dbl : Bool) (sp : Space) (strm : Strm) (b : SReg)
    (s : State) : Out :=
  issue s g 2 1 (runAmo 3 d a tok imm dbl sp strm.toNat b)
def execAmoMaxn (g : PReg) (d a : SReg) (tok : Tok) (imm : BitVec 9) (dbl : Bool) (sp : Space) (strm : Strm) (b : SReg)
    (s : State) : Out :=
  issue s g 2 1 (runAmo 4 d a tok imm dbl sp strm.toNat b)
def execAmoSwap (g : PReg) (d a : SReg) (tok : Tok) (imm : BitVec 9) (dbl : Bool) (sp : Space) (strm : Strm) (b : SReg)
    (s : State) : Out :=
  issue s g 2 1 (runAmo 5 d a tok imm dbl sp strm.toNat b)
def execAmoCas (g : PReg) (d a : SReg) (tok : Tok) (imm : BitVec 9) (dbl : Bool) (sp : Space) (strm : Strm) (b : SReg)
    (s : State) : Out :=
  issue s g 2 1 (runAmo 6 d a tok imm dbl sp strm.toNat b)
def execAmoAmax (g : PReg) (d a : SReg) (tok : Tok) (imm : BitVec 9) (dbl : Bool) (sp : Space) (strm : Strm) (b : SReg)
    (s : State) : Out :=
  issue s g 2 1 (runAmo 7 d a tok imm dbl sp strm.toNat b)

end Sys2Proof.Machine
end

