-- ==== Sys2Proof/Machine/Uses.lean ====
section
/-! DEFINITION. What an instruction reads, writes and occupies, and the cycle in which it may issue (R22, R25, R95, R118, R231,
R237). -/

namespace Sys2Proof.Machine

/-- The resources an instruction waits for (R25): ready-time places, the stream of a load with the bytes it would read,
and the special waits. -/
structure Uses where
  res : List Nat := []
  /-- A token waited for (R95). -/
  tok : Nat := 0
  /-- A strong access (R231). -/
  strong : Bool := false
  /-- A load or atomic on a stream and the space it reaches: it waits for a pending atomic of the stream there. -/
  load : Option (Nat × Space) := none
  /-- Every access, copy command and array, spectral and vector operation of the firing is over: `done` (R118). -/
  all : Bool := false
  /-- The accesses `fence.cell` covers are performed: `sem.add`, `bar.arrive`. -/
  cellFence : Bool := false
  /-- Flags of earlier instructions are set (R22), and earlier `ldsp` have written (R16). -/
  flags : Bool := false
  ldsp : Bool := false
  /-- A place in the command queue is free (R237). -/
  queue : Bool := false
  deriving DecidableEq, Repr

/-- Scalar register places; ports have none. -/
def resS (rs : List SReg) : List Nat := (rs.map fun r => r.toNat).filter fun n => n < 28 && n != 0

/-- Whether an input port stands among the sources: its pop is a strong load (R285). -/
def popsPort (rs : List SReg) : Bool := rs.any fun r => r.toNat == 28 || r.toNat == 29

/-- The uses of an instruction that reads scalar registers. -/
def usesS (g : PReg) (rs : List SReg) : Uses := { res := resPred g :: resS rs, strong := popsPort rs }

/-- The same with a destination that is not read. -/
def usesD (g : PReg) (d : SReg) (rs : List SReg) : Uses := { usesS g rs with res := resPred g :: resS (d :: rs) }

def usesSop (g : PReg) (d a : SReg) (b : Option SReg) (op : SOp) : Uses :=
  { res := resPred g :: resPred (sopPredicate op) :: (resS (d :: a :: b.toList) ++ if sopIsDiv op then [unitDiv] else []),
    strong := popsPort (sopRegs op d a b) }

/-- Uses joined to a strong access. -/
def Uses.withStrong (u : Uses) (strong : Bool) : Uses := { u with strong := u.strong || strong }

def usesV (g : PReg) (rs : List SReg) (vs : List VReg) (ms : List MReg) (unit : Nat) : Uses :=
  { res := resPred g :: unit :: (resS rs ++ vs.map resVec ++ ms.map resMask), strong := popsPort rs }

/-- `vext` writes a scalar register. -/
def usesVext (g : PReg) (d : SReg) (va : VReg) (b : SReg) (m : MReg) : Uses :=
  { usesV g [b] [va] [m] unitVec with res := (usesV g [d, b] [va] [m] unitVec).res }

/-- Registers of a spectral group (R191). -/
def groupRegs (v : VReg) (n : Nat) : List VReg := (List.range n).map fun i => v + BitVec.ofNat 5 i

def usesX (g : PReg) (vd va : VReg) (n k : Nat) : Uses := usesV g [] (groupRegs vd n ++ groupRegs va k) [] unitXfm

def usesM (g : PReg) (rs : List SReg) (tiles : List Nat) : Uses :=
  { res := resPred g :: unitSeq :: (resS rs ++ tiles.map resTile), strong := popsPort rs }

def usesCp (g : PReg) (rs : List SReg) : Uses := { usesS g rs with queue := true }

/-- A second use joined to the first. -/
def Uses.withLoad (u : Uses) (tok : Nat) (strong : Bool) (strm : Nat) (sp : Space) : Uses :=
  { u.withStrong strong with tok := tok, load := some (strm, sp) }

/-- The resources of each instruction of a control thread. A word that no instruction has waits for nothing before it traps; one that
traps for its privilege or its loop body waits for its guard and sources first (R74; log 83, the model's choice). -/
def usesOf : Instr → Uses
  | .add g d a b w n o => usesSop g d a (some b) (.add w n o)
  | .sub g d a b w n o => usesSop g d a (some b) (.sub w n o)
  | .mul g d a b w n o => usesSop g d a (some b) (.mul w n o)
  | .madd g d a b w n o => usesSop g d a (some b) (.madd w n o)
  | .div g d a b w => usesSop g d a (some b) (.div w)
  | .rem g d a b w => usesSop g d a (some b) (.rem w)
  | .divn g d a b w => usesSop g d a (some b) (.divn w)
  | .remn g d a b w => usesSop g d a (some b) (.remn w)
  | .bfi g d a b w => usesSop g d a (some b) (.bfi w)
  | .mulh g d a b _ | .min g d a b _ | .max g d a b _ | .sra g d a b _ | .bfx g d a b _ | .mulhn g d a b _
  | .minn g d a b _ | .maxn g d a b _ | .shr g d a b _ | .and g d a b _ | .or g d a b _ | .xor g d a b _
  | .andn g d a b _ | .orn g d a b _ | .shl g d a b _ | .rol g d a b _ | .ix g d a b _ => usesD g d [a, b]
  | .sext g d a _ | .zext g d a _ | .clz g d a _ | .ctz g d a _ | .pop g d a _ => usesD g d [a]
  | .sel g d a b w p => usesSop g d a (some b) (.sel w p)
  | .addImm g d a _ | .andImm g d a _ | .orImm g d a _ | .xorImm g d a _ | .shlImm g d a _ | .shrImm g d a _
  | .sraImm g d a _ => usesD g d [a]
  | .wideImmediate g d a _ op => usesSop g d a none op
  | .cmp g p q _ _ a b => { usesS g [a, b] with res := resPred g :: resPred p :: resPred q :: resS [a, b] }
  | .cmpImm g p q _ _ a _ => { usesS g [a] with res := resPred g :: resPred p :: resPred q :: resS [a] }
  | .br g _ | .nop g => usesS g []
  | .call g _ | .ret g => usesS g [27]
  | .done g => { usesS g [] with all := true }
  | .brr g a | .rep g a | .tickw g a | .chk g a _ | .loop g a _ _ => usesS g [a]
  | .fsel g d | .liLow g d _ | .adr g d _ => usesD g d []
  | .liHigh g d _ => usesD g d [d]
  | .ldD g d a tok _ | .ldW g d a tok _ => (usesD g d [a]).withLoad tok.toNat false 0 .sp
  | .stD g d a _ _ | .stW g d a _ _ => usesS g [d, a]
  | .ld g d a tok _ _ _ rt | .ldsp g d a tok _ _ _ rt =>
    (usesD g d [a]).withLoad tok.toNat rt.strong rt.stream.toNat rt.space
  | .st g d a _ _ _ rt => (usesS g [d, a]).withStrong rt.strong
  | .amoAdd g d a _ _ _ sp st b | .amoMin g d a _ _ _ sp st b | .amoMax g d a _ _ _ sp st b | .amoMinn g d a _ _ _ sp st b
  | .amoMaxn g d a _ _ _ sp st b | .amoSwap g d a _ _ _ sp st b | .amoCas g d a _ _ _ sp st b
  | .amoAmax g d a _ _ _ sp st b => (usesS g [d, a, b]).withLoad 0 true st.toNat sp
  | .cwget g d num => { usesD g d [] with flags := num == 0x10 || num == 0x11, ldsp := num == 0x12 }
  | .cwput g a _ => usesS g [a]
  | .qcnt g d _ => usesD g d []
  | .fence g _ | .sbar g _ | .tokw g _ => usesS g []
  | .semAdd g a b => { usesS g [a, b] with cellFence := true, strong := true }
  | .semWait g a b => usesS g [a, b]
  | .barInit g a b => { usesS g [a, b] with strong := true }
  | .barArrive g a => { usesS g [a] with cellFence := true, strong := true }
  | .barWait g a | .pub g a => usesS g [a]
  | .hres g d a => { usesD g d [a] with res := resPred g :: resS [d, d + 1, a], strong := true, load := some (0, .cb) }
  | .trap g a | .modeReq g a | .ttsync g a => usesS g [a]
  | .brk g | .tret g | .inject g => usesS g []
  | .vadd _ g vd va vb m | .vsub _ g vd va vb m | .vmul _ g vd va vb m | .vfma _ g vd va vb m | .vfnma _ g vd va vb m
  | .vmin _ g vd va vb m | .vmax _ g vd va vb m | .vcmul _ g vd va vb m | .vsel _ g vd va vb m | .vand _ g vd va vb m
  | .vor _ g vd va vb m | .vxor _ g vd va vb m | .vshl _ g vd va vb m | .vshr _ g vd va vb m | .vsra _ g vd va vb m
  | .vperm _ g vd va vb m | .vshuf _ g vd va vb m | .vzip _ g vd va vb m | .vunzip _ g vd va vb m =>
    usesV g [] [vd, va, vb] [m] unitVec
  | .vabs _ g vd va m | .vneg _ g vd va m | .vrcp _ g vd va m | .vrsqrt _ g vd va m | .vexp2 _ g vd va m
  | .vlog2 _ g vd va m | .vtanh _ g vd va m | .vsigm _ g vd va m | .vrelu _ g vd va m | .vmov _ g vd va m
  | .vrsum _ g vd va m | .vrmax _ g vd va m | .vrmin _ g vd va m | .vramax _ g vd va m | .vscan _ g vd va m
  | .vscanx _ g vd va m => usesV g [] [vd, va] [m] unitVec
  | .vceq _ g md va vb m | .vcne _ g md va vb m | .vclt _ g md va vb m | .vcle _ g md va vb m =>
    usesV g [] [va, vb] [m, md] unitVec
  | .vsplat _ g vd a m => usesV g [a] [vd] [m] unitVec
  | .vins _ g vd a b m => usesV g [a, b] [vd] [m] unitVec
  | .vext _ g d va b m => usesVext g d va b m
  | .vrot _ g vd va b m | .vbcl _ g vd va b m => usesV g [b] [vd, va] [m] unitVec
  | .vectorLong g vd va vb m op _ _ =>
    match op with
    | .vsplat => usesV g [va] [vd] [m] unitVec
    | .vins => usesV g [va, vb] [vd] [m] unitVec
    | .vext => usesVext g vd va vb m
    | .vrot | .vbcl => usesV g [vb] [vd, va] [m] unitVec
    | .vceq | .vcne | .vclt | .vcle => usesV g [] [va, vb] [m, BitVec.ofNat 3 vd.toNat] unitVec
    | op => usesV g [] (if op.unary then [vd, va] else [vd, va, vb]) [m] unitVec
  | .vcvt g vd va _ m _ _ _ | .vamax g vd va m _ _ => usesV g [] [vd, va] [m] unitVec
  | .vquant g vd va _ _ _ _ => usesV g [] [vd, vd + 1, va] [] unitVec
  | .vdequant g vd va _ _ _ _ => usesV g [] [vd, va, va + 1] [] unitVec
  | .vld g vd a tok m _ rt _ => (usesV g [a] [vd] [m] unitVport).withLoad tok.toNat rt.strong rt.stream.toNat rt.space
  | .vlds g vd a b tok m _ rt _ => (usesV g [a, b] [vd] [m] unitVport).withLoad tok.toNat rt.strong rt.stream.toNat rt.space
  | .vldx g vd a vb tok m _ rt _ => (usesV g [a] [vd, vb] [m] unitVport).withLoad tok.toNat rt.strong rt.stream.toNat rt.space
  | .vst g vd a _ m _ rt _ => (usesV g [a] [vd] [m] unitVport).withStrong rt.strong
  | .vsts g vd a b _ m _ rt _ => (usesV g [a, b] [vd] [m] unitVport).withStrong rt.strong
  | .vstx g vd a vb _ m _ rt _ => (usesV g [a] [vd, vb] [m] unitVport).withStrong rt.strong
  | .mma g acc a b _ | .mmaCo g acc a b _ => usesM g [a, b] [acc.toNat]
  | .mmaCk g acc a b _ | .mmaC g acc a b _ => usesM g [a, b] [acc.toNat, acc.toNat + 1]
  | .mz g acc _ => usesM g [] [acc.toNat]
  | .mld g acc a _ | .mst g acc a _ => usesM g [a] [acc.toNat]
  | .mdrain g acc a b _ => usesM g [a, b] [acc.toNat]
  | .cfgsel g _ => usesS g []
  | .xfmFwd g z vd va | .xfmInv g z vd va => usesX g vd va z.group z.group
  | .xfmPack g z vd va => usesX g vd va z.group (2 * z.group)
  | .xfmUnpack g z vd va => usesX g vd va (2 * z.group) z.group
  | .dtag g _ a _ => usesS g [a]
  | .mmaG g acc a b _ vi => { usesM g [a, b] [acc.toNat] with res := resVec vi :: (usesM g [a, b] [acc.toNat]).res }
  | .mmaSp g acc a b _ c _ => usesM g [a, b, c] [acc.toNat]
  | .cpNd g _ a _ | .cpCvt g _ a _ _ | .cpAlias g _ a _ => usesCp g [a]
  | .cpCrc g _ a b _ | .cpFill g _ a b _ | .cpRtn g _ a b _ => usesCp g [a, b]
  | .strSend g _ b => usesS g [b]
  | .strRecv g d _ => { usesD g d [] with strong := true }
  | .lnkStat g d a => usesD g d [a]
  | .lnkPause g a | .lnkResume g a | .pwrGate g a => usesS g [a]
  | .lnkRemap g a b | .lnkTrain g a b | .pwrBorrow g a b | .pwrRepay g a b => usesS g [a, b]
  | _ => {}

def maxOf (l : List Nat) : Nat := l.foldl Nat.max 0

/-- The cycle in which everything of a sequencer instruction is performed: its work, and its amax update (R172). -/
def SeqOp.doneAt (x : SeqOp) : Nat :=
  x.ws + x.n + match x.op with
    | .drain _ (some _) _ => 24
    | _ => 0

/-- The end of the work in the sequencer's hands; none while an `mma.co` has no work start yet (R172, R183). -/
def seqEnd (l : List SeqOp) : Option Nat :=
  if l.any fun x => x.ws == 0 then none else some (maxOf (l.map SeqOp.doneAt))

/-- The performing of strong accesses still to come from the sequencer: the amax updates of `mdrain` (R177). -/
def seqStrong (l : List SeqOp) : Nat :=
  maxOf ((l.filter fun x => match x.op with | .drain _ (some _) _ => true | _ => false).map SeqOp.doneAt)

/-- The memory that a scalar load or atomic reaches; none for other instructions. -/
def Cell.reaches (c : Cell) (i : Instr) : Option Space :=
  let at_ (a : SReg) (imm : BitVec 9) (n : Nat) (sp : Space) : Option Space :=
    some (c.reach a sp (effAddr (c.getS a) imm n).toNat)
  match i with
  | .ldD _ _ a _ imm => at_ a imm 8 .sp
  | .ldW _ _ a _ imm => at_ a imm 4 .sp
  | .ld _ _ a _ imm size _ rt | .ldsp _ _ a _ imm size _ rt => at_ a imm (Size.bytes size) rt.space
  | .amoAdd _ _ a _ imm dbl sp _ _ | .amoMin _ _ a _ imm dbl sp _ _ | .amoMax _ _ a _ imm dbl sp _ _
  | .amoMinn _ _ a _ imm dbl sp _ _ | .amoMaxn _ _ a _ imm dbl sp _ _ | .amoSwap _ _ a _ imm dbl sp _ _
  | .amoCas _ _ a _ imm dbl sp _ _ | .amoAmax _ _ a _ imm dbl sp _ _ => at_ a imm (if dbl then 8 else 4) sp
  | _ => none

/-- The guard of the instructions whose own wait stands only under a true guard (R118, R256, R257) or whose effect waits
for a pending atomic (R95). -/
def waitGuard : Instr → PReg
  | .done g | .semAdd g _ _ | .barArrive g _ | .ldD g _ _ _ _ | .ldW g _ _ _ _ | .ld g _ _ _ _ _ _ _
  | .ldsp g _ _ _ _ _ _ _ | .amoAdd g _ _ _ _ _ _ _ _ | .amoMin g _ _ _ _ _ _ _ _ | .amoMax g _ _ _ _ _ _ _ _
  | .amoMinn g _ _ _ _ _ _ _ _ | .amoMaxn g _ _ _ _ _ _ _ _ | .amoSwap g _ _ _ _ _ _ _ _ | .amoCas g _ _ _ _ _ _ _ _
  | .amoAmax g _ _ _ _ _ _ _ _ | .hres g _ _ | .vld g _ _ _ _ _ _ _ | .vlds g _ _ _ _ _ _ _ _
  | .vldx g _ _ _ _ _ _ _ _ => g
  | _ => 0

/-- The uses of an instruction as a cell meets it: `dtag` waits for the register or tile that its word names (R197), a stack access
for the memory it reaches (R208), and a false guard lifts the waits that belong to the effect alone. -/
def Cell.usesIn (c : Cell) (i : Instr) : Uses :=
  if c.getP (waitGuard i) = false then
    { usesOf i with all := false, cellFence := false, load := none }
  else
    match i with
    | .dtag g _ a _ =>
      let v := (c.getS a).toNat
      let u := usesS g [a]
      if 28 ≤ a.toNat then u
      else if v / 32 % 8 = 0 then { u with res := (64 + v % 32) :: u.res }
      else if v / 32 % 8 = 1 then { u with res := resTile (v % 32) :: u.res }
      else u
    | i =>
      match c.reaches i, (usesOf i).load with
      | some sp, some (st, _) => { usesOf i with load := some (st, sp) }
      | _, _ => usesOf i

/-- A tile that a co-operative product without a work start yet is to write (R183). -/
def Cell.coWrites (c : Cell) (k : Nat) : Bool := c.seqr.any fun x => x.ws == 0 && resTile x.acc == k

/-- The cycle in which an instruction with these uses may issue (R25): none while it waits for something whose cycle is not
known yet. -/
def Cell.issueAt (c : Cell) (u : Uses) : Option Nat :=
  if c.run ≠ .running ∨ c.wait ≠ .none then none
  else
    let seqOpen := (seqEnd c.seqr).isNone
    let stalled :=
      (u.tok != 0 && c.queue.any fun x => x.tok == u.tok) || (u.queue && decide (16 ≤ c.queue.length)) ||
      (u.all && !c.queue.isEmpty) ||
      ((u.all || u.cellFence || u.flags || u.res.contains unitSeq) && seqOpen) || u.res.any c.coWrites
    if stalled then none
    else
      let t := maxOf (c.t :: u.res.map c.readyAt)
      let t := if u.tok ≠ 0 then Nat.max t (dueOf (c.pend.filter fun x => x.tok == u.tok)) else t
      let t := if u.strong then Nat.max t (Nat.max (dueOf (c.pend.filter fun x => x.strong)) (seqStrong c.seqr)) else t
      let t := match u.load with
        | some (st, sp) => Nat.max t (dueOf (c.pend.filter fun x => x.strm == st && x.space == sp &&
            match x.upd with | .amo .. => true | _ => false))
        | none => t
      let t := if u.all || u.cellFence then Nat.max t (Nat.max (dueOf c.pend) ((seqEnd c.seqr).getD 0)) else t
      let t := if u.all then Nat.max t (Nat.max c.flagsAt c.vecAt) else t
      let t := if u.flags then Nat.max t (Nat.max c.flagsAt ((seqEnd c.seqr).getD 0)) else t
      some (if u.ldsp then Nat.max t c.ldspAt else t)

end Sys2Proof.Machine
end

