-- ==== Sys2Proof/Machine/System.lean ====
section
/-! DEFINITION. Control words, fences and waits, semaphores and barriers, publication, and the system instructions, with the
events that belong to them (R16 to R22, R97, R98, R205, R228 to R235, R255 to R262, R295, R301 to R312, R351). -/

namespace Sys2Proof.Machine

/-! Control words (R17, R18, R302, R331, R351). -/

def field (v : Word) (lo n : Nat) : Nat := v.toNat / 2 ^ lo % 2 ^ n

/-- The numbers of the map. -/
def cwExists (n : Nat) : Bool :=
  decide (n ≤ 0x08) || decide (0x10 ≤ n ∧ n ≤ 0x12) || decide (0x18 ≤ n ∧ n ≤ 0x1A) || decide (0x20 ≤ n ∧ n ≤ 0x24) ||
  decide (0x28 ≤ n ∧ n ≤ 0x2A) || n == 0x2C || decide (0x80 ≤ n ∧ n ≤ 0x87)

def Cell.context (c : Cell) : Ctx := SMap.get {} c.ctxs c.ctx.toNat
def Cell.setContext (c : Cell) (x : Ctx) : Cell := { c with ctxs := SMap.set {} c.ctxs c.ctx.toNat x }

/-- Half of CW.LOOPC or CW.LOOPD. -/
def loopHalf (l : HwLoop) : Nat := l.st % 2 ^ 14 + l.en % 2 ^ 14 * 2 ^ 14 + (if l.act then 2 ^ 28 else 0)

def pairWord (lo hi : Nat) : Word := BitVec.ofNat 64 (lo % 2 ^ 32 + hi % 2 ^ 32 * 2 ^ 32)

/-- The cell that CW.DBGCTL of a die selects. -/
def State.selected (s : State) (d : Nat) : Nat :=
  let v := (s.die d).dbgctl.toNat
  16 * (4 * d + v % 4) + v / 4 % 16

/-- CW.GATE of a die (R331). -/
def gateWord (s : State) (d : Nat) : Word :=
  let g (c : Nat) : Nat := (s.cluster (4 * d + c)).gate.toNat * 16 ^ c
  BitVec.ofNat 64 (g 0 + g 1 + g 2 + g 3)

/-- CW.CECNT as a cell reaches it (R302). -/
def cecntWord (s : State) (c : Nat) : Word :=
  BitVec.ofNat 64 ((s.cell c).spc.toNat + (s.cluster (clusterOf c)).cbc.toNat * 2 ^ 16 + (s.die (dieOf c)).lpc.toNat * 2 ^ 32 +
    (s.cell c).uec.toNat * 2 ^ 48)

def dbgctlWord (s : State) (d : Nat) : Word :=
  BitVec.ofNat 64 ((s.die d).dbgctl.toNat % 64 + (if (s.cell (s.selected d)).run = .held then 512 else 0) +
    (s.die d).dbgctl.toNat / 1024 % 2 * 1024)

/-- Cycles since the release of the firing on a cell (R18). -/
def State.bcycOf (s : State) (c : Nat) : Nat := { s with cur := c }.bcyc

/-- The value of a control word as cell `c` reads it. -/
def readCw (s : State) (c : Nat) (n : Nat) : Word :=
  let x := s.cell c
  match n with
  | 0x00 => x.cellix.zeroExtend 64
  | 0x01 => BitVec.ofNat 64 (clusterOf c + c % 16 * 16)
  | 0x02 => BitVec.ofNat 64 (dieOf c)
  | 0x03 => BitVec.ofNat 64 x.dom
  | 0x04 => BitVec.ofNat 64 ((s.dom x.dom).mode % 16)
  | 0x05 => BitVec.ofNat 64 (x.block % 2 ^ 16 + if x.fb then 2 ^ 16 else 0)
  | 0x06 => BitVec.ofNat 64 s.tickNo
  | 0x07 => BitVec.ofNat 64 s.tcyc
  | 0x08 => BitVec.ofNat 64 (s.bcycOf c % 2 ^ 40)
  | 0x10 => x.sticky.zeroExtend 64
  | 0x11 => x.oor.zeroExtend 64
  | 0x12 => x.dfc
  | 0x18 => BitVec.ofNat 64 (x.tcause.code.toNat + if x.tdbg then 256 else 0)
  | 0x19 => x.tval
  | 0x1A => BitVec.ofNat 64 (x.tpc.toNat + x.tblk.toNat * 2 ^ 16)
  | 0x20 => pairWord (x.loop 0).cnt (x.loop 1).cnt
  | 0x21 => pairWord (x.loop 2).cnt (x.loop 3).cnt
  | 0x22 => pairWord (loopHalf (x.loop 0)) (loopHalf (x.loop 1))
  | 0x23 => pairWord (loopHalf (x.loop 2)) (loopHalf (x.loop 3))
  | 0x24 => BitVec.ofNat 64 (x.rep % 2 ^ 32)
  | 0x28 => x.context.fmta.zeroExtend 64
  | 0x29 => x.context.fmtb.zeroExtend 64
  | 0x2A => x.context.fmtc.zeroExtend 64
  | 0x2C => x.spovf.zeroExtend 64
  | 0x80 => x.inject
  | 0x81 => s.hub.tfreeze.zeroExtend 64
  | 0x82 => dbgctlWord s (dieOf c)
  | 0x83 => s.hub.dbgen.zeroExtend 64
  | 0x85 => cecntWord s c
  | 0x86 => gateWord s (dieOf c)
  | 0x87 => x.xinj
  | _ => 0

/-- CW.STICKY is written: a flag set in this cycle stays (R19). -/
def Cell.clearSticky (c : Cell) (now : Nat) (v : Word) : Cell :=
  let keep : BitVec 8 := if c.stickyAt = now then c.stickyNow else 0
  { c with sticky := c.sticky &&& ~~~(v.truncate 8 &&& ~~~keep) }

/-- CW.DFC is written: V clears the whole word (R16). -/
def Cell.clearDfc (c : Cell) (v : Word) : Cell := if v.getLsbD 16 then { c with dfc := 0 } else c

/-- Whether a value is a format word (R20). -/
def fmtWordOk (v : Nat) : Bool :=
  let wid := v % 16
  let sgn := v / 16 % 2
  let exp := v / 32 % 8
  decide (v / 65536 % 4 ≠ 3) && decide (3 ≤ wid ∧ wid ≤ 8) && decide (1 ≤ exp ∧ exp ≤ 6) && decide (sgn + exp ≤ wid)

/-- A format word of the current context is written (R20). -/
def Cell.writeFmt (c : Cell) (which : Nat) (v : Word) : Cell :=
  let x := c.context
  c.setContext (match which with
    | 0 => { x with fmta := v.truncate 18 }
    | 1 => { x with fmtb := v.truncate 18 }
    | _ => { x with fmtc := v.truncate 18 })

/-- Whether a value of CW.INJECT is taken (R21, R205, R311). -/
def injectOk (v : Word) : Bool :=
  let loc := field v 8 24
  match v.toNat % 4 with
  | 0 => decide (loc / 2 ^ 12 % 8 ≤ 5) && decide (loc / 2 ^ 15 = 0) && decide (field v 2 6 < 32)
  | 1 => decide (loc / 2 ^ 17 = 0)
  | 2 => decide (loc / 2 ^ 21 ≤ 2)
  | _ => false

def Cell.writeInject (c : Cell) (v : Word) : Cell :=
  if injectOk v then { c with inject := v &&& 0x8000FFFFFFFFFFFF } else c

/-- CW.XINJ is written; the expander counts from here (R351). -/
def Cell.writeXinj (c : Cell) (v : Word) : Cell :=
  if field v 5 3 ≠ 0 ∨ field v 32 31 ≠ 0 then c else { c with xinj := v, xinjCount := 0 }

/-- First cycle at or after `from` whose place in the tick is that of `z` (R305). -/
def thawCycle (z from_ : Nat) : Nat := from_ + (z + tickCycles - from_ % tickCycles) % tickCycles

/-- A freeze bit is cleared: the thaw is fixed by the first cycle of the freeze. -/
def clearFreeze (s : State) (n : Nat) : State :=
  if s.hub.tfreeze.getLsbD n = false then s
  else
    let s := s.modHub fun h => { h with tfreeze := h.tfreeze &&& ~~~(BitVec.ofNat 8 (2 ^ n)) }
    let start := match (s.dom n).frozen with
      | some z => some z
      | none => (s.agenda.find? fun x => decide (x.ev = .freeze n)).map fun x => x.due
    match start with
    | none => s
    | some z =>
      let u := thawCycle z (Nat.max (s.now + 32) (z + 1))
      (s.modDom n fun x => { x with thawAt := some u }).sched u (.thaw n)

/-- CW.TFREEZE is written. -/
def writeTfreeze (s : State) (v : Word) : State :=
  [0, 1, 2, 3, 4, 5, 6, 7].foldl (fun s n => if v.getLsbD n then setFreeze s n else clearFreeze s n) s

/-- HREQ: the selected cell halts at an issue boundary at least 2 cycles later (R303). -/
def requestHalt (s : State) (d : Nat) : State :=
  let c := s.selected d
  if (s.cell c).run = .running ∧ s.debugOn (s.cell c).dom then
    s.modCell c fun x => { x with hreq := true, haltAt := s.now + 2 }
  else s

/-- CW.DBGCTL of a die is written (R302). -/
def writeDbgctl (s : State) (d : Nat) (v : Word) : State :=
  if field v 6 2 ≠ 0 ∨ field v 11 53 ≠ 0 then s
  else
    let s := s.modDie d fun x => { x with dbgctl := BitVec.ofNat 11 (v.toNat % 64 + field v 10 1 * 1024) }
    if v.getLsbD 8 then requestHalt s d else s

/-- CW.DBGEN is written; it takes effect on every die 32 cycles later. -/
def writeDbgen (s : State) (v : Word) : State :=
  if field v 16 48 ≠ 0 then s
  else (s.modHub fun h => { h with dbgen := v.truncate 16 }).sched (s.now + 32) (.cwDbgen v)

/-- Whether a partition has cells: it is reset only then (R306). -/
def hasCells (s : State) (d : Nat) : Bool := decide ((s.dom d).grant.cells ≠ 0)

/-- CW.PRESET is written: each bit resets its partition 32 cycles later (R306). -/
def writePreset (s : State) (v : Word) : State :=
  if field v 8 56 ≠ 0 then s
  else
    [0, 1, 2, 3, 4, 5, 6, 7].foldl (fun s n =>
      if v.getLsbD n && hasCells s n then s.sched (s.now + 32) (.partitionReset n) else s) s

/-- CW.CECNT is written from a cell. -/
def writeCecnt (s : State) (c : Nat) (v : Word) : State :=
  if field v 56 8 ≠ 0 then s
  else
    ((s.modCell c fun x => { x with spc := BitVec.ofNat 16 v.toNat, uec := BitVec.ofNat 8 (field v 48 8) }).modCluster
      (clusterOf c) fun x => { x with cbc := BitVec.ofNat 16 (field v 16 16) }).modDie
      (dieOf c) fun x => { x with lpc := BitVec.ofNat 16 (field v 32 16) }

/-- A gated cluster starts to wake (R331). -/
def startWake (s : State) (k : Nat) : State :=
  if (s.cluster k).gate = 2 then
    (s.modCluster k fun x => { x with gate := 3 }).sched (s.now + 4096) (.wakeComplete k)
  else s

/-- CW.GATE is written. -/
def writeGate (s : State) (d : Nat) (v : Word) : State :=
  [0, 1, 2, 3].foldl (fun s c => if v.getLsbD (4 * c + 2) then startWake s (4 * d + c) else s) s

/-- A control word is written from the acting cell (R5, R98); words without a writable field ignore it. -/
def writeCw (s : State) (n : Nat) (v words : Word) : Ret Unit :=
  match n with
  | 0x10 => .ok () (s.modMe fun c => c.clearSticky s.now v)
  | 0x12 => .ok () (s.modMe fun c => c.clearDfc v)
  | 0x28 | 0x29 | 0x2A =>
    if fmtWordOk v.toNat then .ok () (s.modMe fun c => c.writeFmt (n - 0x28) v) else .trap .fmt words s
  | 0x80 => .ok () (s.modMe fun c => c.writeInject v)
  | 0x81 => .ok () (writeTfreeze s v)
  | 0x82 => .ok () (writeDbgctl s (dieOf s.cur) v)
  | 0x83 => .ok () (writeDbgen s v)
  | 0x84 => .ok () (writePreset s v)
  | 0x85 => .ok () (writeCecnt s s.cur v)
  | 0x86 => .ok () (writeGate s (dieOf s.cur) v)
  | 0x87 => .ok () (s.modMe fun c => c.writeXinj v)
  | _ => .ok () s

/-- Whether the acting cell may name a control word (R17). -/
def cwCheck (s : State) (n : Nat) (words : Word) : Ret Unit :=
  if 0x80 ≤ n ∧ s.me.dom ≠ 8 then .trap .priv words s
  else if cwExists n then .ok () s else .trap .illegal words s

def execCwget (g : PReg) (d : SReg) (num : BitVec 8) (s : State) : Out :=
  issue s g 1 1 fun s =>
    (cwCheck s num.toNat (wordsVal (encode (.cwget g d num)))).bind fun _ s =>
      writeDst s d (readCw s s.cur num.toNat) none 1

/-- The number is checked ahead of the source (log 83, the model's choice). -/
def execCwput (g : PReg) (a : SReg) (num : BitVec 8) (s : State) : Out :=
  let w := wordsVal (encode (.cwput g a num))
  issue s g 1 1 fun s =>
    (cwCheck s num.toNat w).bind fun _ s => (readClean s [a]).bind fun x s => writeCw s num.toNat (x.get 0) w

/-! The writes that have a row of their own, as a device event: a host's or a debugger's write to the word. -/

def execCwDfc (c : Nat) (v : Word) (s : State) : Out := .next (s.modCell c fun x => x.clearDfc v)

def execCwFmt (c which : Nat) (v : Word) (s : State) : Out :=
  .next (if fmtWordOk v.toNat then s.modCell c fun x => x.writeFmt which v
    else trapCell s c .fmt (BitVec.ofNat 64 ((s.cell c).wordAt ((s.cell c).pc / 4))))

def execCwInject (c : Nat) (v : Word) (s : State) : Out := .next (s.modCell c fun x => x.writeInject v)
def execCwXinj (c : Nat) (v : Word) (s : State) : Out := .next (s.modCell c fun x => x.writeXinj v)
def execCwTfreeze (v : Word) (s : State) : Out := .next (writeTfreeze s v)
def execHreq (d : Nat) (s : State) : Out := .next (requestHalt s d)
def execRst (v : Word) (s : State) : Out := .next (writePreset s v)

/-- The bits of CW.DBGEN take effect on every die. -/
def execCwDbgen (v : Word) (s : State) : Out := .next (s.modHub fun h => { h with dbgenNow := v.truncate 16 })

/-! `qcnt` (R97). -/

/-- Free record places of a channel's buffer on the producer's side. -/
def freePlaces (c : Chan) (x : ChanState) : Nat :=
  if c.crosses then c.cap - (x.ptail + countMod c.cap - x.phead) % countMod c.cap else c.cap - x.queue.length

def portCount (s : State) (port : Nat) : Nat :=
  match s.myFiring with
  | none => 0
  | some f =>
    match portChan s.me' f port with
    | none => 0
    | some (n, c) =>
      if port < 30 then avail (s.me'.chan n) f port else freePlaces c (s.me'.chan n) - (f.pushes port).length

def execQcnt (g : PReg) (d : SReg) (port : BitVec 2) (s : State) : Out :=
  issue s g 1 1 fun s => writeDst s d (BitVec.ofNat 64 (portCount s (28 + port.toNat))) none 1

/-! Fences (R232, R234, R235). -/

/-- Whether what a wait names is over. -/
def Cell.waitOver (c : Cell) : Bool :=
  match c.wait with
  | .copies m =>
    c.queue.all (fun x => !(m.getLsbD (x.eng % 2))) && (!m.getLsbD 2 || (seqEnd c.seqr).isSome)
  | .token k => c.queue.all fun x => x.tok != k
  | _ => false

/-- The end of the array's work where it is known. -/
def Cell.streamEnd (c : Cell) : Nat := (seqEnd c.seqr).getD 0

def Cell.tile (c : Cell) (n : Nat) : Tile := SMap.get {} c.tiles n
def Cell.setTile (c : Cell) (n : Nat) (t : Tile) : Cell := { c with tiles := SMap.set {} c.tiles n t }
def Cell.setInfo (c : Cell) (n : Nat) (i : Meta) : Cell := c.setTile n { c.tile n with info := i }

/-- The key of a translation-cache entry: domain, tensor, tile (R223). -/
def cacheKey (d tid tile : Nat) : Nat := (d * 2 ^ 16 + tid) * 2 ^ 32 + tile

/-- Drop cached entries of a domain: of one tensor, or all (R223). -/
def Engine.invalidate (e : Engine) (d tid : Nat) (all : Bool) : Engine :=
  { e with cache := e.cache.filter fun x =>
      decide (x.1 / 2 ^ 48 ≠ d) || (!all && decide (x.1 / 2 ^ 32 % 2 ^ 16 ≠ tid)) }

def invalidateAll (s : State) (d tid : Nat) (all : Bool) : State :=
  { s with engines := s.engines.map fun x => (x.1, x.2.invalidate d tid all) }

/-- The faults of a tensor count as covered once a synchronisation completes, those noted until then as well (R227). -/
def coverFaults (d : Domain) (tid : Nat) (all : Bool) (now at_ : Nat) : Domain :=
  { d with syncs := (tid, all, at_) :: d.syncs.filter fun y => decide (now < y.2.2), faults := d.faults.map fun x => (x.1, x.2.map fun y =>
      if (all || y.1.1 == tid) && y.2.2.isNone then (y.1, y.2.1, some at_) else y) }

/-- The effect of `ttsync` once its wait is over (R229): the entries go, and it completes 96 cycles later. -/
def ttSync (s : State) (d tid : Nat) (all : Bool) : State :=
  (invalidateAll s d tid all).modDom d fun x => coverFaults x tid all s.now (s.now + 96)

/-- The cycle in which `ttsync`'s wait ends, once it is known (R229, R232): every access and copy command issued before is done. -/
def Cell.syncEnd (c : Cell) (upTo : Nat) : Option Nat :=
  if c.queue.isEmpty then (seqEnd c.seqr).map (Nat.max upTo) else none

/-- A `dtag` with its word from a port writes the metadata in the cycle in which earlier writes to its target are done, and the next
instruction issues a cycle later (R197); `ttsync` acts in the cycle in which its wait ends, and the next instruction issues 96 cycles
later (R229). An event marks either cycle once it is known. -/
def endTag (s : State) (c : Nat) : State :=
  let x := s.cell c
  match x.wait with
  | .tag tile idx info =>
    let k := if tile then resTile idx else 64 + idx
    if x.coWrites k then s
    else if x.readyAt k ≤ s.now then
      s.modCell c fun y =>
        let y := if tile then y.setInfo idx { info with ty := (y.tile idx).info.ty } else { y with vmeta := SMap.set {} y.vmeta idx info }
        { y with wait := .none, t := Nat.max y.t (s.now + 1) }
    else s.sched (x.readyAt k) (.instructionCompletion c 0)
  | .sync tid all upTo =>
    match x.syncEnd upTo with
    | some e =>
      if e ≤ s.now then (ttSync s x.dom tid all).modCell c fun y => { y.spend s.now 96 with wait := .none }
      else s.sched e (.instructionCompletion c 0)
    | none => s
  | _ => s

/-- End a wait for copies, a token or the array that is over (R232, R234, R235), or go on with `dtag` and `ttsync`. -/
def endWait (s : State) (c : Nat) : State :=
  if (s.cell c).waitOver then
    s.modCell c fun x =>
      { x with wait := .none, t := Nat.max (Nat.max x.t s.now) (match x.wait with
          | .copies m => if m.getLsbD 2 then x.streamEnd else 0
          | _ => 0) }
  else endTag s c

/-- Wait until a cycle that is known, and for copies and array work whose end is not. -/
def waitFor (s : State) (c : Nat) (upTo : Nat) (mask : BitVec 3) : State :=
  endWait (s.modCell c fun x => { x with t := Nat.max x.t upTo, wait := .copies mask }) c

def execFence (g : PReg) (scope : Scope) (s : State) : Out :=
  issue s g 1 1 fun s => .ok () (waitFor s s.cur (dueOf s.me.pend) (if scope = .cell then 4 else 7))

/-- The accesses of the streams a mask names. -/
def maskedPend (l : List Access) (mask : BitVec 11) : List Access := l.filter fun x => mask.getLsbD x.strm

def execSbar (g : PReg) (mask : BitVec 11) (s : State) : Out :=
  issue s g 1 1 fun s =>
    .ok () (waitFor s s.cur (dueOf (maskedPend s.me.pend mask))
      (BitVec.ofNat 3 (mask.toNat / 512 + mask.toNat / 256 % 2 * 4)))

def execTokw (g : PReg) (tok : Tok) (s : State) : Out :=
  issue s g 1 1 fun s =>
    if tok = 0 then .ok () s
    else
      .ok () (endWait (s.modMe fun c =>
        { c with t := Nat.max c.t (dueOf (c.pend.filter fun x => x.tok == tok.toNat)), wait := .token tok.toNat }) s.cur)

/-! Semaphores and barriers (R255 to R258). -/

/-- The number a register names, checked against its range and the domain's grant. -/
def objNumber (s : State) (bar : Bool) (v : Word) : Ret Nat :=
  let n := v.toNat
  let gr := s.me'.grant
  let lo := if bar then gr.barBase else gr.semBase
  let cnt := if bar then gr.barCnt else gr.semCnt
  if (if bar then 64 else 256) ≤ n then .trap .illegal v s
  else if lo ≤ n ∧ n < lo + cnt then .ok n s
  else .trap .xlate (BitVec.ofNat 64 (2 ^ 63 + (if bar then 2 else 1) * 2 ^ 60 + n)) s

/-- The stream number of updates of cluster objects, which name no stream: no bit of an `sbar` mask covers it. -/
def noStream : Nat := 11

/-- A barrier named by the firing on the acting cell (R289). -/
def nameBar (s : State) (n : Nat) : State :=
  match s.myFiring with
  | none => s
  | some f => s.modFiring f.dom f.id fun f => { f with bars := if f.bars.contains n then f.bars else f.bars ++ [n] }

def execSemAdd (g : PReg) (a b : SReg) (s : State) : Out :=
  issue s g 1 1 fun s =>
    (readClean s [a, b]).bind fun x s =>
      (objNumber s false (x.get 0)).bind fun n s =>
        .ok () ((s.modMe fun c => { c with flagsAt := Nat.max c.flagsAt (s.now + 26) }).addAccess noStream .cb true 0 (s.now + 26)
          (.sem n (Int.bmod (x.get 1).toNat (2 ^ 32))))

def execSemWait (g : PReg) (a b : SReg) (s : State) : Out :=
  issue s g 1 1 fun s =>
    (readClean s [a, b]).bind fun x s =>
      (objNumber s false (x.get 0)).bind fun n s =>
        .ok () ((s.modMe fun c => { c with wait := .sem n ((x.get 1).toNat % 2 ^ 32) }).sched s.now (.semWaitPass s.cur))

def execBarInit (g : PReg) (a b : SReg) (s : State) : Out :=
  issue s g 1 1 fun s =>
    (readClean s [a, b]).bind fun x s =>
      (objNumber s true (x.get 0)).bind fun n s =>
        .ok () (((nameBar s n).modMe fun c => c.spend s.now 26).addAccess noStream .cb true 0 (s.now + 26)
          (.barAdd n ((x.get 1).toNat % 2 ^ 32)))

def execBarArrive (g : PReg) (a : SReg) (s : State) : Out :=
  issue s g 1 1 fun s =>
    (readClean s [a]).bind fun x s =>
      (objNumber s true (x.get 0)).bind fun n s =>
        .ok () (((nameBar s n).modMe fun c => c.spend s.now 26).addAccess noStream .cb true 0 (s.now + 26) (.barSub n 1))

def execBarWait (g : PReg) (a : SReg) (s : State) : Out :=
  issue s g 1 1 fun s =>
    (readClean s [a]).bind fun x s =>
      (objNumber s true (x.get 0)).bind fun n s =>
        .ok () (((nameBar s n).modMe fun c => { c with wait := .bar n }).sched s.now (.barWaitPass s.cur))

/-- A wait that passes in this cycle: the next issue comes 24 cycles later at the earliest. -/
def Cell.passWait (c : Cell) (now : Nat) : Cell := { c with wait := .none, t := Nat.max c.t (now + 24) }

def execSemWaitPass (c : Nat) (s : State) : Out :=
  .next (match (s.cell c).wait with
    | .sem n b =>
      if b ≤ (SMap.get 0 (s.cluster (clusterOf c)).sems n).toNat then s.modCell c fun x => x.passWait s.now else s
    | _ => s)

def execBarWaitPass (c : Nat) (s : State) : Out :=
  .next (match (s.cell c).wait with
    | .bar n => if SMap.get 0 (s.cluster (clusterOf c)).bars n = 0 then s.modCell c fun x => x.passWait s.now else s
    | _ => s)

/-! Publication (R260 to R263). -/

def fmtCodes : List Nat :=
  [0x01, 0x02, 0x03, 0x04, 0x05, 0x10, 0x11, 0x12, 0x20, 0x21, 0x22, 0x23, 0x24, 0x28, 0x29, 0x2A, 0x2F, 0x30, 0x31, 0x32, 0x33]

/-- The active binding's buffer of a number. -/
def Domain.pubBuf (d : Domain) (n : Nat) : Option PubBuf :=
  match d.active with
  | some b => (b.pubs.find? fun x => x.1 == n).map fun x => x.2
  | none => none

/-- The tensor descriptor of an id. -/
def Domain.tensor (d : Domain) (n : Nat) : Option (BitVec 512) :=
  match d.active with
  | some b => (b.tensors.find? fun x => x.1 == n).map fun x => x.2
  | none => none

/-- Whether a firing's block may publish a buffer (R266). -/
def mayPublish (f : Firing) (p : PubBuf) : Bool :=
  p.writer == f.blk || (f.fb && (p.writer == f.entry.blk || (f.entry.kind == 1 && p.writer == f.entry.alt)))

/-- The front version's entry. -/
def PubBuf.entryOf (p : PubBuf) (shadow : Bool) : BitVec 128 := if xor p.front shadow then p.entry1 else p.entry0

/-- One doubleword of a publish record, as a load on g0. -/
def recordWord (s : State) (a : Nat) : Ret Word := (loadAt s (spTarget s a) 8 true 0).bind fun v s => .ok v.1 s

/-- Checks 2 to 6 of `pub` on its record. -/
def pubCheck (s : State) (words d0 d1 : Word) : Ret Unit :=
  let n := d0.toNat % 2 ^ 16
  if field d0 16 16 ≠ 0 ∨ field d1 18 14 ≠ 0 then .trap .illegal words s
  else
    match s.me'.pubBuf n, s.myFiring with
    | some p, some f =>
      if mayPublish f p = false then .trap .qscope (BitVec.ofNat 64 n) s
      else if field d1 8 2 = 3 then .trap .domain words s
      else if fmtCodes.contains (field d1 0 8) = false then .trap .fmt words s
      else if p.kind ∧ (s.me'.tensor n).map (fun t => t.toNat % 256) ≠ some (field d1 0 8) then .trap .fmt words s
      else .ok () s
    | _, _ => .trap .qscope (BitVec.ofNat 64 n) s

/-- Put the swap on the agenda once the accesses a publication covers are known to end. -/
def armPub (s : State) (c : Nat) : State :=
  let x := s.cell c
  match x.wait with
  | .pub _ _ _ ready =>
    if x.queue.isEmpty && (seqEnd x.seqr).isSome && !s.isSched (.pubSwap c) then
      s.sched (Nat.max (Nat.max s.now ready) x.streamEnd) (.pubSwap c)
    else s
  | _ => s

def runPub (words : Word) (a : SReg) (s : State) : Ret Unit :=
  (readClean s [a]).bind fun x s =>
    let ad := (x.get 0).toNat
    if ad % 8 ≠ 0 then .trap .align (x.get 0) s
    else
      (recordWord s ad).bind fun d0 s =>
        (recordWord s (ad + 8)).bind fun d1 s =>
          (pubCheck s words d0 d1).bind fun _ s =>
            .ok () (armPub (s.modMe fun c =>
              { c with wait := .pub (d0.toNat % 2 ^ 16) (field d0 32 32) d1 (Nat.max (s.now + 4) (dueOf c.pend)) }) s.cur)

def execPub (g : PReg) (a : SReg) (s : State) : Out := issue s g 1 1 (runPub (wordsVal (encode (.pub g a))) a)

/-- The new entry of a version: place and version as they stand, the rest from the record. -/
def newEntry (old : BitVec 128) (count : Nat) (hi : Word) : BitVec 128 :=
  BitVec.ofNat 128 (old.toNat % 2 ^ 32 + count % 2 ^ 32 * 2 ^ 32 + hi.toNat * 2 ^ 64)

/-- The shadow becomes the front. -/
def PubBuf.swap (p : PubBuf) (count : Nat) (hi : Word) : PubBuf :=
  if p.front then { p with front := false, entry0 := newEntry p.entry0 count hi }
  else { p with front := true, entry1 := newEntry p.entry1 count hi }

def execPubSwap (c : Nat) (s : State) : Out :=
  let x := s.cell c
  .next (match x.wait with
    | .pub buf count hi _ =>
      match (s.dom x.dom).pubBuf buf, (s.dom x.dom).active with
      | some p, some b =>
        let s := s.modDom x.dom fun d => { d with active := some { b with pubs := SMap.put b.pubs buf (p.swap count hi) } }
        let s := if p.kind then invalidateAll s x.dom buf false else s
        s.modCell c fun x => { x with wait := .none, t := Nat.max x.t (s.now + if p.kind then 96 else 26) }
      | _, _ => s.modCell c fun x => { x with wait := .none }
    | _ => s)

/-- `hres` (R262). -/
def runHres (d a : SReg) (s : State) : Ret Unit :=
  (readClean s [a]).bind fun x s =>
    let v := x.get 0
    if 2 ^ 17 ≤ v.toNat then .trap .illegal v s
    else
      match s.me'.pubBuf (v.toNat % 2 ^ 16) with
      | none => .trap .qscope (BitVec.ofNat 64 (v.toNat % 2 ^ 16)) s
      | some p =>
        let e := p.entryOf (v.getLsbD 16)
        (writeDst s d (e.truncate 64) none 24).bind fun _ s =>
          writeDst s (d + 1) (BitVec.ofNat 64 (e.toNat / 2 ^ 64)) none 24

def execHres (g : PReg) (d a : SReg) (s : State) : Out := issue s g 1 1 (runHres d a)

/-! System instructions. -/

def execTrap (g : PReg) (a : SReg) (s : State) : Out :=
  issue s g 1 1 fun s => (readClean s [a]).bind fun x s => .trap .trapi (x.get 0) s

/-- `brk` halts the cell after its own issue where the debug class is enabled (R295). -/
def execBrk (g : PReg) (s : State) : Out :=
  issue s g 1 1 fun s => .ok () (if s.debugOn s.me.dom then s.sched (s.now + 1) (.debugHalt s.cur 0x10) else s)

/-- The cycle of the detent's stop of a cell's firing, none while it is held (R305). A stop that a trap of this cycle brings at
the end of it is not the detent's. -/
def stopDue (s : State) (c : Nat) : Option Nat :=
  let x := s.cell c
  let trapStop := match (s.dom x.dom).firing x.firing with
    | some f => !(f.trapped.isEmpty && f.causes.isEmpty) && decide (s.now ≠ f.deadline)
    | none => false
  (s.agenda.find? fun e =>
    (decide (e.ev = .detentStop x.dom x.firing) && !(trapStop && e.due == s.now)) ||
    decide (e.ev = .doubleOverrun x.dom x.firing)).map fun e => e.due

/-- Whether the detent stops a cell's firing in this cycle. -/
def stopsNow (s : State) (c : Nat) : Bool :=
  match stopDue s c with
  | some d => decide (d ≤ s.now)
  | none => false

/-- A debug halt (R303): 0x10 after `brk`, 0x11 after a single step, 0x90 where one was asked for. It happens only while the
debug class is enabled, and waits until issued vector and transform instructions have completed (R148, R195). -/
def execDebugHalt (c cause : Nat) (s : State) : Out :=
  .next (if (s.cell c).run ≠ .running ∨ stopsNow s c then s
    else if s.debugOn (s.cell c).dom = false then s.modCell c fun x => { x with hreq := false }
    else if s.now < (s.cell c).vecAt then
      (s.modCell c fun x => { x with hreq := false, t := Nat.max x.t x.vecAt }).sched (s.cell c).vecAt (.debugHalt c cause)
    else if cause = 0x11 then haltCell s c .step 0
    else haltCell s c .brk (if cause = 0x90 then BitVec.ofNat 64 (2 ^ 63) else 0))

/-- The last cycle of the step an instruction of the sequencer is in. -/
def SeqOp.stepLast (x : SeqOp) : Nat := x.ws + Nat.min (16 * (x.step + 1)) x.n - 1

/-- The sequencer goes on from a cycle: the times of its work shift by the length of the hold (R28, R187). -/
def Cell.resumeSeq (c : Cell) (u : Nat) : Cell :=
  match c.seqHeld with
  | none => c
  | some h =>
    { c with seqHeld := none, seqr := c.seqr.map fun x => if x.ws = 0 then x else { x with ws := x.ws + (u - h) },
             ready := c.ready.map fun r => if unitSeq ≤ r.1 ∧ h ≤ r.2 + 4 then (r.1, r.2 + (u - h)) else r }

/-- Put the end of the sequencer's step on the agenda: it comes at the end of the step's last cycle. -/
def armSeq (s : State) (c : Nat) : State :=
  let x := s.cell c
  match x.seqr with
  | [] => s
  | m :: _ =>
    if m.ws = 0 ∨ x.seqBusy ∨ x.seqHeld.isSome then s
    else (s.modCell c fun x => { x with seqBusy := true }).sched m.stepLast (.matrixStepEnd c)

/-- The co-operative product at the head of a cell's sequencer, of an ordinal (R183). -/
def Cell.coHead (c : Cell) (ordinal : Nat) : Option SeqOp :=
  match c.seqr with
  | m :: _ => match m.op with
    | .coop _ _ _ => if m.ordinal = ordinal ∧ m.ws ≠ 0 then some m else none
    | _ => none
  | [] => none

/-- The latest work start of an `mma.co` among the members that have it in hand. -/
def coStart (s : State) (cs : List Nat) (ordinal : Nat) : Nat :=
  maxOf (cs.map fun c => match (s.cell c).coHead ordinal with | some m => m.ws | none => 0)

/-- Whether a member of a co-operative product is held (R187). -/
def coHeld (s : State) (cs : List Nat) (ordinal : Nat) : Bool :=
  cs.any fun c => ((s.cell c).coHead ordinal).isSome && decide ((s.cell c).run = .held)

/-- A waiting partner goes on with the others: its work start becomes the latest. -/
def Cell.joinCo (c : Cell) (ordinal start : Nat) : Cell :=
  match c.coHead ordinal, c.seqHeld with
  | some m, some h => c.resumeSeq (h + (start - m.ws))
  | _, _ => c

/-- Partners that wait for a cell that is no longer held go on with it (R187). -/
def wakePartners (s : State) (c : Nat) : State :=
  match (s.cell c).seqr, (s.dom (s.cell c).dom).firing (s.cell c).firing with
  | m :: _, some f =>
    if coHeld s f.cells m.ordinal then s
    else
      let start := coStart s f.cells m.ordinal
      f.cells.foldl (fun s p =>
        if p ≠ c ∧ (s.cell p).run ≠ .held then armSeq (s.modCell p fun x => x.joinCo m.ordinal start) p else s) s
  | _, _ => s

/-- `tret` resumes the selected cell 8 cycles later (R304). -/
def resume (s : State) : State :=
  let d := dieOf s.cur
  let c := s.selected d
  if (s.cell c).run = .held ∧ stopsNow s c = false then
    wakePartners (armSeq (s.modCell c fun x =>
      { x.resumeSeq (s.now + 8) with run := .running, t := Nat.max x.t (s.now + 8), sstep := (s.die d).dbgctl.getLsbD 10 }) c) c
  else s

def execTret (g : PReg) (s : State) : Out :=
  supervisor s (encode (.tret g)) (issue s g 1 1 fun s => .ok () (resume s))

/-- Whether a mode is bound: in the active binding, or in one that has not taken effect (R301, R336, log 81). -/
def Domain.modeBound (x : Domain) (m : Nat) : Bool := x.boundBanks.any fun b => (b.table m).isSome

/-- `mode.req` (R301): the last one issued in a firing stands. -/
def execModeReq (g : PReg) (a : SReg) (s : State) : Out :=
  issue s g 1 1 fun s =>
    (readClean s [a]).bind fun x s =>
      let n := (x.get 0).toNat
      match s.myFiring with
      | some f =>
        if n < 16 ∧ s.me'.modeBound n then .ok () (s.modFiring f.dom f.id fun f => { f with request := some (n, s.cur) })
        else .trap .illegal (x.get 0) s
      | none => .trap .illegal (x.get 0) s

/-- The port that a link injection of a die names: its two ring ports and the hub's module (R311). -/
def injectPort (d loc : Nat) : Nat := match loc / 2 ^ 21 with | 0 => 2 * d | 1 => 2 * d + 1 | _ => 8 + d

def State.port (s : State) (p : Nat) : Port := SMap.get {} s.hub.ports p
def State.modPort (s : State) (p : Nat) (f : Port → Port) : State :=
  s.modHub fun h => { h with ports := SMap.put h.ports p (f (SMap.get {} h.ports p)) }

/-- `inject` starts the flip that CW.INJECT holds (R312). -/
def startInject (s : State) : State :=
  let c := s.me
  let v := c.inject
  if v.getLsbD 63 = false ∨ c.injStarted then s
  else
    match v.toNat % 4 with
    | 1 =>
      (s.modMe fun c => { c with injStarted := true }).sched (s.now + 4 + field v 32 16)
        (.scratchpadFlip s.cur (field v 8 17) (field v 2 6))
    | 2 =>
      if (s.port (injectPort (dieOf s.cur) (field v 8 24))).st = 4 then s
      else s.modMe fun c => { c with injStarted := true, injFlits := 0 }
    | _ => s

def execInject (g : PReg) (s : State) : Out :=
  supervisor s (encode (.inject g)) (issue s g 1 1 fun s => .ok () (startInject s))

/-- One bit of a word flips, its check bits unchanged. -/
def Ram.flip (r : Ram) (w bit : Nat) : Ram :=
  { r with err := SMap.set 0 r.err w (SMap.get 0 r.err w ^^^ BitVec.ofNat 64 (2 ^ bit)) }

/-- ARM clears once the flip is made. -/
def Cell.disarm (c : Cell) : Cell := { c with inject := c.inject &&& 0x7FFFFFFFFFFFFFFF, injStarted := false }

def execScratchpadFlip (c word bit : Nat) (s : State) : Out :=
  .next (s.modCell c fun x => { x with sp := Ram.flip x.sp word bit }.disarm)

def execTtsync (g : PReg) (a : SReg) (s : State) : Out :=
  issue s g 1 1 fun s =>
    (readClean s [a]).bind fun x s =>
      let v := (x.get 0).toNat
      if 2 ^ 17 ≤ v then .trap .illegal (wordsVal (encode (.ttsync g a))) s
      else
        .ok () (endTag (s.modMe fun c =>
          { c with wait := .sync (v % 2 ^ 16) ((x.get 0).getLsbD 16) (Nat.max s.now (dueOf c.pend)) }) s.cur)

/-- A vector, matrix or transform instruction completes and sets its flags (R138); a tag or a `ttsync` that waits goes on (R197, R229). -/
def execInstructionCompletion (c : Nat) (flags : BitVec 8) (s : State) : Out :=
  .next (endTag (s.modCell c fun x => x.setFlags s.now flags) c)

/-! Frozen time (R305). -/

/-- The domain whose period phase an event follows. A link slot numbered from 512 (d + 1) is one that a table of domain d uses. -/
def phaseDom (s : State) (i : Instr) : Option Nat :=
  match i with
  | .blockRelease c _ | .forkRead c _ | .forkRelease c | .tickwExpiry c => some (s.cell c).dom
  | .detentStop d _ | .fallbackRelease d _ | .deadlineCommit d _ | .doubleOverrun d _ | .modeChangePoint d _
  | .modeRequestLatch d | .streamArrival d _ _ _ => some d
  | .linkSlot _ n => if 512 ≤ n ∧ n < 512 * 10 then some (n / 512 - 1) else none
  | _ => none

/-- The phase of a domain stands still: its events are held. -/
def execFreeze (d : Nat) (s : State) : Out :=
  .next (if (s.dom d).frozen.isSome then s
    else
      let mine (x : Timed) : Bool := decide (phaseDom s x.ev = some d)
      { s with agenda := s.agenda.filter fun x => !mine x }.modDom d fun y =>
        { y with frozen := some s.now, heldEvents := y.heldEvents ++ ((s.agenda.filter mine).map fun (x : Timed) => (x.due, x.ev)) })

/-- The times of a firing after a hold. -/
def Firing.shift (f : Firing) (n : Nat) : Firing :=
  { f with start := f.start + n, deadline := f.deadline + n, release := f.release + n }

def schedAll (s : State) (l : List (Nat × Instr)) (n : Nat) : State :=
  match l with
  | [] => s
  | x :: r => schedAll (s.sched (Nat.max s.now (x.1 + n)) x.2) r n

/-- The phase goes on from its held value. -/
def execThaw (d : Nat) (s : State) : Out :=
  .next (match (s.dom d).frozen with
    | none => s
    | some z =>
      let n := s.now - z
      let held := (s.dom d).heldEvents
      schedAll (s.modDom d fun y =>
        { y with frozen := none, thawAt := none, heldEvents := [], t0 := y.t0 + n,
                 firings := y.firings.map fun f => f.shift n, heldTo := y.heldTo.map fun x => (x.1, x.2 + n) }) held n)

end Sys2Proof.Machine
end

