-- ==== Sys2Proof/Machine/Rings.lean ====
section
/-! DEFINITION. Rings in host memory and their messages (R335, R340, R341), and fault records (R226, R227). -/

namespace Sys2Proof.Machine

/-! Rings (R335). -/

def ringLog (reg : Word) : Nat := field reg 0 5

/-- A LOGN of 4 to 16; any other value disables the ring. -/
def ringOn (reg : Word) : Bool := decide (4 ≤ ringLog reg ∧ ringLog reg ≤ 16)

/-- The host address of the entry with a count, of 64 bytes. -/
def ringAddr (reg : Word) (n : Nat) : Nat := field reg 12 52 * 4096 + 64 * (n % 2 ^ ringLog reg)

/-- Write a ring's entry in host memory. -/
def hostWrite (s : State) (a : Nat) (bs : List Byte) : State := { s with host := Mem.writeBytes s.host a bs }

/-! Messages (R341). -/

def coalWin (d : Domain) : Nat := d.coal.toNat % 65536
/-- CNT, where 0 is taken as 1. -/
def coalCnt (d : Domain) : Nat := Nat.max 1 (d.coal.toNat / 65536)

/-- A message on a vector. -/
def sendMsix (s : State) (v : Nat) : State := s.modHub fun h => { h with msix := SMap.set 0 h.msix v (SMap.get 0 h.msix v + 1) }

/-- The message of a domain's completion rings or of its fault ring, which signals every entry so far. -/
def sendRing (s : State) (d : Nat) (flt : Bool) : State :=
  (sendMsix (s.unsched (.coalesceWindowExpiry d flt)) (2 * d + if flt then 1 else 0)).modDom d fun x =>
    if flt then { x with unsigF := 0, winF := none } else { x with unsigC := 0, winC := none }

/-- An entry is written: send at once, at the count, or open the window of the first (R341). -/
def signalEntry (s : State) (d : Nat) (flt : Bool) : State :=
  let x := s.dom d
  let n := (if flt then x.unsigF else x.unsigC) + 1
  if coalWin x = 0 ∨ coalCnt x ≤ n then sendRing s d flt
  else
    let stop := s.now + coalWin x * tickCycles
    let s := s.modDom d fun x => if flt then { x with unsigF := n } else { x with unsigC := n }
    if n = 1 then
      (s.modDom d fun x => if flt then { x with winF := some stop } else { x with winC := some stop }).sched stop
        (.coalesceWindowExpiry d flt)
    else s

/-- The window of the first unsignalled entry ends. -/
def execCoalesceWindowExpiry (d : Nat) (flt : Bool) (s : State) : Out :=
  .next (if (if flt then (s.dom d).winF else (s.dom d).winC) = some s.now then sendRing s d flt else s)

/-! Completions (R337). -/

def statusOk : Nat := 0x00
def statusAbandoned : Nat := 0x0C
def statusBadOp : Nat := 0x20
def statusBadArg : Nat := 0x21
def statusQScope : Nat := 0x22
def statusEmpty : Nat := 0x23
def statusFull : Nat := 0x24
def statusSafeReset : Nat := 0x25
def statusUnlocked : Nat := 0x26

/-- The 64 bytes of a completion entry. -/
def completionBytes (status tag ring : Nat) (value : Word) (record : List Byte) : List Byte :=
  leBytes 8 (status % 256 + tag % 2 ^ 16 * 2 ^ 16 + ring % 256 * 2 ^ 32) ++ leBytes 8 value.toNat ++
  (record ++ leBytes 32 0).take 32 ++ leBytes 16 0

/-- Completion ring `q` of a domain is enabled by any bit of REN whose command ring it serves (R334). -/
def Domain.completionOn (x : Domain) (q : Nat) : Bool := (upFrom 0 8).any fun i => i % 2 == q && x.ren.getLsbD i

/-- Put an entry on completion ring `q` of a domain; one that finds it disabled or full is lost. -/
def pushCompletion (s : State) (d q : Nat) (bs : List Byte) : State :=
  let x := s.dom d
  let reg := SMap.get 0 x.cplReg q
  let tail := SMap.get 0 x.cplTail q
  if x.completionOn q ∧ ringOn reg ∧ (tail - SMap.get 0 x.cplHead q).toNat < 2 ^ ringLog reg then
    signalEntry ((hostWrite s (ringAddr reg tail.toNat) bs).modDom d fun x => { x with cplTail := SMap.set 0 x.cplTail q (tail + 1) })
      d false
  else s

/-- A notice to the host about a command ring (R337, R339). -/
def postNotice (s : State) (d i status : Nat) : State := pushCompletion s d (i % 2) (completionBytes status 0xFFFF i 0 [])

def Domain.ring (x : Domain) (i : Nat) : Ring := SMap.get {} x.rings i
def State.modRing (s : State) (d i : Nat) (f : Ring → Ring) : State :=
  s.modDom d fun x => { x with rings := SMap.put x.rings i (f (x.ring i)) }

/-! Commands (R336). -/

/-- The event a command entry asks for: its operation and operands, dword by dword. An unassigned operation or a nonzero unused
bit asks for nothing but its BADOP. -/
def commandEvent (d i : Nat) (w : Nat → Nat) : Instr :=
  let tag := w 0 / 2 ^ 16 % 2 ^ 16
  let zero (from_ : Nat) : Bool := (upFrom from_ (8 - from_)).all fun k => w k == 0
  let bad := Instr.badop d i tag
  if w 0 / 256 % 256 ≠ 0 ∨ 2 ^ 32 ≤ w 0 then bad
  else
    match w 0 % 256 with
    | 0x01 => if zero 5 && decide (w 3 < 16) then .bind d i tag (w 1) (w 2) (w 3) (w 4) else bad
    | 0x02 =>
      if zero 4 && decide (w 2 < 2 ^ 48) && decide (w 3 < 2 ^ 32) then .launch d i tag (w 1) (w 2) (BitVec.ofNat 32 (w 3)) else bad
    | 0x03 => if zero 1 then .reset d i tag else bad
    | 0x04 => if zero 3 && decide (w 1 < 2 ^ 16) && decide (w 2 < 2) then .hostTtsync d i tag (w 1) (w 2 == 1) else bad
    | 0x05 => if zero 2 then .modereq d i tag (w 1) else bad
    | 0x06 => if zero 3 then .chpush d i tag (w 1) (BitVec.ofNat 64 (w 2)) else bad
    | 0x07 => if zero 2 then .chpop d i tag (w 1) else bad
    | 0x08 => .rtnload d i tag (w 1) (w 2) (w 3) (w 4) (w 5) (w 6) (w 7)
    | 0x09 => if zero 3 then .attest d i tag (w 1) (w 2) else bad
    | _ => bad

/-- Take a free value. -/
def State.tickFree (s : State) : State := { s with free := s.free + 1 }

/-- Whether a command ring is enabled, mapped and not at work, with a command to read (R334, R337, R338). -/
def Domain.ready (x : Domain) (i : Nat) : Bool :=
  let r := x.ring i
  x.ren.getLsbD i && ringOn r.reg && r.slot.isSome && !r.stopped && !r.busy && decide (r.head ≠ r.tail)

/-- The hub turns to the next ring of a domain, round robin, that has a command (R337). When it reads the entry is not promised (log
4); a doorbell of number 8 + i stands for that read. -/
def nextCommand (s : State) (d : Nat) : State :=
  let x := s.dom d
  match x.reading, (upFrom x.turn 8).find? fun i => x.ready (i % 8) with
  | none, some i =>
    ((s.modDom d fun x => { x with reading := some (i % 8), turn := (i + 1) % 8 }).tickFree).sched (s.now + Config.hostCycles s.free)
      (.doorbell d (8 + i % 8) 0)
  | _, _ => s

/-- The hub reads a ring's entry, and the command starts (R336). -/
def readCommand (s : State) (d i : Nat) : State :=
  let x := s.dom d
  if x.reading ≠ some i then s
  else
    let s := s.modDom d fun x => { x with reading := none }
    let a := ringAddr (x.ring i).reg (x.ring i).head.toNat
    nextCommand (if x.ready i then
        (s.modRing d i fun r => { r with busy := true, head := r.head + 1 }).sched s.now
          (commandEvent d i fun k => Mem.readN s.host (a + 8 * k) 8)
      else s) d

/-- A command completes: its entry on completion ring i mod 2, and the ring goes on (R336, R337). -/
def completeCommand (s : State) (d i tag status : Nat) (value : Word) (record : List Byte) : State :=
  nextCommand ((pushCompletion s d (i % 2) (completionBytes status tag i value record)).modRing d i fun r => { r with busy := false }) d

/-! Fault records (R226, R227, R340). -/

/-- What a record says besides its repeat count. -/
structure FaultInfo where
  cause : Cause
  write : Bool := false
  parity : Bool := false
  malf : Bool := false
  tstore : Bool := false
  die : Nat := 0
  cluster : Nat := 0
  agent : Nat := 0
  block : Nat := 0
  tid : Nat := 0
  tile : Nat := 0
  offset : Nat := 0
  entry : Word := 0

def bit (b : Bool) : Nat := if b then 1 else 0

/-- The 64 bytes of a record. -/
def faultBytes (x : FaultInfo) (part clock repeats : Nat) (refault : Bool) : List Byte :=
  leBytes 8 (x.cause.code.toNat + bit refault * 2 ^ 8 + bit x.write * 2 ^ 9 + bit x.parity * 2 ^ 10 + bit x.malf * 2 ^ 11 +
    bit x.tstore * 2 ^ 12 + part % 16 * 2 ^ 16 + x.die % 4 * 2 ^ 20 + x.cluster % 16 * 2 ^ 22 + x.agent % 64 * 2 ^ 26 +
    x.block % 2 ^ 16 * 2 ^ 32 + x.tid % 2 ^ 16 * 2 ^ 48) ++
  leBytes 8 (x.tile % 2 ^ 32 + repeats % 2 ^ 16 * 2 ^ 32) ++ leBytes 8 (x.offset % 2 ^ 32) ++
  leBytes 8 (clock / tickCycles % 2 ^ 48 + clock % tickCycles * 2 ^ 48) ++ leBytes 8 x.entry.toNat ++ leBytes 24 0

/-- Put a record on a domain's fault ring: one that finds it full, or no ring, is dropped and counted in LOST (R340). -/
def pushFault (s : State) (d : Nat) (bs : List Byte) : State :=
  let x := s.dom d
  if ringOn x.fltReg ∧ (x.fltTail - x.fltHead).toNat < 2 ^ ringLog x.fltReg then
    signalEntry ((hostWrite s (ringAddr x.fltReg x.fltTail.toNat) bs).modDom d fun x => { x with fltTail := x.fltTail + 1 })
      d true
  else
    s.modDom d fun x => { x with fltLost := if x.fltLost.toNat + 1 = 2 ^ 32 then x.fltLost else x.fltLost + 1 }

/-- The pairs of a die's recent-fault set: (tensor, tile), faults so far, completion of a `ttsync` since. -/
abbrev FaultSet := List ((Nat × Nat) × Nat × Option Nat)

/-- The first completion, after a cycle, of a synchronisation that covers a tensor. -/
def nextCover (syncs : List (Nat × Bool × Nat)) (tid now : Nat) : Option Nat :=
  (syncs.filter fun y => (y.2.1 || y.1 == tid) && decide (now < y.2.2)).foldl (fun m y =>
    some (m.elim y.2.2 fun v => Nat.min v y.2.2)) none

/-- A fault of a pair: its count, whether a `ttsync` covering it has completed, and the set with the pair most recent. -/
def noteFault (l : FaultSet) (syncs : List (Nat × Bool × Nat)) (key : Nat × Nat) (now : Nat) : Nat × Bool × FaultSet :=
  match l.find? fun y => y.1 == key with
  | none => (1, false, ((key, 1, nextCover syncs key.1 now) :: l).take 16)
  | some y =>
    let n := Nat.min 65535 (y.2.1 + 1)
    let re := match y.2.2 with
      | some c => decide (c ≤ now)
      | none => false
    (n, re, (key, n, y.2.2) :: l.filter fun z => z.1 != key)

/-- Write the record of a fault that a check found at a cycle of the model's count (R221, R226). -/
def recordFault (s : State) (d : Nat) (x : FaultInfo) : State :=
  if x.tstore then pushFault s d (faultBytes x d s.clock 0 false)
  else
    let r := noteFault (SMap.get [] (s.dom d).faults x.die) (s.dom d).syncs (x.tid, x.tile) s.now
    pushFault (s.modDom d fun y => { y with faults := SMap.put y.faults x.die r.2.2 }) d (faultBytes x d s.clock r.1 r.2.1)

/-- A walk that passes every check takes its pair out of the die's set (R227). -/
def clearFault (s : State) (d die tid tile : Nat) : State :=
  let l := (SMap.get [] (s.dom d).faults die).filter fun z => z.1 != (tid, tile)
  s.modDom d fun y => { y with faults := SMap.put y.faults die l }

end Sys2Proof.Machine
end

