-- ==== Sys2Proof/Machine/Escapement.lean ====
section
/-! DEFINITION. The escapement: release of blocks, forks, the detent's stop, fallbacks, commits at the deadline (R106 to R117, R296,
R297). -/

namespace Sys2Proof.Machine

def Domain.block (d : Domain) (n : Nat) : Option BlockInfo :=
  match d.active with
  | some b => b.blocks.find? (fun x => x.1 == n) |>.map fun x => x.2
  | none => none

/-- WCET of a domain's block; 0 for none. -/
def Domain.wcet (d : Domain) (n : Nat) : Nat :=
  match d.block n with
  | some b => b.wcet
  | none => 0

/-- The entry of a cell's column. -/
def Domain.entry (d : Domain) (c n : Nat) : Option Entry :=
  match d.table with
  | some t => (SMap.get [] t.columns c)[n]?
  | none => none

/-- Cycles of a period (R106). -/
def Domain.periodCycles (d : Domain) : Nat :=
  match d.table with
  | some t => t.period * tickCycles
  | none => tickCycles

/-- The cycle at which the phase of a domain stands: a frozen one's does not advance (R305). -/
def State.phaseNow (s : State) (d : Nat) : Nat :=
  match (s.dom d).frozen with
  | some z => z
  | none => s.now

/-- The origin of the period in which an entry with start S, reached `late` cycles after its start or more, was due (R112). -/
def periodOrigin (s : State) (d start late : Nat) : Nat :=
  let x := s.dom d
  x.t0 + (s.phaseNow d - x.t0 - start - late) / x.periodCycles * x.periodCycles

/-- A reserved KIND or LOGSZ, or a parity error (R109). -/
def Entry.corrupt (e : Entry) : Bool := e.bad || decide (4 ≤ e.kind) || decide (5 ≤ e.logsz)

/-- The same entry in the column of another member (R110). -/
def Domain.twin (d : Domain) (c : Nat) (e : Entry) : Option Entry :=
  match d.table with
  | some t => (SMap.get [] t.columns c).find? fun x => x.stage == e.stage && x.k == e.k
  | none => none

/-- The fallback reserve of an entry (R108). -/
def Entry.reserve (e : Entry) (d : Domain) : Nat := 64 + d.wcet e.fbk + if e.cad then 0 else 1

/-- Whether a corrupt entry that the cell has met holds it idle in this cycle of the phase (R109). -/
def Domain.holds (d : Domain) (now c : Nat) : Bool := decide (now < SMap.get 0 d.heldTo c)

/-- Members that an entry does not release: their own column is corrupt at it, or an earlier corrupt entry holds them (R109). -/
def badMembers (d : Domain) (now : Nat) (cs : List Nat) (e : Entry) : List Nat :=
  cs.filter fun c => d.holds now c || match d.twin c e with
    | some x => x.corrupt
    | none => true

/-- A corrupt entry is met: its record, and the cell is held idle to the D + R that the entry shows (R109). -/
def tableRecord (s : State) (d c : Nat) (e : Entry) : State :=
  let to_ := periodOrigin s d (e.start % (s.dom d).periodCycles) 0 + e.deadline + e.reserve (s.dom d)
  let s := s.modDom d fun x => { x with heldTo := SMap.set 0 x.heldTo c (Nat.max (SMap.get 0 x.heldTo c) to_) }
  recordFault s d { cause := .memerr, parity := e.bad, tstore := true, die := dieOf c, cluster := clusterOf c, agent := 32, block := e.blk }

/-- The first cycle in which a cluster may release a block: the start rule, the wake rule, and the clearing of a cell that passes
between domains (R116, R331, R23). -/
def allowedCycle (s : State) (cs : List Nat) (k : Nat) : Nat :=
  let first := match s.hub.firstTable with
    | some t => t + 2048 * k
    | none => 0
  Nat.max (Nat.max first (s.cluster k).allowed) (cs.foldl (fun m c => Nat.max m (s.cell c).clearUntil) 0)

/-! Release (R23, R111, R185). -/

/-- What the release leaves of a cell. -/
def Cell.release (c : Cell) (now id ix blk : Nat) (fb : Bool) : Cell :=
  let c := if c.seqr.isEmpty then c else c.settle
  { c with pc := 0, loops := [], rep := 0, repPend := none, cellix := BitVec.ofNat 7 ix, block := blk, fb := fb,
           spovf := BitVec.ofNat 23 (c.limOB + c.limSOV), run := .running, wait := .none, t := now, firing := id,
           pend := c.pend.map fun x => { x with tok := 0 }, images := c.tiles, stepNo := 0, coNo := 0, ramp := none,
           hreq := false, sstep := false }

def releaseCells (s : State) (cs : List Nat) (f : Firing) : State :=
  match cs with
  | [] => s
  | c :: r =>
    releaseCells ((s.unsched (.matrixStepEnd c)).modCell c fun x => x.release s.now f.id (c % 2 ^ f.logsz + 16 * f.logsz) f.blk f.fb) r f

/-- Records that a port's channel holds. -/
def heldOn (d : Domain) (f : Firing) (port : Nat) : Nat :=
  match portChan d f port with
  | some (n, _) => (d.chan n).queue.length
  | none => 0

/-- Release a block on a set: its firing is in being from this cycle, watched to its deadline (R111, R112, R117). A fallback's
deadline is that of its reserve. -/
def releaseFiring (s : State) (f : Firing) : State :=
  let d := f.dom
  let f := { f with id := s.nextId, held0 := heldOn (s.dom d) f 28, held1 := heldOn (s.dom d) f 29, doneBy := [], ended := false,
                    stopped := false, pop0 := 0, pop1 := 0, push2 := [], push3 := [], request := none, bars := [], trapped := [],
                    causes := [] }
  let s := { s with nextId := s.nextId + 1 }.modDom d fun x => { x with firings := x.firings ++ [f] }
  let s := releaseCells s f.cells f
  let s := s.schedPhase d f.deadline (if f.fb then .doubleOverrun d f.id else .detentStop d f.id)
  if f.entry.cad then s else s.schedPhase d f.deadline (.deadlineCommit d f.id)

/-- The array leaves idle with the block's release where the entry says so (R115). -/
def rampMembers (s : State) (f : Firing) : State :=
  if f.entry.ramp ∧ f.fb = false then f.cells.foldl (fun s c => s.sched s.now (.rampStart c)) s else s

/-- A firing of an entry, before its release. -/
def Entry.firing (e : Entry) (d c origin blk release : Nat) (fsel : Word) (out : List Nat) : Firing :=
  { id := 0, dom := d, base := c, logsz := e.logsz, entry := e, blk := blk, fb := false, start := origin + e.start,
    deadline := origin + e.deadline, release := release, fsel := fsel, out := out }

/-- A firing that stands for a block that was not released: only its fallback follows, at a cycle (R116). -/
def skipBlock (s : State) (f : Firing) (at_ : Nat) : State :=
  let d := f.dom
  let f := { f with id := s.nextId, ended := true, stopped := true }
  ({ s with nextId := s.nextId + 1 }.modDom d fun x => { x with firings := x.firings ++ [f] }).schedPhase d at_
    (.fallbackRelease d f.id)

/-- The block an entry or a fork has chosen is due: release it now, at the cluster's allowed cycle, or not at all (R116). -/
def releaseBlock (s : State) (f : Firing) (again : Instr) : State :=
  let al := allowedCycle s f.cells (f.base / 16)
  if f.cells.isEmpty then s
  else if al ≤ s.now then rampMembers (releaseFiring s f) { f with id := s.nextId }
  else
    let at_ := s.phaseNow f.dom + (al - s.now)
    if at_ < f.deadline then s.schedPhase f.dom at_ again
    else skipBlock s f (Nat.max (f.deadline + 64) at_)

/-- The base cell of the set of an entry in a cell's column (R110). -/
def Entry.base (e : Entry) (c : Nat) : Nat := c - c % 2 ^ e.logsz

/-- The members that an entry leaves idle in a cycle of the phase. -/
def Entry.idle (e : Entry) (d : Domain) (now c : Nat) : List Nat := badMembers d now (upFrom (e.base c) (2 ^ e.logsz)) e

/-- The release of a set is told from its first member that the entry does not leave idle. -/
def Entry.leads (e : Entry) (d : Domain) (now c : Nat) : Bool :=
  (upFrom (e.base c) (c % 2 ^ e.logsz)).all fun m => (e.idle d now c).contains m

/-- An entry's start in one cell's column, or the allowed cycle after it (R112). A corrupt entry releases nothing, has its record and
holds the cell; the other members of its set go on without the cell (R109). -/
def execBlockRelease (c n : Nat) (s : State) : Out :=
  let d := (s.cell c).dom
  .next (match (s.dom d).entry c n with
    | none => s
    | some e =>
      if e.corrupt then tableRecord s d c e
      else if 2 ≤ e.kind ∨ e.leads (s.dom d) (s.phaseNow d) c = false then s
      else
        releaseBlock s (e.firing d (e.base c) (periodOrigin s d e.start 0) e.blk s.now 0 (e.idle (s.dom d) (s.phaseNow d) c)) (.blockRelease c n))

/-! Forks (R114, R120). -/

/-- The word's share offset: FIX of the partition's 64 words at the foot of its share (R278). -/
def forkOffset (e : Entry) : Nat := 8 * e.fix

/-- Reading the fork word for a cell: the decision, with the check bits met; an error newly found counts in the cell's UEC (R309,
log 42). -/
def readFork (s : State) (d c : Nat) (e : Entry) : State × Nat :=
  let k := c / 16
  let a := s.shareByte d k (forkOffset e)
  let r := (s.cluster k).slice
  if s.shareSize d k < forkOffset e + 8 then (s, 2)
  else if r.anyBad a 8 then
    ((s.modCluster k fun x => { x with slice := r.mark (r.newBad a 8) }).modCell c fun x => x.countErr 0 (r.newBad a 8).length, 2)
  else
    let one := r.oneBit a 8
    (s.modCluster k fun x => { x with slice := r.scrub one, cbc := satAdd16 x.cbc one.length }, Ram.readN r a 1 % 2)

/-- The escapement reads the fork word at the entry's start; the chosen block comes 64 cycles later. -/
def execForkRead (c n : Nat) (s : State) : Out :=
  let d := (s.cell c).dom
  .next (match (s.dom d).entry c n with
    | none => s
    | some e =>
      if e.corrupt then tableRecord s d c e
      else if e.leads (s.dom d) (s.phaseNow d) c = false then s
      else
        let r := readFork s d c e
        (r.1.modCell c fun x => { x with fork := some (e, r.2, e.idle (s.dom d) (s.phaseNow d) c) }).schedPhase d (s.phaseNow d + 64)
          (.forkRelease c))

/-- The fork decision as `fsel` shows it. -/
def forkSel (e : Entry) (ch : Nat) : Word := BitVec.ofNat 64 (ch % 2 + 2 + 4 * e.fix)

/-- A fallback in the place of a block whose fork word cannot be read (R114): its deadline is the end of the reserve. CW.TPC then
names the fallback at word 0 (DESIGN CHOICE, log 42). -/
def poisonedFork (s : State) (f : Firing) : State :=
  if f.entry.fbk = 0 then s
  else
    let d := f.dom
    let f := { f with blk := f.entry.fbk, fb := true, deadline := f.deadline + 64 + (s.dom d).wcet f.entry.fbk, release := s.now }
    let s := releaseFiring s f
    f.cells.foldl (fun s c => s.modCell c fun x => x.setTrap .memerr false (memPlace 2 (forkOffset f.entry))) s

/-- The chosen block of a fork entry, 64 cycles after the read. -/
def execForkRelease (c : Nat) (s : State) : Out :=
  let d := (s.cell c).dom
  .next (match (s.cell c).fork with
    | none => s
    | some (e, ch, out) =>
      let f := e.firing d (e.base c) (periodOrigin s d e.start 64) (if ch = 2 then e.fbk else if ch = 1 then e.alt else e.blk) s.now
        (forkSel e (if ch = 2 then 0 else ch)) out
      if ch = 2 then
        let al := allowedCycle s f.cells (c / 16)
        if f.cells.isEmpty then s
        else if al ≤ s.now then poisonedFork s f
        else if s.phaseNow d + (al - s.now) < f.deadline + 64 + (s.dom d).wcet e.fbk then
          s.schedPhase d (s.phaseNow d + (al - s.now)) (.forkRelease c)
        else s
      else releaseBlock s f (.forkRelease c))

/-! The detent, the fallback and the commits (R113, R117, R296 to R298). -/

def dropFiring (s : State) (d f : Nat) : State := s.modDom d fun x => { x with firings := x.firings.filter fun y => y.id != f }

/-- The detent at a firing's deadline: it stops one that has not ended (R113). A stop for the causes of this cycle comes here too
(R294). -/
def execDetentStop (d id : Nat) (s : State) : Out :=
  .next (match (s.dom d).firing id with
    | none => s
    | some f =>
      if f.ended then if f.stopped = false ∧ f.deadline ≤ s.phaseNow d then dropFiring s d id else s
      else if f.trapped.isEmpty && f.causes.isEmpty then
        if f.fb then s else stopByTrap s d f .overrun fun _ => (.overrun, BitVec.ofNat 64 (f.deadline - f.start))
      else resolveStop s d f)

/-- The fallback of a stopped firing, in the reserve (R297); none without one, or where the cluster may not release in time. -/
def execFallbackRelease (d id : Nat) (s : State) : Out :=
  .next (match (s.dom d).firing id with
    | none => s
    | some f =>
      let s := dropFiring s d id
      let stop := f.deadline + 64 + (s.dom d).wcet f.entry.fbk
      let al := allowedCycle s f.cells (f.base / 16)
      let at_ := s.phaseNow d + (al - s.now)
      let s := zeroBars s (f.base / 16) f.bars
      if f.entry.fbk = 0 ∨ f.cells.isEmpty then s
      else if at_ < stop then
        if al ≤ s.now then
          releaseFiring s { f with blk := f.entry.fbk, fb := true, start := s.phaseNow d, release := s.now, deadline := stop }
        else skipBlock s f at_
      else s)

/-- Commit at the deadline, or at the end of the reserve for a fallback (R117, R118). -/
def execDeadlineCommit (d id : Nat) (s : State) : Out :=
  .next (match (s.dom d).firing id with
    | none => s
    | some f => if f.ended ∧ f.stopped = false then commitFiring s f else s)

/-- The first tick boundary at or after a cycle. -/
def tickAtLeast (s : State) (t : Nat) : Nat := t + (tickCycles - (t + s.hub.clockOfs) % tickCycles) % tickCycles

/-- A fallback at the end of its reserve: one still running brings the safe mode (R297, R298). -/
def endReserve (s : State) (d id : Nat) : State :=
  match (s.dom d).firing id with
  | none => s
  | some f =>
    if f.ended then dropFiring s d id
    else if f.trapped.isEmpty && f.causes.isEmpty then
      let s := stopFiring s d f .doubleOverrun fun _ => (.doubleOverrun, BitVec.ofNat 64 (f.deadline - f.start))
      let at_ := tickAtLeast s (s.now + 192)
      if s.agenda.any fun x => decide (x.ev = .safeModeSwitch d ∧ x.due ≤ at_) then s else s.sched at_ (.safeModeSwitch d)
    else dropFiring (resolveStop s d f) d id

def execDoubleOverrun (d id : Nat) (s : State) : Out := .next (endReserve s d id)

/-- At a mode-change point every fallback of the period has ended (R290): one whose reserve ends in this very cycle ends first. -/
def endReserves (s : State) (d : Nat) : State :=
  (s.dom d).firings.foldl (fun s f => if f.fb ∧ f.deadline ≤ s.phaseNow d then endReserve s d f.id else s) s

end Sys2Proof.Machine
end

