-- ==== Sys2Proof/Machine/Num.lean ====
section
/-! DEFINITION. Numbers: the formats of R121 to R130, exact values, `Round` (R124 to R132), the stochastic generator (R133) and
the exact operations every unit starts from. -/

namespace Sys2Proof.Machine

/-- The special codes of a float format (R125, R127). -/
inductive Special where
  /-- Every code is finite. -/
  | finite
  /-- The top exponent holds infinity and NaN. -/
  | ieee
  /-- The code with every bit one is the single NaN. -/
  | allOnes
  /-- The codes with exponent and mantissa all ones are the NaNs (E4M3). -/
  | magOnes
  deriving DecidableEq, Repr

/-- A format of single elements: an integer of a width, or a float of a sign, an exponent and a mantissa width and a bias. -/
inductive Elem where
  | int (w : Nat) (signed : Bool)
  | float (sgn : Bool) (ex man : Nat) (bias : Int) (sp : Special)
  deriving DecidableEq, Repr

def Elem.fp32 : Elem := .float true 8 23 127 .ieee
def Elem.bf16 : Elem := .float true 8 7 127 .ieee
def Elem.fp16 : Elem := .float true 5 10 15 .ieee
def Elem.e4m3 : Elem := .float true 4 3 7 .magOnes
def Elem.e5m2 : Elem := .float true 5 2 15 .ieee
def Elem.e3m2 : Elem := .float true 3 2 3 .finite
def Elem.e2m3 : Elem := .float true 2 3 1 .finite
def Elem.e2m1 : Elem := .float true 2 1 1 .finite

/-- A free-form format from its word (R18, R127). -/
def Elem.freeForm (v : BitVec 18) : Elem :=
  let n := v.toNat
  let wid := n % 16
  let sgn := n / 16 % 2
  let ex := n / 32 % 8
  .float (sgn == 1) ex (wid - sgn - ex) (Int.bmod (n / 256 % 256 : Nat) 256)
    (match n / 65536 with | 1 => .ieee | 2 => .allOnes | _ => .finite)

/-- The element format that a format name means with the format words of a context; MX formats by their elements, complex
formats by their parts. -/
def elemOf (ff : List (BitVec 18)) : Fmt → Elem
  | .i8 => .int 8 true | .n8 => .int 8 false | .i4 => .int 4 true | .i16 => .int 16 true | .i32 => .int 32 true
  | .fp32 | .cfp32 => .fp32
  | .bf16 | .cbf16 => .bf16
  | .fp16 | .cfp16 => .fp16
  | .e4m3 | .mxfp8 | .ce4m3 => .e4m3
  | .e5m2 => .e5m2
  | .e2m1 | .mxfp4 => .e2m1
  | .e3m2 | .mxfp6 => .e3m2
  | .e2m3 => .e2m3
  | .ffa => .freeForm (ff.getD 0 0)
  | .ffb => .freeForm (ff.getD 1 0)
  | .ffc => .freeForm (ff.getD 2 0)

/-- The free-form word a format uses. -/
def ffIndex : Fmt → Option Nat
  | .ffa => some 0 | .ffb => some 1 | .ffc => some 2 | _ => none

/-- The format a code names, free-form by CW.FMTA. -/
def fmtOfCode (n : Nat) : Option Fmt :=
  match n with
  | 0x01 => some .i8 | 0x02 => some .n8 | 0x03 => some .i4 | 0x04 => some .i16 | 0x05 => some .i32
  | 0x10 => some .fp32 | 0x11 => some .bf16 | 0x12 => some .fp16
  | 0x20 => some .e4m3 | 0x21 => some .e5m2 | 0x22 => some .e2m1 | 0x23 => some .e3m2 | 0x24 => some .e2m3
  | 0x28 => some .mxfp8 | 0x29 => some .mxfp6 | 0x2A => some .mxfp4 | 0x2F => some .ffa
  | 0x30 => some .cbf16 | 0x31 => some .cfp16 | 0x32 => some .ce4m3 | 0x33 => some .cfp32
  | _ => none

/-! Codes to values (R125, R127). -/

def Num.zero (neg : Bool) : Num := .fin neg 0 0 false

def Num.ofInt (v : Int) : Num := .fin (decide (v < 0)) v.natAbs 0 false

def decodeElem (f : Elem) (code : Nat) : Num :=
  match f with
  | .int w signed =>
    let c := code % 2 ^ w
    .ofInt (if signed then Int.bmod c (2 ^ w) else c)
  | .float sgn ex man bias sp =>
    let mag := code % 2 ^ (ex + man)
    let neg := sgn && code / 2 ^ (ex + man) % 2 == 1
    let e := mag / 2 ^ man
    let m := mag % 2 ^ man
    let special : Option Num := match sp with
      | .finite => none
      | .ieee => if e + 1 = 2 ^ ex then some (if m = 0 then .inf neg else .nan) else none
      | .allOnes => if mag + 1 = 2 ^ (ex + man) ∧ (neg ∨ sgn = false) then some .nan else none
      | .magOnes => if mag + 1 = 2 ^ (ex + man) then some .nan else none
    match special with
    | some x => x
    | none =>
      if e = 0 then .fin neg m (1 - bias - man) false else .fin neg (2 ^ man + m) (e - bias - man) false

/-- Largest finite magnitude as exponent and mantissa bits (R125, R127). -/
def maxMag (sgn : Bool) (ex man : Nat) (sp : Special) (neg : Bool) : Nat :=
  match sp with
  | .finite => 2 ^ (ex + man) - 1
  | .ieee => (2 ^ ex - 1) * 2 ^ man - 1
  | .allOnes => if neg ∨ sgn = false then 2 ^ (ex + man) - 2 else 2 ^ (ex + man) - 1
  | .magOnes => 2 ^ (ex + man) - 2

/-- The canonical NaN of a float format, where it has one (R126). -/
def canonNan (sgn : Bool) (ex man : Nat) (sp : Special) : Option Nat :=
  match sp with
  | .finite => none
  | .ieee => if man = 0 then none else some ((2 ^ ex - 1) * 2 ^ man + 2 ^ (man - 1))
  | .allOnes => some (2 ^ (ex + man + (if sgn then 1 else 0)) - 1)
  | .magOnes => some (2 ^ (ex + man) - 1)

/-! Rounding (R131, R132). -/

/-- The quotient of `m + δ` by `2^k` rounded to an integer, and whether anything was lost. -/
def roundShift (mode : Rnd) (r m k : Nat) (more : Bool) : Nat × Bool :=
  let n := m / 2 ^ k
  let rem := m % 2 ^ k
  let lost := rem != 0 || more
  let up : Bool := match mode with
    | .rne => decide (2 ^ k < 2 * rem) || (2 * rem == 2 ^ k && (more || n % 2 == 1) && lost)
    | .rtz => false
    | .rto => lost && n % 2 == 0
    | .rst => decide (4096 * 2 ^ k ≤ 4096 * rem + r * 2 ^ k)
  (if up then n + 1 else n, lost)

def flagIf (c : Bool) (f : BitVec 8) : BitVec 8 := if c then f else 0

/-- Clamp an integer to a format: its code, and SATD (R124). -/
def clampInt (w : Nat) (signed : Bool) (v : Int) : Nat × BitVec 8 :=
  let lo : Int := if signed then -(2 : Int) ^ (w - 1) else 0
  let hi : Int := if signed then (2 : Int) ^ (w - 1) - 1 else (2 : Int) ^ w - 1
  if v < lo then ((lo % (2 : Int) ^ w).toNat, flagSATD)
  else if hi < v then (hi.toNat, flagSATD)
  else ((v % (2 : Int) ^ w).toNat, 0)

/-- A sign bit above a magnitude. -/
def withSign (sgn : Bool) (ex man : Nat) (neg : Bool) (mag : Nat) : Nat :=
  if sgn && neg then 2 ^ (ex + man) + mag else mag

/-- Round an exact value to a format under a mode with the random number r: the code and the flags. -/
def round (x : Num) (f : Elem) (mode : Rnd) (r : Nat) : Nat × BitVec 8 :=
  match f with
  | .int w signed =>
    match x with
    | .nan => (0, flagINVALID)
    | .inf neg =>
      if neg then ((clampInt w signed (-(2 : Int) ^ (w + 1))).1, flagSATD)
      else ((clampInt w signed ((2 : Int) ^ (w + 1))).1, flagSATD)
    | .fin neg m e more =>
      if !signed && neg && (m != 0 || more) then (0, flagSATD)
      else
        let n := if 0 ≤ e then m * 2 ^ e.toNat else (roundShift mode r m (-e).toNat more).1
        clampInt w signed (if neg then -(n : Int) else n)
  | .float sgn ex man bias sp =>
    match x with
    | .nan => match canonNan sgn ex man sp with
      | some c => (c, 0)
      | none => (0, flagINVALID)
    | .inf neg =>
      if !sgn && neg then (0, flagSATD)
      else if sp = .ieee then (withSign sgn ex man neg ((2 ^ ex - 1) * 2 ^ man), 0)
      else (withSign sgn ex man neg (maxMag sgn ex man sp neg), flagOVERFLOW)
    | .fin neg m e more =>
      if m = 0 ∧ more = false then (withSign sgn ex man neg 0, 0)
      else if !sgn && neg then (0, flagSATD)
      else
        let top : Int := if m = 0 then e - 1 else (Nat.log2 m : Int) + e
        let emin : Int := 1 - bias
        let q : Int := (if top < emin then emin else top) - man
        let n := if q ≤ e then (m * 2 ^ (e - q).toNat, more) else roundShift mode r m (q - e).toNat more
        let mag := ((q + man + bias).toNat - 1) * 2 ^ man + n.1
        let big := maxMag sgn ex man sp neg
        if big < mag then
          (withSign sgn ex man neg (if sp = .ieee ∧ (mode = .rne ∨ mode = .rst) then (2 ^ ex - 1) * 2 ^ man else big), flagOVERFLOW)
        else (withSign sgn ex man neg mag, flagIf (decide (top < emin) && n.2) flagUNDERFLOW)

/-! The generator (R133). -/

def genStep (x : BitVec 32) : BitVec 32 :=
  let x := x ^^^ (x <<< 13)
  let x := x ^^^ (x >>> 17)
  x ^^^ (x <<< 5)

/-- The seed of a unit (R133). -/
def genSeed (seed : BitVec 32) (u : Nat) : BitVec 32 :=
  let x := seed ^^^ BitVec.ofNat 32 (u * 0x9E3779B9)
  if x = 0 then 1 else x

/-- Unit number of R133. -/
def unitNumber (die cl cx kind : Nat) : Nat := die * 2 ^ 10 + cl * 2 ^ 8 + cx * 2 ^ 4 + kind

/-- Round with the generator: under RST it takes one step. -/
def roundGen (x : Num) (f : Elem) (mode : Rnd) (gen : BitVec 32) : Nat × BitVec 8 × BitVec 32 :=
  match mode with
  | .rst =>
    let g := genStep gen
    let z := round x f mode (g.toNat / 2 ^ 20)
    (z.1, z.2, g)
  | _ =>
    let z := round x f mode 0
    (z.1, z.2, gen)

/-! Exact operations (R126). -/

def Num.neg : Num → Num
  | .nan => .nan
  | .inf n => .inf (!n)
  | .fin n m e s => .fin (!n) m e s

def Num.abs : Num → Num
  | .nan => .nan
  | .inf _ => .inf false
  | .fin _ m e s => .fin false m e s

def Num.isNan : Num → Bool
  | .nan => true
  | _ => false

def Num.isInf : Num → Bool
  | .inf _ => true
  | _ => false

def Num.isZero : Num → Bool
  | .fin _ m _ s => m == 0 && !s
  | _ => false

def Num.isNeg : Num → Bool
  | .nan => false
  | .inf n => n
  | .fin n _ _ _ => n

/-- Signed integer of an exact finite value in units of `2^q`, for q not above its exponent. -/
def scaled (neg : Bool) (m : Nat) (e q : Int) : Int :=
  let v : Nat := m * 2 ^ (e - q).toNat
  if neg then -(v : Int) else v

/-- Exact sum; ∞ − ∞ is a NaN made here. The second part says that INVALID is set. -/
def Num.add (x y : Num) : Num × Bool :=
  match x, y with
  | .nan, _ => (.nan, false)
  | _, .nan => (.nan, false)
  | .inf a, .inf b => if a = b then (.inf a, false) else (.nan, true)
  | .inf a, _ => (.inf a, false)
  | _, .inf b => (.inf b, false)
  | .fin a m e _, .fin b n k _ =>
    if m = 0 ∧ n = 0 then (.zero (a && b), false)
    else if m = 0 then (.fin b n k false, false)
    else if n = 0 then (.fin a m e false, false)
    else
      let q := if e ≤ k then e else k
      let v := scaled a m e q + scaled b n k q
      (.fin (decide (v < 0)) v.natAbs q false, false)

/-- Exact product; 0 × ∞ is a NaN made here. -/
def Num.mul (x y : Num) : Num × Bool :=
  match x, y with
  | .nan, _ => (.nan, false)
  | _, .nan => (.nan, false)
  | .inf a, .inf b => (.inf (xor a b), false)
  | .inf a, .fin b n _ _ => if n = 0 then (.nan, true) else (.inf (xor a b), false)
  | .fin a m _ _, .inf b => if m = 0 then (.nan, true) else (.inf (xor a b), false)
  | .fin a m e _, .fin b n k _ => (.fin (xor a b) (m * n) (e + k) false, false)

/-- z ± x × y, rounded nowhere; a NaN operand makes no new NaN. -/
def Num.fma (z x y : Num) (minus : Bool) : Num × Bool :=
  if x.isNan || y.isNan || z.isNan then (.nan, false)
  else
    let p := x.mul y
    let s := z.add (if minus then p.1.neg else p.1)
    (s.1, p.2 || s.2)

/-- Value order of two numbers that are no NaN: −1, 0 or 1. Zeros of both signs are equal. -/
def Num.cmp (x y : Num) : Int :=
  match x, y with
  | .inf a, .inf b => if a = b then 0 else if a then -1 else 1
  | .inf a, _ => if a then -1 else 1
  | _, .inf b => if b then 1 else -1
  | .fin a m e _, .fin b n k _ =>
    let q := if e ≤ k then e else k
    let v := scaled a m e q
    let w := scaled b n k q
    if v < w then -1 else if w < v then 1 else 0
  | _, _ => 0

/-- Whether the first is the larger, with −0 below +0 (R149). -/
def Num.above (x y : Num) : Bool :=
  let c := x.cmp y
  decide (0 < c) || (c == 0 && !x.isNeg && y.isNeg)

/-- The larger or the smaller; NaN wins (R126, R135). -/
def Num.pick (larger : Bool) (x y : Num) : Num :=
  if x.isNan || y.isNan then .nan else if x.above y == larger then x else y

/-! Functions correctly rounded (R150): fixed-point values of `fixBits` bits. -/

def fixBits : Nat := 640

/-- log 2 in fixed point, cut. -/
def ln2Fix : Nat := 0xb17217f7d1cf79abc9e3b39803f2f6af40f343267298b62d8a0d175b8baafa2be7b876206debac98559552fb4afa1b10ed2eae35c138214427573b291169b8253e96ca16224ae8c51acbda11317c387e

/-- Terms `v^k / k!` from `term`, `v` in fixed point. -/
def expSum (fuel k v term : Nat) : Nat :=
  match fuel with
  | 0 => 0
  | fuel + 1 => if term = 0 then 0 else term + expSum fuel (k + 1) v (term * v / 2 ^ fixBits / k)

/-- e^v for a fixed-point v below 1. -/
def expFix (v : Nat) : Nat := expSum 200 1 v (2 ^ fixBits)

/-- 2^f for a fixed-point f below 1. -/
def exp2Fix (f : Nat) : Nat := expFix (f * ln2Fix / 2 ^ fixBits)

/-- e^-y for a fixed-point y, in fixed point. -/
def expNegFix (y : Nat) : Nat :=
  let k := y / ln2Fix
  let r := y % ln2Fix
  if r = 0 then 2 ^ fixBits / 2 ^ k else exp2Fix ((ln2Fix - r) * 2 ^ fixBits / ln2Fix) / 2 ^ (k + 1)

def atanhSum (fuel k z2 term : Nat) : Nat :=
  match fuel with
  | 0 => 0
  | fuel + 1 => if term = 0 then 0 else term / k + atanhSum fuel (k + 2) z2 (term * z2 / 2 ^ fixBits)

/-- log y for a fixed-point y from 1 to 2. -/
def lnFix (y : Nat) : Nat :=
  let z := (y - 2 ^ fixBits) * 2 ^ fixBits / (y + 2 ^ fixBits)
  2 * atanhSum 400 1 (z * z / 2 ^ fixBits) z

/-- A number's magnitude in fixed point, cut. -/
def toFix (m : Nat) (e : Int) : Nat :=
  let k := e + fixBits
  if 0 ≤ k then m * 2 ^ k.toNat else m / 2 ^ (-k).toNat

/-- A positive value that is not exact, from fixed point. -/
def ofFix (neg : Bool) (v : Nat) : Num := .fin neg v (-(fixBits : Int)) true

/-- 1/x (R150). -/
def rcpNum : Num → Num × Bool
  | .nan => (.nan, false)
  | .inf n => (.zero n, false)
  | .fin n m e _ =>
    if m = 0 then (.inf n, false)
    else
      let k := Nat.log2 m + 200
      (.fin n (2 ^ k / m) (-e - k) (2 ^ k % m != 0), false)

def isqrtLoop (fuel n x : Nat) : Nat :=
  match fuel with
  | 0 => x
  | fuel + 1 =>
    let y := (x + n / x) / 2
    if x ≤ y then x else isqrtLoop fuel n y

/-- Integer square root. -/
def isqrt (n : Nat) : Nat := if n = 0 then 0 else isqrtLoop 2000 n (2 ^ (Nat.log2 n / 2 + 1))

/-- 1/√x. -/
def rsqrtNum : Num → Num × Bool
  | .nan => (.nan, false)
  | .inf n => if n then (.nan, true) else (.zero false, false)
  | .fin n m e _ =>
    if m = 0 then (.inf n, false)
    else if n then (.nan, true)
    else
      let m := if e % 2 = 0 then m else 2 * m
      let e := if e % 2 = 0 then e else e - 1
      let k := Nat.log2 m + 200
      let y := isqrt (2 ^ (2 * k) / m)
      (.fin false y (-(e / 2) - k) (y * y * m != 2 ^ (2 * k)), false)

/-- 2^x. -/
def exp2Num : Num → Num × Bool
  | .nan => (.nan, false)
  | .inf n => (if n then .zero false else .inf false, false)
  | .fin n m e _ =>
    if m = 0 then (.fin false 1 0 false, false)
    else if 12 ≤ (Nat.log2 m : Int) + e then (.fin false 1 (if n then -4096 else 4096) (decide n), false)
    else
      let v := toFix m e
      let exact : Bool := if 0 ≤ e then true else m % 2 ^ (-e).toNat == 0
      let i : Int := v / 2 ^ fixBits
      let f := v % 2 ^ fixBits
      if exact then (.fin false 1 (if n then -i else i) false, false)
      else if n then (.fin false (exp2Fix (2 ^ fixBits - f)) (-i - 1 - fixBits) true, false)
      else (.fin false (exp2Fix f) (i - fixBits) true, false)

/-- log2 x. -/
def log2Num : Num → Num × Bool
  | .nan => (.nan, false)
  | .inf n => if n then (.nan, true) else (.inf false, false)
  | .fin n m e _ =>
    if m = 0 then (.inf true, false)
    else if n then (.nan, true)
    else
      let k := Nat.log2 m
      let i : Int := e + k
      if m = 2 ^ k then (.ofInt i, false)
      else
        let l : Int := lnFix (m * 2 ^ fixBits / 2 ^ k) * 2 ^ fixBits / ln2Fix
        let v : Int := i * 2 ^ fixBits + l
        (ofFix (decide (v < 0)) v.natAbs, false)

/-- A value just below `m × 2^e`. -/
def justBelow (neg : Bool) (m : Nat) (e : Int) : Num := .fin neg (m * 2 ^ 200 - 1) (e - 200) true

/-- tanh x. -/
def tanhNum : Num → Num × Bool
  | .nan => (.nan, false)
  | .inf n => (.fin n 1 0 false, false)
  | .fin n m e _ =>
    let top : Int := (Nat.log2 m : Int) + e
    if m = 0 then (.zero n, false)
    else if top < -40 then (justBelow n m e, false)
    else if 7 ≤ top then (justBelow n 1 0, false)
    else
      let t := expNegFix (2 * toFix m e)
      (ofFix n ((2 ^ fixBits - t) * 2 ^ fixBits / (2 ^ fixBits + t)), false)

/-- 1/(1 + e^-x). -/
def sigmNum : Num → Num × Bool
  | .nan => (.nan, false)
  | .inf n => (if n then .zero false else .fin false 1 0 false, false)
  | .fin n m e _ =>
    if m = 0 then (.fin false 1 (-1) false, false)
    else if 8 ≤ (Nat.log2 m : Int) + e then (if n then .fin false 1 (-300) true else justBelow false 1 0, false)
    else
      let t := expNegFix (toFix m e)
      let num := if n then t else 2 ^ fixBits
      (ofFix false (num * 2 ^ fixBits / (2 ^ fixBits + t)), false)

/-! Block scales (R128, R129). -/

/-- floor(log2 |v|) of a nonzero finite value. -/
def Num.logFloor : Num → Int
  | .fin _ m e _ => (Nat.log2 m : Int) + e
  | _ => 0

/-- v × 2^k. -/
def Num.shift (x : Num) (k : Int) : Num :=
  match x with
  | .fin n m e s => .fin n m (e + k) s
  | y => y

/-- EMAXE of an MX element format. -/
def emaxOf : Fmt → Int
  | .mxfp8 => 8 | .mxfp6 => 4 | _ => 2

def largestAbs (vs : List Num) : Num := vs.foldl (fun a v => Num.pick true a v.abs) (.zero false)

/-- Round a list of values to one format in order: codes, flags, generator. -/
def roundList (f : Elem) (mode : Rnd) (vs : List Num) (gen : BitVec 32) : List Nat × BitVec 8 × BitVec 32 :=
  match vs with
  | [] => ([], 0, gen)
  | v :: r =>
    let x := roundGen v f mode gen
    let y := roundList f mode r x.2.2
    (x.1 :: y.1, x.2.1 ||| y.2.1, y.2.2)

/-- Steps that draw numbers no rounding uses. -/
def genSteps (n : Nat) (gen : BitVec 32) : BitVec 32 :=
  match n with
  | 0 => gen
  | n + 1 => genSteps n (genStep gen)

def drawIf (mode : Rnd) (n : Nat) (gen : BitVec 32) : BitVec 32 := if mode = .rst then genSteps n gen else gen

/-- Quantise a block (R129): its scale code, element codes, flags, generator. -/
def mxBlock (fmt : Fmt) (mode : Rnd) (vs : List Num) (gen : BitVec 32) : Nat × List Nat × BitVec 8 × BitVec 32 :=
  let f := elemOf [] fmt
  let a := largestAbs vs
  if a.isNan || a.isInf then (0xFF, vs.map fun _ => 0, flagINVALID, drawIf mode vs.length gen)
  else if a.isZero then
    let z := roundList f mode vs gen
    (0x7F, z.1, z.2.1, z.2.2)
  else
    let x := a.logFloor - emaxOf fmt
    let x := if x < -127 then -127 else if 127 < x then 127 else x
    let z := roundList f mode (vs.map fun v => v.shift (-x)) gen
    ((x + 127).toNat, z.1, z.2.1, z.2.2)

/-- The value of an E8M0 scale (R128). -/
def scaleNum (c : Nat) : Num := if c = 0xFF then .nan else .fin false 1 ((c : Int) - 127) false

end Sys2Proof.Machine
end

