-- ==== Sys2Proof/Machine/Vector.lean ====
section
/-! DEFINITION. The vector unit: elements, masks and metadata (R139 to R145, R159), one evaluation of every vector compute
operation (R149 to R158), and one meaning per instruction. -/

namespace Sys2Proof.Machine

/-! Registers as elements (R140, R141). -/

/-- The first `n` elements of `w` bits. -/
def elems (w n v : Nat) : List Nat :=
  match n with
  | 0 => []
  | n + 1 => v % 2 ^ w :: elems w n (v / 2 ^ w)

/-- Elements joined again, the first lowest. -/
def packElems (w : Nat) (l : List Nat) : Nat :=
  match l with
  | [] => 0
  | x :: r => x % 2 ^ w + packElems w r * 2 ^ w

def Cell.getV (c : Cell) (v : BitVec 5) : Nat := (SMap.get 0 c.vreg v.toNat).toNat
def Cell.elemsOf (c : Cell) (f : Fmt) (v : BitVec 5) : List Nat := elems f.width f.count (c.getV v)
def Cell.metaOf (c : Cell) (v : BitVec 5) : Meta := SMap.get {} c.vmeta v.toNat
def Cell.setMeta (c : Cell) (v : BitVec 5) (x : Meta) : Cell := { c with vmeta := SMap.set {} c.vmeta v.toNat x }

/-- A mask; m0 reads all ones. -/
def Cell.getM (c : Cell) (m : MReg) : Nat := if m = 0 then 2 ^ 256 - 1 else (SMap.get 0 c.mask m.toNat).toNat

/-- The bit that governs element i of n (R141). -/
def maskBit (mask n i : Nat) : Bool := mask / 2 ^ (if n = 512 then i / 2 else i) % 2 == 1

def maskBits (mask n : Nat) : List Bool := (List.range n).map (maskBit mask n)

/-- Write a vector register, ready after a latency; a whole write ends its poison (R309). -/
def Cell.setV (c : Cell) (v : BitVec 5) (bits : Nat) (whole : Bool) : Cell :=
  let c := { c with vreg := SMap.set 0 c.vreg v.toNat (BitVec.ofNat 2048 bits) }
  if whole then { c with regErr := dropPlace c.regErr (64 + v.toNat), regPoison := SMap.del c.regPoison (64 + v.toNat) } else c

def Cell.setM (c : Cell) (m : MReg) (bits : Nat) : Cell :=
  if m = 0 then c
  else { c with mask := SMap.set 0 c.mask m.toNat (BitVec.ofNat 256 bits), regErr := dropPlace c.regErr (128 + m.toNat),
                regPoison := SMap.del c.regPoison (128 + m.toNat) }

/-- Meet the check bits of register places (R309): 64 + n a vector register, 128 + n a mask. -/
def meetRegs (s : State) (ks : List Nat) : Ret Unit :=
  match ks with
  | [] => .ok () s
  | k :: r =>
    if s.me.regBad k then
      .trap .memerr (memPlace 6 (if 128 ≤ k then k - 128 + 32 else k - 64)) (s.modMe fun c =>
        { c with uec := if SMap.get false c.regPoison k then c.uec else satAdd8 c.uec 1, regErr := dropPlace c.regErr k,
                 regPoison := SMap.put c.regPoison k true })
    else meetRegs (s.modMe fun c => { c with regErr := dropPlace c.regErr k }) r

def vKeys (vs : List (BitVec 5)) (m : MReg) : List Nat :=
  vs.map (fun v => 64 + v.toNat) ++ if m = 0 then [] else [128 + m.toNat]

/-- The free-form words of the current context (R20). -/
def Cell.ffWords (c : Cell) : List (BitVec 18) := [c.context.fmta, c.context.fmtb, c.context.fmtc]

/-- Bits of an element that hold its code: WID of a free-form element's byte (R123, R140). -/
def Cell.codeBits (c : Cell) (f : Fmt) : Nat :=
  match ffIndex f with
  | none => f.width
  | some k => (c.ffWords.getD k 0).toNat % 16

/-- Whether a format's free-form word, if it names one, holds a format (R20). -/
def ffHolds (ff : List (BitVec 18)) (f : Fmt) : Bool :=
  match ffIndex f with
  | none => true
  | some k => fmtWordOk (ff.getD k 0).toNat

/-! Times (R147). -/

def log2n (n : Nat) : Nat := Nat.log2 n

def vLatency (op : VOp) (n : Nat) : Nat :=
  match op with
  | .vmul | .vfma | .vfnma => 4
  | .vcmul => 6
  | .vrcp | .vrsqrt | .vexp2 | .vlog2 | .vtanh | .vsigm => 12
  | .vext | .vperm | .vshuf | .vrot | .vzip | .vunzip | .vbcl => 3
  | .vrsum | .vrmax | .vrmin | .vramax => 2 + log2n n
  | .vscan | .vscanx => 3 + log2n n
  | _ => 2

def vBusy (op : VOp) : Nat :=
  match op with
  | .vcmul | .vscan | .vscanx => 2
  | .vrcp | .vrsqrt | .vexp2 | .vlog2 | .vtanh | .vsigm => 4
  | _ => 1

/-! Metadata (R142, R145, R156, R159). -/

def Meta.eoffInt (x : Meta) : Int := x.eoff.toInt

/-- Metadata with the sum of two exponent offsets, where it fits. -/
def sumEoff (t : Meta) (a b : Meta) : Option Meta :=
  let e := a.eoffInt + b.eoffInt
  if -128 ≤ e ∧ e ≤ 127 then some { t with eoff := BitVec.ofInt 8 e } else none

def spatial (x : Meta) : Bool := x.tag == 0

/-- The same tag, block size and offset; the block size has a meaning only under a tag. -/
def sameMeta (a b : Meta) : Bool := a.tag == b.tag && a.bsz == b.bsz && a.eoff == b.eoff

/-- The vector registers an operation reads as values. -/
def vSources (op : VOp) (vd va vb : BitVec 5) : List (BitVec 5) :=
  match op with
  | .vsplat => []
  | .vins => [vd]
  | .vfma | .vfnma | .vshuf => [va, vb, vd]
  | .vext | .vrot | .vbcl | .vabs | .vneg | .vrcp | .vrsqrt | .vexp2 | .vlog2 | .vtanh | .vsigm | .vrelu | .vmov
  | .vrsum | .vrmax | .vrmin | .vramax | .vscan | .vscanx => [va]
  | _ => [va, vb]

/-- The registers whose tag an operation uses; index and count registers are none (R154, R159). -/
def vTagged (op : VOp) (vd va vb : BitVec 5) : List (BitVec 5) :=
  match op with
  | .vperm | .vshl | .vshr | .vsra => [va]
  | .vshuf => [va, vd]
  | op => vSources op vd va vb

/-- The requirement of R159 with the destination's metadata: none when it fails, `some none` when the destination keeps its
own. -/
def vMeta (op : VOp) (cplx : Bool) (n : Nat) (d a b : Meta) : Option (Option Meta) :=
  let need (ok : Bool) (r : Option Meta) : Option (Option Meta) := if ok then some r else none
  match op with
  | .vadd | .vsub | .vsel => need (sameMeta a b) (some a)
  | .vmul => if spatial b && (cplx || spatial a) then (sumEoff a a b).map some else none
  | .vcmul =>
    if a.tag == b.tag && a.bsz == b.bsz && !(a.tag == 1 && decide (n < 2 * 2 ^ a.bsz.toNat)) then (sumEoff a a b).map some else none
  | .vmov => some (some a)
  | .vfma | .vfnma =>
    need (spatial a && spatial b && spatial d && decide (d.eoffInt = a.eoffInt + b.eoffInt)) none
  | .vmin | .vmax | .vand | .vor | .vxor => need (spatial a && spatial b && a.eoff == b.eoff) (some a)
  | .vceq | .vcne | .vclt | .vcle => need (spatial a && spatial b && a.eoff == b.eoff) none
  | .vshl | .vshr | .vsra => need (spatial a) (some a)
  | .vrcp | .vrsqrt | .vexp2 | .vlog2 | .vtanh | .vsigm => need (spatial a && a.eoff == 0) (some {})
  | .vsplat => some (some {})
  | .vins => need (spatial d) (some {})
  | .vext => need (spatial a) none
  | _ => need (spatial a) (some { eoff := a.eoff })

/-- The metadata check of an instruction with its mask (R145, R159). -/
def metaCheck (c : Cell) (op : VOp) (fmt : Fmt) (vd va vb : BitVec 5) (m : MReg) : Option (Option Meta) :=
  if (vTagged op vd va vb).any (fun v => (c.metaOf v).tag == 3) then none
  else
    match vMeta op fmt.isComplex fmt.count (c.metaOf vd) (c.metaOf va) (c.metaOf vb) with
    | some (some x) => if m = 0 ∨ x = c.metaOf vd then some (some x) else none
    | r => r

/-! One element (R149 to R152). -/

/-- The value of one element after an operation, its flags, and the generator. -/
abbrev Lane := Nat × BitVec 8 × BitVec 32

/-- A rounded result; INVALID where a NaN was made. -/
def laneRound (f : Elem) (mode : Rnd) (x : Num × Bool) (gen : BitVec 32) : Lane :=
  let z := roundGen x.1 f mode gen
  (z.1, z.2.1 ||| flagIf x.2 flagINVALID, z.2.2)

/-- A clamped integer result. -/
def laneInt (w : Nat) (signed : Bool) (v : Int) (gen : BitVec 32) : Lane :=
  let z := clampInt w signed v
  (z.1, z.2, gen)

def intVal (w : Nat) (signed : Bool) (x : Nat) : Int := if signed then Int.bmod x (2 ^ w) else x

/-- Integer elements (R149, R152). -/
def intLane (op : VOp) (w : Nat) (signed : Bool) (x y z : Nat) (gen : BitVec 32) : Lane :=
  let a := intVal w signed x
  let b := intVal w signed y
  match op with
  | .vadd => laneInt w signed (a + b) gen
  | .vsub => laneInt w signed (a - b) gen
  | .vmul => laneInt w signed (a * b) gen
  | .vfma => laneInt w signed (intVal w signed z + a * b) gen
  | .vfnma => laneInt w signed (intVal w signed z - a * b) gen
  | .vmin => (if a ≤ b then x else y, 0, gen)
  | .vmax => (if a ≤ b then y else x, 0, gen)
  | .vabs => laneInt w signed a.natAbs gen
  | .vneg => laneInt w signed (-a) gen
  | .vrelu => (if 0 < a then x else 0, 0, gen)
  | .vand => (x &&& y, 0, gen)
  | .vor => (x ||| y, 0, gen)
  | .vxor => (x ^^^ y, 0, gen)
  | .vshl => (x * 2 ^ (y % w) % 2 ^ w, 0, gen)
  | .vshr => (x / 2 ^ (y % w), 0, gen)
  | .vsra => (((Int.bmod x (2 ^ w)) / 2 ^ (y % w) % (2 : Int) ^ w).toNat, 0, gen)
  | _ => (x, 0, gen)

/-- The canonical NaN of a format as a code. -/
def nanCode (f : Elem) : Nat := (round .nan f .rne 0).1

/-- Real float elements (R149, R150). -/
def floatLane (op : VOp) (f : Elem) (w : Nat) (mode : Rnd) (x y z : Nat) (gen : BitVec 32) : Lane :=
  let a := decodeElem f x
  let b := decodeElem f y
  match op with
  | .vadd => laneRound f mode (a.add b) gen
  | .vsub => laneRound f mode (a.add b.neg) gen
  | .vmul => laneRound f mode (a.mul b) gen
  | .vfma => laneRound f mode (Num.fma (decodeElem f z) a b false) gen
  | .vfnma => laneRound f mode (Num.fma (decodeElem f z) a b true) gen
  | .vmin => (if a.isNan || b.isNan then nanCode f else if a.above b then y else x, 0, gen)
  | .vmax => (if a.isNan || b.isNan then nanCode f else if a.above b then x else y, 0, gen)
  | .vabs => (if a.isNan then nanCode f else x % 2 ^ (w - 1), 0, gen)
  | .vneg => (if a.isNan then nanCode f else x ^^^ 2 ^ (w - 1), 0, gen)
  | .vrelu => (if a.isNan then nanCode f else if 0 < a.cmp (.zero false) then x else 0, 0, gen)
  | .vrcp => laneRound f mode (rcpNum a) gen
  | .vrsqrt => laneRound f mode (rsqrtNum a) gen
  | .vexp2 => laneRound f mode (exp2Num a) gen
  | .vlog2 => laneRound f mode (log2Num a) gen
  | .vtanh => laneRound f mode (tanhNum a) gen
  | .vsigm => laneRound f mode (sigmNum a) gen
  | _ => (x, 0, gen)

/-- a × b ± c × d, exact (R130). -/
def dotTwo (a b c d : Num) (minus : Bool) : Num × Bool :=
  if a.isNan || b.isNan || c.isNan || d.isNan then (.nan, false)
  else
    let p := a.mul b
    let q := c.mul d
    let s := p.1.add (if minus then q.1.neg else q.1)
    (s.1, p.2 || q.2 || s.2)

/-- Two lanes as the parts of one complex element, the real part first. -/
def joinLanes (w : Nat) (re : Lane) (im : BitVec 32 → Lane) : Lane :=
  let i := im re.2.2
  (re.1 + i.1 * 2 ^ w, re.2.1 ||| i.2.1, i.2.2)

/-- Complex elements of parts of `w` bits (R130, R149, R156); `apart` in slot 0 of a packed half-spectrum. -/
def complexLane (op : VOp) (f : Elem) (w : Nat) (mode : Rnd) (apart : Bool) (x y : Nat) (gen : BitVec 32) : Lane :=
  let xr := decodeElem f (x % 2 ^ w)
  let xi := decodeElem f (x / 2 ^ w)
  let yr := decodeElem f (y % 2 ^ w)
  let yi := decodeElem f (y / 2 ^ w)
  match op with
  | .vadd => joinLanes w (laneRound f mode (xr.add yr) gen) fun g => laneRound f mode (xi.add yi) g
  | .vsub => joinLanes w (laneRound f mode (xr.add yr.neg) gen) fun g => laneRound f mode (xi.add yi.neg) g
  | .vmul => joinLanes w (laneRound f mode (xr.mul yr) gen) fun g => laneRound f mode (xi.mul yr) g
  | .vcmul =>
    if apart then joinLanes w (laneRound f mode (xr.mul yr) gen) fun g => laneRound f mode (xi.mul yi) g
    else joinLanes w (laneRound f mode (dotTwo xr yr xi yi true) gen) fun g => laneRound f mode (dotTwo xr yi xi yr false) g
  | _ => (x, 0, gen)

/-- One element of an elementwise operation; `i` is its index and `x` the metadata of va. -/
def elementLane (op : VOp) (fmt : Fmt) (mode : Rnd) (a : Meta) (i x y z : Nat) (gen : BitVec 32) : Lane :=
  if fmt.isComplex then
    complexLane op (elemOf [] fmt) (fmt.width / 2) mode (a.tag == 1 && i % (2 * 2 ^ a.bsz.toNat) == 0) x y gen
  else
    match elemOf [] fmt with
    | .int w signed => intLane op w signed x y z gen
    | f => floatLane op f fmt.width mode x y z gen

/-- Run an elementwise operation over the elements from index `i`: masked-off elements keep their old value and set no flag, but
take their generator steps (R145, R146). -/
def runElements (f : Nat → Nat → Nat → Nat → BitVec 32 → Lane) (i : Nat) (on : List Bool) (xs ys zs : List Nat)
    (gen : BitVec 32) : List Nat × BitVec 8 × BitVec 32 :=
  match on, xs, ys, zs with
  | b :: on, x :: xs, y :: ys, z :: zs =>
    let l := f i x y z gen
    let r := runElements f (i + 1) on xs ys zs l.2.2
    ((if b then l.1 else z) :: r.1, (if b then l.2.1 else 0) ||| r.2.1, r.2.2)
  | _, _, _, _ => ([], 0, gen)

/-- The condition of a compare on one pair (R151). -/
def compareHolds (op : VOp) (f : Elem) (x y : Nat) : Bool :=
  let a := decodeElem f x
  let b := decodeElem f y
  if a.isNan || b.isNan then decide (op = .vcne)
  else
    let c := a.cmp b
    match op with
    | .vceq => c == 0
    | .vcne => c != 0
    | .vclt => decide (c < 0)
    | _ => decide (c ≤ 0)

def packBits (l : List Bool) : Nat :=
  match l with
  | [] => 0
  | b :: r => (if b then 1 else 0) + 2 * packBits r

/-! Reductions and scans (R135, R153). -/

/-- One level of the pairwise tree. -/
def pairLevel (f : Num → Num → Num × BitVec 8) (l : List Num) : List Num × BitVec 8 :=
  match l with
  | x :: y :: r =>
    let z := f x y
    let t := pairLevel f r
    (z.1 :: t.1, z.2 ||| t.2)
  | l => (l, 0)

def treeFold (levels : Nat) (f : Num → Num → Num × BitVec 8) (l : List Num) : Num × BitVec 8 :=
  match levels with
  | 0 => (l.getD 0 (.zero false), 0)
  | k + 1 =>
    let a := pairLevel f l
    let b := treeFold k f a.1
    (b.1, a.2 ||| b.2)

/-- Combine two summands: in FP32 with RNE, or exactly for integers. -/
def combineSum (isInt : Bool) (x y : Num) : Num × BitVec 8 :=
  let s := x.add y
  if isInt then (s.1, 0)
  else
    let z := round s.1 .fp32 .rne 0
    (decodeElem .fp32 z.1, z.2 ||| flagIf s.2 flagINVALID)

/-- The identity of a masked-off element (R135). -/
def identityOf (op : VOp) (f : Elem) : Num :=
  match op with
  | .vrmax => match f with
    | .int w signed => .ofInt (if signed then -(2 : Int) ^ (w - 1) else 0)
    | _ => .inf true
  | .vrmin => match f with
    | .int w signed => .ofInt ((if signed then (2 : Int) ^ (w - 1) else (2 : Int) ^ w) - 1)
    | _ => .inf false
  | _ => .zero false

def combineOf (op : VOp) (isInt : Bool) (x y : Num) : Num × BitVec 8 :=
  match op with
  | .vrmax | .vramax => (Num.pick true x y, 0)
  | .vrmin => (Num.pick false x y, 0)
  | _ => combineSum isInt x y

/-- The values that enter a reduction or scan. -/
def enterValues (op : VOp) (f : Elem) (on : List Bool) (xs : List Nat) : List Num :=
  match on, xs with
  | b :: on, x :: xs =>
    (if b then (if op = .vramax then (decodeElem f x).abs else decodeElem f x) else identityOf op f) :: enterValues op f on xs
  | _, _ => []

/-- Rounding of a reduction's or scan's result: integers are exact and only clamped (R146). -/
def resultLane (isInt : Bool) (f : Elem) (mode : Rnd) (x : Num) (gen : BitVec 32) : Lane :=
  laneRound f (if isInt then .rne else mode) (x, false) gen

/-- A scan over the entered values: `acc` the chain, none before the first inclusive element. The exclusive scan forms no sum with
its last element (R135). A combine that enters masked-off results alone sets its flags (log 85, the model's choice). -/
def scanFrom (excl isInt : Bool) (f : Elem) (mode : Rnd) (acc : Option Num) (on : List Bool) (vs : List Num) (old : List Nat)
    (gen : BitVec 32) : List Nat × BitVec 8 × BitVec 32 :=
  match on, vs, old with
  | b :: on, v :: vs, o :: old =>
    let next : Num × BitVec 8 := match acc with
      | none => (v, 0)
      | some a => combineSum isInt a v
    let y := if excl then acc.getD (.zero false) else next.1
    let l := resultLane isInt f mode y gen
    let r := scanFrom excl isInt f mode (some next.1) on vs old l.2.2
    ((if b then l.1 else o) :: r.1, (if b then l.2.1 else 0) ||| (if excl && vs.isEmpty then 0 else next.2) ||| r.2.1, r.2.2)
  | _, _, _ => ([], 0, gen)

/-! Permutes (R154). -/

/-- The element that element i of a permute takes; `k` is the scalar operand modulo the element count. -/
def permuteAt (op : VOp) (n k : Nat) (xs ys zs : List Nat) (i : Nat) : Nat :=
  match op with
  | .vperm => xs.getD (ys.getD i 0 % n) 0
  | .vshuf => (xs ++ zs).getD (ys.getD i 0 % (2 * n)) 0
  | .vrot => xs.getD ((i + k) % n) 0
  | .vzip => if i % 2 = 0 then xs.getD (i / 2) 0 else ys.getD (i / 2) 0
  | .vunzip => if i < n / 2 then xs.getD (2 * i) 0 else ys.getD (2 * (i - n / 2)) 0
  | _ => xs.getD k 0

/-- Write elements under a mask. -/
def mergeMasked (on : List Bool) (new old : List Nat) : List Nat :=
  match on, new, old with
  | b :: on, x :: new, o :: old => (if b then x else o) :: mergeMasked on new old
  | _, _, _ => []

/-! Running an operation. -/

/-- Flags of a vector or transform instruction: set when it completes (R138). -/
def flagsLater (s : State) (lat : Nat) (f : BitVec 8) : State :=
  let s := s.modMe fun c => { c with flagsAt := Nat.max c.flagsAt (s.now + lat), vecAt := Nat.max c.vecAt (s.now + lat) }
  if f = 0 then s else s.sched (s.now + lat) (.instructionCompletion s.cur f)

/-- Write a vector result: bits, metadata, ready time, unit, generator, flags. -/
def finishV (s : State) (vd : BitVec 5) (bits : Nat) (x : Option Meta) (whole : Bool) (lat busy : Nat) (gen : BitVec 32)
    (flags : BitVec 8) : State :=
  flagsLater (s.modMe fun c =>
    let c := (c.setV vd bits whole).setReady (64 + vd.toNat) (s.now + lat)
    let c := match x with
      | some x => c.setMeta vd x
      | none => c
    { c.setReady unitVec (s.now + busy) with genV := gen }) lat flags

/-- The scalar registers an operation reads. -/
def vScalars (op : VOp) (va vb : BitVec 5) : List SReg :=
  match op with
  | .vsplat => [va]
  | .vins => [va, vb]
  | .vext | .vrot | .vbcl => [vb]
  | _ => []

/-- `vext`'s value (R152). -/
def extValue (fmt : Fmt) (x : Nat) : Word :=
  match elemOf [] fmt with
  | .int w true => extend w false (BitVec.ofNat 64 x)
  | _ => BitVec.ofNat 64 x

/-- A vector compute operation of map A or B, checks passed. -/
def computeV (op : VOp) (fmt : Fmt) (mode : Rnd) (vd va vb : BitVec 5) (m : MReg) (k : Srcs) (x : Option Meta) (s : State) :
    Ret Unit :=
  let c := s.me
  let n := fmt.count
  let w := fmt.width
  let on := maskBits (c.getM m) n
  let xs := c.elemsOf fmt va
  let ys := c.elemsOf fmt vb
  let zs := c.elemsOf fmt vd
  let lat := vLatency op n
  let busy := vBusy op
  let write (l : List Nat) (whole : Bool) (gen : BitVec 32) (fl : BitVec 8) : Ret Unit :=
    .ok () (finishV s vd (packElems w l) x whole lat busy gen fl)
  let f := elemOf [] fmt
  match op with
  | .vceq | .vcne | .vclt | .vcle =>
    let bits := List.zipWith (fun b p => b && compareHolds op f p.1 p.2) on (List.zip xs ys)
    let md := BitVec.ofNat 3 vd.toNat
    .ok () (flagsLater (s.modMe fun c =>
      (if md = 0 then c else (c.setM md (packBits bits)).setReady (resMask md) (s.now + lat)).setReady unitVec
        (s.now + busy)) lat 0)
  | .vsel => write (List.zipWith (fun (b : Bool) (p : Nat × Nat) => if b then p.1 else p.2) on (List.zip xs ys)) true c.genV 0
  | .vmov => write (mergeMasked on xs zs) (m = 0) c.genV 0
  | .vsplat => write (mergeMasked on (xs.map fun _ => (k.get 0).toNat) zs) (m = 0) c.genV 0
  | .vins =>
    let i := (k.get 1).toNat % n
    write (if on.getD i false then zs.set i ((k.get 0).toNat % 2 ^ w) else zs) false c.genV 0
  | .vext =>
    (writeDst s vd (extValue fmt (xs.getD ((k.get 0).toNat % n) 0)) none lat).bind fun _ s =>
      .ok () (flagsLater (s.modMe fun c => c.setReady unitVec (s.now + busy)) lat 0)
  | .vrsum | .vrmax | .vrmin | .vramax =>
    let r := treeFold (log2n n) (combineOf op fmt.isInt) (enterValues op f on xs)
    let l := resultLane fmt.isInt f mode r.1 c.genV
    write (l.1 :: (xs.drop 1).map fun _ => 0) true l.2.2 (r.2 ||| l.2.1)
  | .vscan | .vscanx =>
    let r := scanFrom (op = .vscanx) fmt.isInt f mode (if op = .vscanx then some (.zero false) else none) on
      (enterValues op f on xs) zs c.genV
    write r.1 (m = 0) r.2.2 r.2.1
  | .vperm | .vshuf | .vrot | .vzip | .vunzip | .vbcl =>
    write (mergeMasked on ((List.range n).map (permuteAt op n ((k.get 0).toNat % n) xs ys zs)) zs) (m = 0) c.genV 0
  | op =>
    let r := runElements (elementLane op fmt mode (c.metaOf va)) 0 on xs ys zs c.genV
    write r.1 (m = 0) r.2.2 r.2.1

/-- A vector compute operation with its checks in order: scalar sources, check bits, metadata. -/
def runVop (ws : List Nat) (op : VOp) (fmt : Fmt) (mode : Rnd) (vd va vb : BitVec 5) (m : MReg) (s : State) : Ret Unit :=
  (readClean s (vScalars op va vb)).bind fun k s =>
    (meetRegs s (vKeys (vSources op vd va vb) (if op = .vext then 0 else m))).bind fun _ s =>
      match metaCheck s.me op fmt vd va vb m with
      | none => .trap .domain (wordsVal ws) s
      | some x => computeV op fmt mode vd va vb m k x s

/-! Map C (R155 to R158). -/

/-- The values of elements: two for a complex format. -/
def partsOf (ff : List (BitVec 18)) (fmt : Fmt) (x : Nat) : List Num :=
  let f := elemOf ff fmt
  if fmt.isComplex then [decodeElem f (x % 2 ^ (fmt.width / 2)), decodeElem f (x / 2 ^ (fmt.width / 2))] else [decodeElem f x]

/-- Round an element's parts to a format. -/
def roundParts (ff : List (BitVec 18)) (fmt : Fmt) (mode : Rnd) (vs : List Num) (gen : BitVec 32) : Lane :=
  let r := roundList (elemOf ff fmt) mode vs gen
  (packElems (fmt.width / (if fmt.isComplex then 2 else 1)) r.1, r.2.1, r.2.2)

/-- Convert a list of elements in order, under the mask bits of their destinations. -/
def convertList (ff : List (BitVec 18)) (fmt fmt2 : Fmt) (mode : Rnd) (on : List Bool) (xs old : List Nat) (gen : BitVec 32) :
    List Nat × BitVec 8 × BitVec 32 :=
  match on, xs, old with
  | b :: on, x :: xs, o :: old =>
    let l := roundParts ff fmt mode (partsOf ff fmt2 x) gen
    let r := convertList ff fmt fmt2 mode on xs old l.2.2
    ((if b then l.1 else o) :: r.1, (if b then l.2.1 else 0) ||| r.2.1, r.2.2)
  | _, _, _ => ([], 0, gen)

/-- The metadata of map C (R159): va spatial and no tag 11; the destination takes va's offset. -/
def metaC (c : Cell) (vd : BitVec 5) (srcs : List (BitVec 5)) (va : BitVec 5) (m : MReg) : Option Meta :=
  let x : Meta := { eoff := (c.metaOf va).eoff }
  if srcs.any (fun v => (c.metaOf v).tag == 3) || !spatial (c.metaOf va) then none
  else if m = 0 ∨ x = c.metaOf vd then some x
  else none

/-- Map C's checks: check bits, free-form words (R20), metadata. -/
def checkC (ws : List Nat) (fmts : List Fmt) (vd : BitVec 5) (srcs : List (BitVec 5)) (va : BitVec 5) (m : MReg) (s : State) :
    Ret Meta :=
  (meetRegs s (vKeys srcs m)).bind fun _ s =>
    if fmts.all (ffHolds s.me.ffWords) = false then .trap .fmt (wordsVal ws) s
    else
      match metaC s.me vd srcs va m with
      | none => .trap .domain (wordsVal ws) s
      | some x => .ok x s

def runVcvt (ws : List Nat) (vd va : BitVec 5) (p : Nat) (m : MReg) (fmt : Fmt) (mode : Rnd) (fmt2 : Fmt) (s : State) :
    Ret Unit :=
  (checkC ws [fmt, fmt2] vd [va] va m s).bind fun x s =>
    let c := s.me
    let n := Nat.min fmt.count fmt2.count
    let narrow := decide (fmt2.count < fmt.count)
    let at_ := if narrow then p * n else 0
    let zs := c.elemsOf fmt vd
    let on := maskBits (c.getM m) fmt.count
    let xs := ((c.elemsOf fmt2 va).drop (if narrow then 0 else p * n)).take n
    let r := convertList c.ffWords fmt fmt2 mode (on.drop at_) xs (zs.drop at_) c.genV
    .ok () (finishV s vd (packElems fmt.width (zs.take at_ ++ r.1 ++ zs.drop (at_ + n))) (some x)
      (decide (m = 0 ∧ n = fmt.count)) 3 1 r.2.2 r.2.1)

/-- Quantise the blocks of a list of values: scales, codes, flags, generator. -/
def quantBlocks (fmt : Fmt) (mode : Rnd) (k : Nat) (vs : List Num) (gen : BitVec 32) :
    List Nat × List Nat × BitVec 8 × BitVec 32 :=
  match k with
  | 0 => ([], [], 0, gen)
  | k + 1 =>
    let b := mxBlock fmt mode (vs.take 32) gen
    let r := quantBlocks fmt mode k (vs.drop 32) b.2.2.2
    (b.1 :: r.1, b.2.1 ++ r.2.1, b.2.2.1 ||| r.2.2.1, r.2.2.2)

/-- Put a list over the elements from an index. -/
def overlay (old new : List Nat) (at_ : Nat) : List Nat := old.take at_ ++ new ++ old.drop (at_ + new.length)

def runVquant (ws : List Nat) (vd va : BitVec 5) (p : Nat) (fmt : Fmt) (mode : Rnd) (fmt2 : Fmt) (s : State) : Ret Unit :=
  (checkC ws [] vd [va] va 0 s).bind fun x s =>
    let c := s.me
    let n := fmt2.count
    let r := quantBlocks fmt mode (n / 32) ((c.elemsOf fmt2 va).map (decodeElem (elemOf [] fmt2))) c.genV
    let s := finishV s vd (packElems fmt.width (overlay (c.elemsOf fmt vd) r.2.1 (p * n))) (some x) (decide (n = fmt.count))
      6 2 r.2.2.2 r.2.2.1
    .ok () (s.modMe fun c => ((c.setV (vd + 1) (packElems 8 (overlay (elems 8 256 (c.getV (vd + 1))) r.1 (p * n / 32)))
      false).setMeta (vd + 1) x).setReady (resVec (vd + 1)) (s.now + 6))

/-- Scale and convert elements from index `i` (R157). -/
def dequantFrom (fmt fmt2 : Fmt) (mode : Rnd) (i : Nat) (xs scales : List Nat) (gen : BitVec 32) :
    List Nat × BitVec 8 × BitVec 32 :=
  match xs with
  | [] => ([], 0, gen)
  | x :: xs =>
    let c := scales.getD (i / 32) 0
    let v := if c = 0xFF then .nan else (decodeElem (elemOf [] fmt2) x).shift ((c : Int) - 127)
    let l := laneRound (elemOf [] fmt) mode (v, c == 0xFF) gen
    let r := dequantFrom fmt fmt2 mode (i + 1) xs scales l.2.2
    (l.1 :: r.1, l.2.1 ||| r.2.1, r.2.2)

def runVdequant (ws : List Nat) (vd va : BitVec 5) (p : Nat) (fmt : Fmt) (mode : Rnd) (fmt2 : Fmt) (s : State) : Ret Unit :=
  (checkC ws [] vd [va, va + 1] va 0 s).bind fun x s =>
    let c := s.me
    let n := fmt.count
    let r := dequantFrom fmt fmt2 mode (p * n) (((c.elemsOf fmt2 va).drop (p * n)).take n) (elems 8 256 (c.getV (va + 1))) c.genV
    .ok () (finishV s vd (packElems fmt.width r.1) (some x) true 3 1 r.2.2 r.2.1)

/-- `vamax` (R158): the running largest magnitude in element 0 as an FP32 pattern. -/
def runVamax (ws : List Nat) (vd va : BitVec 5) (m : MReg) (fmt : Fmt) (s : State) : Ret Unit :=
  (meetRegs s (vKeys [va, vd] m)).bind fun _ s =>
    let c := s.me
    let a := c.metaOf va
    if !spatial a || (c.metaOf vd).tag == 3 || a.eoff != (c.metaOf vd).eoff then .trap .domain (wordsVal ws) s
    else
      let vs := enterValues .vramax (elemOf [] fmt) (maskBits (c.getM m) fmt.count) (c.elemsOf fmt va)
      let r := (round (largestAbs (decodeElem .fp32 (c.getV vd % 2 ^ 32) :: vs)) .fp32 .rne 0).1
      .ok () (finishV s vd (c.getV vd / 2 ^ 32 * 2 ^ 32 + r) none false (2 + log2n fmt.count) 1 c.genV 0)

/-! One meaning per instruction. -/

def execVadd (f : BitVec 3) (g : PReg) (vd va vb : VReg) (m : MReg) (s : State) : Out :=
  issue s g 1 1 (runVop (encode (.vadd f g vd va vb m)) .vadd (fmtA f) .rne vd va vb m)

def execVsub (f : BitVec 3) (g : PReg) (vd va vb : VReg) (m : MReg) (s : State) : Out :=
  issue s g 1 1 (runVop (encode (.vsub f g vd va vb m)) .vsub (fmtA f) .rne vd va vb m)

def execVmul (f : BitVec 3) (g : PReg) (vd va vb : VReg) (m : MReg) (s : State) : Out :=
  issue s g 1 1 (runVop (encode (.vmul f g vd va vb m)) .vmul (fmtA f) .rne vd va vb m)

def execVfma (f : BitVec 3) (g : PReg) (vd va vb : VReg) (m : MReg) (s : State) : Out :=
  issue s g 1 1 (runVop (encode (.vfma f g vd va vb m)) .vfma (fmtA f) .rne vd va vb m)

def execVfnma (f : BitVec 3) (g : PReg) (vd va vb : VReg) (m : MReg) (s : State) : Out :=
  issue s g 1 1 (runVop (encode (.vfnma f g vd va vb m)) .vfnma (fmtA f) .rne vd va vb m)

def execVmin (f : BitVec 3) (g : PReg) (vd va vb : VReg) (m : MReg) (s : State) : Out :=
  issue s g 1 1 (runVop (encode (.vmin f g vd va vb m)) .vmin (fmtA f) .rne vd va vb m)

def execVmax (f : BitVec 3) (g : PReg) (vd va vb : VReg) (m : MReg) (s : State) : Out :=
  issue s g 1 1 (runVop (encode (.vmax f g vd va vb m)) .vmax (fmtA f) .rne vd va vb m)

def execVabs (f : BitVec 3) (g : PReg) (vd va : VReg) (m : MReg) (s : State) : Out :=
  issue s g 1 1 (runVop (encode (.vabs f g vd va m)) .vabs (fmtA f) .rne vd va 0 m)

def execVneg (f : BitVec 3) (g : PReg) (vd va : VReg) (m : MReg) (s : State) : Out :=
  issue s g 1 1 (runVop (encode (.vneg f g vd va m)) .vneg (fmtA f) .rne vd va 0 m)

def execVrcp (f : BitVec 3) (g : PReg) (vd va : VReg) (m : MReg) (s : State) : Out :=
  issue s g 1 1 (runVop (encode (.vrcp f g vd va m)) .vrcp (fmtA f) .rne vd va 0 m)

def execVrsqrt (f : BitVec 3) (g : PReg) (vd va : VReg) (m : MReg) (s : State) : Out :=
  issue s g 1 1 (runVop (encode (.vrsqrt f g vd va m)) .vrsqrt (fmtA f) .rne vd va 0 m)

def execVexp2 (f : BitVec 3) (g : PReg) (vd va : VReg) (m : MReg) (s : State) : Out :=
  issue s g 1 1 (runVop (encode (.vexp2 f g vd va m)) .vexp2 (fmtA f) .rne vd va 0 m)

def execVlog2 (f : BitVec 3) (g : PReg) (vd va : VReg) (m : MReg) (s : State) : Out :=
  issue s g 1 1 (runVop (encode (.vlog2 f g vd va m)) .vlog2 (fmtA f) .rne vd va 0 m)

def execVtanh (f : BitVec 3) (g : PReg) (vd va : VReg) (m : MReg) (s : State) : Out :=
  issue s g 1 1 (runVop (encode (.vtanh f g vd va m)) .vtanh (fmtA f) .rne vd va 0 m)

def execVsigm (f : BitVec 3) (g : PReg) (vd va : VReg) (m : MReg) (s : State) : Out :=
  issue s g 1 1 (runVop (encode (.vsigm f g vd va m)) .vsigm (fmtA f) .rne vd va 0 m)

def execVcmul (f : BitVec 3) (g : PReg) (vd va vb : VReg) (m : MReg) (s : State) : Out :=
  issue s g 1 1 (runVop (encode (.vcmul f g vd va vb m)) .vcmul (fmtA f) .rne vd va vb m)

def execVceq (f : BitVec 3) (g : PReg) (md : MReg) (va vb : VReg) (m : MReg) (s : State) : Out :=
  issue s g 1 1 (runVop (encode (.vceq f g md va vb m)) .vceq (fmtA f) .rne (md.zeroExtend 5) va vb m)

def execVcne (f : BitVec 3) (g : PReg) (md : MReg) (va vb : VReg) (m : MReg) (s : State) : Out :=
  issue s g 1 1 (runVop (encode (.vcne f g md va vb m)) .vcne (fmtA f) .rne (md.zeroExtend 5) va vb m)

def execVclt (f : BitVec 3) (g : PReg) (md : MReg) (va vb : VReg) (m : MReg) (s : State) : Out :=
  issue s g 1 1 (runVop (encode (.vclt f g md va vb m)) .vclt (fmtA f) .rne (md.zeroExtend 5) va vb m)

def execVcle (f : BitVec 3) (g : PReg) (md : MReg) (va vb : VReg) (m : MReg) (s : State) : Out :=
  issue s g 1 1 (runVop (encode (.vcle f g md va vb m)) .vcle (fmtA f) .rne (md.zeroExtend 5) va vb m)

def execVsel (f : BitVec 3) (g : PReg) (vd va vb : VReg) (m : MReg) (s : State) : Out :=
  issue s g 1 1 (runVop (encode (.vsel f g vd va vb m)) .vsel (fmtA f) .rne vd va vb m)

def execVand (f : BitVec 3) (g : PReg) (vd va vb : VReg) (m : MReg) (s : State) : Out :=
  issue s g 1 1 (runVop (encode (.vand f g vd va vb m)) .vand (fmtA f) .rne vd va vb m)

def execVor (f : BitVec 3) (g : PReg) (vd va vb : VReg) (m : MReg) (s : State) : Out :=
  issue s g 1 1 (runVop (encode (.vor f g vd va vb m)) .vor (fmtA f) .rne vd va vb m)

def execVxor (f : BitVec 3) (g : PReg) (vd va vb : VReg) (m : MReg) (s : State) : Out :=
  issue s g 1 1 (runVop (encode (.vxor f g vd va vb m)) .vxor (fmtA f) .rne vd va vb m)

def execVshl (f : BitVec 3) (g : PReg) (vd va vb : VReg) (m : MReg) (s : State) : Out :=
  issue s g 1 1 (runVop (encode (.vshl f g vd va vb m)) .vshl (fmtA f) .rne vd va vb m)

def execVshr (f : BitVec 3) (g : PReg) (vd va vb : VReg) (m : MReg) (s : State) : Out :=
  issue s g 1 1 (runVop (encode (.vshr f g vd va vb m)) .vshr (fmtA f) .rne vd va vb m)

def execVsra (f : BitVec 3) (g : PReg) (vd va vb : VReg) (m : MReg) (s : State) : Out :=
  issue s g 1 1 (runVop (encode (.vsra f g vd va vb m)) .vsra (fmtA f) .rne vd va vb m)

def execVrelu (f : BitVec 3) (g : PReg) (vd va : VReg) (m : MReg) (s : State) : Out :=
  issue s g 1 1 (runVop (encode (.vrelu f g vd va m)) .vrelu (fmtA f) .rne vd va 0 m)

def execVsplat (f : BitVec 3) (g : PReg) (vd : VReg) (a : SReg) (m : MReg) (s : State) : Out :=
  issue s g 1 1 (runVop (encode (.vsplat f g vd a m)) .vsplat (fmtA f) .rne vd a 0 m)

def execVins (f : BitVec 3) (g : PReg) (vd : VReg) (a b : SReg) (m : MReg) (s : State) : Out :=
  issue s g 1 1 (runVop (encode (.vins f g vd a b m)) .vins (fmtA f) .rne vd a b m)

def execVext (f : BitVec 3) (g : PReg) (d : SReg) (va : VReg) (b : SReg) (m : MReg) (s : State) : Out :=
  issue s g 1 1 (runVop (encode (.vext f g d va b m)) .vext (fmtA f) .rne d va b m)

def execVmov (f : BitVec 3) (g : PReg) (vd va : VReg) (m : MReg) (s : State) : Out :=
  issue s g 1 1 (runVop (encode (.vmov f g vd va m)) .vmov (fmtA f) .rne vd va 0 m)

def execVrsum (f : BitVec 2) (g : PReg) (vd va : VReg) (m : MReg) (s : State) : Out :=
  issue s g 1 1 (runVop (encode (.vrsum f g vd va m)) .vrsum (fmtB f) .rne vd va 0 m)

def execVrmax (f : BitVec 2) (g : PReg) (vd va : VReg) (m : MReg) (s : State) : Out :=
  issue s g 1 1 (runVop (encode (.vrmax f g vd va m)) .vrmax (fmtB f) .rne vd va 0 m)

def execVrmin (f : BitVec 2) (g : PReg) (vd va : VReg) (m : MReg) (s : State) : Out :=
  issue s g 1 1 (runVop (encode (.vrmin f g vd va m)) .vrmin (fmtB f) .rne vd va 0 m)

def execVramax (f : BitVec 2) (g : PReg) (vd va : VReg) (m : MReg) (s : State) : Out :=
  issue s g 1 1 (runVop (encode (.vramax f g vd va m)) .vramax (fmtB f) .rne vd va 0 m)

def execVscan (f : BitVec 2) (g : PReg) (vd va : VReg) (m : MReg) (s : State) : Out :=
  issue s g 1 1 (runVop (encode (.vscan f g vd va m)) .vscan (fmtB f) .rne vd va 0 m)

def execVscanx (f : BitVec 2) (g : PReg) (vd va : VReg) (m : MReg) (s : State) : Out :=
  issue s g 1 1 (runVop (encode (.vscanx f g vd va m)) .vscanx (fmtB f) .rne vd va 0 m)

def execVperm (f : BitVec 2) (g : PReg) (vd va vb : VReg) (m : MReg) (s : State) : Out :=
  issue s g 1 1 (runVop (encode (.vperm f g vd va vb m)) .vperm (fmtB f) .rne vd va vb m)

def execVshuf (f : BitVec 2) (g : PReg) (vd va vb : VReg) (m : MReg) (s : State) : Out :=
  issue s g 1 1 (runVop (encode (.vshuf f g vd va vb m)) .vshuf (fmtB f) .rne vd va vb m)

def execVrot (f : BitVec 2) (g : PReg) (vd va : VReg) (b : SReg) (m : MReg) (s : State) : Out :=
  issue s g 1 1 (runVop (encode (.vrot f g vd va b m)) .vrot (fmtB f) .rne vd va b m)

def execVzip (f : BitVec 2) (g : PReg) (vd va vb : VReg) (m : MReg) (s : State) : Out :=
  issue s g 1 1 (runVop (encode (.vzip f g vd va vb m)) .vzip (fmtB f) .rne vd va vb m)

def execVunzip (f : BitVec 2) (g : PReg) (vd va vb : VReg) (m : MReg) (s : State) : Out :=
  issue s g 1 1 (runVop (encode (.vunzip f g vd va vb m)) .vunzip (fmtB f) .rne vd va vb m)

def execVbcl (f : BitVec 2) (g : PReg) (vd va : VReg) (b : SReg) (m : MReg) (s : State) : Out :=
  issue s g 1 1 (runVop (encode (.vbcl f g vd va b m)) .vbcl (fmtB f) .rne vd va b m)

/-- The long form of map A or B (R70): any format the operation accepts, and a rounding mode. -/
def execVectorLong (g : PReg) (vd va vb : BitVec 5) (m : MReg) (op : VOp) (fmt : Fmt) (rnd : Rnd) (s : State) : Out :=
  issue s g 2 1 (runVop (encode (.vectorLong g vd va vb m op fmt rnd)) op fmt rnd vd va vb m)

def execVcvt (g : PReg) (vd va : VReg) (p : BitVec 3) (m : MReg) (fmt : Fmt) (rnd : Rnd) (fmt2 : Fmt) (s : State) : Out :=
  issue s g 2 1 (runVcvt (encode (.vcvt g vd va p m fmt rnd fmt2)) vd va p.toNat m fmt rnd fmt2)

def execVquant (g : PReg) (vd va : VReg) (p : BitVec 3) (fmt : Fmt) (rnd : Rnd) (fmt2 : Fmt) (s : State) : Out :=
  issue s g 2 1 (runVquant (encode (.vquant g vd va p fmt rnd fmt2)) vd va p.toNat fmt rnd fmt2)

def execVdequant (g : PReg) (vd va : VReg) (p : BitVec 3) (fmt : Fmt) (rnd : Rnd) (fmt2 : Fmt) (s : State) : Out :=
  issue s g 2 1 (runVdequant (encode (.vdequant g vd va p fmt rnd fmt2)) vd va p.toNat fmt rnd fmt2)

def execVamax (g : PReg) (vd va : VReg) (m : MReg) (fmt : Fmt) (rnd : Rnd) (s : State) : Out :=
  issue s g 2 1 (runVamax (encode (.vamax g vd va m fmt rnd)) vd va m fmt)

end Sys2Proof.Machine
end

