-- ==== Sys2Proof/Machine/VectorMem.lean ====
section
/-! DEFINITION. Vector loads and stores: element addresses, checks, port cycles, and one meaning per instruction (R160 to
R163). -/

namespace Sys2Proof.Machine

/-- The addressing modes (R160): an element stride in bits, or the indices of a register. -/
inductive VMode where
  | unit
  | strided (step : Word)
  | indexed (idx : List Nat)
  deriving DecidableEq, Repr

/-- A masked-in element: its index, the bit its first bit has in its byte, and the byte address of that byte in 64 bits. -/
structure VElem where
  i : Nat
  bit : Nat
  addr : Nat
  deriving DecidableEq, Repr

def wrapAddr (ea : Word) (d : Int) : Nat := (ea + BitVec.ofInt 64 d).toNat

def elementAt (mode : VMode) (w : Nat) (ea : Word) (i : Nat) : VElem :=
  match mode with
  | .unit => ⟨i, i * w % 8, wrapAddr ea (i * w / 8 : Nat)⟩
  | .strided st => ⟨i, 0, (ea + BitVec.ofNat 64 (i * st.toNat)).toNat⟩
  | .indexed idx => ⟨i, 0, wrapAddr ea (idx.getD i 0 * (w / 8) : Nat)⟩

/-- Bytes an element of `w` bits touches. -/
def VElem.bytes (e : VElem) (w : Nat) : Nat := (e.bit + w + 7) / 8

/-- The masked-in elements in index order. -/
def maskedIn (mode : VMode) (fmt : Fmt) (mask : Nat) (ea : Word) : List VElem :=
  ((List.range fmt.count).filter fun i => maskBit mask fmt.count i).map (elementAt mode fmt.width ea)

/-- The lowest address of a list. -/
def lowest (l : List Nat) : Option Nat :=
  match l with
  | [] => none
  | x :: r => some (r.foldl Nat.min x)

/-- The runs of bytes in which an element is met: whole, or byte by byte where it may straddle words. -/
def VElem.pieces (e : VElem) (w : Nat) : List (Nat × Nat) :=
  if w % 8 = 0 then [(e.addr, e.bytes w)] else (upFrom e.addr (e.bytes w)).map fun a => (a, 1)

/-- Elements that lie inside the memory: below the share or below the carve-out. One that straddles the end lies beyond it, under the
address of its first byte (DESIGN CHOICE, log 84). -/
def VElem.inside (e : VElem) (w limit : Nat) : Bool := decide (e.addr + e.bytes w ≤ limit)

/-! Port cycles (R162). -/

/-- The memory units an element needs in its cycle: 8-byte words of the scratchpad, or its 256-byte row of the slice. -/
def VElem.needs (e : VElem) (sp : Space) (w : Nat) : List Nat :=
  match sp with
  | .sp => wordsOf e.addr (e.bytes w)
  | .cb => [e.addr / 256]

/-- Whether a further unit fits a cycle: a word already served, or one of at most 32 in a bank of its own; a slice row only if
it is the cycle's row. -/
def fits (sp : Space) (have_ : List Nat) (k : Nat) : Bool :=
  have_.contains k ||
  match sp with
  | .sp => decide (have_.length < 32) && have_.all fun j => j % 512 != k % 512
  | .cb => have_.isEmpty

/-- Give each element its port cycle, from cycle `c` with the units it serves already. -/
def portCycles (sp : Space) (w : Nat) (c : Nat) (have_ : List Nat) (l : List VElem) : List (Nat × VElem) :=
  match l with
  | [] => []
  | e :: r =>
    let ks := e.needs sp w
    if ks.all (fits sp have_) then
      (c, e) :: portCycles sp w c (ks.filter (fun k => !have_.contains k) ++ have_) r
    else (c + 1, e) :: portCycles sp w (c + 1) ks r

/-- The number of port cycles. -/
def cycleCount (l : List (Nat × VElem)) : Nat :=
  match l.getLast? with
  | none => 0
  | some x => x.1 + 1

/-! Checks 5 to 8 of R161. -/

/-- The limit of a space for the acting cell: carve-out or share. -/
def State.spaceLimit (s : State) (sp : Space) : Nat :=
  match sp with
  | .sp => s.me.limC
  | .cb => s.shareSize s.me.dom (clusterOf s.cur)

/-- The byte of its memory that an address inside a space names. -/
def State.spaceByte (s : State) (sp : Space) (a : Nat) : Nat :=
  match sp with
  | .sp => a
  | .cb => s.shareByte s.me.dom (clusterOf s.cur) a

/-- Whether elements write every bit of the 8-byte word at an address. -/
def wordWhole (w : Nat) (l : List VElem) (a : Nat) : Bool :=
  (upFrom (a / 8 * 64) 64).all fun b => l.any fun e => decide (8 * e.addr + e.bit ≤ b) && decide (b < 8 * e.addr + e.bit + w)

/-- An element write that covers a poisoned word in part, by the bits all the elements write. -/
def partPoisoned (s : State) (sp : Space) (w strm : Nat) (l : List VElem) : Option Nat :=
  ((l.map fun e => e.pieces w).flatten.find? fun p =>
    Ram.anyBad (s.seen strm sp) (s.spaceByte sp p.1) p.2 && !wordWhole w l p.1).map fun p => p.1 / 8 * 8

/-- Words with one flipped bit that elements cover in part (R309). -/
def partFlipped (s : State) (sp : Space) (w strm : Nat) (l : List VElem) : List Nat :=
  ((l.map fun e => e.pieces w).flatten.flatMap fun p =>
    if Ram.oneBit (s.seen strm sp) (s.spaceByte sp p.1) p.2 = [] ∨ wordWhole w l p.1 then []
    else Ram.oneBit (s.seen strm sp) (s.spaceByte sp p.1) p.2).eraseDups

/-- Checks 5 to 8; check 6 names the lowest address beyond the share (DESIGN CHOICE, log 84). -/
def checkElems (s : State) (sp : Space) (mode : VMode) (w strm : Nat) (store : Bool) (l : List VElem) : Ret Unit :=
  let size := w / 8
  let odd := match mode with
    | .unit => none
    | _ => lowest ((l.filter fun (e : VElem) => e.addr % size != 0).map fun (e : VElem) => e.addr)
  match odd with
  | some a => .trap .align (BitVec.ofNat 64 a) s
  | none =>
    let limit := s.spaceLimit sp
    let out := lowest ((l.filter fun (e : VElem) => !e.inside w limit).map fun (e : VElem) => e.addr)
    match sp, out with
    | .cb, some a => .trap .xlate (xlateOfs a) s
    | _, _ =>
      let s := match out with
        | some a => s.modMe fun c => c.setOOR s.now a
        | none => s
      if store then
        let inside := l.filter fun e => e.inside w limit
        match partPoisoned s sp w strm inside with
        | some a => (meetPart s (s.seen strm sp) sp (s.spaceByte sp a) 1 a).bind fun _ s => .ok () s
        | none => .ok () (s.corrected sp (partFlipped s sp w strm inside))
      else .ok () s

/-! Loads. -/

/-- The bits of an element inside the memory, as its stream sees them. -/
def loadElem (s : State) (sp : Space) (w strm : Nat) (e : VElem) : Nat :=
  (if w % 8 = 0 then s.load strm sp (s.spaceByte sp e.addr) (e.bytes w)
   else leNat ((upFrom e.addr (e.bytes w)).map fun a => BitVec.ofNat 8 (s.load strm sp (s.spaceByte sp a) 1))) / 2 ^ e.bit % 2 ^ w

/-- Meet the check bits of the words of runs of bytes (R161). -/
def meetPieces (s : State) (sp : Space) (strm : Nat) (l : List (Nat × Nat)) : Ret Unit :=
  match l with
  | [] => .ok () s
  | p :: r =>
    (meetErrors s (s.seen strm sp) sp (s.spaceByte sp p.1) p.2 (p.1 / 8 * 8)).bind fun _ s => meetPieces s sp strm r

/-- Meet the check bits of every element's words (R161). -/
def meetElems (s : State) (sp : Space) (w strm : Nat) (l : List VElem) : Ret Unit :=
  meetPieces s sp strm (l.map fun e => e.pieces w).flatten

/-- Put loaded elements into a register's list of elements. -/
def placeElems (old : List Nat) (i : Nat) (l : List (Nat × Nat)) : List Nat :=
  match old with
  | [] => []
  | o :: r =>
    match l with
    | (j, v) :: rest => if i = j then v :: placeElems r (i + 1) rest else o :: placeElems r (i + 1) l
    | [] => o :: r

/-- The register bits of the elements of one port cycle. -/
def cycleMask (w c : Nat) (l : List (Nat × VElem)) : BitVec 2048 :=
  l.foldl (fun m x => if x.1 = c then m ||| BitVec.ofNat 2048 ((2 ^ w - 1) * 2 ^ (w * x.2.i)) else m) 0

def loadV (vd : VReg) (fmt : Fmt) (sp : Space) (strm : Nat) (l : List VElem) (s : State) : Ret Unit :=
  let w := fmt.width
  let limit := s.spaceLimit sp
  let inside := l.filter fun e => e.inside w limit
  (meetElems s sp w strm inside).bind fun _ s =>
    let vals := l.map fun e => (e.i, if e.inside w limit then loadElem s sp w strm e % 2 ^ s.me.codeBits fmt else 0)
    let cyc := portCycles sp w 0 [] l
    let n := cycleCount cyc
    let lat := latencyOf sp + n
    let bits := packElems w (placeElems (s.me.elemsOf fmt vd) 0 vals)
    .ok () (s.modMe fun c =>
      let old := BitVec.ofNat 2048 (c.getV vd)
      let undo : VLoad := ⟨vd.toNat, s.now + n, old, (List.range n).map fun k => (s.now + k, cycleMask w k cyc)⟩
      let c := (c.setV vd bits (decide (l.length = fmt.count))).setReady (resVec vd) (s.now + lat)
      { c.setReady unitVport (s.now + n) with
        vecAt := Nat.max c.vecAt (s.now + lat), vloads := (c.vloads.filter fun x => decide (s.now < x.upTo)) ++ [undo] })

/-! Stores. -/

/-- Masked bytes of an element's value. -/
def elemBytes (s : State) (sp : Space) (w : Nat) (e : VElem) (v : Nat) : List (Nat × Byte × Byte) :=
  let n := e.bytes w
  let val := leBytes n (v % 2 ^ w * 2 ^ e.bit)
  let msk := leBytes n ((2 ^ w - 1) * 2 ^ e.bit)
  List.zip ((upFrom e.addr n).map (s.spaceByte sp)) (List.zip val msk)

/-- The bytes of the elements of a store that its port cycles which a test accepts serve. -/
def cycleBytes (s : State) (sp : Space) (w limit : Nat) (vals : List Nat) (cyc : List (Nat × VElem)) (test : Nat → Bool) :
    List (Nat × Byte × Byte) :=
  ((cyc.filter fun x => test x.1 && x.2.inside w limit).map fun x => elemBytes s sp w x.2 (vals.getD x.2.i 0)).flatten

/-- One access for each port cycle of a store. Of a word that several cycles write, each writes again what those before it wrote, so that
a word written wholly is written as one (R163). -/
def storeCycles (s : State) (sp : Space) (strong : Bool) (strm tok due w : Nat) (vals : List Nat) (cyc : List (Nat × VElem))
    (n : Nat) (limit : Nat) : State :=
  (List.range n).foldl (fun s k =>
    let bs := cycleBytes s sp w limit vals cyc fun j => j == k
    let old := (cycleBytes s sp w limit vals cyc fun j => decide (j < k)).filter fun x => bs.any fun y => y.1 / 8 == x.1 / 8
    s.addAccessAt s.me.pc (s.now + k) strm sp strong tok due (.store (old ++ bs))) s

def storeV (vd : VReg) (fmt : Fmt) (rt : Route) (tok : Nat) (l : List VElem) (s : State) : Ret Unit :=
  let w := fmt.width
  let limit := s.spaceLimit rt.space
  let cyc := portCycles rt.space w 0 [] l
  let n := cycleCount cyc
  let vals := (s.me.elemsOf fmt vd).map fun v => v % 2 ^ s.me.codeBits fmt
  let due := s.me.inOrder rt.stream.toNat rt.space (s.now + latencyOf rt.space - 1 + n)
  let s := storeCycles s rt.space rt.strong rt.stream.toNat tok due w vals cyc n limit
  .ok () (s.modMe fun c =>
    { c.setReady unitVport (s.now + n) with vecAt := if n = 0 then c.vecAt else Nat.max c.vecAt due })

/-! The shared access. -/

/-- What a mode reads besides the base: a stride register or an index register. -/
inductive VExtra where
  | none
  | step (b : SReg)
  | index (vb : VReg)
  deriving DecidableEq, Repr

def VExtra.scalars : VExtra → List SReg
  | .step b => [b]
  | _ => []

def VExtra.regs : VExtra → List VReg
  | .index v => [v]
  | _ => []

/-- Checks 1 to 4 of R161, then the rest, then the access. -/
def runVmem (ws : List Nat) (store : Bool) (vd : VReg) (a : SReg) (x : VExtra) (tok : Nat) (m : MReg) (fmt : Fmt) (rt : Route)
    (imm : BitVec 15) (s : State) : Ret Unit :=
  (readClean s (a :: x.scalars)).bind fun k s =>
    (meetRegs s (vKeys ((if store then [vd] else []) ++ x.regs) m)).bind fun _ s =>
      let c := s.me
      let ea := vecAddr (k.get 0) imm
      if ffHolds c.ffWords fmt = false then .trap .fmt (wordsVal ws) s
      else if (c.metaOf vd).tag = 3 ∨ ((c.metaOf vd).tag ≠ 0 ∧ fmt.isComplex = false) then .trap .domain (wordsVal ws) s
      else
        let mode : VMode := match x with
          | .none => .unit
          | .step _ => .strided (k.get 1)
          | .index v => .indexed (c.elemsOf fmt v)
        if mode = .unit ∧ ea.toNat % 8 ≠ 0 then .trap .align ea s
        else
          let l := maskedIn mode fmt (c.getM m) ea
          (checkElems s rt.space mode fmt.width rt.stream.toNat store l).bind fun _ s =>
            if store then storeV vd fmt rt tok l s else loadV vd fmt rt.space rt.stream.toNat l s

/-! One meaning per instruction. -/

def execVld (g : PReg) (vd : VReg) (a : SReg) (tok : Tok) (m : MReg) (fmt : Fmt) (rt : Route) (imm : BitVec 15) (s : State) :
    Out :=
  issue s g 2 1 (runVmem (encode (.vld g vd a tok m fmt rt imm)) false vd a .none 0 m fmt rt imm)

def execVlds (g : PReg) (vd : VReg) (a b : SReg) (tok : Tok) (m : MReg) (fmt : Fmt) (rt : Route) (imm : BitVec 15)
    (s : State) : Out :=
  issue s g 2 1 (runVmem (encode (.vlds g vd a b tok m fmt rt imm)) false vd a (.step b) 0 m fmt rt imm)

def execVldx (g : PReg) (vd : VReg) (a : SReg) (vb : VReg) (tok : Tok) (m : MReg) (fmt : Fmt) (rt : Route) (imm : BitVec 15)
    (s : State) : Out :=
  issue s g 2 1 (runVmem (encode (.vldx g vd a vb tok m fmt rt imm)) false vd a (.index vb) 0 m fmt rt imm)

def execVst (g : PReg) (vd : VReg) (a : SReg) (tok : Tok) (m : MReg) (fmt : Fmt) (rt : Route) (imm : BitVec 15) (s : State) :
    Out :=
  issue s g 2 1 (runVmem (encode (.vst g vd a tok m fmt rt imm)) true vd a .none tok.toNat m fmt rt imm)

def execVsts (g : PReg) (vd : VReg) (a b : SReg) (tok : Tok) (m : MReg) (fmt : Fmt) (rt : Route) (imm : BitVec 15)
    (s : State) : Out :=
  issue s g 2 1 (runVmem (encode (.vsts g vd a b tok m fmt rt imm)) true vd a (.step b) tok.toNat m fmt rt imm)

def execVstx (g : PReg) (vd : VReg) (a : SReg) (vb : VReg) (tok : Tok) (m : MReg) (fmt : Fmt) (rt : Route) (imm : BitVec 15)
    (s : State) : Out :=
  issue s g 2 1 (runVmem (encode (.vstx g vd a vb tok m fmt rt imm)) true vd a (.index vb) tok.toNat m fmt rt imm)

end Sys2Proof.Machine
end

