-- ==== Sys2Proof/Machine/Matrix.lean ====
section
/-! DEFINITION. The array and its sequencer: operand words, formats and rates, the ramp and the steps, chunks of products, and
one meaning per matrix instruction (R164 to R187, R205; the array's side of R198 to R200). -/

namespace Sys2Proof.Machine

/-! Operand words (R166 to R168). -/

def owAddr (w : Word) : Nat := field w 0 20
def owStride (w : Word) : Nat := field w 20 16
def owK (w : Word) : Nat := field w 36 12 + 1
def owTr (w : Word) : Bool := w.getLsbD 56
def owKs (w : Word) : Bool := w.getLsbD 57

/-- The rounding mode a code names (R54). -/
def rndOf (n : Nat) : Rnd := match n with | 0 => .rne | 1 => .rtz | 2 => .rto | _ => .rst

/-- Whether a word keeps R166, given which of KM1, KS and RND may be nonzero and whether TR must be 0. -/
def owOk (w : Word) (km ks rnd tr0 : Bool) : Bool :=
  let sws := field w 48 4
  let sww := field w 52 4
  field w 60 4 == 0 && (km || field w 36 12 == 0) && (ks || !owKs w) && (rnd || field w 58 2 == 0) && (!tr0 || !owTr w) &&
  (if sww = 0 then sws == 0 else decide (sww ≤ 9) && decide (12 ≤ sws) && decide (sws + sww ≤ 20))

/-- The swizzle (R167). -/
def swizzle (w : Word) (x : Nat) : Nat := x ^^^ (x / 2 ^ field w 48 4 % 2 ^ field w 52 4 * 8)

def owRow (w : Word) (r : Nat) : Nat := owAddr w + r * owStride w

/-- Physical bytes of element `e` of `wd` bits of the stored row at an address. -/
def pieceBytes (w : Word) (row e wd : Nat) : List Nat := (upFrom (row + e * wd / 8) ((e * wd % 8 + wd + 7) / 8)).map (swizzle w)

/-- The code of an element, zero beyond the carve-out. -/
def pieceVal (c : Cell) (bs : List Nat) (bit wd : Nat) : Nat :=
  if bs.any fun b => decide (c.limC ≤ b) then 0 else leNat (bs.map (Mem.byte c.sp.bytes)) / 2 ^ bit % 2 ^ wd

def lowerOf (a b : Option Nat) : Option Nat := lowest (a.toList ++ b.toList)

/-- Words of a scratchpad with an error among bytes read. -/
def errorWords (r : Ram) (phys : List Nat) : List Nat :=
  (r.err.map (fun x => x.1) ++ r.poison.map fun x => x.1).filter fun k => phys.any fun a => a / 8 == k

/-- Meet the check bits of scratchpad bytes that an array reads (R309, R310). -/
def meetPhys (s : State) (owner : Nat) (phys : List Nat) : Ret Unit :=
  let r := (s.cell owner).sp
  let ks := errorWords r phys
  match lowest (ks.filter (Ram.bad r)) with
  | some k =>
    .trap .memerr (memPlace 1 (8 * k)) (s.modCell owner fun c =>
      { c.countErr 0 (if SMap.get false r.poison k then 0 else 1) with sp := Ram.mark r [k] })
  | none =>
    if ks.isEmpty then .ok () s else .ok () (s.modCell owner fun c => { c.countErr ks.length 0 with sp := Ram.scrub r ks })

/-- Elements of stored rows as codes, a list per row, with the lowest address beyond the carve-out. -/
def readRows (s : State) (owner : Nat) (w : Word) (rows es : List Nat) (wd : Nat) : Ret (List (List Nat) × Option Nat) :=
  let c := s.cell owner
  let phys := (rows.map fun r => (es.map fun e => pieceBytes w r e wd).flatten).flatten
  (meetPhys s owner (phys.filter fun a => decide (a < c.limC))).bind fun _ s =>
    .ok (rows.map fun r => es.map fun e => pieceVal c (pieceBytes w r e wd) (e * wd % 8) wd,
      lowest (phys.filter fun a => decide (c.limC ≤ a))) s

def transpose (n : Nat) (l : List (List Nat)) : List (List Nat) := (List.range n).map fun j => l.map fun r => r.getD j 0

/-- 64 lines of the elements at `ks` along the dimension that a stored row holds for one orientation and numbers for the
other (R167). `inRow`: a stored row holds the dimension `ks` runs along. -/
def readLines (s : State) (owner : Nat) (w : Word) (inRow : Bool) (ks : List Nat) (wd : Nat) :
    Ret (List (List Nat) × Option Nat) :=
  if inRow then readRows s owner w ((List.range 64).map (owRow w)) ks wd
  else (readRows s owner w (ks.map (owRow w)) (List.range 64) wd).bind fun x s => .ok (transpose 64 x.1, x.2) s

/-! Tiles. -/

/-- The values of a table at `n` keys from `i`. -/
def dense {α : Type} (d : α) (m : SMap α) (i n : Nat) : List α :=
  match n with
  | 0 => []
  | n + 1 => match m with
    | (j, v) :: r => if j = i then v :: dense d r (i + 1) n else d :: dense d m (i + 1) n
    | [] => d :: dense d [] (i + 1) n

/-- A table from values at keys from `i`, the default not listed. -/
def ofDense {α : Type} [DecidableEq α] (d : α) (i : Nat) (l : List α) : SMap α :=
  match l with
  | [] => []
  | v :: r => if v = d then ofDense d (i + 1) r else (i, v) :: ofDense d (i + 1) r

/-- Rows of 64. -/
def rows64 {α : Type} (n : Nat) (l : List α) : List (List α) :=
  match n with
  | 0 => []
  | n + 1 => l.take 64 :: rows64 n (l.drop 64)


def tileWords (m : SMap (BitVec 32)) : List (List Nat) := rows64 64 ((dense 0 m 0 4096).map BitVec.toNat)
def wordsTile (l : List (List Nat)) : SMap (BitVec 32) := ofDense 0 0 (l.flatten.map (BitVec.ofNat 32))

def Cell.tileRows (c : Cell) (n : Nat) : List (List Nat) := tileWords (c.tile n).words
def Cell.setRows (c : Cell) (n : Nat) (l : List (List Nat)) : Cell := c.setTile n { c.tile n with words := wordsTile l }

/-- Keys of 64-bit accumulator words of `n` elements of a tile from element `lo`. -/
def Cell.accKeys (c : Cell) (m : List Nat) (tile lo n : Nat) : List Nat :=
  m.filter fun k => decide ((tile * 4096 + lo) / 2 ≤ k) && decide (k < (tile * 4096 + lo + n + 1) / 2)

/-- An accumulator word that no read can deliver. -/
def Cell.accBad (c : Cell) (k : Nat) : Bool :=
  SMap.get false c.accPoison k || decide (2 ≤ popcount 64 (SMap.get 0 c.accErr k).toNat)

def dropKeys {α : Type} (m : SMap α) (ks : List Nat) : SMap α := ks.foldl SMap.del m

/-- Meet the check bits of tile words read at a step (R309, R310). -/
def meetTile (s : State) (cell tile lo n : Nat) : Ret Unit :=
  let c := s.cell cell
  let ks := c.accKeys ((c.accErr.map fun x => x.1) ++ c.accPoison.map fun x => x.1) tile lo n
  match lowest (ks.filter c.accBad) with
  | some k =>
    .trap .memerr (memPlace 5 (2 * k)) (s.modCell cell fun c =>
      { c.countErr 0 (if SMap.get false c.accPoison k then 0 else 1) with
          accErr := SMap.del c.accErr k, accPoison := SMap.put c.accPoison k true })
  | none =>
    if ks.isEmpty then .ok () s
    else .ok () (s.modCell cell fun c => { c.countErr ks.length 0 with accErr := dropKeys c.accErr ks })

/-- Tile words written whole carry fresh check bits (R91). -/
def Cell.freshTile (c : Cell) (tile lo n : Nat) : Cell :=
  { c with accErr := dropKeys c.accErr (c.accKeys (c.accErr.map fun x => x.1) tile lo n),
           accPoison := dropKeys c.accPoison (c.accKeys (c.accPoison.map fun x => x.1) tile lo n) }

/-! Rates and the ramp (R116, R170, R173). -/

/-- Bits per element that the rate follows: a free-form format's by its word. -/
def rateWidth (ctx : Ctx) (f : Fmt) : Nat := if f.isFree then ctx.fmta.toNat % 16 else f.width

def fullCycles (ctx : Ctx) (f : Fmt) (k : Nat) : Nat :=
  let w := rateWidth ctx f
  if w ≤ 6 then (k + 1) / 2 else if w ≤ 8 then k else 2 * k

/-- Quarter units an array gives in the first `x` cycles of its ramp. -/
def rampUnits (x : Nat) : Nat :=
  if x ≤ 8 then x else if x ≤ 16 then 8 + 2 * (x - 8) else if x ≤ 24 then 24 + 3 * (x - 16) else 48 + 4 * (x - 24)

/-- The least number of ramp cycles that gives `y` quarter units. -/
def rampCycles (y : Nat) : Nat :=
  if y ≤ 8 then y else if y ≤ 24 then 8 + (y - 7) / 2 else if y ≤ 48 then 16 + (y - 22) / 3 else 24 + (y - 45) / 4

/-- Cycles of work for `full` array cycles from ramp position `p` (R173). -/
def workCycles (p full : Nat) : Nat := rampCycles (rampUnits p + 4 * full) - p

/-- Values of k complete after `cyc` cycles of work from ramp position `p`, in proportion to the quarter units (log 7). -/
def kAfter (p full k cyc : Nat) : Nat := Nat.min k ((rampUnits (p + cyc) - rampUnits p) * k / (4 * Nat.max full 1))

/-- The first cycle at or after `t` that no ramp start of a cluster holds. -/
def firstFree (fuel t : Nat) (held : List Nat) : Nat :=
  match fuel with
  | 0 => t
  | fuel + 1 => if held.contains t then firstFree fuel (t + 1) held else t

/-- Fix a ramp start. -/
def fixRamp (s : State) (c at_ : Nat) : State :=
  (s.modCell c fun x => { x with ramp := some at_ }).modCluster (clusterOf c) fun k =>
    { k with ramps := at_ :: k.ramps.filter fun r => decide (s.now ≤ r) }

/-- Whether an event on the agenda is a RAMP = 1 release in a cluster, or the start that one has brought (R116). -/
def rampsAt (s : State) (k : Nat) (i : Instr) : Bool :=
  match i with
  | .rampStart c => c / 16 == k
  | .forkRelease c => c / 16 == k && (s.cell c).fork.any fun x => x.1.ramp && decide (x.2.1 < 2)
  | .blockRelease c n => c / 16 == k && ((s.dom (s.cell c).dom).entry c n).any fun e => !e.corrupt && e.kind == 0 && e.ramp
  | _ => false

/-- The RAMP = 1 releases of a cluster in the next period of a domain's table, which begins where the agenda has this one end. -/
def rampsNext (s : State) (k d : Nat) : List Nat :=
  match (s.dom d).table with
  | none => []
  | some t =>
    let es := ((t.columns.filter fun x => x.1 / 16 == k).map fun x => x.2).flatten.filter fun e => !e.corrupt && e.kind == 0 && e.ramp
    (s.agenda.filter fun x => decide (x.ev = .modeChangePoint d 0)).flatMap fun x => es.map fun e => x.due + e.start

/-- Ramp starts that are fixed in a cluster: those of requests, and those of RAMP = 1 releases, which stand on the agenda or come in
the next period (log 70). -/
def fixedRamps (s : State) (k : Nat) : List Nat :=
  (s.cluster k).ramps ++ ((s.agenda.filter fun x => rampsAt s k x.ev).map fun x => x.due) ++ (upFrom 0 9).flatMap (rampsNext s k)

/-- The request of a block's first multiplying instruction (R116). -/
def requestRamp (s : State) (c : Nat) : State :=
  match (s.cell c).ramp with
  | some _ => s
  | none => fixRamp s c (firstFree 256 s.now (fixedRamps s (clusterOf c)))

/-- A ramp that the entry starts at its release (R115, R116). -/
def execRampStart (c : Nat) (s : State) : Out := .next (if (s.cell c).ramp.isSome then s else fixRamp s c s.now)

/-! Chunks of products (R134). -/

/-- A product, and whether it makes a NaN. -/
abbrev Prod1 := Num × Bool

/-- The position of the leading bit of a nonzero finite value. -/
def topBit : Num → Option Int
  | .fin _ m e _ => if m = 0 then none else some ((Nat.log2 m : Int) + e)
  | _ => none

/-- A magnitude cut at a bit position, sign kept. -/
def cutAt (q : Int) : Num → Num
  | .fin n m e x => if e < q then .fin n (m / 2 ^ (q - e).toNat) q x else .fin n m e x
  | x => x

def maxInt (l : List Int) : Option Int :=
  match l with
  | [] => none
  | x :: r => some (r.foldl (fun a b => if a < b then b else a) x)

/-- The exact sum of finite values: zero is −0 only where every term is −0 (R126). -/
def sumFinite (l : List Num) : Num := l.foldl (fun a x => (a.add x).1) (if l.all Num.isNeg && !l.isEmpty then .zero true else .zero false)

/-- The sum of a chunk (R134), with `cut` where products are truncated 48 positions below the largest. -/
def chunkSum (cut : Bool) (ps : List Prod1) : Num × Bool :=
  let inv := ps.any fun p => p.2
  let pos := ps.any fun p => p.1 == .inf false
  let neg := ps.any fun p => p.1 == .inf true
  if pos && neg then (.nan, true)
  else if ps.any fun p => p.1.isNan then (.nan, inv)
  else if pos then (.inf false, inv)
  else if neg then (.inf true, inv)
  else
    let vs := ps.map fun p => p.1
    match maxInt (vs.filterMap topBit) with
    | none => (sumFinite vs, inv)
    | some t => (sumFinite (if cut then vs.map (cutAt (t - 48)) else vs), inv)

/-- acc := Round(acc + Round(S, FP32, RNE), FP32, RNE). -/
def accFloat (acc : Nat) (x : Num × Bool) : Nat × BitVec 8 :=
  let r := round x.1 Elem.fp32 .rne 0
  let y := (decodeElem Elem.fp32 acc).add (decodeElem Elem.fp32 r.1)
  let z := round y.1 Elem.fp32 .rne 0
  (z.1, r.2 ||| z.2 ||| flagIf (x.2 || y.2) flagINVALID)

def Num.toInt : Num → Int
  | .fin n m e _ => let v : Nat := m * 2 ^ e.toNat; if n then -(v : Int) else v
  | _ => 0

/-- acc := acc + S as INT32, clamped with SATD. -/
def accInt (acc : Nat) (x : Num × Bool) : Nat × BitVec 8 := clampInt 32 true (Int.bmod acc (2 ^ 32) + x.1.toInt)

/-- How a format accumulates: as integers, with truncated products, or exactly. -/
inductive Acc where
  | int | cut | exact
  deriving DecidableEq, Repr

def accKind (f : Fmt) : Acc := if f.isInt then .int else if f = .bf16 ∨ f = .fp16 then .cut else .exact

def chunkSize : Acc → Nat
  | .cut => 8
  | _ => 64

/-- Accumulate one chunk; a short chunk's missing products are zero. -/
def accOne (kind : Acc) (short : Bool) (acc : Nat) (ps : List Prod1) : Nat × BitVec 8 :=
  let ps := if short then (.zero false, false) :: ps else ps
  match kind with
  | .int => accInt acc (chunkSum false ps)
  | .cut => accFloat acc (chunkSum true ps)
  | .exact => accFloat acc (chunkSum false ps)

def products (a b : List Num) : List Prod1 := List.zipWith (fun x y => Num.mul x y) a b

/-- One row of a tile with the products of a row of A and every column of B. -/
def accRow (f : Nat → List Prod1 → Nat × BitVec 8) (words : List Nat) (a : List Num) (bs : List (List Num)) : List Nat × BitVec 8 :=
  let z := List.zipWith (fun w b => f w (products a b)) words bs
  (z.map fun x => x.1, z.foldl (fun fl x => fl ||| x.2) 0)

def accTile (f : Nat → List Prod1 → Nat × BitVec 8) (rows : List (List Nat)) (as_ bs : List (List Num)) :
    List (List Nat) × BitVec 8 :=
  let z := List.zipWith (fun r a => accRow f r a bs) rows as_
  (z.map fun x => x.1, z.foldl (fun fl x => fl ||| x.2) 0)

/-! Operands of a chunk as values. -/

/-- What a read of operands gives: the values, whether a pattern was bad, and the lowest address out of range. -/
structure Part where
  ch : Chunk
  oor : Option Nat := none
  flags : BitVec 8 := 0

def toNums (ctx : Ctx) (f : Fmt) (l : List (List Nat)) : List (List Num) := l.map fun r => r.map (decodeElem (elemOf [ctx.fmta] f))

/-- Scales of an MX operand for the values at `ks` of each stored row (R168): one byte per 32 elements. -/
def readScales (s : State) (owner : Nat) (w : Word) (k : Nat) (ks : List Nat) : Ret (List (List Nat) × Option Nat) :=
  let base := owAddr w + 64 * owStride w
  readRows s owner w ((List.range 64).map fun r => base + r * (k / 32)) (ks.map fun x => x / 32) 8

/-- Values with their block scales. -/
def scaled2 (xs : List (List Num)) (ss : List (List Nat)) : List (List Num) :=
  List.zipWith (fun x y => List.zipWith (fun v c => (v.mul (scaleNum c)).1) x y) xs ss

/-- 64 lines of an operand along k as values, scales applied. -/
def operandLines (s : State) (owner : Nat) (w : Word) (inRow : Bool) (ctx : Ctx) (f : Fmt) (k : Nat) (ks : List Nat) :
    Ret (List (List Num) × Option Nat) :=
  (readLines s owner w inRow ks f.width).bind fun x s =>
    if f.isMx then
      (readScales s owner w k ks).bind fun y s => .ok (scaled2 (toNums ctx f x.1) y.1, lowerOf x.2 y.2) s
    else .ok (toNums ctx f x.1, x.2) s

def chunkPlain (s : State) (x : SeqOp) (a b : Word) (f : Fmt) (ks : List Nat) : Ret Part :=
  (operandLines s x.aCell a (!owTr a) x.ctx f x.k ks).bind fun p s =>
    (operandLines s x.bCell b (owTr b) x.ctx f x.k ks).bind fun q s =>
      .ok { ch := { a := p.1, b := q.1 }, oor := lowerOf p.2 q.2 } s

/-- Rows of A gathered by indices (R180). -/
def chunkGather (s : State) (x : SeqOp) (a b : Word) (f : Fmt) (idx ks : List Nat) : Ret Part :=
  (readRows s x.aCell a (idx.map fun i => owRow a i % 2 ^ 20) ks f.width).bind fun p s =>
    (operandLines s x.bCell b (owTr b) x.ctx f x.k ks).bind fun q s =>
      .ok { ch := { a := toNums x.ctx f p.1, b := q.1 }, oor := lowerOf p.2 q.2 } s

/-! Structured sparsity (R181). -/

def patN : Pat → Nat | .p24 => 2 | .p14 => 1 | .p48 => 4
def patM : Pat → Nat | .p24 => 4 | .p14 => 4 | .p48 => 8

/-- Metadata bits per group. -/
def patG (p : Pat) : Nat := patN p * Nat.log2 (patM p)

/-- Bytes of a row's metadata. -/
def patBytes (p : Pat) (k : Nat) : Nat := (k / patM p * patG p + 63) / 64 * 8

def rises (l : List Nat) : Bool :=
  match l with
  | x :: y :: r => decide (x < y) && rises (y :: r)
  | _ => true

/-- The positions of group `g` in a row's bit string; none where they do not rise. -/
def positions (p : Pat) (bits g : Nat) : Option (List Nat) :=
  let l := Nat.log2 (patM p)
  let ps := (List.range (patN p)).map fun t => bits / 2 ^ (g * patG p + t * l) % 2 ^ l
  if rises ps then some ps else none

/-- The row of B that stored value `q` of a row multiplies. -/
def sparseRow (p : Pat) (bits q : Nat) : Option Nat :=
  (positions p bits (q / patN p)).map fun ps => q / patN p * patM p + ps.getD (q % patN p) 0

/-- A row's bits of metadata, zero beyond the carve-out, without swizzle. -/
def metaRows (s : State) (owner maddr : Nat) (p : Pat) (k : Nat) : Ret (List Nat × Option Nat) :=
  let n := patBytes p k
  (readRows s owner 0 ((List.range 64).map fun i => maddr + i * n) (List.range n) 8).bind fun x s =>
    .ok (x.1.map (packElems 8), x.2) s

def chunkSparse (s : State) (x : SeqOp) (a b maddr : Word) (f : Fmt) (p : Pat) (qs : List Nat) : Ret Part :=
  (metaRows s x.aCell maddr.toNat p (owK a)).bind fun m s =>
    let at_ := m.1.map fun bits => qs.map fun q => (q, sparseRow p bits q)
    let used := ((List.range (owK a)).filter fun k => at_.any fun r => r.any fun y => y.2 == some k)
    (readRows s x.aCell a ((List.range 64).map (owRow a)) qs f.width).bind fun ac s =>
      (operandLines s x.bCell b (owTr b) x.ctx f x.k used).bind fun bc s =>
        let slot (k : Nat) : Nat := (used.takeWhile fun u => u != k).length
        let good := at_.map fun r => r.filterMap fun y => y.2.map slot
        .ok
          { ch :=
              { a := List.zipWith (fun vs r => (List.zip vs r).filterMap fun y => if y.2.2.isSome then some y.1 else none)
                  (toNums x.ctx f ac.1) at_,
                perRow := good.map fun ixs => bc.1.map fun col => ixs.map fun i => col.getD i (.zero false) },
            oor := lowerOf m.2 (lowerOf ac.2 bc.2),
            flags := flagIf (at_.any fun r => r.any fun y => y.2.isNone) flagSPMETA } s

/-! Complex products (R198). -/

/-- The element format of `mma.c`, from CXF of SDA. -/
def cxfFmt (ctx : Ctx) : Fmt := match ctx.sda.toNat / 2 ^ 13 with | 0x32 => .ce4m3 | 0x31 => .cfp16 | _ => .cbf16

def cxBins (z : Bsz) : Nat := Nat.min (z.size / 2) 64

/-- First slot of a tile's columns. -/
def cxBase (ctx : Ctx) : Nat := 64 * (ctx.sdb.toNat / 2 ^ 21)

def cxSplit (ctx : Ctx) (code : Nat) : Num × Num :=
  let f := cxfFmt ctx
  let h := f.width / 2
  (decodeElem (elemOf [] f) (code % 2 ^ h), decodeElem (elemOf [] f) (code / 2 ^ h))

/-- The real and imaginary terms of one product: slot 0 holds two real bins. -/
def cxTerms (real0 : Bool) (a x : Num × Num) : List Prod1 × List Prod1 :=
  if real0 then ([a.1.mul x.1], [a.2.mul x.2])
  else ([a.1.mul x.1, (a.2.neg).mul x.2], [a.1.mul x.2, a.2.mul x.1])

/-- Complex values as their parts in a row, and back. -/
def flatParts (l : List (Num × Num)) : List Num := (l.map fun y => [y.1, y.2]).flatten

def pairParts (l : List Num) : List (Num × Num) :=
  match l with
  | x :: y :: r => (x, y) :: pairParts r
  | _ => []

/-- Operands of `mma.c` for the values at `ks`. -/
def chunkComplex (s : State) (x : SeqOp) (a b : Word) (z : Bsz) (ks : List Nat) : Ret Part :=
  let l := cxBins z
  let wd := (cxfFmt x.ctx).width
  let es := (ks.map fun k => upFrom (k * l) l).flatten
  (readRows s x.aCell a ((List.range 64).map (owRow a)) es wd).bind fun p s =>
    (readRows s x.bCell b (ks.map (owRow b)) (List.range 64) wd).bind fun q s =>
      .ok { ch := { a := p.1.map fun r => flatParts (r.map (cxSplit x.ctx)),
                    b := (transpose 64 q.1).map fun r => flatParts (r.map (cxSplit x.ctx)) },
            oor := lowerOf p.2 q.2 } s

/-- One chunk of `mma.c` on the tiles of real and imaginary parts. -/
def cxAccumulate (ctx : Ctx) (z : Bsz) (kind : Acc) (short : Bool) (ch : Chunk) (re im : List (List Nat)) :
    (List (List Nat) × List (List Nat)) × BitVec 8 :=
  let l := cxBins z
  let cell (row : List (Num × Num)) (c wr wi : Nat) (col : List (Num × Num)) : (Nat × BitVec 8) × (Nat × BitVec 8) :=
    let t := c % l
    let own := (List.range col.length).map fun k => row.getD (k * l + t) (.zero false, .zero false)
    let ts := List.zipWith (cxTerms (cxBase ctx + t == 0)) own col
    (accOne kind short wr (ts.map fun y => y.1).flatten, accOne kind short wi (ts.map fun y => y.2).flatten)
  let rows := List.zipWith (fun row (w : List Nat × List Nat) =>
    List.zipWith (fun c (y : (Nat × Nat) × List (Num × Num)) => cell row c y.1.1 y.1.2 y.2) (List.range 64)
      (List.zip (List.zip w.1 w.2) (ch.b.map pairParts))) (ch.a.map pairParts) (List.zip re im)
  ((rows.map fun r => r.map fun y => y.1.1, rows.map fun r => r.map fun y => y.2.1),
    rows.foldl (fun fl r => r.foldl (fun fl y => fl ||| y.1.2 ||| y.2.2) fl) 0)

/-! Steps (R174). -/

def SeqOp.note (x : SeqOp) (fl : BitVec 8) (oor : Option Nat) : SeqOp :=
  { x with flags := x.flags ||| fl, oor := lowerOf x.oor oor }

/-- The checksum rows of `mma.ck` after a chunk (R179). -/
def checksums (short : Bool) (rows : List (List Nat)) (as_ bs : List (List Num)) : List (List Nat) × BitVec 8 :=
  let n := (as_.getD 0 []).length
  let one (l : List Num) : Num × BitVec 8 :=
    let z := chunkSum false (l.map fun v => (v, false))
    let r := round z.1 Elem.fp32 .rne 0
    (decodeElem Elem.fp32 r.1, r.2 ||| flagIf z.2 flagINVALID)
  let u := (List.range n).map fun k => one (as_.map fun r => r.getD k (.zero false))
  let v := (List.range n).map fun k => one (bs.map fun r => r.getD k (.zero false))
  let r0 := accRow (accOne .exact short) (rows.getD 0 []) (u.map fun x => x.1) bs
  let r1 := accRow (accOne .exact short) (rows.getD 1 []) (v.map fun x => x.1) as_
  (r0.1 :: r1.1 :: rows.drop 2, (u ++ v).foldl (fun fl x => fl ||| x.2) (r0.2 ||| r1.2))

/-- The rows a chunk accumulates into: the tile, or the partial tile apart of a K split. -/
def SeqOp.target (x : SeqOp) (c : Cell) : List (List Nat) := if x.apart then tileWords x.part else c.tileRows x.acc

/-- Put accumulated rows back. -/
def putRows (s : State) (cell : Nat) (x : SeqOp) (rows : List (List Nat)) : State × SeqOp :=
  if x.apart then (s, { x with part := wordsTile rows }) else (s.modCell cell fun c => c.setRows x.acc rows, x)

/-- One chunk of a real product. -/
def realChunk (s : State) (cell : Nat) (x : SeqOp) (f : Fmt) (short ck : Bool) (ch : Chunk) : Ret SeqOp :=
  (if x.apart then .ok () s else meetTile s cell x.acc 0 4096).bind fun _ s =>
    let kind := accKind f
    let rows := x.target (s.cell cell)
    let z :=
      if ch.perRow.isEmpty then accTile (accOne kind short) rows ch.a ch.b
      else
        let y := List.zipWith (fun r (p : List Num × List (List Num)) => accRow (accOne kind (short || p.1.isEmpty)) r p.1 p.2) rows
          (List.zip ch.a ch.perRow)
        (y.map fun x => x.1, y.foldl (fun fl x => fl ||| x.2) 0)
    let p := putRows s cell x z.1
    let x := p.2.note z.2 none
    if ck then
      (meetTile p.1 cell (x.acc + 1) 0 128).bind fun _ s =>
        let w := checksums short ((s.cell cell).tileRows (x.acc + 1)) ch.a ch.b
        .ok (x.note w.2 none) (s.modCell cell fun c => c.setRows (x.acc + 1) w.1)
    else .ok x p.1

/-- The operands of an instruction for the values `k0` to `k1 - 1`. -/
def readPart (s : State) (x : SeqOp) (k0 k1 : Nat) : Ret Part :=
  let ks := upFrom k0 (k1 - k0)
  match x.op with
  | .mma _ a b f | .coop a b f => chunkPlain s x a b f ks
  | .gather a b f idx => chunkGather s x a b f idx ks
  | .sparse a b m f p => chunkSparse s x a b m f p ks
  | .complex a b z => chunkComplex s x a b z ks
  | _ => .ok { ch := {} } s

/-- Further values of a chunk after those read before. -/
def Chunk.join (p q : Chunk) : Chunk :=
  if p.a.isEmpty then q
  else { a := List.zipWith (· ++ ·) p.a q.a, b := List.zipWith (· ++ ·) p.b q.b,
         perRow := List.zipWith (List.zipWith (· ++ ·)) p.perRow q.perRow }

/-- Accumulate a chunk that is complete. -/
def accChunk (s : State) (cell : Nat) (x : SeqOp) (short : Bool) (ch : Chunk) : Ret SeqOp :=
  match x.op with
  | .mma ck _ _ f => realChunk s cell x f short ck ch
  | .coop _ _ f | .gather _ _ f _ | .sparse _ _ _ f _ => realChunk s cell x f short false ch
  | .complex _ _ z =>
    (meetTile s cell x.acc 0 8192).bind fun _ s =>
      let c := s.cell cell
      let kind : Acc := if cxfFmt x.ctx = .ce4m3 then .exact else .cut
      let y := cxAccumulate x.ctx z kind short ch (c.tileRows x.acc) (c.tileRows (x.acc + 1))
      .ok (x.note y.2 none) (s.modCell cell fun c => (c.setRows x.acc y.1.1).setRows (x.acc + 1) y.1.2)
  | _ => .ok x s

/-- Read the values of k up to `upTo` and accumulate every chunk that is complete; the operands of the chunk still open are kept
(R174). -/
def runChunks (fuel : Nat) (s : State) (cell : Nat) (x : SeqOp) (size upTo : Nat) : Ret SeqOp :=
  match fuel with
  | 0 => .ok x s
  | fuel + 1 =>
    let k1 := Nat.min x.k (x.done + size)
    let hi := Nat.min k1 upTo
    if x.read < hi then
      (readPart s x x.read hi).bind fun p s =>
        let ch := x.part0.join p.ch
        let x := { x.note p.flags p.oor with read := hi }
        if hi = k1 then
          (accChunk s cell x (decide (k1 - x.done < size)) ch).bind fun x s =>
            runChunks fuel s cell { x with done := k1, part0 := {} } size upTo
        else .ok { x with part0 := ch } s
    else .ok x s

/-- The chunk size of an instruction that multiplies; none for the others. -/
def SeqOp.chunk (x : SeqOp) : Option Nat :=
  match x.op with
  | .mma _ _ _ f | .coop _ _ f | .gather _ _ f _ | .sparse _ _ _ f _ => some (chunkSize (accKind f))
  | .complex _ _ _ => some (if cxfFmt x.ctx = .ce4m3 then 64 else 8)
  | _ => none

/-- Replace lines of a list from a place. -/
def splice {α : Type} (old new : List α) (at_ : Nat) : List α := old.take at_ ++ new ++ old.drop (at_ + new.length)

/-- A step of `mld`: 16 stored rows, rows or columns of the tile (R176). -/
def stepLoad (s : State) (cell : Nat) (x : SeqOp) (w : Word) : Ret SeqOp :=
  (readRows s cell w ((upFrom x.done 16).map (owRow w)) (List.range 64) 32).bind fun y s =>
    let rows := (s.cell cell).tileRows x.acc
    let rows := if owTr w then List.zipWith (fun r (n : List Nat) => splice r n x.done) rows (transpose 64 y.1) else splice rows y.1 x.done
    let s := s.modCell cell fun c =>
      let c := c.setRows x.acc rows
      if owTr w then (if x.done = 48 then c.freshTile x.acc 0 4096 else c) else c.freshTile x.acc (64 * x.done) 1024
    .ok ({ x with done := x.done + 16 }.note 0 y.2) s

/-- The bytes of a stored row of elements of `wd` bits, masked writes for those inside the carve-out, and the lowest address
beyond it. -/
def storeRow (c : Cell) (w : Word) (r wd : Nat) (vals : List Nat) : List (Nat × Byte × Byte) × Option Nat :=
  let bs := leBytes (64 * wd / 8) (packElems wd vals)
  let ps := (upFrom (owRow w r) (64 * wd / 8)).map (swizzle w)
  (((List.zip ps bs).filter fun x => decide (x.1 < c.limC)).map fun x => (x.1, x.2, 0xFF), lowest (ps.filter fun a => decide (c.limC ≤ a)))

def SeqOp.stored (x : SeqOp) (c : Cell) (w : Word) (wd : Nat) (rows : List (List Nat)) : SeqOp :=
  let z := (List.zip (upFrom x.done rows.length) rows).map fun y => storeRow c w y.1 wd y.2
  { x with rows := x.rows ++ (z.map fun y => y.1).flatten, done := x.done + rows.length,
           oor := z.foldl (fun a y => lowerOf a y.2) x.oor }

/-- Lines `lo` to `lo + n - 1` of a tile, columns where they are stored by columns. -/
def linesOf {α : Type} [Inhabited α] (cols : Bool) (rows : List (List α)) (lo n : Nat) : List (List α) :=
  if cols then (upFrom lo n).map fun j => rows.map fun r => r.getD j default else (rows.drop lo).take n

/-- Meet the check bits of the lines a step stores: its rows, or for columns every row. -/
def meetLines (s : State) (cell : Nat) (x : SeqOp) (w : Word) (n : Nat) : Ret Unit :=
  let lo := if owTr w then 0 else 64 * x.done
  let len := if owTr w then 4096 else 64 * n
  (meetTile s cell x.acc lo len).bind fun _ s => if n = 8 then meetTile s cell (x.acc + 1) lo len else .ok () s

def stepSave (s : State) (cell : Nat) (x : SeqOp) (w : Word) : Ret SeqOp :=
  (meetLines s cell x w 16).bind fun _ s =>
    let c := s.cell cell
    .ok (x.stored c w 32 (linesOf (owTr w) (c.tileRows x.acc) x.done 16)) s

/-- The random numbers of `n` generator steps. -/
def draws (n : Nat) (g : BitVec 32) : List Nat :=
  match n with
  | 0 => []
  | n + 1 => (genStep g).toNat / 2 ^ 20 :: draws n (genStep g)

/-- The value of an accumulator word. -/
def wordNum (ty : Bool) (v : Nat) : Num := if ty then .ofInt (Int.bmod v (2 ^ 32)) else decodeElem Elem.fp32 v

/-- Round every word of a tile with its own random number. -/
def roundTile (ty : Bool) (f : Elem) (mode : Rnd) (rows rs : List (List Nat)) : List (List (Nat × BitVec 8)) :=
  List.zipWith (fun r n => List.zipWith (fun v z => round (wordNum ty v) f mode z) r n) rows rs

/-- Generator steps of an `mdrain`: none but under RST, one for each part of each element in row-major order (R177, R200). -/
def drainDraws (mode : Rnd) (parts : Nat) (g : BitVec 32) : List Nat :=
  if mode = .rst then draws (4096 * parts) g else List.replicate (4096 * parts) 0

/-- Every other entry from one. -/
def everyOther {α : Type} (l : List α) : List α :=
  match l with
  | x :: _ :: r => x :: everyOther r
  | l => l

/-- A step of `mdrain` (R177, R200). Under RST the generator stands after the elements converted so far. -/
def stepDrain (s : State) (cell : Nat) (x : SeqOp) (w : Word) (amax : Bool) (f : Fmt) : Ret SeqOp :=
  let mode := rndOf (field w 58 2)
  let parts := if f.isComplex then 2 else 1
  let n := 16 / parts
  (meetLines s cell x w n).bind fun _ s =>
    let c := s.cell cell
    let e := elemOf [x.ctx.fmta] f
    let x := if x.step = 0 then { x with k := c.genD.toNat } else x
    let ds := drainDraws mode parts (BitVec.ofNat 32 x.k)
    let part (tile : Nat) (ns : List Nat) : List (List (Nat × BitVec 8)) :=
      roundTile x.ty e mode (linesOf (owTr w) (c.tileRows tile) x.done n) (linesOf (owTr w) (rows64 64 ns) x.done n)
    let lines :=
      if parts = 2 then List.zipWith (fun p q => List.zipWith (fun (a b : Nat × BitVec 8) =>
        (a.1 + b.1 * 2 ^ (f.width / 2), a.2 ||| b.2)) p q) (part x.acc (everyOther ds)) (part (x.acc + 1) (everyOther ds.tail))
      else part x.acc ds
    let fl := lines.foldl (fun fl l => l.foldl (fun fl y => fl ||| y.2) fl) 0
    let big := ((linesOf (owTr w) (c.tileRows x.acc) x.done n).flatten.map fun v => v % 2 ^ 31).foldl Nat.max x.big
    let x := { x with flags := x.flags ||| fl, big := if amax then big else x.big }
    let g := genSteps (if mode = .rst then 64 * parts * n else 0) c.genD
    .ok (x.stored c w f.width (lines.map fun l => l.map fun y => y.1)) (s.modCell cell fun c => { c with genD := g })

/-- The work of the step that ends after `cyc` cycles of work. -/
def stepWork (s : State) (cell : Nat) (x : SeqOp) (cyc : Nat) : Ret SeqOp :=
  match x.op with
  | .zero => .ok x (s.modCell cell fun c => (c.setRows x.acc []).freshTile x.acc 0 4096)
  | .load w => stepLoad s cell x w
  | .save w => stepSave s cell x w
  | .drain w am f => stepDrain s cell x w am.isSome f
  | _ =>
    match x.chunk with
    | none => .ok x s
    | some size => runChunks 4096 s cell x size (kAfter (x.ws - x.ramp) x.full x.k cyc)

/-! Joining the partials of a K split (R136, R183). -/

def coOp (s : State) (c ordinal : Nat) : Option SeqOp := (s.cell c).coHead ordinal

/-- One word of a reduction. -/
def joinWord (isInt : Bool) (t p : Nat) : Nat × BitVec 8 :=
  if isInt then clampInt 32 true (Int.bmod t (2 ^ 32) + Int.bmod p (2 ^ 32))
  else
    let y := (decodeElem Elem.fp32 t).add (decodeElem Elem.fp32 p)
    let z := round y.1 Elem.fp32 .rne 0
    (z.1, z.2 ||| flagIf y.2 flagINVALID)

def joinTiles (isInt : Bool) (t p : List (List Nat)) : List (List Nat) × BitVec 8 :=
  let z := List.zipWith (fun a b => List.zipWith (joinWord isInt) a b) t p
  (z.map fun r => r.map fun x => x.1, z.foldl (fun fl r => r.foldl (fun fl x => fl ||| x.2) fl) 0)

/-- The reduction over the members in ascending index. -/
def joinAll (isInt : Bool) (ps : List (List (List Nat))) : List (List Nat) × BitVec 8 :=
  match ps with
  | [] => ([], 0)
  | p :: r => r.foldl (fun a q => let z := joinTiles isInt a.1 q; (z.1, a.2 ||| z.2)) (p, 0)

def Cell.mapHead (c : Cell) (f : SeqOp → SeqOp) : Cell :=
  match c.seqr with
  | [] => c
  | m :: r => { c with seqr := f m :: r }

/-- Join the partials of the members at the end of the work; member 0's partial stands in its tile. -/
def joinParts (s : State) (cs : List Nat) (ordinal : Nat) : State :=
  let ops := cs.filterMap fun c => (coOp s c ordinal).map fun x => (c, x)
  if ops.length = cs.length ∧ (ops.all fun x => x.2.split && !x.2.joined && x.2.done == x.2.k) then
    let isInt := match ops with
      | x :: _ => match x.2.op with | .coop _ _ f => f.isInt | _ => false
      | [] => false
    let z := joinAll isInt (ops.map fun x => x.2.target (s.cell x.1))
    cs.foldl (fun s c => s.modCell c fun y => y.mapHead fun x =>
      { x with part := wordsTile z.1, joined := true, flags := x.flags ||| z.2 }) s
  else s

/-! The end of a step. -/

/-- The flip that CW.INJECT with TGT 00 makes at the end of a step (R205), with fresh check bits. -/
def Cell.stepFlip (c : Cell) (stepNo : Nat) : Cell :=
  let v := c.inject
  if v.getLsbD 63 ∧ v.toNat % 4 = 0 ∧ field v 32 16 = stepNo then
    let loc := field v 8 24
    let t := c.tile (loc / 4096 % 8)
    let e := loc % 4096
    let c := c.setTile (loc / 4096 % 8)
      { t with words := SMap.set 0 t.words e (SMap.get 0 t.words e ^^^ BitVec.ofNat 32 (2 ^ (field v 2 6 % 32))) }
    { c.freshTile (loc / 4096 % 8) e 1 with inject := v &&& 0x7FFFFFFFFFFFFFFF }
  else c

/-- The work of an instruction ends: rows, the joined tile, flags, and the amax update, which a stop from now on leaves in flight (R186,
R288). -/
def finishOp (s : State) (cell : Nat) (x : SeqOp) : State :=
  let s := s.modCell cell fun c =>
    let c := { c with seqr := c.seqr.tail, seqBusy := false, sp := c.sp.merge x.rows }
    let c := if x.split then (c.setTile x.acc { c.tile x.acc with words := x.part }).freshTile x.acc 0 4096 else c
    let c := if x.flags = 0 then c else c.setFlags (s.now + 1) x.flags
    match x.oor with
    | some a => c.setOOR (s.now + 1) a
    | none => c
  match x.op with
  | .drain _ (some (a, place)) _ =>
    let due := x.ws + x.n + 24
    { ({ s with cur := cell }.modMe fun c => { c with flagsAt := Nat.max c.flagsAt due }).addAccessAt x.pc s.now 8 .cb true 0 due
        (.amo 7 a false (BitVec.ofNat 64 x.big) 0 0 place 0) with cur := s.cur }
  | _ => s

/-- Members of the set of a cell. -/
def State.setOf (s : State) (cell : Nat) : List Nat :=
  match (s.dom (s.cell cell).dom).firing (s.cell cell).firing with
  | some f => f.cells
  | none => [cell]

/-- After a step: hold where a halt waits for the boundary, on the cell or on a partner; keep pace with the others. -/
def boundary (s : State) (cell : Nat) : State :=
  let x := s.cell cell
  match x.seqr with
  | [] => if x.run = .held then s.modCell cell fun c => { c with seqHeld := some (s.now + 1) } else s
  | m :: _ =>
    let co := (x.coHead m.ordinal).isSome
    if x.run = .held ∨ (co ∧ coHeld s (s.setOf cell) m.ordinal) then
      s.modCell cell fun c => { c with seqHeld := some (s.now + 1) }
    else if co then
      armSeq (s.modCell cell fun c => { c with seqHeld := some (s.now + 1) }.joinCo m.ordinal (coStart s (s.setOf cell) m.ordinal)) cell
    else armSeq s cell

/-- A step of the sequencer ends, at the end of its last cycle (R174): what waits for it issues in the next at the earliest. One that
meets a fault reaches its end too, so a flip armed for it is made (R205). -/
def execMatrixStepEnd (cell : Nat) (s : State) : Out :=
  .next (match (s.cell cell).seqr with
    | [] => s.modCell cell fun c => { c with seqBusy := false }
    | m :: _ =>
      let live := decide ((s.cell cell).run ≠ .idle)
      let cyc := Nat.min (16 * (m.step + 1)) m.n
      match stepWork s cell m cyc with
      | .trap cause v s =>
        let s := s.modCell cell fun c => { c.stepFlip c.stepNo with seqBusy := false, stepNo := c.stepNo + 1 }
        if live then trapAt (s.modCell cell fun c => { c with sp := c.sp.merge m.rows }) cell m.pc cause v
        else s.modCell cell fun c => c.settle
      | .ok m' s =>
        let s := s.modCell cell fun c =>
          { c.mapHead fun _ => { m' with step := m.step + 1 } with seqBusy := false, t := Nat.max c.t (s.now + 1) }
        let s := if cyc = m.n ∧ m.split then joinParts s (s.setOf cell) m.ordinal else s
        let s := match (s.cell cell).seqr with
          | x :: _ => if cyc = m.n then finishOp s cell x else s
          | [] => s
        let s := s.modCell cell fun c => { c.stepFlip c.stepNo with stepNo := c.stepNo + 1 }
        if live then armPub (endWait (boundary s cell) cell) cell else s.modCell cell fun c => c.settle)

/-! Issue (R169, R172). -/

/-- A check of an issue. -/
def need (s : State) (ok : Bool) (c : Cause) (v : Word) : Ret Unit := Ret.need s ok c v

/-- Check 3 of R169: the first of an address and a stride that is no multiple of 8. -/
def owAlign (s : State) (w : Word) : Ret Unit :=
  if owAddr w % 8 ≠ 0 then .trap .align (BitVec.ofNat 64 (owAddr w)) s
  else if owStride w % 8 ≠ 0 then .trap .align (BitVec.ofNat 64 (owStride w)) s
  else .ok () s

/-- Values in a packing group (R123, R168). -/
def packGroup (f : Fmt) : Nat := match f.width with | 4 => 2 | 6 => 4 | _ => 1

/-- Check 4 of R169: the geometry of R168. `ka` counts the values a stored row of A holds along k, `k` those of B. -/
def geometryOk (a b : Word) (f : Fmt) (ka k : Nat) : Bool :=
  (owTr a || ka % packGroup f == 0) && (!owTr b || k % packGroup f == 0) &&
  (!f.isMx || (!owTr a && owTr b && k % 32 == 0))

/-- Checks 5 to 7 for the tiles of a real product. -/
def tileCheck (s : State) (ws : Word) (f : Fmt) (acc : Nat) (ck : Bool) : Ret Unit :=
  let t := (s.me.tile acc).info
  let u := (s.me.tile (acc + 1)).info
  (need s (ffHolds s.me.ffWords f) .fmt ws).bind fun _ s =>
    (need s (t.ty == f.isInt && !(ck && u.ty)) .fmt ws).bind fun _ s =>
      need s (t.tag == 0 && !(ck && u.tag != 0)) .domain ws

/-- Hand an instruction to the sequencer: its times by R172 and R173. -/
def handOver (s : State) (x : SeqOp) (tiles : List Nat) (multiplies : Bool) : State :=
  let s := if multiplies then requestRamp s s.cur else s
  let ramp := if multiplies then s.me.ramp.getD s.now else 0
  let ws := Nat.max (s.now + 4) ramp
  let n := if multiplies then workCycles (ws - ramp) x.full + x.extra else x.n
  let x := { x with ws := ws, n := n, ramp := ramp, pc := s.me.pc, issued := s.now, ctx := s.me.context,
                    ty := (s.me.tile x.acc).info.ty, aCell := s.cur, bCell := s.cur }
  let s := s.modMe fun c =>
    let c := (unitSeq :: tiles.map resTile).foldl (fun c r => c.setReady r (ws + n - 4)) c
    { c with seqr := c.seqr ++ [x] }
  armSeq s s.cur

def newOp (op : MatOp) (acc : Nat) : SeqOp := { op := op, acc := acc, ctx := {}, pc := 0, issued := 0 }

/-- A product with its operand words checked: full cycles from the values of A along k. -/
def handProduct (s : State) (op : MatOp) (acc : Nat) (f : Fmt) (k extra : Nat) (tiles : List Nat) : State :=
  handOver s { newOp op acc with full := fullCycles s.me.context f k, k := k, extra := extra } tiles true

/-- Checks 1 to 3 of R169 on the words of a product: `tr0` where A must have TR = 0, `ks` where KS may stand. -/
def readWords (s : State) (rs : List SReg) (ks trA trB : Bool) : Ret Srcs :=
  (readClean s rs).bind fun x s =>
    (need s (owOk (x.get 0) true ks false trA) .illegal (x.get 0)).bind fun _ s =>
      (need s (owOk (x.get 1) false false false trB) .illegal (x.get 1)).bind fun _ s =>
        (owAlign s (x.get 0)).bind fun _ s => (owAlign s (x.get 1)).bind fun _ s => .ok x s

/-- `mma` and `mma.ck` (R178, R179). -/
def runMma (ws : List Nat) (ck : Bool) (acc : BitVec 3) (a b : SReg) (f : Fmt) (s : State) : Ret Unit :=
  (readWords s [a, b] false false false).bind fun x s =>
    let k := owK (x.get 0)
    (need s (geometryOk (x.get 0) (x.get 1) f k k) .fmt (wordsVal ws)).bind fun _ s =>
      (tileCheck s (wordsVal ws) f acc.toNat ck).bind fun _ s =>
        .ok () (handProduct s (.mma ck (x.get 0) (x.get 1) f) acc.toNat f k (if ck then 8 else 0)
          (if ck then [acc.toNat, acc.toNat + 1] else [acc.toNat]))

def execMma (g : PReg) (acc : BitVec 3) (a b : SReg) (fmt : Fmt) (s : State) : Out :=
  issue s g 1 1 (runMma (encode (.mma g acc a b fmt)) false acc a b fmt)

def execMmaCk (g : PReg) (acc : BitVec 3) (a b : SReg) (fmt : Fmt) (s : State) : Out :=
  issue s g 1 1 (runMma (encode (.mmaCk g acc a b fmt)) true acc a b fmt)

/-- `mma.g` (R180). -/
def runMmaG (ws : List Nat) (acc : BitVec 3) (a b : SReg) (f : Fmt) (vi : VReg) (s : State) : Ret Unit :=
  (readWords s [a, b] false true false).bind fun x s =>
    let k := owK (x.get 0)
    (need s (geometryOk (x.get 0) (x.get 1) f k k) .fmt (wordsVal ws)).bind fun _ s =>
      (tileCheck s (wordsVal ws) f acc.toNat false).bind fun _ s =>
        (meetRegs s (vKeys [vi] 0)).bind fun _ s =>
          .ok () (handProduct s (.gather (x.get 0) (x.get 1) f (elems 32 64 (s.me.getV vi))) acc.toNat f k 16 [acc.toNat])

def execMmaG (g : PReg) (acc : BitVec 3) (a b : SReg) (fmt : Fmt) (vi : VReg) (s : State) : Out :=
  issue s g 2 1 (runMmaG (encode (.mmaG g acc a b fmt vi)) acc a b fmt vi)

/-- `mma.sp` (R181). -/
def runMmaSp (ws : List Nat) (acc : BitVec 3) (a b c : SReg) (f : Fmt) (p : Pat) (s : State) : Ret Unit :=
  (readWords s [a, b, c] false true false).bind fun x s =>
    let k := owK (x.get 0)
    let kc := k * patN p / patM p
    let m := x.get 2
    (need s (decide (m.toNat % 8 = 0)) .align m).bind fun _ s =>
      (need s (k % patM p == 0 && geometryOk (x.get 0) (x.get 1) f kc k) .fmt (wordsVal ws)).bind fun _ s =>
        (tileCheck s (wordsVal ws) f acc.toNat false).bind fun _ s =>
          .ok () (handProduct s (.sparse (x.get 0) (x.get 1) m f p) acc.toNat f kc 0 [acc.toNat])

def execMmaSp (g : PReg) (acc : BitVec 3) (a b : SReg) (fmt : Fmt) (c : SReg) (pat : Pat) (s : State) : Out :=
  issue s g 2 1 (runMmaSp (encode (.mmaSp g acc a b fmt c pat)) acc a b c fmt pat)

/-! `mma.co` (R183). -/

/-- The format another member waits with at this ordinal, if it differs. -/
def coDiffers (s : State) (f : Firing) (ordinal : Nat) (fmt : Fmt) : Bool :=
  f.cells.any fun c => (s.cell c).seqr.any fun x => match x.op with
    | .coop _ _ g => x.ordinal == ordinal && x.ws == 0 && g != fmt
    | _ => false

def coWaits (s : State) (c ordinal : Nat) : Option SeqOp :=
  (s.cell c).seqr.find? fun x => match x.op with
    | .coop _ _ _ => x.ordinal == ordinal && x.ws == 0
    | _ => false

/-- Every member of a firing's set, those that a bad entry keeps idle among them (R109, R183). -/
def Firing.members (f : Firing) : List Nat := upFrom f.base (2 ^ f.logsz)

/-- The instruction waits at the rendezvous; the last member to come starts it. -/
def handCoop (s : State) (f : Firing) (op : MatOp) (acc : Nat) : State :=
  let s := requestRamp s s.cur
  let n := s.me.coNo
  let x := { newOp op acc with pc := s.me.pc, issued := s.now, ctx := s.me.context, ramp := s.me.ramp.getD s.now, ordinal := n }
  let s := s.modMe fun c => { c with seqr := c.seqr ++ [x], coNo := n + 1 }
  if f.members.all fun c => (coWaits s c n).isSome then s.sched s.now (.mmaCoRendezvous f.dom f.id n) else s

def runMmaCo (ws : List Nat) (acc : BitVec 3) (a b : SReg) (f : Fmt) (s : State) : Ret Unit :=
  let set := match s.myFiring with
    | some fr => if 0 < fr.logsz then some fr else none
    | none => none
  if set.isSome ∧ (28 ≤ a.toNat ∨ 28 ≤ b.toNat) then .trap .illegal (wordsVal ws) s
  else
    (readWords s [a, b] true false false).bind fun x s =>
      let k := owK (x.get 0)
      (need s (geometryOk (x.get 0) (x.get 1) f k k) .fmt (wordsVal ws)).bind fun _ s =>
        (tileCheck s (wordsVal ws) f acc.toNat false).bind fun _ s =>
          match set with
          | none => .ok () (handProduct s (.mma false (x.get 0) (x.get 1) f) acc.toNat f k 0 [acc.toNat])
          | some fr =>
            (need s (!coDiffers s fr s.me.coNo f) .fmt (wordsVal ws)).bind fun _ s =>
              .ok () (handCoop s fr (.coop (x.get 0) (x.get 1) f) acc.toNat)

def execMmaCo (g : PReg) (acc : BitVec 3) (a b : SReg) (fmt : Fmt) (s : State) : Out :=
  issue s g 1 1 (runMmaCo (encode (.mmaCo g acc a b fmt)) acc a b fmt)

/-- What a member does in the product: its operand cells by its place in the mesh, K and the times. -/
def SeqOp.coStarts (x : SeqOp) (c base size ws ramp : Nat) (split : Bool) (kMax : Nat) (aOf bOf : Nat → Word) : SeqOp :=
  let cs := Nat.min size 4
  let ix := c - base
  let ac := if split then c else base + ix / cs * cs
  let bc := if split then c else base + ix % cs
  match x.op with
  | .coop _ _ f =>
    let k := owK (aOf ac)
    let full := fullCycles x.ctx f (if split then kMax else k)
    let extra := if split then 256 + 16 * (size - 1) else 0
    { x with op := .coop (aOf ac) (bOf bc) f, k := k, full := full, extra := extra, ws := ws, ramp := ramp,
             n := workCycles (ws - ramp) full + extra, aCell := ac, bCell := bc, split := split, apart := split && ix != 0 }
  | _ => x

def coWord (first : Bool) (x : Option SeqOp) : Word :=
  match x with
  | some y => match y.op with
    | .coop a b _ => if first then a else b
    | _ => 0
  | none => 0

/-- The work of the m-th `mma.co` of every member starts together. -/
def execMmaCoRendezvous (dom firing ordinal : Nat) (s : State) : Out :=
  .next (match (s.dom dom).firing firing with
    | none => s
    | some f =>
      let cs := f.members
      let ops := cs.filterMap fun c => coWaits s c ordinal
      if ops.length < cs.length ∨ f.ended then s
      else
        let ramp := maxOf (ops.map fun x => x.ramp)
        let ws := Nat.max (8 + maxOf (ops.map fun x => x.issued + 4)) ramp
        let a (c : Nat) : Word := coWord true (coWaits s c ordinal)
        let b (c : Nat) : Word := coWord false (coWaits s c ordinal)
        let split := owKs (a f.base)
        let kMax := maxOf (cs.map fun c => owK (a c))
        cs.foldl (fun s' c =>
          let s' := s'.modCell c fun y =>
            let seqr := y.seqr.map fun x =>
              if x.ws = 0 ∧ x.ordinal = ordinal then x.coStarts c f.base cs.length ws ramp split kMax a b else x
            let y := { y with seqr := seqr, seqHeld := y.seqHeld.map fun h => Nat.max h ws }
            match seqr.find? fun x => x.ordinal == ordinal && x.ws == ws with
            | some x => (y.setReady unitSeq (ws + x.n - 4)).setReady (resTile x.acc) (ws + x.n - 4)
            | none => y
          armPub (endWait (armSeq s' c) c) c) s)

/-! Accumulator instructions (R175 to R177). -/

def execMz (g : PReg) (acc : BitVec 3) (i32 : Bool) (s : State) : Out :=
  issue s g 1 1 fun s =>
    .ok () (handOver (s.modMe fun c => c.setInfo acc.toNat { ty := i32 }) { newOp .zero acc.toNat with n := 4 } [acc.toNat] false)

/-- Checks 1 to 3 of R169 on the word of an accumulator instruction. -/
def readWord (s : State) (rs : List SReg) (rnd : Bool) : Ret Srcs :=
  (readClean s rs).bind fun x s =>
    (need s (owOk (x.get 0) false false rnd false) .illegal (x.get 0)).bind fun _ s =>
      (owAlign s (x.get 0)).bind fun _ s => .ok x s

def execMld (g : PReg) (acc : BitVec 3) (a : SReg) (i32 : Bool) (s : State) : Out :=
  issue s g 1 1 fun s =>
    (readWord s [a] false).bind fun x s =>
      .ok () (handOver (s.modMe fun c => c.setInfo acc.toNat { ty := i32 }) { newOp (.load (x.get 0)) acc.toNat with n := 64 }
        [acc.toNat] false)

def execMst (g : PReg) (acc : BitVec 3) (a : SReg) (i32 : Bool) (s : State) : Out :=
  issue s g 1 1 fun s =>
    (readWord s [a] false).bind fun x s =>
      (need s ((s.me.tile acc.toNat).info.ty == i32) .fmt (wordsVal (encode (.mst g acc a i32)))).bind fun _ s =>
        .ok () (handOver s { newOp (.save (x.get 0)) acc.toNat with n := 64 } [] false)

/-- The tagged tiles of a drain agree (R200). -/
def drainTags (c : Cell) (acc : Nat) : Bool :=
  let t := (c.tile acc).info
  let u := (c.tile (acc + 1)).info
  acc % 2 == 0 && t == u && !t.ty

/-- Checks 5 to 7 of `mdrain`, then of its amax word (R177, R200). -/
def drainCheck (s : State) (ws : Word) (acc : Nat) (b : SReg) (f : Fmt) : Ret Unit :=
  let t := (s.me.tile acc).info
  (need s (ffHolds s.me.ffWords f) .fmt ws).bind fun _ s =>
    if t.tag = 0 then need s (!f.isComplex && (b == 0 || !t.ty)) .fmt ws
    else need s (f.isComplex && drainTags s.me acc && b == 0) .domain ws

def runMdrain (ws : Word) (acc : BitVec 3) (a b : SReg) (f : Fmt) (s : State) : Ret Unit :=
  (readWord s (if b = 0 then [a] else [a, b]) true).bind fun x s =>
    (drainCheck s ws acc.toNat b f).bind fun _ s =>
      let op := { newOp .zero acc.toNat with n := if f.isComplex then 128 else 64 }
      if b = 0 then .ok () (handOver s { op with op := .drain (x.get 0) none f } [] false)
      else
        (target s b .cb (x.get 1) 4).bind fun t s =>
          match t with
          | .mem sp by0 place =>
            (meetErrors s (s.ram sp) sp by0 4 place).bind fun _ s =>
              .ok () (handOver s { op with op := .drain (x.get 0) (some (by0, place)) f } [] false)
          | .out _ => .ok () s

def execMdrain (g : PReg) (acc : BitVec 3) (a b : SReg) (fmt : Fmt) (s : State) : Out :=
  issue s g 1 1 (runMdrain (wordsVal (encode (.mdrain g acc a b fmt))) acc a b fmt)

/-- `cfgsel` (R182). -/
def execCfgsel (g : PReg) (n : BitVec 2) (s : State) : Out := issue s g 1 1 fun s => .ok () (s.modMe fun c => { c with ctx := n })

end Sys2Proof.Machine
end

