-- ==== Sys2Proof/Machine/Flits.lean ====
section
/-! DEFINITION. Link ports and the flits they send: the ends of a link, replays, injected flips, best-effort traffic (R311, R314,
R323, R324). -/

namespace Sys2Proof.Machine

/-- The port at the other end of a ring link; none of a hub module or a span port, whose other end lies elsewhere. -/
def peerPort (p : Nat) : Option Nat :=
  if 8 ≤ p then none else some (if p % 2 = 0 then 2 * ((p / 2 + 3) % 4) + 1 else 2 * ((p / 2 + 1) % 4))

def portEnds (p : Nat) : List Nat := p :: (peerPort p).toList

/-- Both ends of a link carry traffic. -/
def carrying (s : State) (p : Nat) : Bool := (portEnds p).all fun q => (s.port q).st == 0

/-- The port that sends from one die to another, its ring neighbour. -/
def crossPort (a b : Nat) : Option Nat := if a = b then none else some (if (a + 1) % 4 = b then 2 * a + 1 else 2 * a)

/-- A flit of 256 bytes (R314). -/
def flitBytes : Nat := 256

/-- A flit fails its CRC and is replayed: both are counted at the port that sends it (R324). `at_` is the start of its slot. -/
def Port.replay (x : Port) (at_ : Nat) : Port :=
  { x with retry := satAdd16 x.retry 1, crce := satAdd16 x.crce 1, alert := x.alert || decide (255 ≤ x.retry.toNat),
           replays := if x.replayAt = at_ then x.replays + 1 else 1, replayAt := at_ }

/-- The cycle in which the slot starts that starts now or next. -/
def State.nextSlotAt (s : State) : Nat := s.now + s.toStep

/-- Whether a flip that a cell's `inject` has started waits for a flit of a port (R311). -/
def flipWaits (s : State) (port c : Nat) : Bool :=
  let x := s.cell c
  x.injStarted && x.inject.toNat % 4 == 2 && injectPort (dieOf c) (field x.inject 8 24) == port

/-- The port sends flits; a flip that `inject` has started is made in the flit that it numbers, which is replayed (R311, R324). -/
def sendFlits (s : State) (port n : Nat) : State :=
  (cellKeys s).foldl (fun s c =>
    if flipWaits s port c = false then s
    else if field (s.cell c).inject 8 21 < (s.cell c).injFlits + n then
      (s.modCell c Cell.disarm).modPort port fun y => y.replay s.nextSlotAt
    else s.modCell c fun y => { y with injFlits := y.injFlits + n }) s

/-- The port sends best-effort traffic, of the host or of the supervisor: in how many flits, the manual does not say (log 4). -/
def sendBest (s : State) (port : Nat) : State :=
  if (cellKeys s).any (flipWaits s port) then sendFlits s.tickFree port (Config.flitCount s.free) else s

end Sys2Proof.Machine
end

