-- ==== Sys2Proof/Machine/Lp6.lean ====
section
/-! DEFINITION. LP6 channels: their slots, the requests that take them, the code on each line, and replica marks (R212 to R215,
R222, R253, R309). -/

namespace Sys2Proof.Machine

/-! Commands in a queue. -/

def State.cmd (s : State) (c id : Nat) : Option Cmd := (s.cell c).queue.find? fun (m : Cmd) => m.id == id

def State.modCmd (s : State) (c id : Nat) (f : Cmd → Cmd) : State :=
  s.modCell c fun x => { x with queue := x.queue.map fun (m : Cmd) => if m.id = id then f m else m }

/-- The command at the head of a cell's stream on an engine (R237). -/
def Cell.streamHead (x : Cell) (e : Nat) : Option Cmd := x.queue.find? fun (m : Cmd) => m.eng == e

/-- A command all of whose writes are performed or have their cycle completes at the last of them (R251). -/
def tryFinish (s : State) (c id : Nat) : State :=
  match s.cmd c id with
  | none => s
  | some m =>
    if m.started && m.beats.isEmpty && m.lpWrites == 0 && m.heldAt.isNone && m.finishing.isNone && (m.op != 5 || m.phase == 2)
    then
      let due := Nat.max s.now m.lastWrite
      (s.modCmd c id fun m => { m with finishing := some due }).sched due (.commandCompletion m.eng c)
    else s

/-! The code on a line (R212): two codewords of 32 data bytes, each correcting errors within one byte. -/

/-- Bytes of one codeword that an error touches. -/
def badSymbols (err : BitVec 512) (half : Nat) : Nat :=
  ((upFrom (32 * half) 32).filter fun i => err.toNat / 2 ^ (8 * i) % 256 != 0).length

/-- Meet a line's code: a correctable error is corrected and counted, an uncorrectable one poisons all eight words. -/
def meetLine (d : Die) (line : Nat) : Die :=
  let err := SMap.get 0 d.lineErr line
  if err = 0 then d
  else
    let n0 := badSymbols err 0
    let n1 := badSymbols err 1
    let d := { d with lineErr := SMap.del d.lineErr line }
    if 2 ≤ n0 ∨ 2 ≤ n1 then { d with lp6 := Ram.mark d.lp6 (upFrom (8 * line) 8) }
    else { d with lpc := satAdd16 d.lpc (n0 + n1) }

/-- A line of a die: its 64 bytes and its poisoned words. -/
def readLine (d : Die) (line : Nat) : List Byte × List Nat :=
  (Mem.bytesAt d.lp6.bytes (64 * line) 64, (upFrom 0 8).filter fun w => SMap.get false d.lp6.poison (8 * line + w))

/-- Stored bytes, by place in the tile, that byte `j` of the transposed image of 64 by 64 elements holds (R225). -/
def storedByte (w j : Nat) : Nat :=
  let k := j / (w / 8)
  (k % 64 * 64 + k / 64) * (w / 8) + j % (w / 8)

/-- Line `idx` of the transposed image of the tile at `frame`. -/
def gatherLine (d : Die) (w frame idx : Nat) : List Byte × List Nat :=
  let as := (upFrom (64 * idx) 64).map fun j => frame + storedByte w j
  (as.map fun a => Mem.byte d.lp6.bytes a,
    (upFrom 0 8).filter fun k => ((as.drop (8 * k)).take 8).any fun a => SMap.get false d.lp6.poison (a / 8))

/-- Bytes of a line are written. -/
def writeLine (d : Die) (line : Nat) (bs : List (Nat × Byte × Byte)) (poison : List Nat) : Die :=
  let d := meetLine d line
  { d with lp6 := Ram.mark (d.lp6.merge bs) poison }

/-! Requests. -/

/-- The channel of an address (R212). -/
def lpChannel (a : Nat) : Nat := a / 64 % 8

def onChannel (ch : Nat) (r : LpReq) : Bool := lpChannel r.addr == ch

/-- Slots of a map that two running tables own or more, which only a table-store fault can cause (R214, R315). -/
def twiceOwned (s : State) (maps : Table → SMap (BitVec 512)) (key : Nat) : BitVec 512 :=
  ((upFrom 0 9).foldl (fun (a : BitVec 512 × BitVec 512) p =>
    match (s.dom p).running, (s.dom p).table with
    | true, some t => let o := SMap.get 0 (maps t) key; (a.1 ||| o, a.2 ||| (a.1 &&& o))
    | _, _ => a) (0, 0)).2

/-- Put the channel's next slot on the agenda while requests stand (R213), or slots are owned twice (R214). -/
def armSlot (s : State) (die ch from_ : Nat) : State :=
  let d := s.die die
  if SMap.get false d.slotting ch || (!d.reqs.any (onChannel ch) && twiceOwned s Table.lp6Own (8 * die + ch) == 0) then s
  else
    let t := s.now + from_
    let t := t + { s with now := t }.toStep
    let slot := { s with now := t }.tcyc / 8
    (s.modDie die fun d => { d with slotting := SMap.set false d.slotting ch true }).sched t
      (if slot % 32 = 31 then .lp6Refresh die ch else .lp6Slot die ch)

/-- A request joins its channel. -/
def addReq (s : State) (die : Nat) (r : LpReq) : State :=
  armSlot ({ s with nextId := s.nextId + 1 }.modDie die fun d => { d with reqs := d.reqs ++ [{ r with id := s.nextId }] }) die
    (lpChannel r.addr) 0

/-- Whether a request still serves something: that of a dropped command does not (R254). -/
def reqAlive (s : State) (r : LpReq) : Bool :=
  match r.op with
  | .hostRead | .hostWrite _ => true
  | _ => (s.cmd r.cell r.cmd).isSome

/-- The domains whose active tables own a slot, ascending (R214); a frozen one's serve best-effort traffic (R305). -/
def slotOwners (s : State) (die ch slot : Nat) : List Nat :=
  (upFrom 0 9).filter fun p =>
    match (s.dom p).table with
    | some t => (s.dom p).running && (s.dom p).frozen.isNone && (SMap.get 0 t.lp6Own (8 * die + ch)).getLsbD slot
    | none => false

/-- Insert a request by its ready cycle. -/
def insertReq (l : List LpReq) (r : LpReq) : List LpReq :=
  match l with
  | [] => [r]
  | x :: t => if r.ready < x.ready then r :: x :: t else x :: insertReq t r

def byReady (l : List LpReq) : List LpReq := l.foldl insertReq []

/-- What one slot carries of a list in order: a walk alone, or up to three lines (R213, R223). -/
def slotLoad (l : List LpReq) : List LpReq :=
  match l with
  | [] => []
  | x :: r => if x.op = .walk then [x] else ((x :: r).takeWhile fun y => decide (y.op ≠ .walk)).take 3

/-- Requests that a slot serves (R213, R253): its owner's where it has any ready, otherwise best-effort ones; in a service
slot those of the supervisor, the host and best-effort commands. -/
def slotChoice (l : List LpReq) (owner : Option Nat) (service : Bool) : List LpReq :=
  let own := match owner with
    | some p => l.filter fun (r : LpReq) => r.dom == p && r.cls == LpClass.owned
    | none => []
  if service then slotLoad (l.filter fun (r : LpReq) => r.cls != LpClass.owned || r.dom == 8)
  else if own.isEmpty then slotLoad (l.filter fun (r : LpReq) => r.cls == LpClass.best || (r.cls == LpClass.owned && r.dom == 8))
  else slotLoad own

/-- The first mark in the domains of a list on the frame that holds an address of a die, with its domain (R222). -/
def findMark (ds : SMap Domain) (die a : Nat) : Option (Nat × Mark) :=
  ds.findSome? fun x => (x.2.marks.find? fun (m : Mark) =>
    m.die == die && decide (m.base ≤ a / 4096) && decide (a / 4096 < m.base + m.count)).map fun m => (x.1, m)

/-- Whether a frame that holds an address is marked as a replica (R222). -/
def marked (s : State) (die a : Nat) : Bool := (findMark s.doms die a).isSome

/-- TID and tile in CW.TVAL (R250). -/
def tensorVal (tid tile : Nat) : Nat := tid * 2 ^ 32 + tile % 2 ^ 31

/-- The entry that a walk has put into the translation cache for a tile of a request's tensor, or zero. -/
def reqEntry (s : State) (r : LpReq) (ver : Nat) : Word :=
  (((s.engine r.eng).cache.find? fun x => x.1 == cacheKey r.dom r.tid (r.tile + 2 ^ 31 * ver)).map fun x => x.2).getD 0

/-- The memory controller refuses a write to a marked frame (R222). -/
def refuseWrite (s : State) (die : Nat) (r : LpReq) : State :=
  let pc := (s.cmd r.cell r.cmd).elim 0 fun m => m.pc
  let first := match r.op with
    | .write ((a, _) :: _) _ => a - r.addr
    | _ => 0
  let s := recordFault s r.dom
    { cause := .wprot, write := true, die := die, cluster := clusterOf r.cell, agent := 33, block := (s.cell r.cell).block,
      tid := r.tid, tile := r.tile, offset := 64 * r.idx + first,
      entry := reqEntry s r ((s.cmd r.cell r.cmd).elim 0 fun m => m.dstVer) }
  trapAt s r.cell pc .wprot (BitVec.ofNat 64 (tensorVal r.tid r.tile))

/-- A host's write to a marked frame is refused with a record on the fault ring of the domain whose binding marks it (R222; which
ring, DESIGN CHOICE, log 74). -/
def refuseHost (s : State) (die a : Nat) : State :=
  match findMark s.doms die a with
  | none => s
  | some (d, m) =>
    recordFault s d { cause := .wprot, write := true, die := die, agent := 33, tid := m.tid, tile := m.tile,
                      offset := a - 4096 * m.base }

/-- An access to a host tensor that PCIe completes with an error status: MEMERR of kind 3, with a record (R340, R293). -/
def hostFail (s : State) (r : LpReq) (write : Bool) : State :=
  match s.cmd r.cell r.cmd with
  | none => s
  | some m =>
    let first := match r.op with
      | .write ((a, _) :: _) _ => 64 * r.idx + (a - r.addr)
      | _ => (m.beats.findSome? fun b => match b.src with
          | .tile u p => if u = r.tile ∧ p / 512 = r.idx then some (p / 8) else none
          | _ => none).getD (64 * r.idx)
    let s := recordFault s r.dom
      { cause := .memerr, write := write, die := dieOf r.cell, cluster := clusterOf r.cell, agent := 16 + r.eng % 2,
        block := (s.cell r.cell).block, tid := r.tid, tile := r.tile, offset := first,
        entry := reqEntry s r (if write then m.dstVer else m.srcVer) }
    trapAt s r.cell m.pc .memerr (BitVec.ofNat 64 (3 * 2 ^ 60 + tensorVal r.tid r.tile))

/-- Whether a request is a host's own. -/
def LpReq.ofHost (r : LpReq) : Bool :=
  match r.op with
  | .hostRead | .hostWrite _ => true
  | _ => false

/-- The port by which a die sends what belongs to a request that crosses a link: of the supervisor to a neighbour's memory (R323), or
to and from the host by a hub module (R314). `back` is the way to the cell. -/
def LpReq.sender (r : LpReq) (die : Nat) (back : Bool) : Option Nat :=
  if r.ofHost then (if back then some (8 + die) else none)
  else if r.host then (if back then none else some (8 + dieOf r.cell))
  else if back then crossPort die (dieOf r.cell) else crossPort (dieOf r.cell) die

/-- Whether the ring link that a request needs, if any, carries traffic (R326). -/
def linkUp (s : State) (die : Nat) (r : LpReq) : Bool := r.ofHost || (crossPort (dieOf r.cell) die).all (carrying s)

/-- Best-effort traffic of a request leaves by its port. -/
def sendReq (s : State) (die : Nat) (r : LpReq) (back : Bool) : State := (r.sender die back).elim s (sendBest s)

/-- A request takes the slot that starts now. -/
def placeReq (s : State) (die : Nat) (r : LpReq) : State :=
  let s := sendReq s die r false
  let s := s.modDie die fun d => { d with reqs := d.reqs.filter fun x => x.id != r.id }
  match r.op with
  | .walk =>
    (s.modCmd r.cell r.cmd fun m => { m with walking := some (some (s.now + 40)) }).sched (s.now + 40) (.tileWalk r.eng r.cell)
  | .write _ _ =>
    if !r.host && marked s die r.addr then refuseWrite s die r
    else
      (s.modDie die fun d => { d with inFlight := d.inFlight ++ [r] }).sched (s.now + 112)
        (.lp6Delivery die (lpChannel r.addr) r.id)
  | .hostWrite _ =>
    if marked s die r.addr then refuseHost s die r.addr
    else
      (s.modDie die fun d => { d with inFlight := d.inFlight ++ [r] }).sched (s.now + 112)
        (.lp6Delivery die (lpChannel r.addr) r.id)
  | _ =>
    (s.modDie die fun d => { d with inFlight := d.inFlight ++ [r] }).sched (s.now + 112 + r.extra)
      (.lp6Delivery die (lpChannel r.addr) r.id)

/-- Two active tables own one slot: the higher-numbered one's partition gets a record (R214). -/
def doubleOwned (s : State) (die : Nat) (ps : List Nat) : State :=
  match ps with
  | [] => s
  | p :: r => doubleOwned (recordFault s p { cause := .memerr, tstore := true, die := die, agent := 33 }) die r

/-- A slot of a channel starts (R215). A slot that two tables own brings its record whether or not it serves anything (R214). -/
def execLp6Slot (die ch : Nat) (s : State) : Out :=
  let slot := s.tcyc / 8
  let owners := slotOwners s die ch slot
  let s := doubleOwned s die (owners.drop 1)
  let s := s.modDie die fun d =>
    { d with slotting := SMap.set false d.slotting ch false, reqs := d.reqs.filter (reqAlive s) }
  let ready := byReady ((s.die die).reqs.filter fun r => onChannel ch r && decide (r.ready ≤ s.now) && linkUp s die r)
  let s := (slotChoice ready owners.head? (slot % 32 == 15)).foldl (fun s r => placeReq s die r) s
  .next (armSlot s die ch 1)

/-- A refresh slot carries no line and no walk (R213). -/
def execLp6Refresh (die ch : Nat) (s : State) : Out :=
  .next (armSlot (s.modDie die fun d => { d with slotting := SMap.set false d.slotting ch false }) die ch 1)

/-- A line reaches the engine that asked for it (R215). -/
def deliverLine (s : State) (r : LpReq) (l : List Byte × List Nat) : State :=
  if (s.cmd r.cell r.cmd).isNone then s
  else kick (s.modCmd r.cell r.cmd fun m => { m with lines := m.lines ++ [⟨r.tile, r.idx, l.1, l.2⟩] }) r.eng

/-- A line written is performed, and its command may complete. -/
def lineWritten (s : State) (r : LpReq) : State :=
  tryFinish (s.modCmd r.cell r.cmd fun m => { m with lpWrites := m.lpWrites - 1, lastWrite := Nat.max m.lastWrite s.now })
    r.cell r.cmd

/-- Whether what a slot has read must wait for its link, which does not carry (R326). -/
def linkHolds (s : State) (die : Nat) (r : LpReq) : Bool :=
  !linkUp s die r && match r.op with | .read | .gather _ => true | _ => false

/-- What a slot carried is delivered or performed (R215); a line for a neighbour's cell stays where it is while the link does not
carry. -/
def execLp6Delivery (die _ch id : Nat) (s : State) : Out :=
  match (s.die die).inFlight.find? fun r => r.id == id with
  | none => .next s
  | some r =>
    if linkHolds s die r then .next s
    else
    let s := s.modDie die fun d => { d with inFlight := d.inFlight.filter fun x => x.id != id }
    let s := sendReq s die r true
    let line := r.addr / 64
    .next (match r.op with
      | .read =>
        if r.host then
          if Config.hostError s.free then hostFail s.tickFree r false
          else deliverLine s.tickFree r (Mem.bytesAt s.host (64 * line) 64, [])
        else
          let s := s.modDie die fun d => meetLine d line
          deliverLine s r (readLine (s.die die) line)
      | .gather w =>
        let frame := r.addr - 64 * r.idx
        let lines := ((upFrom (64 * r.idx) 64).map fun j => (frame + storedByte w j) / 64).eraseDups
        let s := s.modDie die fun d => lines.foldl meetLine d
        deliverLine s r (gatherLine (s.die die) w frame r.idx)
      | .write bs poison =>
        if r.host then
          if Config.hostError s.free then hostFail s.tickFree r true
          else lineWritten { s.tickFree with host := Mem.mergeAll s.host bs } r
        else lineWritten (s.modDie die fun d => writeLine d line bs poison) r
      | .walk => s
      | .hostRead =>
        let s := s.modDie die fun d => meetLine d line
        s.modHub fun h => { h with readVal := BitVec.ofNat 2048 (Mem.readN (s.die die).lp6.bytes r.addr 8), readUr := false }
      | .hostWrite v => s.modDie die fun d => writeLine d line (fullBytes r.addr (leBytes 8 v.toNat)) [])

/-- Whether the ring link between a cell's die and another, if they differ, carries traffic (R326). -/
def linkTo (s : State) (c die : Nat) : Bool := (crossPort (dieOf c) die).all (carrying s)

/-- Walks that a link held go on once it carries again (R326). -/
def releaseWalks (s : State) : State :=
  s.cells.foldl (fun s x => [2 * clusterOf x.1, 2 * clusterOf x.1 + 1].foldl (fun s e =>
    match (s.cell x.1).streamHead e with
    | some m =>
      if m.walking.any (fun w => w.any fun t => decide (t ≤ s.now)) ∧ s.isSched (.tileWalk e x.1) = false then
        s.sched s.now (.tileWalk e x.1)
      else s
    | none => s) s) s

/-- Lines that a link held are delivered once it carries again (R326). -/
def releaseLines (s : State) : State :=
  (upFrom 0 4).foldl (fun s die => (s.die die).inFlight.foldl (fun s r =>
    let ev : Instr := .lp6Delivery die (lpChannel r.addr) r.id
    if linkUp s die r ∧ s.isSched ev = false then s.sched s.now ev else s) s) s

end Sys2Proof.Machine
end

