-- ==== Sys2Proof/Machine/Copy.lean ====
section
/-! DEFINITION. Copy commands: the descriptor and its checks, the traversal and its beats, and the issue (R217 to R219, R239 to
R247). -/

namespace Sys2Proof.Machine

/-! The descriptor (R240). Sides: false is the source, true the destination. -/

abbrev Desc := List Word

def dField (m : Desc) (n lo w : Nat) : Nat := field (m.getD n 0) lo w
def dRank (m : Desc) : Nat := dField m 0 0 3 + 1
def dKind (m : Desc) (dst : Bool) : Nat := dField m 0 (if dst then 6 else 3) 3
def dSide (m : Desc) (dst : Bool) (lo w : Nat) : Nat := dField m (if dst then 2 else 1) lo w
def dAddr (m : Desc) (dst : Bool) : Nat := dSide m dst 0 23
def dSws (m : Desc) (dst : Bool) : Nat := dSide m dst 32 5
def dSww (m : Desc) (dst : Bool) : Nat := dSide m dst 37 4
def dTid (m : Desc) (dst : Bool) : Nat := dSide m dst 48 16
def dSemv (m : Desc) : Bool := dField m 0 29 1 == 1
def dBarv (m : Desc) : Bool := dField m 0 30 1 == 1
def dCmpv (m : Desc) : Bool := dField m 0 31 1 == 1
def dSem (m : Desc) : Nat := dField m 0 32 8
def dBar (m : Desc) : Nat := dField m 0 40 6
def dBe (m : Desc) : Bool := dField m 0 46 1 == 1
def dPeer (m : Desc) : Nat := dField m 0 48 4
def dCmpofs (m : Desc) : Nat := dField m 3 0 23
def dCrcofs (m : Desc) : Nat := dField m 12 0 23
def dRid (m : Desc) : Nat := dField m 12 0 6

/-- Extents of the dimensions in use. -/
def dExt (m : Desc) (i : Nat) : Nat := if i < 4 then dField m 4 (16 * i) 16 else dField m 5 (16 * (i - 4)) 16
def dExts (m : Desc) : List Nat := (List.range (dRank m)).map fun i => dExt m i + 1

/-- Stride or origin of a dimension, as its 32 bits. -/
def dStr (m : Desc) (dst : Bool) (i : Nat) : Nat := dField m ((if dst then 9 else 6) + i / 2) (32 * (i % 2)) 32
def dStrs (m : Desc) (dst : Bool) : List Nat := (List.range (dRank m)).map (dStr m dst)

/-- The format a code names, free-form by a selector. -/
def fmtNamed (code sel : Nat) : Option Fmt :=
  if code = 0x2F then (match sel with | 0 => some .ffa | 1 => some .ffb | 2 => some .ffc | _ => none) else fmtOfCode code

def dFmtCode (m : Desc) (dst : Bool) : Nat := dField m 0 (if dst then 17 else 9) 8
def dFfSel (m : Desc) (dst : Bool) : Nat := dField m 0 (if dst then 27 else 25) 2
def dFmt (m : Desc) (dst : Bool) : Option Fmt := fmtNamed (dFmtCode m dst) (dFfSel m dst)

/-- Bits of an element of a side: a byte of an MX tile image counts as one. -/
def fmtBits (f : Fmt) : Nat := if f.isMx then 8 else f.width
def dBits (m : Desc) (dst : Bool) : Nat := (dFmt m dst).elim 8 fmtBits

/-- Operations: 0 nd, 1 cvt, 2 crc, 3 fill, 4 alias, 5 rtn. The sides a command has. -/
def opSides (op : Nat) : List Bool := if op = 3 then [true] else [false, true]

def prodOf (l : List Nat) : Nat := l.foldl (· * ·) 1

/-- Bytes of a traversal of elements of a side. -/
def travBytes (m : Desc) (dst : Bool) : Nat := (prodOf (dExts m) * dBits m dst + 7) / 8

/-- Bytes of the source of a traversal: of an MX format whole tile images, elements and scales (R219, R241, R248). -/
def sourceBytes (m : Desc) : Nat :=
  match dFmt m false with
  | some f => if f.isMx then (prodOf (dExts m) * f.width + 7) / 8 + prodOf (dExts m) / 32 else travBytes m false
  | none => travBytes m false

/-! The checks of R242. -/

/-- Fields of a side's place (R240). -/
def sideOk (m : Desc) (dst : Bool) : Bool :=
  let k := dKind m dst
  let top := if k = 1 then 22 else 19
  dSide m dst 23 9 == 0 && dSide m dst 41 7 == 0 &&
  (if k = 2 then dAddr m dst == 0 && dSws m dst == 0 && dSww m dst == 0
   else dTid m dst == 0 && decide (dSww m dst ≤ 9) && (dSws m dst == 0 || decide (12 ≤ dSws m dst ∧ dSws m dst ≤ top)) &&
     decide (dSws m dst + dSww m dst ≤ top + 1) && (k == 1 || decide (dAddr m dst < 2 ^ 20)))

/-- Dimensions beyond the rank are unused. -/
def tailsZero (m : Desc) : Bool :=
  ((List.range 6).drop (dRank m)).all fun i => dExt m i == 0 && dStr m false i == 0 && dStr m true i == 0

/-- Fields that a fill does not use. -/
def fillZero (m : Desc) : Bool :=
  dField m 0 3 3 == 0 && dField m 0 9 8 == 0 && dField m 0 25 2 == 0 && m.getD 1 0 == 0 && (List.range 6).all fun i => dStr m false i == 0

def ffOk (m : Desc) (dst : Bool) : Bool :=
  decide (dFfSel m dst ≠ 3) && (dFmtCode m dst == 0x2F || dFfSel m dst == 0)

/-- Dword 12 by operation. -/
def opaOk (op : Nat) (m : Desc) (loaded : Nat → Bool) : Bool :=
  if op = 2 then dField m 12 23 1 == 0 && dField m 12 25 7 == 0 && (dField m 12 24 1 == 1 || dField m 12 32 32 == 0)
  else if op = 5 then dField m 12 6 58 == 0 && loaded (dRid m)
  else m.getD 12 0 == 0

/-- Check 3: no reserved code, no nonzero zero field, no swizzle or extent outside R240; the demands of `cp.alias` (R247) and
`cp.rtn` (R248, R249). -/
def descOk (op : Nat) (m : Desc) (loaded : Nat → Bool) : Bool :=
  decide (dRank m ≤ 6) && decide (dKind m false ≤ 3) && decide (dKind m true ≤ 3) && ffOk m false && ffOk m true &&
  dField m 0 47 1 == 0 && dField m 0 52 12 == 0 && (dSemv m || dSem m == 0) && (dBarv m || dBar m == 0) &&
  (dPeer m == 0 || (opSides op).any fun x => dKind m x == 3) && dField m 3 23 41 == 0 && (dCmpv m || dCmpofs m == 0) &&
  dField m 5 32 32 == 0 && tailsZero m && [13, 14, 15].all (fun n => m.getD n 0 == 0) && sideOk m true &&
  (if op = 3 then fillZero m else sideOk m false) && opaOk op m loaded &&
  (op != 4 || (dKind m false == 2 && dRank m == 2 && dExt m 0 == 63 && dExt m 1 == 63)) &&
  (op != 5 || decide (sourceBytes m ≤ 65536))

/-- Elements in a packed group of R123. -/
def groupSize (f : Fmt) : Nat := if f.isMx then 1 else if f.width = 4 then 2 else if f.width = 6 then 4 else 1

def signed32 (v : Nat) : Int := Int.bmod v (2 ^ 32)

/-- A memory side keeps whole groups of a packed format, and has zero strides with an MX format (R241). -/
def packedOk (m : Desc) (dst : Bool) (f : Fmt) : Bool :=
  let g := groupSize f
  let n := dRank m - 1
  if dKind m dst = 2 then true
  else if f.isMx then (dStrs m dst).all (· == 0)
  else
    g == 1 || ((dExt m n + 1) % g == 0 && dStr m dst n == 1 &&
      ((List.range n).all fun i => signed32 (dStr m dst i) % (g : Int) == 0))

/-- Check 4: the formats a command accepts, and its free-form words (R243 to R248). -/
def copyFmtOk (op : Nat) (m : Desc) (ff : List (BitVec 18)) : Bool :=
  match (if op = 3 then some Fmt.n8 else dFmt m false), dFmt m true with
  | some sf, some df =>
    let agree :=
      match op with
      | 1 => !sf.isMx && !df.isMx && sf.isComplex == df.isComplex
      | 3 => !df.isMx
      | 5 => (!sf.isMx || dKind m false == 2) && (!df.isMx || dKind m true == 2)
      | _ => dFmtCode m false == dFmtCode m true &&
          (!sf.isMx || (op != 4 && (dKind m false == 2 || dKind m true == 2)))
    agree && ffHolds ff sf && ffHolds ff df && (op == 3 || packedOk m false sf) && packedOk m true df
  | _, _ => false

/-- Check 5: the first address or offset that is not aligned. -/
def misaligned (op : Nat) (m : Desc) : Option Nat :=
  match (opSides op).find? fun x => dKind m x != 2 && decide (dAddr m x % Nat.max 1 (Nat.min (dBits m x / 8) 8) ≠ 0) with
  | some x => some (dAddr m x)
  | none =>
    if dCmpv m ∧ dCmpofs m % 8 ≠ 0 then some (dCmpofs m) else if op = 2 ∧ dCrcofs m % 4 ≠ 0 then some (dCrcofs m) else none

/-- Check 6: the first object or place that the partition does not hold. -/
def notGranted (s : State) (c op : Nat) (m : Desc) : Option Nat :=
  let d := (s.cell c).dom
  let g := (s.dom d).grant
  let share := s.shareSize d (clusterOf c)
  if dSemv m ∧ ¬(g.semBase ≤ dSem m ∧ dSem m < g.semBase + g.semCnt) then some (dSem m)
  else if dBarv m ∧ ¬(g.barBase ≤ dBar m ∧ dBar m < g.barBase + g.barCnt) then some (dBar m)
  else if ((opSides op).any fun x => dKind m x == 3) ∧ g.cells.getLsbD (16 * clusterOf c + dPeer m) = false then some (dPeer m)
  else if dCmpv m ∧ share < dCmpofs m + 8 then some (dCmpofs m)
  else if op = 2 ∧ share < dCrcofs m + 4 then some (dCrcofs m)
  else none

/-- A routine as a domain meets it: one newly loaded from the domain's next mode-change point on (R249). -/
def Engine.routine (x : Engine) (d rid : Nat) : Nat × List (BitVec 32) :=
  match x.routinesNext.find? fun y => y.1 == rid with
  | some y => if y.2.2.2.contains d then SMap.get (0, []) x.routines rid else (y.2.1, y.2.2.1)
  | none => SMap.get (0, []) x.routines rid

/-- The trap of the first check of R242 that fails. -/
def copyTrap (s : State) (c : Nat) (x : CopyAsk) : Option (Cause × Word) :=
  let loaded (r : Nat) : Bool := ((s.engine x.eng).routine (s.cell c).dom r).1 != 0
  match x.dfr with
  | some r => some (.memerr, memPlace 0 r.toNat)
  | none =>
    if x.a.toNat % 8 ≠ 0 then some (.align, x.a)
    else if descOk x.op x.desc loaded = false then some (.illegal, x.a)
    else if copyFmtOk x.op x.desc x.ff = false then some (.fmt, x.words)
    else
      match misaligned x.op x.desc, notGranted s c x.op x.desc with
      | some a, _ => some (.align, BitVec.ofNat 64 a)
      | none, some v => some (.xlate, BitVec.ofNat 64 (2 ^ 63 + v % 2 ^ 23))
      | none, none => none

/-! The issue (R242). -/

/-- The doublewords of a descriptor, read as a load on g0; beyond the carve-out they read zero and set OOR. -/
def readDesc (s : State) (a n : Nat) : Ret (List Word) :=
  match n with
  | 0 => .ok [] s
  | n + 1 =>
    (loadAt s (spTarget s a) 8 true 0).bind fun v s => (readDesc s (a + 8) n).bind fun r s => .ok (v.1 :: r) s

/-- A copy command under a true guard: it reads its registers and its descriptor; its checks come 4 cycles later. -/
def runCopy (words : Word) (op : Nat) (e : Bool) (a : SReg) (b : Option SReg) (tok : Tok) (rnd : Rnd) (s : State) : Ret Unit :=
  (readSrcs s (a :: b.toList) []).bind fun x s =>
    let ad := x.get 0
    (if x.dfb || decide (ad.toNat % 8 ≠ 0) then Ret.ok [] s else readDesc s ad.toNat 16).bind fun m s =>
      let eng := 2 * clusterOf s.cur + bit e
      .ok () ((s.modMe fun c =>
        { c with wait := .copy ⟨eng, op, words, c.pc, s.now + 4, x.dfr, ad, x.get 1, tok.toNat, rnd, m, c.ffWords⟩ }).sched
          (s.now + 4) (.commandStart eng s.cur))

/-! Sides and places (R219, R241). -/

/-- Fields of a tensor descriptor (R217). -/
def tField (t : BitVec 512) (lo n : Nat) : Nat := t.toNat / 2 ^ lo % 2 ^ n
def tRank (t : BitVec 512) : Nat := tField t 8 3
def tExtents (t : BitVec 512) : List Nat := (List.range (tRank t)).map fun i => tField t (128 + 20 * i) 20 + 1
/-- Extents of a tile. The innermost one is read with the bits up to 315, which are zero in an image's descriptor: a record of more than
1,024 bytes is a tile wider than its 10 bits (R267). -/
def tTile (t : BitVec 512) : List Nat :=
  (List.range (tRank t)).map fun i => tField t (256 + 10 * i) (if i + 1 = tRank t then 60 - 10 * i else 10) + 1
def tHome (t : BitVec 512) : Nat := tField t 24 2
def tDie (t : BitVec 512) : Nat := tField t 26 2
def tCluster (t : BitVec 512) : Nat := 4 * tDie t + tField t 28 2
def tBytes (t : BitVec 512) : Nat := tField t 320 32
def tFmt (t : BitVec 512) : Option Fmt := fmtOfCode (tField t 0 8)
/-- Bits of an element of a tensor (R219); of one without a format, the given bits. -/
def tWidth (t : BitVec 512) (w : Nat) : Nat := (tFmt t).elim w Fmt.width

/-- Tiles along each dimension. -/
def tGrid (t : BitVec 512) : List Nat := List.zipWith (fun e n => (e + n - 1) / n) (tExtents t) (tTile t)

/-- A number in a mixed radix, the last digit fastest. -/
def mixed (ds ns : List Nat) : Nat := (List.zip ds ns).foldl (fun a x => a * x.2 + x.1) 0

/-- The number of a tile from its place in the grid (R219). -/
def tileNo (t : BitVec 512) (ts : List Nat) : Nat :=
  if tField t 30 1 = 1 then mixed ts.reverse (tGrid t).reverse else mixed ts (tGrid t)

/-- A side of a command as the traversal meets it. -/
structure Side where
  kind : Nat
  w : Nat
  addr : Nat := 0
  sws : Nat := 0
  sww : Nat := 0
  strides : List Int := []
  origin : List Nat := []
  /-- Bytes within reach of a memory side: the carve-out, or the share. -/
  limit : Nat := 0
  tensor : BitVec 512 := 0
  /-- Tile images of an MX side in traversal order; none for a tile beyond the grid. -/
  images : List (Option Nat) := []
  mx : Bool := false
  /-- A transposed read (R225): the tile, whose image has 64 elements a row. -/
  alias_ : Option Nat := none

def sumInts (l : List Int) : Int := l.foldl (· + ·) 0

/-- The bit of a memory side at which an index lies. -/
def Side.memBit (x : Side) (idx : List Nat) : Int :=
  8 * (x.addr : Int) + sumInts (List.zipWith (fun (i : Nat) (st : Int) => (i : Int) * st) idx x.strides) * x.w

/-- A byte through a side's swizzle (R167). -/
def Side.swz (x : Side) (a : Nat) : Nat := a ^^^ (a / 2 ^ x.sws % 2 ^ x.sww * 8)

/-- Where an index lies on a side. -/
def Side.loc (x : Side) (idx : List Nat) : Loc :=
  match x.alias_ with
  | some t =>
    let cs := [x.origin.getD 0 0 + idx.getD 1 0, x.origin.getD 1 0 + idx.getD 0 0]
    if (List.zip cs (tExtents x.tensor)).any fun y => decide (y.2 ≤ y.1) then .out
    else .tile t ((idx.getD 0 0 * 64 + idx.getD 1 0) * tWidth x.tensor x.w)
  | none =>
    if x.kind = 2 then
      if x.mx then
        let p := idx.getD 0 0
        let n := Nat.max 1 (tBytes x.tensor)
        match x.images.getD (p / n) none with
        | some t => .tile t (8 * (p % n))
        | none => .out
      else
        let cs := List.zipWith (· + ·) x.origin idx
        let T := tTile x.tensor
        if (List.zip cs (tExtents x.tensor)).any fun y => decide (y.2 ≤ y.1) then .out
        else
          .tile (tileNo x.tensor (List.zipWith (· / ·) cs T))
            (mixed (List.zipWith (· % ·) cs T) T * tWidth x.tensor x.w)
    else
      let b := x.memBit idx
      if 0 ≤ b ∧ (b.toNat + x.w + 7) / 8 ≤ x.limit then .mem b.toNat
      else if x.kind = 1 then .far (b / 8 % 2 ^ 23).toNat
      else .out

/-- Bytes of the aligned run of memory that a swizzle keeps together around a byte, at most 256. -/
def Side.runBytes (x : Side) (a : Nat) : Nat :=
  if x.sww = 0 then 256
  else if x.sws < 12 then 8
  else
    let k := a / 2 ^ x.sws % 2 ^ x.sww
    match [1, 2, 4, 8, 16].find? fun g => decide (k / g % 2 = 1) with
    | some g => 8 * g
    | none => 256

/-- Elements from an index on whose bytes follow one another within one block, line or tile; `n` are left in the row. -/
def Side.run (x : Side) (idx : List Nat) (l : Loc) (n : Nat) : Nat :=
  let inner := idx.getLastD 0
  match l with
  | .mem b =>
    if x.strides.getLastD 0 = 1 then
      let g := 8 * x.runBytes (b / 8)
      Nat.max 1 ((g - b % g) / x.w)
    else 1
  | .tile _ b =>
    let line := Nat.max 1 ((512 - b % 512) / x.w)
    if x.mx then Nat.min line (tBytes x.tensor - b / 8)
    else if tWidth x.tensor x.w ≠ x.w then 1
    else if x.alias_.isSome then Nat.min line ((tExtents x.tensor).getD 0 1 - (x.origin.getD 0 0 + inner))
    else
      let c := x.origin.getLastD 0 + inner
      Nat.min line (Nat.min ((tTile x.tensor).getLastD 1 - c % (tTile x.tensor).getLastD 1) ((tExtents x.tensor).getLastD 1 - c))
  | .out =>
    if x.kind = 2 then (if x.mx then tBytes x.tensor - idx.getD 0 0 % Nat.max 1 (tBytes x.tensor) else n)
    else if x.strides.getLastD 0 = 1 ∧ 0 ≤ x.memBit idx then n
    else 1
  | .far _ => 1

/-- Runs of one row of the traversal, from inner index `i`, with `n` elements left. -/
def rowBeats (src dst : Option Side) (outer : List Nat) (fuel i n : Nat) : List Beat :=
  match fuel with
  | 0 => []
  | fuel + 1 =>
    if n = 0 then []
    else
      let idx := outer ++ [i]
      let ls := src.elim Loc.out fun x => x.loc idx
      let ld := dst.elim Loc.out fun x => x.loc idx
      let k := Nat.min n (Nat.min (src.elim n fun x => x.run idx ls n) (dst.elim n fun x => x.run idx ld n))
      let k := Nat.max 1 (Nat.min k (2048 / Nat.max 1 (Nat.max (src.elim 1 fun x => x.w) (dst.elim 1 fun x => x.w))))
      ⟨k, ls, ld⟩ :: rowBeats src dst outer fuel (i + k) (n - k)

/-- Every index of the outer dimensions, the last fastest. -/
def outerIdx (es : List Nat) : List (List Nat) :=
  match es with
  | [] => [[]]
  | e :: r => (List.range e).flatMap fun i => (outerIdx r).map fun t => i :: t

/-- Whether a run of a side that starts at `b` goes on one run earlier that starts at `a` with `n` elements. -/
def Side.follows (x : Side) (a b : Loc) (n k : Nat) : Bool :=
  match a, b with
  | .mem p, .mem q =>
    let g := 8 * x.runBytes (p / 8)
    q == p + n * x.w && decide (p / g = (q + k * x.w - 1) / g)
  | .tile t p, .tile u q => t == u && q == p + n * x.w && decide (p / 512 = (q + k * x.w - 1) / 512)
  | .out, .out => decide ((n + k) * x.w ≤ 2048)
  | _, _ => false

/-- Join runs into maximal ones; the list so far has the last beat first. -/
def joinBeat (src dst : Option Side) (acc : List Beat) (b : Beat) : List Beat :=
  match acc with
  | [] => [b]
  | a :: r =>
    if (src.elim true fun x => x.follows a.src b.src a.n b.n) && (dst.elim true fun x => x.follows a.dst b.dst a.n b.n) then
      { a with n := a.n + b.n } :: r
    else b :: a :: r

/-- The beats of a traversal with these extents (R241). -/
def beatsOf (src dst : Option Side) (exts : List Nat) : List Beat :=
  let inner := exts.getLastD 1
  (((outerIdx exts.dropLast).map fun o => rowBeats src dst o inner 0 inner).flatten.foldl (joinBeat src dst) []).reverse

/-- Tiles in the order in which beats first need them. -/
def tilesOf (bs : List Beat) : List (Bool × Nat) :=
  (bs.foldl (fun (acc : List (Bool × Nat)) b =>
    let acc := match b.src with
      | .tile t _ => if acc.contains (false, t) then acc else (false, t) :: acc
      | _ => acc
    match b.dst with
    | .tile t _ => if acc.contains (true, t) then acc else (true, t) :: acc
    | _ => acc) []).reverse

/-- Tiles of an MX traversal in order: the grid places from the origin (R241). -/
def imagesOf (t : BitVec 512) (origin exts : List Nat) : List (Option Nat) :=
  let T := tTile t
  let from_ := List.zipWith (· / ·) origin T
  let n := List.zipWith (fun e k => (e + k - 1) / k) exts T
  (outerIdx n).map fun i =>
    let p := List.zipWith (· + ·) from_ i
    if (List.zip p (tGrid t)).any fun y => decide (y.2 ≤ y.1) then none else some (tileNo t p)

/-- A side of a command of cell `c`. -/
def sideOf (s : State) (c : Nat) (m : Desc) (dst : Bool) : Side :=
  let k := dKind m dst
  let d := (s.cell c).dom
  let f := (dFmt m dst).getD .n8
  let t := ((s.dom d).tensor (dTid m dst)).getD 0
  let origin := dStrs m dst
  { kind := k, w := dBits m dst, addr := dAddr m dst, sws := dSws m dst, sww := dSww m dst,
    strides := if f.isMx then [1] else origin.map signed32, origin := origin, tensor := t, mx := f.isMx,
    images := if f.isMx ∧ k = 2 then imagesOf t origin (dExts m) else [],
    limit := match k with
      | 0 => (s.cell c).limC
      | 1 => s.shareSize d (clusterOf c)
      | _ => (s.cell (16 * clusterOf c + dPeer m)).limC }

/-- The extents of the traversal: of an MX command, the bytes of its tile images. -/
def travExts (m : Desc) (sides : List Side) : List Nat :=
  match sides.find? fun x => x.mx && x.kind == 2 with
  | some x => [x.images.length * tBytes x.tensor]
  | none => dExts m

end Sys2Proof.Machine
end

