-- ==== Sys2Proof/Machine/Engine.lean ====
section
/-! DEFINITION. The copy engines at work: command start, tile walks, steps, routines, completion (R220 to R225, R236 to R238, R243
to R254). -/

namespace Sys2Proof.Machine

/-! Faults (R221, R250). -/

/-- A failed check of an engine: cause, CW.TVAL, and the record where one is written. -/
structure Fail where
  cause : Cause
  val : Nat
  record : Option FaultInfo

/-- What every record of a command says. -/
def baseInfo (s : State) (c eng : Nat) (cause : Cause) : FaultInfo :=
  { cause := cause, die := dieOf c, cluster := clusterOf c, agent := 16 + eng % 2, block := (s.cell c).block }

/-- A failed check writes its record and aborts the issuing firing at the command's PC. -/
def failCmd (s : State) (c : Nat) (m : Cmd) (f : Fail) : State :=
  let s := match f.record with
    | some r => recordFault s (s.cell c).dom r
    | none => s
  trapAt s c m.pc f.cause (BitVec.ofNat 64 f.val)

/-! Tensors as a command meets them. -/

def sideTensor (s : State) (c : Nat) (m : Cmd) (dst : Bool) : Option (BitVec 512) :=
  if dKind m.desc dst = 2 ∧ (opSides m.op).contains dst then (s.dom (s.cell c).dom).tensor (dTid m.desc dst) else none

def Cmd.ver (m : Cmd) (dst : Bool) : Nat := if dst then m.dstVer else m.srcVer

/-- Address of the tile table of a version (R217, R277). -/
def tileTable (s : State) (d tid ver : Nat) (t : BitVec 512) : Nat :=
  match (s.dom d).active with
  | some b => (SMap.get [] b.versions tid).getD ver (tField t 64 40)
  | none => tField t 64 40

/-- The version of a tensor that a side names (R260, R277). -/
def versionOf (s : State) (c tid : Nat) (dst : Bool) : Nat :=
  let d := s.dom (s.cell c).dom
  match d.pubBuf tid with
  | some p => if p.kind then (if xor p.front dst then 1 else 0) else 0
  | none =>
    match (d.firing (s.cell c).firing).bind fun f => f.entry.vers.find? fun v => v.1 == tid with
    | some v => if dst then v.2.2 else v.2.1
    | none => 0

/-- The domain tag of a tensor side: of a publishable source, that of the entry read (R260). -/
def sideTag (s : State) (c : Nat) (m : Cmd) (dst : Bool) (t : BitVec 512) : Nat :=
  match (s.dom (s.cell c).dom).pubBuf (dTid m.desc dst) with
  | some p => if p.kind ∧ !dst then (p.entryOf false).toNat / 2 ^ 72 % 4 else tField t 11 2
  | none => tField t 11 2

/-- The key of a tile in the translation cache; versions are tiles apart. -/
def tileKey (s : State) (c : Nat) (m : Cmd) (dst : Bool) (t : Nat) : Nat :=
  cacheKey (s.cell c).dom (dTid m.desc dst) (t + 2 ^ 31 * m.ver dst)

def cached (s : State) (e key : Nat) : Option Word := ((s.engine e).cache.find? fun x => x.1 == key).map fun x => x.2

/-- An entry becomes the most recently used (R223). -/
def Engine.touch (x : Engine) (key : Nat) (v : Word) : Engine :=
  { x with cache := ((key, v) :: x.cache.filter fun y => y.1 != key).take 512 }

/-- The frame's base in an entry (R220). -/
def entryFrame (v : Word) : Nat := field v 12 36 * 4096

def frameSize (sz : Nat) : Nat := match sz with | 0 => 2 ^ 12 | 1 => 2 ^ 16 | _ => 2 ^ 21

/-- Checks 2 to 4 of R221: cause and whether the entry is malformed. -/
def checkEntry (t : BitVec 512) (write : Bool) (v : Word) : Option (Cause × Bool) :=
  let sz := field v 3 2
  if v.getLsbD 0 = false then some (.xlate, false)
  else if sz = 3 ∨ field v 5 7 ≠ 0 ∨ field v 48 15 ≠ 0 ∨ entryFrame v % frameSize sz ≠ 0 ∨ (sz = 2 ∧ tHome t ≠ 0) ∨
      frameSize sz < tBytes t then some (.xlate, true)
  else if write ∧ (v.getLsbD 1 = false ∨ v.getLsbD 2) then some (.wprot, false)
  else none

/-- The first byte in a tile that a command's remaining beats need on a side. -/
def firstOffset (m : Cmd) (dst : Bool) (t : Nat) : Nat :=
  match m.beats.find? fun b => match (if dst then b.dst else b.src) with | .tile u _ => u == t | _ => false with
  | some b => match (if dst then b.dst else b.src) with | .tile _ p => p / 8 | _ => 0
  | none => 0

/-- The failure of an entry's check. -/
def entryFail (s : State) (c : Nat) (m : Cmd) (dst : Bool) (t : Nat) (v : Word) (cause : Cause) (malf parity : Bool) : Fail :=
  let tid := dTid m.desc dst
  let val := tensorVal tid t + if cause = .memerr then 3 * 2 ^ 60 else 0
  { cause := cause, val := val,
    record := some { baseInfo s c m.eng cause with
      write := dst, parity := parity, malf := malf, tid := tid, tile := t, offset := firstOffset m dst t, entry := v } }

/-! Command start (R250, R252). -/

/-- The checks that one side fails at the start: it is bound, its home is on this die (R323), a host tensor's command is best-effort
(R253); rank, packed groups, MX tiles and the aperture's conditions (R241, R247); the domain tag (R244). -/
def startCheck (s : State) (c : Nat) (m : Cmd) (dst : Bool) : List Fail :=
  if dKind m.desc dst ≠ 2 then []
  else
    let tid := dTid m.desc dst
    match sideTensor s c m dst with
    | none => [⟨.xlate, tensorVal tid 0, some { baseInfo s c m.eng .xlate with tid := tid, write := dst }⟩]
    | some t =>
      let dom := (s.cell c).dom
      let x := sideOf s c m.desc dst
      let away := tHome t ≠ 2 ∧ tDie t ≠ dieOf c
      let near := (tDie t + 1) % 4 = dieOf c ∨ (dieOf c + 1) % 4 = tDie t
      let place := match x.loc ((dExts m.desc).map fun _ => 0) with | .tile u p => (u, p / 8) | _ => (0, 0)
      let f := (dFmt m.desc dst).getD .n8
      let n := dRank m.desc
      let last := n - 1
      let uneven := (List.zip (List.zip (dStrs m.desc dst) (dExts m.desc)) (tTile t)).any fun y =>
        decide (y.1.1 % y.2 ≠ 0) || decide (y.1.2 % y.2 ≠ 0)
      let broken := (dExt m.desc last + 1) % groupSize f ≠ 0 ∨ dStr m.desc dst last % groupSize f ≠ 0
      let closed := m.op = 4 ∧ !dst ∧ (tHome t ≠ 0 ∨ tTile t ≠ [64, 64] ∨ (tWidth t 0 ≠ 8 ∧ tWidth t 0 ≠ 16) ∨
        (dStrs m.desc dst).any fun o => decide (o % 64 ≠ 0))
      (if (away ∧ (dom ≠ 8 ∨ ¬near ∨ tHome t ≠ 0)) ∨ (tHome t = 2 ∧ !dBe m.desc) then
        [⟨.xlate, tensorVal tid place.1,
          some { baseInfo s c m.eng .xlate with tid := tid, tile := place.1, offset := place.2, write := dst }⟩]
      else []) ++
      (if m.op = 1 ∧ (sideTag s c m dst t = 1 ∨ sideTag s c m dst t = 2) ∧ f.isComplex = false then
        [⟨.domain, tensorVal tid 0, none⟩] else []) ++
      if n ≠ tRank t ∨ (if f.isMx then uneven = true else broken ∨ closed) then [⟨.fmt, tensorVal tid 0, none⟩] else []

/-- The failure that stands of several of one cycle: the lowest code, and of those with one code the first (R294). -/
def lowestFail (l : List Fail) : Option Fail :=
  match l with
  | [] => none
  | x :: r =>
    match lowestFail r with
    | none => some x
    | some y => if y.cause.code < x.cause.code then some y else some x

/-- The failure of a command's start (R250); the source's checks count before the destination's of the same cause. -/
def startFail (s : State) (c : Nat) (m : Cmd) : Option Fail := lowestFail ((opSides m.op).flatMap (startCheck s c m))

/-- The side as the traversal meets it; the source of `cp.alias` through the aperture (R225, R247). -/
def cmdSide (s : State) (c : Nat) (m : Cmd) (dst : Bool) : Side :=
  let x := sideOf s c m.desc dst
  if m.op = 4 ∧ !dst then
    { x with alias_ := some (tileNo x.tensor (List.zipWith (· / ·) x.origin (tTile x.tensor))) }
  else x

/-- The sides that the beats of a command join: a routine's input and output run apart (R248). -/
def phaseSides (s : State) (c : Nat) (m : Cmd) : Option Side × Option Side :=
  if m.op = 3 then (none, some (cmdSide s c m true))
  else if m.op = 5 then (if m.phase = 2 then (none, some (cmdSide s c m true)) else (some (cmdSide s c m false), none))
  else (some (cmdSide s c m false), some (cmdSide s c m true))

/-- Destination bytes of the whole traversal (R251). -/
def cmdBytes (s : State) (c : Nat) (m : Cmd) : Nat :=
  let x := cmdSide s c m true
  let y := cmdSide s c m false
  let sides := (if m.op = 3 ∨ m.op = 5 then [x] else [x, y])
  if x.mx then prodOf (travExts m.desc sides) else travBytes m.desc true

/-- Lay out the beats of a command's phase, and the tiles they need. -/
def layBeats (s : State) (c : Nat) (m : Cmd) : Cmd :=
  let p := phaseSides s c m
  let bs := beatsOf p.1 p.2 (travExts m.desc (p.1.toList ++ p.2.toList))
  { m with beats := bs, tiles := tilesOf bs, started := true }

/-! Walks and lines (R215, R223). -/

/-- Whether a command is best-effort as a whole: by its BE bit, or as a supervisor's that names a tensor on another die (R253, R323). -/
def bestEffort (s : State) (c : Nat) (m : Cmd) : Bool :=
  dBe m.desc || ((s.cell c).dom == 8 && [false, true].any fun dst => (sideTensor s c m dst).any fun t => tHome t != 2 && tDie t != dieOf c)

/-- The class of a command's requests for a tensor (R213, R253). -/
def reqClass (s : State) (c : Nat) (m : Cmd) (t : BitVec 512) : LpClass :=
  if tHome t = 2 then .service else if bestEffort s c m then .best else .owned

/-- A request of a command. -/
def cmdReq (s : State) (c : Nat) (m : Cmd) (t : BitVec 512) (tid tile addr ready : Nat) (op : LpOp) : LpReq :=
  { id := 0, dom := (s.cell c).dom, cls := reqClass s c m t, ready := ready, eng := m.eng, cell := c, cmd := m.id, tid := tid,
    tile := tile, addr := addr, op := op }

/-- Lines of a tile that beats read, in order, once for each run of beats in one line. -/
def tileLines (bs : List Beat) (t : Nat) : List Nat :=
  ((bs.filterMap fun b => match b.src with | .tile u p => if u = t then some (p / 512) else none | _ => none).foldl
    (fun acc l => if acc.head? = some l then acc else l :: acc) []).reverse

/-- Ask for the lines of a source tile whose frame is known; a tensor in a slice needs none. -/
def askLines (s : State) (c : Nat) (m : Cmd) (tile : Nat) (entry : Word) : State :=
  match sideTensor s c m false with
  | none => s
  | some t =>
    if tHome t = 1 ∨ m.asked.contains tile then s
    else
      let op : LpOp := if m.op = 4 then .gather (tWidth t 8) else .read
      let s := (tileLines m.beats tile).foldl (fun s l =>
        addReq s (tDie t) { cmdReq s c m t (dTid m.desc false) tile (entryFrame entry + 64 * l) s.now op with
          idx := l, host := tHome t == 2, extra := if m.op = 4 then 64 else 0 }) s
      s.modCmd c m.id fun m => { m with asked := tile :: m.asked }

/-- Start the walk of a tile: 40 cycles, after a slot where the table lies in LP6 (R223). -/
def startWalk (s : State) (c : Nat) (m : Cmd) (dst : Bool) (tile : Nat) (t : BitVec 512) : State :=
  if tHome t = 1 then
    (s.modCmd c m.id fun m => { m with walking := some (some (s.now + 40)) }).sched (s.now + 40) (.tileWalk m.eng c)
  else
    let a := tileTable s (s.cell c).dom (dTid m.desc dst) (m.ver dst) t + 8 * tile
    addReq (s.modCmd c m.id fun m => { m with walking := some none }) (tDie t)
      (cmdReq s c m t (dTid m.desc dst) tile a s.now .walk)

/-- Translate tiles in order: those the cache holds at once, up to the first that must be walked. -/
def walkOn (s : State) (c id : Nat) (l : List (Bool × Nat)) : State :=
  match l with
  | [] => s.modCmd c id fun m => { m with tiles := [] }
  | (dst, tile) :: r =>
    match s.cmd c id with
    | none => s
    | some m =>
      match cached s m.eng (tileKey s c m dst tile), sideTensor s c m dst with
      | some v, _ =>
        let s := s.modEngine m.eng fun x => x.touch (tileKey s c m dst tile) v
        walkOn (if dst then s else askLines s c m tile v) c id r
      | none, some t => startWalk (s.modCmd c id fun m => { m with tiles := (dst, tile) :: r }) c m dst tile t
      | none, none => s

/-- Go on translating unless a walk is under way, and let the engine look at the command. -/
def translate (s : State) (c id : Nat) : State :=
  match s.cmd c id with
  | none => s
  | some m => kick (if m.walking.isSome then s else walkOn s c id m.tiles) m.eng

/-- Start a command that may start: its checks, its versions, its beats. A routine waits for the engine's core (R248). -/
def startCmd (s : State) (c : Nat) (m : Cmd) : State :=
  if m.op = 5 ∧ (s.engine m.eng).owner.isSome then s
  else
    match startFail s c m with
    | some f => failCmd s c m f
    | none =>
      let s := if m.op = 5 then s.modEngine m.eng fun x => { x with owner := some c } else s
      let m := { m with srcVer := versionOf s c (dTid m.desc false) false, dstVer := versionOf s c (dTid m.desc true) true,
                        crc := BitVec.ofNat 32 m.b.toNat ^^^ 0xFFFFFFFF }
      translate (s.modCmd c m.id fun _ => layBeats s c m) c m.id

/-- Start the head of a stream, or put its start on the agenda. -/
def startHead (s : State) (e c : Nat) : State :=
  match (s.cell c).streamHead e with
  | none => s
  | some m => if m.started then s else if m.h ≤ s.now then startCmd s c m else s.sched m.h (.commandStart e c)

/-- The checks of R242, and the command joins its queue. -/
def queueCmd (s : State) (c : Nat) (x : CopyAsk) : State :=
  let s := s.modCell c fun y => { y with wait := .none }
  match copyTrap s c x with
  | some t => trapAt s c x.pc t.1 t.2
  | none =>
    let h := Nat.max s.now (dueOf ((s.cell c).pend.filter fun a => a.strm == 0))
    let m : Cmd := { id := s.nextId, eng := x.eng, op := x.op, pc := x.pc, issue := x.due - 4, tok := x.tok, rnd := x.rnd, b := x.b,
                     desc := x.desc, ff := x.ff, h := h }
    startHead ({ s with nextId := s.nextId + 1 }.modCell c fun y => { y with queue := y.queue ++ [m] }) x.eng c

/-- A command is checked 4 cycles after its issue, or may start. -/
def execCommandStart (e c : Nat) (s : State) : Out :=
  .next (match (s.cell c).wait with
    | .copy x => if x.due = s.now ∧ x.eng = e then queueCmd s c x else startHead s e c
    | _ => startHead s e c)

/-! The tile walk (R221). -/

/-- Read an entry with its check bits: the state, the entry, whether it can be delivered. -/
def readEntry (s : State) (c : Nat) (m : Cmd) (dst : Bool) (tile : Nat) (t : BitVec 512) : State × Word × Bool :=
  let d := (s.cell c).dom
  let a := tileTable s d (dTid m.desc dst) (m.ver dst) t + 8 * tile
  if tHome t = 1 then
    let k := tCluster t
    let p := s.shareByte d k a
    let r := (s.cluster k).slice
    let s := if r.anyBad p 8 then (s.modCluster k fun y => { y with slice := Ram.mark r (Ram.newBad r p 8) }).modCell c fun y =>
        y.countErr 0 (Ram.newBad r p 8).length
      else s.modCluster k fun y => { y with slice := Ram.scrub r (Ram.oneBit r p 8), cbc := satAdd16 y.cbc (Ram.oneBit r p 8).length }
    (s, BitVec.ofNat 64 (Ram.readN r p 8), !r.anyBad p 8)
  else
    let s := s.modDie (tDie t) fun y => meetLine y (a / 64)
    let r := (s.die (tDie t)).lp6
    (s, BitVec.ofNat 64 (Ram.readN r a 8), !r.anyBad a 8)

/-- A walk ends. That of a table on a neighbour die waits while the link to it does not carry (R326). -/
def execTileWalk (e c : Nat) (s : State) : Out :=
  let s' := s
  .next (match (s.cell c).streamHead e with
    | none => s
    | some m =>
      if (m.walking.any fun w => w.any fun t => decide (t ≤ s.now)) = false then s
      else
        let s := s.modCmd c m.id fun m => { m with walking := none }
        match m.tiles with
        | [] => s
        | (dst, tile) :: r =>
          match sideTensor s c m dst with
          | none => s
          | some t =>
            if tHome t ≠ 1 ∧ linkTo s c (tDie t) = false then s'
            else
            let x := readEntry s c m dst tile t
            let s := x.1
            if x.2.2 = false then failCmd s c m (entryFail s c m dst tile x.2.1 .memerr false false)
            else if popcount 64 x.2.1.toNat % 2 = 1 then failCmd s c m (entryFail s c m dst tile x.2.1 .memerr false true)
            else
              match checkEntry t dst x.2.1 with
              | some f => failCmd s c m (entryFail s c m dst tile x.2.1 f.1 f.2 false)
              | none =>
                let s := s.modEngine e fun y => y.touch (tileKey s c m dst tile) x.2.1
                let s := clearFault s (s.cell c).dom (dieOf c) (dTid m.desc dst) tile
                let s := if dst then s else askLines s c m tile x.2.1
                translate (s.modCmd c m.id fun m => { m with tiles := r }) c m.id)

/-! Steps (R238). -/

/-- Whether a line of a tile has been delivered. -/
def Cmd.lineFor (m : Cmd) (tile idx : Nat) : Option Line := m.lines.find? fun l => l.tile == tile && l.idx == idx

/-- Whether a tensor's data come by lines. -/
def byLines (t : Option (BitVec 512)) : Bool := t.any fun t => tHome t != 1

/-- Whether a beat is ready to move: its tiles translated, its line delivered. -/
def beatReady (m : Cmd) (srcLines : Bool) (b : Beat) : Bool :=
  (match b.src with
    | .tile t p => !m.tiles.contains (false, t) && (!srcLines || (m.lineFor t (p / 512)).isSome)
    | _ => true) &&
  match b.dst with
  | .tile t _ => !m.tiles.contains (true, t)
  | _ => true

/-- Ready beats at the head of a command, at most 8. -/
def readyBeats (s : State) (c : Nat) (m : Cmd) : List Beat :=
  if m.started = false ∨ m.finishing.isSome then []
  else (m.beats.take 8).takeWhile (beatReady m (byLines (sideTensor s c m false)))

/-- The memory that a side's bytes lie in: 0 and a cell, or 1 and a cluster. -/
def ramAt (s : State) (kind place : Nat) : Ram := if kind = 0 then (s.cell place).sp else (s.cluster place).slice
def setRamAt (s : State) (kind place : Nat) (r : Ram) : State :=
  if kind = 0 then s.modCell place fun x => { x with sp := r } else s.modCluster place fun x => { x with slice := r }

/-- Errors met in a memory are counted (R302, R309). -/
def countAt (s : State) (c kind place one bad : Nat) : State :=
  if kind = 0 then s.modCell place fun x => x.countErr one bad
  else (s.modCluster place fun x => { x with cbc := satAdd16 x.cbc one }).modCell c fun x => x.countErr 0 bad

/-- Places of bytes of one memory: kind, cell or cluster, and the bytes. -/
structure Places where
  kind : Nat
  place : Nat
  bytes : List Nat

/-- Bytes that `n` elements from a bit touch. -/
def spanOf (bit n w : Nat) : List Nat := upFrom (bit / 8) ((bit % 8 + n * w + 7) / 8)

/-- Where the bytes of a beat lie on a side that is no LP6 or host tensor; a share offset beyond the share answers none. -/
def placesOf (s : State) (c : Nat) (m : Cmd) (x : Side) (dst : Bool) (l : Loc) (n : Nat) : Option Places :=
  let d := (s.cell c).dom
  match l with
  | .mem b =>
    let bs := (spanOf b n x.w).map x.swz
    match x.kind with
    | 0 => some ⟨0, c, bs⟩
    | 1 => some ⟨1, clusterOf c, bs.map (s.shareByte d (clusterOf c))⟩
    | _ => some ⟨0, 16 * clusterOf c + dPeer m.desc, bs⟩
  | .tile t b =>
    let k := tCluster x.tensor
    let frame := entryFrame ((cached s m.eng (tileKey s c m dst t)).getD 0)
    let y : Side := { x with sws := tField x.tensor 32 5, sww := tField x.tensor 37 4 }
    let bs := (spanOf b n x.w).map fun a => y.swz (frame + a)
    if bs.all fun a => decide (a < s.shareSize d k) then some ⟨1, k, bs.map (s.shareByte d k)⟩ else none
  | _ => none

/-- What a beat reads: its bytes, and which are poisoned. -/
abbrev Fetched := List Byte × List Bool

/-- Read bytes of a memory, correcting and marking what their check bits show. -/
def fetchAtPlaces (s : State) (c : Nat) (p : Places) : State × Fetched :=
  let r := ramAt s p.kind p.place
  let ws := (p.bytes.map (· / 8)).eraseDups
  let bad := ws.filter r.bad
  let new := bad.filter fun w => !SMap.get false r.poison w
  let one := ws.filter fun w => !r.bad w && decide (SMap.get 0 r.err w ≠ 0)
  let s := if new.isEmpty && one.isEmpty then s
    else countAt (setRamAt s p.kind p.place (Ram.scrub (Ram.mark r new) one)) c p.kind p.place one.length new.length
  (s, p.bytes.map (Mem.byte r.bytes), p.bytes.map fun a => bad.contains (a / 8))

/-- The values of `n` elements of `w` bits that start `off` bits into a run of bytes. -/
def elementsIn (bs : List Byte) (off n w : Nat) : List Nat := (List.range n).map fun i => leNat bs / 2 ^ (off + i * w) % 2 ^ w

/-- The byte of the first element that touches a poisoned byte, counted from the beat's first byte. -/
def firstBad (bad : List Bool) (off n w : Nat) : Option Nat :=
  ((List.range n).find? fun i => ((bad.drop ((off + i * w) / 8)).take (((off + i * w) % 8 + w + 7) / 8)).any id).map fun i =>
    (off + i * w) / 8

/-- CRC-32C, reflected (R245): eight steps on a byte already joined. -/
def crcStep (n : Nat) (x : BitVec 32) : BitVec 32 :=
  match n with
  | 0 => x
  | n + 1 => crcStep n (if x.getLsbD 0 then (x >>> 1) ^^^ 0x82F63B78 else x >>> 1)

def crcByte (x : BitVec 32) (b : Byte) : BitVec 32 := crcStep 8 (x ^^^ b.zeroExtend 32)

/-- Take destination bits into the running CRC as they fill bytes. -/
def Cmd.takeCrc (m : Cmd) (v n : Nat) : Cmd :=
  let all := m.crcBits.1 + v * 2 ^ m.crcBits.2
  let have_ := m.crcBits.2 + n
  let k := have_ / 8
  { m with crc := (leBytes k all).foldl crcByte m.crc, crcBits := (all / 2 ^ (8 * k), have_ % 8) }

/-- The masked bytes that put `n` elements of `w` bits, packed in `v`, `off` bits into a run of bytes. -/
def bytesFor (as : List Nat) (off n w v : Nat) : List (Nat × Byte × Byte) :=
  let val := v * 2 ^ off
  let mask := (2 ^ (n * w) - 1) * 2 ^ off
  (List.zip as (List.range as.length)).map fun x =>
    (x.1, BitVec.ofNat 8 (val / 2 ^ (8 * x.2)), BitVec.ofNat 8 (mask / 2 ^ (8 * x.2)))

/-- A step in progress: the state, the command as it changes, the bytes moved to a memory with the words they poison, and a
failure. -/
structure Move where
  s : State
  m : Cmd
  kind : Nat := 0
  place : Nat := 0
  bytes : List (Nat × Byte × Byte) := []
  poison : List Nat := []
  fail : Option Fail := none
  /-- A tile left the cache: it is walked again, and the beats stop. -/
  again : Bool := false

/-- The source of a beat: elements, and which are poisoned; a failed check; or the tile to walk again. -/
inductive Got where
  | vals (vs : List Nat) (bad : List Bool)
  | fail (f : Fail)
  | again

/-- Elements that touch poisoned bytes. -/
def badElements (bad : List Bool) (off n w : Nat) : List Bool :=
  if bad.any id then
    (List.range n).map fun i => ((bad.drop ((off + i * w) / 8)).take (((off + i * w) % 8 + w + 7) / 8)).any id
  else List.replicate n false

/-- The elements of fetched bytes; commands other than `cp.nd` and `cp.alias` consume poison (R250, R310). -/
def gotFrom (m : Cmd) (x : Fetched) (off n w : Nat) (failAt : Nat → Fail) : Got :=
  match firstBad x.2 off n w with
  | some j => if m.op = 0 ∨ m.op = 4 then .vals (elementsIn x.1 off n w) (badElements x.2 off n w) else .fail (failAt j)
  | none => .vals (elementsIn x.1 off n w) (List.replicate n false)

/-- MEMERR of a tensor's data (R250). -/
def dataFail (s : State) (c : Nat) (m : Cmd) (t ofs : Nat) (v : Word) : Fail :=
  let tid := dTid m.desc false
  ⟨.memerr, 3 * 2 ^ 60 + tensorVal tid t, some { baseInfo s c m.eng .memerr with tid := tid, tile := t, offset := ofs, entry := v }⟩

def farFail (ofs : Nat) : Fail := ⟨.xlate, 2 ^ 63 + ofs % 2 ^ 23, none⟩

/-- Read the source of a beat. -/
def readBeat (s : State) (c : Nat) (m : Cmd) (x : Side) (b : Beat) : State × Got :=
  match b.src with
  | .out => (s, .vals (List.replicate b.n 0) (List.replicate b.n false))
  | .far o => (s, .fail (farFail o))
  | .mem p =>
    match placesOf s c m x false b.src b.n with
    | none => (s, .fail (farFail (p / 8)))
    | some pl =>
      let r := fetchAtPlaces s c pl
      (r.1, gotFrom m r.2 (p % 8) b.n x.w fun j =>
        ⟨.memerr, (if x.kind = 1 then 2 else 1) * 2 ^ 60 + p / 8 + j, none⟩)
  | .tile t p =>
    if tHome x.tensor ≠ 1 then
      match m.lineFor t (p / 512) with
      | none => (s, .again)
      | some l =>
        let o := p / 8 % 64
        let n := (p % 8 + b.n * x.w + 7) / 8
        let bad := (upFrom o n).map fun j => l.poison.contains (j / 8)
        (s, gotFrom m ((l.bytes.drop o).take n, bad) (p % 8) b.n x.w fun j =>
          dataFail s c m t (p / 8 + j) ((cached s m.eng (tileKey s c m false t)).getD 0))
    else
      match cached s m.eng (tileKey s c m false t) with
      | none => (s, .again)
      | some v =>
        match checkEntry x.tensor false v, placesOf s c m x false b.src b.n with
        | some f, _ => (s, .fail (entryFail s c m false t v f.1 f.2 false))
        | none, none => (s, .fail (farFail (entryFrame v + p / 8)))
        | none, some pl =>
          let r := fetchAtPlaces s c pl
          (r.1, gotFrom m r.2 (p % 8) b.n x.w fun j => dataFail s c m t (p / 8 + j) v)

/-- The destination values of a beat: a fill's pattern, converted values, or the values read (R243 to R246). Free-form bytes are
written and moved whole, the bits above WID among them (log 85, the model's choice). -/
def beatValues (s : State) (m : Cmd) (wd : Nat) (vs : List Nat) : State × List Nat × BitVec 8 :=
  if m.op = 3 then (s, vs.map fun _ => m.b.toNat % 2 ^ wd, 0)
  else if m.op = 1 then
    let f2 := (dFmt m.desc false).getD .n8
    let f := (dFmt m.desc true).getD .n8
    let r := convertList m.ff f f2 m.rnd (vs.map fun _ => true) vs (vs.map fun _ => 0) (s.engine m.eng).genC
    (s.modEngine m.eng fun x => { x with genC := r.2.2 }, r.1, r.2.1)
  else (s, vs, 0)

/-- Destination words that poisoned elements reach. -/
def poisonWords (as : List Nat) (off w : Nat) (bad : List Bool) : List Nat :=
  ((List.zip bad (List.range bad.length)).filter fun x => x.1).foldl (fun acc x =>
    acc ++ ((as.drop ((off + x.2 * w) / 8)).take (((off + x.2 * w) % 8 + w + 7) / 8)).map (· / 8)) []

/-- The line of a tile that has been gathered goes to its channel once the next beat leaves it (R215), at the frame of the entry it
was checked against. -/
def flushLine (s : State) (c : Nat) (m : Cmd) (t : BitVec 512) (ready : Nat) : State × Cmd :=
  match m.heldAt with
  | none => (s, m)
  | some (tile, idx, frame) =>
    (addReq s (tDie t) { cmdReq s c m t (dTid m.desc true) tile (frame + 64 * idx) ready (.write m.held m.heldPoison) with
      idx := idx, host := tHome t == 2 }, { m with held := [], heldAt := none, heldPoison := [], lpWrites := m.lpWrites + 1 })

/-- Write the destination of a beat. -/
def writeBeat (v : Move) (c : Nat) (x : Side) (b : Beat) (vals : List Nat) (bad : List Bool) : Move :=
  let packed := packElems x.w vals
  match b.dst with
  | .out => { v with m := { v.m with oor := true } }
  | .far o => { v with fail := some (farFail o) }
  | .mem p =>
    match placesOf v.s c v.m x true b.dst b.n with
    | none => { v with fail := some (farFail (p / 8)) }
    | some pl =>
      { v with kind := pl.kind, place := pl.place, bytes := v.bytes ++ bytesFor pl.bytes (p % 8) b.n x.w packed,
               poison := v.poison ++ poisonWords pl.bytes (p % 8) x.w bad }
  | .tile t p =>
    match cached v.s v.m.eng (tileKey v.s c v.m true t) with
    | none => { v with again := true }
    | some e =>
      match checkEntry x.tensor true e with
      | some f => { v with fail := some (entryFail v.s c v.m true t e f.1 f.2 false) }
      | none =>
        if tHome x.tensor = 1 then
          match placesOf v.s c v.m x true b.dst b.n with
          | none => { v with fail := some (farFail (entryFrame e + p / 8)) }
          | some pl =>
            { v with kind := pl.kind, place := pl.place, bytes := v.bytes ++ bytesFor pl.bytes (p % 8) b.n x.w packed,
                     poison := v.poison ++ poisonWords pl.bytes (p % 8) x.w bad }
        else
          let f := if v.m.heldAt = some (t, p / 512, entryFrame e) then (v.s, v.m) else flushLine v.s c v.m x.tensor (v.s.now + 8)
          let as := (spanOf p b.n x.w).map fun a => entryFrame e + a
          { v with s := f.1, m := { f.2 with held := f.2.held ++ bytesFor as (p % 8) b.n x.w packed, heldAt := some (t, p / 512, entryFrame e),
                                             heldPoison := f.2.heldPoison ++ poisonWords as (p % 8) x.w bad } }

/-- Drop the line of a beat just moved when the next beat does not read it. -/
def Cmd.dropLine (m : Cmd) (b : Beat) : Cmd :=
  match b.src with
  | .tile t p =>
    let stays := match m.beats.head?.map fun n => n.src with
      | some (.tile u q) => u == t && q / 512 == p / 512
      | _ => false
    if stays then m else { m with lines := m.lines.eraseP fun l => l.tile == t && l.idx == p / 512 }
  | _ => m

/-- The elements of a routine's output, from SB1; bytes beyond its length are zero (R248). -/
def outputVals (s : State) (m : Cmd) (n w : Nat) : List Nat :=
  let ram := (s.engine m.eng).core.sp.bytes
  let bs := (spanOf m.sbPos n w).map fun j => if j < m.outLen ∧ j < 65536 then Mem.byte ram (65536 + j) else 0
  elementsIn bs (m.sbPos % 8) n w

/-- Put elements into SB0. -/
def inputVals (s : State) (m : Cmd) (n w v : Nat) : State :=
  s.modEngine m.eng fun x => { x with core := { x.core with sp := x.core.sp.merge (bytesFor (spanOf m.sbPos n w) (m.sbPos % 8) n w v) } }

/-- An access through a cached entry makes it the most recently used (R223). -/
def Move.touch (v : Move) (c : Nat) (dst : Bool) (l : Loc) : Move :=
  match l with
  | .tile t _ =>
    let k := tileKey v.s c v.m dst t
    match cached v.s v.m.eng k with
    | some e => { v with s := v.s.modEngine v.m.eng fun x => x.touch k e }
    | none => v
  | _ => v

/-- Move one beat. One that cannot be written, because its tile is walked again or its check fails, takes no step of the generator
(R133). -/
def moveBeat (c : Nat) (src dst : Option Side) (v : Move) (b : Beat) : Move :=
  if v.fail.isSome ∨ v.again then v
  else
    let v := (v.touch c false b.src).touch c true b.dst
    let got : State × Got := match src with
      | some x => readBeat v.s c v.m x b
      | none => (v.s, .vals (if v.m.op = 5 then outputVals v.s v.m b.n (dBits v.m.desc true) else List.replicate b.n 0)
          (List.replicate b.n false))
    match got.2 with
    | .fail f => { v with s := got.1, fail := some f }
    | .again => { v with s := got.1, again := true }
    | .vals vs bad =>
      let m := { v.m with oor := v.m.oor || (src.isSome && b.src == .out), poisoned := v.m.poisoned || bad.any id }
      let done (v : Move) : Move :=
        if v.fail.isSome ∨ v.again then v
        else { v with m := { v.m with beats := v.m.beats.drop 1 }.dropLine b }
      match dst with
      | none =>
        let w := dBits m.desc false
        done { v with s := inputVals got.1 m b.n w (packElems w vs), m := { m with sbPos := m.sbPos + b.n * w } }
      | some y =>
        let r := beatValues got.1 m y.w vs
        let v' := writeBeat { v with s := r.1, m := m } c y b r.2.1 bad
        if v'.fail.isSome ∨ v'.again then { v' with s := got.1 }
        else
          let m := { v'.m with flags := v'.m.flags ||| r.2.2, sbPos := v'.m.sbPos + b.n * y.w }
          done { v' with m := if m.op = 2 then m.takeCrc (packElems y.w r.2.1) (b.n * y.w) else m }

/-- A tile that left the cache is walked again before its beat moves. -/
def walkAgain (s : State) (c : Nat) (m : Cmd) : State :=
  match m.beats with
  | [] => s
  | b :: _ =>
    let need (dst : Bool) (l : Loc) : List (Bool × Nat) := match l with
      | .tile t _ => if (cached s m.eng (tileKey s c m dst t)).isNone && !m.tiles.contains (dst, t) then [(dst, t)] else []
      | _ => []
    translate (s.modCmd c m.id fun m => { m with tiles := need false b.src ++ need true b.dst ++ m.tiles }) c m.id

/-- The writes of a step are performed 32 cycles after its start (R238). -/
def stepWrites (v : Move) : State :=
  if v.bytes.isEmpty then v.s
  else
    let id := v.s.nextId
    let w : Write := ⟨id, v.kind, v.place, v.s.now + 32, v.bytes, v.poison⟩
    ({ v.s with nextId := id + 1 }.modEngine v.m.eng fun x => { x with writes := x.writes ++ [w] }).sched (v.s.now + 32)
      (.storePerformed (256 + v.m.eng) id)

/-- The beats of a step that fails, which starts in the cycle of the stop it brings, do not move (R254): the engine's parts are as
before it. -/
def Move.unmoved (v : Move) (old : Engine) : State :=
  v.s.modEngine v.m.eng fun x => { x with genC := old.genC, core := { x.core with sp := old.core.sp } }

/-- Move the ready beats of a command in the step that starts now. -/
def runStep (s : State) (c : Nat) (m : Cmd) (bs : List Beat) : State :=
  let p := phaseSides s c m
  let v := bs.foldl (moveBeat c p.1 p.2) { s := s, m := { m with lastWrite := s.now + 32 } }
  let v := if v.m.beats.isEmpty ∧ v.fail.isNone then
      match sideTensor v.s c v.m true with
      | some t => let f := flushLine v.s c v.m t (v.s.now + 8); { v with s := f.1, m := f.2 }
      | none => v
    else v
  match v.fail with
  | some f => failCmd (v.unmoved (s.engine m.eng)) c m f
  | none =>
    let s := (stepWrites v).modCmd c m.id fun _ => v.m
    if v.again then walkAgain s c v.m
    else if v.m.beats.isEmpty then
      if m.op = 5 ∧ m.phase = 0 then
        (s.modCmd c m.id fun m => { m with phase := 1 }).sched (s.now + 32) (.routineStart m.eng)
      else tryFinish s c m.id
    else s

/-- The output of a routine that has ended goes out (R248). -/
def drainRoutine (s : State) (e : Nat) : State :=
  match (s.engine e).owner with
  | none => s
  | some c =>
    match (s.cell c).streamHead e with
    | none => s
    | some m =>
      if m.op = 5 ∧ m.phase = 1 ∧ (s.engine e).core.run = .finished then
        let x := (s.engine e).core
        let s := (s.unsched (.routineOverrun e)).modEngine e fun y => { y with core := { y.core with run := .idle } }
        let m := { m with phase := 2, sbPos := 0, outLen := (x.getS 3).toNat, flags := m.flags ||| (x.sticky &&& 0x3C),
                          oor := m.oor || decide (x.sticky &&& flagOOR ≠ 0),
                          short := decide ((x.getS 3).toNat ≠ cmdBytes s c { m with phase := 2 }) }
        let s := s.modCmd c m.id fun _ => layBeats s c m
        translate s c m.id
      else s

/-- The cells of a step in the order in which it looks at them: its owner first (R238). -/
def stepCells (s : State) (e : Nat) : List Nat :=
  (List.range 16).map fun j => 16 * (e / 2) + (s.tcyc / 8 + j) % 16

/-- The first of some cells whose command has beats ready. -/
def firstReady (s : State) (e : Nat) (cs : List Nat) : Option (Nat × Cmd × List Beat) :=
  match cs with
  | [] => none
  | c :: r =>
    match (s.cell c).streamHead e with
    | none => firstReady s e r
    | some m =>
      match readyBeats s c m with
      | [] => firstReady s e r
      | bs => some (c, m, bs)

/-- Routines that wait for the core may start once it is free. -/
def startRoutines (s : State) (e : Nat) : State :=
  (stepCells s e).foldl (fun s c =>
    match (s.cell c).streamHead e with
    | some m => if m.op = 5 ∧ m.started = false then startHead s e c else s
    | none => s) s

/-- A step of an engine starts. -/
def execEngineStep (e : Nat) (s : State) : Out :=
  let s := s.modEngine e fun x => { x with busy := false, nextStep := s.now + 1 }
  let s := startRoutines (drainRoutine s e) e
  .next (match firstReady s e (stepCells s e) with
    | none => s
    | some x =>
      let s := s.modEngine e fun y => { y with undo := some ⟨s.now, x.1, y.cache, y.genC, y.core.sp⟩ }
      let s := runStep s x.1 x.2.1 x.2.2
      if (firstReady s e (stepCells s e)).isSome then kick s e else s)

/-! Routines (R248, R249). -/

/-- The routine of the core's command starts, with its state cleared. -/
def execRoutineStart (e : Nat) (s : State) : Out :=
  .next (match (s.engine e).owner with
    | none => s
    | some c =>
      match (s.cell c).streamHead e with
      | none => s
      | some m =>
        if m.op ≠ 5 ∨ m.phase ≠ 1 ∨ (s.engine e).core.run = .running then s
        else
          let x := (s.engine e).routine (s.cell c).dom (dRid m.desc)
          let old := (s.engine e).core
          let core : Cell := { dom := (s.cell c).dom, code := [(1, x.2)], block := 1, run := .running, t := s.now, sp := old.sp,
                               limC := 131072, genV := old.genV }
          let core := (core.setS 1 m.b false).setS 2 (BitVec.ofNat 64 (m.sbPos / 8)) false
          ((s.unsched (.routineOverrun e)).modEngine e fun y => { y with core := core }).sched (s.now + x.1) (.routineOverrun e))

/-- A routine that has not ended in RWCET cycles is stopped, and its firing aborts (R249). -/
def execRoutineOverrun (e : Nat) (s : State) : Out :=
  .next (match (s.engine e).owner with
    | none => s
    | some c =>
      match (s.cell c).streamHead e with
      | none => s
      | some m =>
        if (s.engine e).core.run = .running then
          trapAt (s.modEngine e fun y => { y with core := { y.core with run := .idle } }) c m.pc .overrun
            (BitVec.ofNat 64 (2 ^ 62 + dRid m.desc))
        else s)

/-! Completion (R251). -/

/-- The completion word. -/
def completionWord (m : Cmd) (tb : Nat) : Nat :=
  let f (k : BitVec 8) : Bool := decide (m.flags &&& k ≠ 0)
  let chk := m.op == 2 && dField m.desc 12 24 1 == 1
  1 + bit m.oor * 2 + bit (f flagINVALID) * 4 + bit (f flagOVERFLOW) * 8 + bit (f flagUNDERFLOW) * 16 + bit (f flagSATD) * 32 +
    bit chk * 64 + bit (chk && (m.crc ^^^ 0xFFFFFFFF).toNat == dField m.desc 12 32 32) * 128 + bit m.poisoned * 256 +
    bit m.short * 512 + Nat.min tb (2 ^ 32 - 1) * 2 ^ 32

/-- Add 1 to a semaphore on an engine's behalf. -/
def engineSem (s : State) (k n : Nat) : State :=
  let r := clamp32 ((SMap.get 0 (s.cluster k).sems n).toNat + 1)
  wakeSync (s.modCluster k fun y => { y with sems := SMap.set 0 y.sems n r.1 }) (clusterCells k)

/-- Lower a barrier on an engine's behalf in this cycle, after its increases and after the cells' decreases, e0 before e1 (R257,
R258); a result below zero aborts the issuing firing. -/
def engineBar (s : State) (c e pc n tb : Nat) : State :=
  let ev : Timed := ⟨s.now, 24 * 4096 + 256 * (e % 2) + c, .storePerformed c s.nextId⟩
  State.modCell { s with nextId := s.nextId + 1, agenda := insertTimed s.agenda ev } c fun x =>
    { x with pend := x.pend ++ [⟨s.nextId, s.now, noStream, .cb, true, 0, s.now, pc, .barSub n tb⟩] }

/-- The completion actions in order: CRC word, completion word, semaphore, barrier, token and queue entry; then the stream's next
command may start, and waits look again. -/
def completeCmd (s : State) (c : Nat) (m : Cmd) : State :=
  let d := (s.cell c).dom
  let k := clusterOf c
  let tb := cmdBytes s c m
  let m := if m.crcBits.2 = 0 then m else { m with crc := crcByte m.crc (BitVec.ofNat 8 m.crcBits.1), crcBits := (0, 0) }
  let s := if m.op = 2 then s.writeShare d k (dCrcofs m.desc) 4 (m.crc ^^^ 0xFFFFFFFF).toNat else s
  let s := if dCmpv m.desc then s.writeShare d k (dCmpofs m.desc) 8 (completionWord m tb) else s
  let s := if dSemv m.desc then engineSem s k (dSem m.desc) else s
  let s := if dBarv m.desc then engineBar s c m.eng m.pc (dBar m.desc) tb else s
  let s := s.modCell c fun x => { x with queue := x.queue.filter fun y => y.id != m.id }
  let s := if m.op = 5 then kick (s.modEngine m.eng fun x => { x with owner := none }) m.eng else s
  startHead (armPub (endWait s c) c) m.eng c

def execCommandCompletion (e c : Nat) (s : State) : Out :=
  .next (match (s.cell c).streamHead e with
    | none => s
    | some m => if m.finishing = some s.now then completeCmd s c m else s)

/-! One meaning per copy instruction. -/

def execCpNd (g : PReg) (e : Bool) (a : SReg) (tok : Tok) (s : State) : Out :=
  issue s g 1 5 (runCopy (wordsVal (encode (.cpNd g e a tok))) 0 e a none tok .rne)
def execCpCvt (g : PReg) (e : Bool) (a : SReg) (tok : Tok) (rnd : Rnd) (s : State) : Out :=
  issue s g 1 5 (runCopy (wordsVal (encode (.cpCvt g e a tok rnd))) 1 e a none tok rnd)
def execCpCrc (g : PReg) (e : Bool) (a b : SReg) (tok : Tok) (s : State) : Out :=
  issue s g 1 5 (runCopy (wordsVal (encode (.cpCrc g e a b tok))) 2 e a (some b) tok .rne)
def execCpFill (g : PReg) (e : Bool) (a b : SReg) (tok : Tok) (s : State) : Out :=
  issue s g 1 5 (runCopy (wordsVal (encode (.cpFill g e a b tok))) 3 e a (some b) tok .rne)
def execCpAlias (g : PReg) (e : Bool) (a : SReg) (tok : Tok) (s : State) : Out :=
  issue s g 1 5 (runCopy (wordsVal (encode (.cpAlias g e a tok))) 4 e a none tok .rne)
def execCpRtn (g : PReg) (e : Bool) (a b : SReg) (tok : Tok) (s : State) : Out :=
  issue s g 1 5 (runCopy (wordsVal (encode (.cpRtn g e a b tok))) 5 e a (some b) tok .rne)

end Sys2Proof.Machine
end

