-- ==== Sys2Proof/Machine/Tables.lean ====
section
/-! DEFINITION. A table takes effect: what the banks, the channels, the tensors, the generators and the synchronisation objects of a
domain become, and the walk of its periods (R133, R222, R223, R255, R281 to R284, R300, R112). -/

namespace Sys2Proof.Machine

/-! Cells and clusters of a grant (R333). -/

def Domain.cells (d : Domain) : List Nat := (List.range 256).filter fun c => d.grant.cells.getLsbD c
def Domain.clusters (d : Domain) : List Nat := (List.range 16).filter fun k => d.cells.any fun c => c / 16 == k
def Domain.dies (d : Domain) : List Nat := (List.range 4).filter fun x => d.clusters.any fun k => k / 4 == x

/-! Runs of bytes of any memory, with their poison (R310). -/

inductive Store where
  | sp (cell : Nat) | slice (cluster : Nat) | lp6 (die : Nat) | host
  deriving DecidableEq, Repr

/-- Bytes of one memory, in order. -/
structure Area where
  store : Store
  bytes : List Nat

/-- Bytes with the mark of those that lie in an undeliverable word. -/
abbrev Blob := List (Byte × Bool)

def plainBlob (bs : List Byte) : Blob := bs.map fun b => (b, false)

def readArea (s : State) (a : Area) : Blob :=
  let of (r : Ram) : Blob := a.bytes.map fun p => (Mem.byte r.bytes p, r.bad (p / 8))
  match a.store with
  | .sp c => of (s.cell c).sp
  | .slice k => of (s.cluster k).slice
  | .lp6 d => of (s.die d).lp6
  | .host => a.bytes.map fun p => (Mem.byte s.host p, false)

def putBlob (r : Ram) (ps : List Nat) (b : Blob) : Ram :=
  let z := List.zip ps b
  Ram.mark (r.merge (z.map fun x => (x.1, x.2.1, 0xFF))) ((z.filter fun x => x.2.2).map fun x => x.1 / 8).eraseDups

def writeArea (s : State) (a : Area) (b : Blob) : State :=
  match a.store with
  | .sp c => s.modCell c fun x => { x with sp := putBlob x.sp a.bytes b }
  | .slice k => s.modCluster k fun x => { x with slice := putBlob x.slice a.bytes b }
  | .lp6 d => s.modDie d fun x => { x with lp6 := putBlob x.lp6 a.bytes b }
  | .host => (List.zip a.bytes b).foldl (fun s x => { s with host := Mem.setByte s.host x.1 x.2.1 }) s

/-- A read of some bytes meets their check bits (R309): flips are corrected and counted, and words that cannot be delivered are marked and
counted, those of a slice with the domain's lowest cell there, since no cell reads them (DESIGN CHOICE, log 82). -/
def meetArea (s : State) (d : Nat) (a : Area) : State :=
  let ws := (a.bytes.map fun p => p / 8).eraseDups
  let one (r : Ram) : List Nat := ws.filter fun w => !Ram.bad r w && decide (SMap.get 0 r.err w ≠ 0)
  let new (r : Ram) : List Nat := ws.filter fun w => Ram.bad r w && !SMap.get false r.poison w
  let met (r : Ram) : Ram := Ram.mark (Ram.scrub r (one r)) (new r)
  match a.store with
  | .sp c => s.modCell c fun x => { x.countErr (one x.sp).length (new x.sp).length with sp := met x.sp }
  | .slice k =>
    let r := (s.cluster k).slice
    if one r = [] ∧ new r = [] then s
    else
      let s := s.modCluster k fun y => { y with slice := met r, cbc := satAdd16 y.cbc (one r).length }
      ((s.dom d).cells.find? fun c => c / 16 == k).elim s fun c => s.modCell c fun x => x.countErr 0 (new r).length
  | .lp6 d => s.modDie d fun x => (ws.map fun w => w / 8).eraseDups.foldl meetLine x
  | .host => s

/-- Bytes to be written somewhere: what `make` gives of the bytes of some areas. -/
structure Transfer where
  dst : Area
  srcs : List Area
  make : List Blob → Blob

def Transfer.plain (x : Area × Blob) : Transfer := ⟨x.1, [], fun _ => x.2⟩
def Transfer.copy (dst src : Area) : Transfer := ⟨dst, [src], fun l => l.headD []⟩
def Transfer.read (s : State) (m : Transfer) : Area × Blob := (m.dst, m.make (m.srcs.map (readArea s)))
def meetTransfers (s : State) (d : Nat) (l : List Transfer) : State := l.foldl (fun s m => m.srcs.foldl (fun s a => meetArea s d a) s) s

def writeAreas (s : State) (l : List (Area × Blob)) : State := l.foldl (fun s x => writeArea s x.1 x.2) s

/-- Bytes of a domain's share of a slice from an offset, none beyond the share. -/
def shareArea (s : State) (d k o n : Nat) : Area :=
  ⟨.slice k, ((upFrom o n).filter fun a => decide (a < s.shareSize d k)).map (s.shareByte d k)⟩

/-! Tiles (R219, R220). -/

/-- The entry of a tile in a table at an address. -/
def tileEntry (s : State) (d : Nat) (t : BitVec 512) (ttp i : Nat) : Word :=
  if tHome t = 1 then BitVec.ofNat 64 (s.readShare d (tCluster t) (ttp + 8 * i) 8)
  else BitVec.ofNat 64 (Ram.readN (s.die (tDie t)).lp6 (ttp + 8 * i) 8)

/-- `n` bytes of a tile from a byte of it, in the frame that its entry names; an entry that is not valid names none. -/
def tileArea (s : State) (d : Nat) (t : BitVec 512) (entry : Word) (ofs n : Nat) : Area :=
  let frame := entryFrame entry
  let n := if entry.getLsbD 0 then n else 0
  match tHome t with
  | 1 =>
    let swz (a : Nat) : Nat := a ^^^ (a / 2 ^ tField t 32 5 % 2 ^ tField t 37 4 * 8)
    ⟨.slice (tCluster t), (((upFrom (frame + ofs) n).map swz).filter fun a => decide (a < s.shareSize d (tCluster t))).map
      (s.shareByte d (tCluster t))⟩
  | 2 => ⟨.host, upFrom (frame + ofs) n⟩
  | _ => ⟨.lp6 (tDie t), upFrom (frame + ofs) n⟩

/-! Channels (R267, R283, R316). -/

/-- The bytes of place `p` of a channel's record area. -/
def recordArea (s : State) (d : Nat) (b : Binding) (c : Chan) (p : Nat) : Area :=
  match c.kind with
  | 0 => ⟨.sp c.home, upFrom (c.base + p * c.size) c.size⟩
  | 2 =>
    let t := SMap.get 0 b.tensors c.base
    tileArea s d t (tileEntry s d t ((SMap.get [] b.versions c.base).getD 0 0) p) 0 c.size
  | _ => shareArea s d c.home (c.base + p * c.size) c.size

/-- The handle of a place (R267). -/
def Chan.handle (c : Chan) (p : Nat) : Word := BitVec.ofNat 64 (if c.kind = 2 then p * c.size else c.base + p * c.size)

/-- Whether a channel's end is the host or a span. -/
def Chan.hostEnd (c : Chan) : Bool := c.fstg == 0xFFFF || c.tstg == 0xFFFF
def Chan.spanOut (c : Chan) : Bool := c.tstg == 0xFFFE

/-- Bytes of an initial record in the DATA section. -/
def initRecord (b : Binding) (c : Chan) (p : Nat) : List Byte :=
  (List.range c.size).map fun i => b.data.getD (c.dataOfs + p * c.size + i) 0

/-- A channel with its `.init` records, and the record bytes to write (R281, R316, R336). -/
def startChan (s : State) (d : Nat) (b : Binding) (c : Chan) : ChanState × List (Area × Blob) :=
  let ps := List.range c.init
  let m := c.init % countMod c.cap
  if c.hostEnd then
    ({ queue := ps.map fun p => BitVec.ofNat 64 (leNat (initRecord b c p)), tail := m }, [])
  else if c.spanOut then ({ tail := m, phead := m, ptail := m }, [])
  else
    ({ queue := ps.map c.handle, tail := m, phead := m, ptail := m },
      ps.map fun p => (recordArea s d b c p, plainBlob (initRecord b c p)))

/-- Whether two bindings hold the same block under a number. -/
def sameBlock (a b : Binding) (n : Nat) : Bool :=
  n == 0 || decide ((SMap.get {} a.blocks n).code = (SMap.get {} b.blocks n).code)

/-- The rank of a stage among those of its table that run its block. -/
def stageRank (t : Table) (n blk : Nat) : Nat := ((t.stages.take n).filter fun y => y.blk == blk).length

/-- Whether two stages correspond (R283): block, alternate and rank are the same; a channel's outer ends are themselves. -/
def sameStage (a b : Binding) (ta tb : Table) (m n : Nat) : Bool :=
  if 0xFFFE ≤ m ∨ 0xFFFE ≤ n then m == n
  else match ta.stages[m]?, tb.stages[n]? with
    | some x, some y => x.blk == y.blk && x.alt == y.alt && stageRank ta m x.blk == stageRank tb n y.blk &&
        sameBlock a b x.blk && sameBlock a b x.alt
    | _, _ => false

/-- Whether channel `x` of an old table carries over into channel `c` of the new one (R283). -/
def carries (a b : Binding) (ta tb : Table) (x c : Chan) : Bool :=
  x.carry && c.carry && x.fmt == c.fmt && x.size == c.size && x.init == c.init && x.fport == c.fport && x.tport == c.tport &&
  !((fmtOfCode c.fmt).any fun f => f.isComplex) && sameStage a b ta tb x.fstg c.fstg && sameStage a b ta tb x.tstg c.tstg

/-- Offset of a staging place. -/
def Chan.stagePlace (c : Chan) (p : Nat) : Nat := c.pbase + p * c.size

/-- A carried channel: its values from the head up to the new capacity, those that equal the handle of their place rewritten,
and the records that move, on both sides of a channel whose records cross (R283, R298). -/
def moveChan (s : State) (d : Nat) (a b : Binding) (x c : Chan) (v : ChanState) : ChanState × List Transfer :=
  let keep := v.queue.take c.cap
  let head := v.head % countMod c.cap
  let is := List.range keep.length
  let vals := List.zipWith (fun i w => if w = x.handle ((v.head + i) % x.cap) then c.handle ((head + i) % c.cap) else w) is keep
  let js := List.zip (List.range v.staged.length) v.staged
  let own (z : Nat × Staged) : Bool := z.2.ofs == x.stagePlace ((v.phead + z.1) % x.cap)
  let staged := js.map fun z => if own z then { z.2 with ofs := c.stagePlace ((v.phead + z.1) % c.cap) } else z.2
  ({ v with queue := vals, head := head, tail := (head + keep.length) % countMod c.cap,
            drop := v.drop + (v.queue.length - keep.length), commits := [], phead := v.phead % countMod c.cap,
            ptail := (v.phead + (v.ptail + countMod x.cap - v.phead) % countMod x.cap) % countMod c.cap, staged := staged },
    (if c.hostEnd ∨ c.spanOut then [] else is.map fun i =>
      .copy (recordArea s d b c ((head + i) % c.cap)) (recordArea s d a x ((v.head + i) % x.cap))) ++
    (if c.crosses then (js.filter own).map fun z =>
      .copy (shareArea s d c.phome (c.stagePlace ((v.phead + z.1) % c.cap)) c.size) (shareArea s d x.phome z.2.ofs c.size)
    else []))

/-- The channel of an old table that carries over into a channel of the new one, with its number. -/
def carriedFrom (old : Option (Binding × Table)) (b : Binding) (t : Table) (c : Chan) : Option (Nat × Chan) :=
  match old with
  | none => none
  | some (a, ta) => (List.zip (List.range ta.chans.length) ta.chans).find? fun x => carries a b ta t x.2 c

/-- Each channel of the new table: carried from the old one, or started anew. -/
def nextChan (s : State) (d : Nat) (old : Option (Binding × Table)) (b : Binding) (t : Table) (c : Chan) :
    ChanState × List Transfer :=
  match old, carriedFrom old b t c with
  | some (a, _), some (m, x) => moveChan s d a b x c ((s.dom d).chan m)
  | _, _ => let z := startChan s d b c; (z.1, z.2.map Transfer.plain)

/-- Late records on their way arrive on the channel that carries theirs over (R283, R319); those of a channel that ends do not. -/
def renumberLate (s : State) (d : Nat) (froms : List (Option Nat)) : State :=
  { s with agenda := s.agenda.filterMap fun y =>
      match y.ev with
      | .lateRecordArrival e m =>
        if e ≠ d then some y
        else if froms.contains (some m) then some { y with ev := .lateRecordArrival d (froms.idxOf (some m)) }
        else none
      | _ => some y }

/-! Tensors (R266, R284). -/

/-- What two tensors of one id share when one is rebuilt from the other: format, free-form word, extents. Tensors that differ in one
of them are different tensors, and the new one takes its `.data` (DESIGN CHOICE, log 75). -/
def tShape (t : BitVec 512) : Nat × Nat × List Nat := (tField t 0 8, tField t 104 18, tExtents t)

/-- Whether tiles of two tensors of one shape hold the same elements at the same places. -/
def sameTiles (t u : BitVec 512) : Bool := tTile t == tTile u && tField t 30 1 == tField u 30 1

def tTiles (t : BitVec 512) : Nat := tField t 352 32

/-- Where element `n`, in row-major order, of a tensor lies: its tile and the bit in it (R219). -/
def elementPlace (t : BitVec 512) (w n : Nat) : Nat × Nat :=
  let es := tExtents t
  let idx := (es.foldr (fun e (acc : Nat × List Nat) => (acc.1 / e, acc.1 % e :: acc.2)) (n, [])).2
  let ts := tTile t
  (tileNo t (List.zipWith (· / ·) idx ts), w * mixed (List.zipWith (· % ·) idx ts) ts)

/-- A tile's bytes from the initial contents: elements in row-major order; of an MX tensor, its tile images in order. Elements that the
contents do not give are zero, and bytes beyond the last element go nowhere (log 79). -/
def initTile (t : BitVec 512) (f : Fmt) (dat : Nat → Byte) (len tile : Nat) : List Byte :=
  if f.isMx then (List.range (tBytes t)).map fun i => if tile * tBytes t + i < len then dat (tile * tBytes t + i) else 0
  else
    let w := fmtBits f
    let bits := (List.range (Nat.min (prodOf (tExtents t)) (8 * len / w))).foldl (fun (acc : Nat) n =>
      let p := elementPlace t w n
      if p.1 = tile then
        let at_ := n * w
        let run := leNat ((List.range ((at_ % 8 + w + 7) / 8)).map fun i => dat (at_ / 8 + i))
        acc + run / 2 ^ (at_ % 8) % 2 ^ w * 2 ^ p.2
      else acc) 0
    leBytes (tBytes t) bits

/-- Where element `n` of a tensor lies: its tile, and its bits in it, each run as first bit and width; of an MX tensor with the scale
of its block (R219, R128). -/
def elementParts (t : BitVec 512) (f : Fmt) (n : Nat) : Nat × List (Nat × Nat) :=
  let p := elementPlace t f.width n
  (p.1, (p.2, f.width) :: if f.isMx then [(8 * ((prodOf (tTile t) * f.width + 7) / 8 + p.2 / f.width / 32), 8)] else [])

/-- The bytes of tile `i` of a tensor, each element as the tiles of an older tensor of other tiles hold it. -/
def gatherTile (t u : BitVec 512) (f : Fmt) (old : Nat → Blob) (i : Nat) : Blob :=
  let z := (List.range (prodOf (tExtents t))).flatMap fun n =>
    let p := elementParts t f n
    let q := elementParts u f n
    if p.1 = i then List.zipWith (fun x y => (x, q.1, y.1)) p.2 q.2 else []
  let v := z.foldl (fun v x => v ||| leNat ((old x.2.1).map fun y => y.1) / 2 ^ x.2.2 % 2 ^ x.1.2 * 2 ^ x.1.1) 0
  let bad := z.filter fun x => (((old x.2.1).drop (x.2.2 / 8)).take ((x.2.2 % 8 + x.1.2 + 7) / 8)).any fun y => y.2
  (List.zip (leBytes (tBytes t) v) (List.range (tBytes t))).map fun y =>
    (y.1, bad.any fun x => decide (x.1.1 / 8 ≤ y.2 ∧ 8 * y.2 < x.1.1 + x.1.2))

/-- The tensor of an old binding from which one of a new binding is rebuilt: its descriptor and the tables of its versions. -/
def oldTensor (old : Option Binding) (tid : Nat) (t : BitVec 512) : Option (BitVec 512 × List Nat) :=
  match old with
  | none => none
  | some a =>
    match a.tensors.find? fun x => x.1 == tid with
    | some x => if tShape x.2 = tShape t then some (x.2, SMap.get [] a.versions tid) else none
    | none => none

/-- The bytes of a tensor's versions as rebuilt: read by the tables of `s`, placed by those of `s'` (R284). -/
def rebuildTensor (s s' : State) (d : Nat) (b : Binding) (tid : Nat) (t u : BitVec 512) (us : List Nat) : List Transfer :=
  let vs := SMap.get [] b.versions tid
  (List.zip (List.range vs.length) vs).flatMap fun v =>
    let w := us.getD v.1 (us.getD 0 0)
    let old (i : Nat) : Area := tileArea s d u (tileEntry s d u w i) 0 (tBytes u)
    (List.range (tTiles t)).map fun i =>
      let to_ := tileArea s' d t (tileEntry s' d t v.2 i) 0 (tBytes t)
      if sameTiles t u then .copy to_ (old i)
      else ⟨to_, (List.range (tTiles u)).map old, fun l => gatherTile t u ((tFmt t).getD .n8) (fun j => l.getD j []) i⟩

/-- The `.data` contents of a tensor, in version 0 (R266); none are written where it declares none. -/
def dataTensor (s : State) (d : Nat) (b : Binding) (tid : Nat) (t : BitVec 512) : List (Area × Blob) :=
  match SMap.get (0, 0) b.tensorData tid, tFmt t with
  | (ofs, len), some f =>
    if len = 0 then []
    else (List.range (tTiles t)).map fun i =>
      (tileArea s d t (tileEntry s d t ((SMap.get [] b.versions tid).getD 0 0) i) 0 (tBytes t),
        plainBlob (initTile t f (fun k => b.data.getD (ofs + k) 0) len i))
  | _, none => []

/-- What the binding itself writes of a tensor, before it takes effect: the contents in LP6 frames that nothing else holds; and of
a partition that has no binding yet, those in its shares (R266, R281). The contents of a host tensor are written nowhere (log 79). -/
def boundContents (s : State) (d : Nat) (old : Option Binding) (b : Binding) : List (Area × Blob) :=
  b.tensors.flatMap fun x =>
    if (oldTensor old x.1 x.2).isNone ∧ (tHome x.2 = 0 ∨ (tHome x.2 = 1 ∧ old.isNone)) then dataTensor s d b x.1 x.2 else []

/-- What the switch writes of a tensor: one rebuilt from the old binding, or a new one in a share that was in use (R284). -/
def switchContents (s s' : State) (d : Nat) (old : Option Binding) (b : Binding) : List Transfer :=
  b.tensors.flatMap fun x =>
    match oldTensor old x.1 x.2 with
    | some (u, us) => rebuildTensor s s' d b x.1 x.2 u us
    | none => if tHome x.2 = 1 ∧ old.isSome then (dataTensor s' d b x.1 x.2).map Transfer.plain else []

/-- Entries of a host tensor whose tiles stay as they were carry over with the tensor: the binding knows no host addresses (R224). -/
def hostEntries (old : Option Binding) (b : Binding) : List Transfer :=
  b.tensors.flatMap fun x =>
    match oldTensor old x.1 x.2 with
    | some (u, us) =>
      if tHome x.2 = 2 ∧ tHome u = 2 ∧ sameTiles x.2 u then
        [.copy ⟨.lp6 (tDie x.2), upFrom ((SMap.get [] b.versions x.1).getD 0 0) (8 * tTiles x.2)⟩
          ⟨.lp6 (tDie u), upFrom (us.getD 0 0) (8 * tTiles u)⟩]
      else []
    | none => []

/-- Tile tables of cluster-homed tensors, which the share takes when the binding does (R281, R282). -/
def shareTables (s : State) (d : Nat) (b : Binding) : List (Area × Blob) :=
  b.shareTabs.map fun x => (shareArea s d x.1 x.2.1 (8 * x.2.2.length), plainBlob (x.2.2.flatMap fun (e : Word) => leBytes 8 e.toNat))

/-- Frames that the entries of the bound tensors mark as replicas (R222). -/
def replicaMarks (s : State) (d : Nat) (b : Binding) : List Mark :=
  b.tensors.flatMap fun x =>
    if tHome x.2 = 0 then
      (SMap.get [] b.versions x.1).flatMap fun ttp =>
        (List.range (tTiles x.2)).filterMap fun i =>
          let e := tileEntry s d x.2 ttp i
          if e.getLsbD 0 && e.getLsbD 2 then 
            some ⟨tDie x.2, entryFrame e / 4096, frameSize (field e 3 2) / 4096, x.1, i⟩ else none
    else []

/-! Generators, objects, caches (R133, R255, R223). -/

def seedCell (s : State) (seed : BitVec 32) (c : Nat) : State :=
  let u := unitNumber (c / 64) (c / 16 % 4) (c % 16)
  s.modCell c fun x => { x with genV := genSeed seed (u 0), genD := genSeed seed (u 1), genX := genSeed seed (u 2) }

def seedEngine (s : State) (seed : BitVec 32) (e : Nat) : State :=
  let u := unitNumber (e / 8) (e / 2 % 4) 0
  s.modEngine e fun x =>
    { x with genC := genSeed seed (u (8 + e % 2)), core := { x.core with genV := genSeed seed (u (10 + e % 2)) } }

def seedAll (s : State) (d : Nat) : State :=
  let x := s.dom d
  let s := x.cells.foldl (fun s c => seedCell s x.seed c) s
  x.clusters.foldl (fun s k => seedEngine (seedEngine s x.seed (2 * k)) x.seed (2 * k + 1)) s

/-- Granted semaphores and barriers become zero. -/
def zeroObjects (s : State) (d : Nat) : State :=
  let g := (s.dom d).grant
  (s.dom d).clusters.foldl (fun s k => s.modCluster k fun x =>
    { x with sems := x.sems.filter fun y => !(decide (g.semBase ≤ y.1 ∧ y.1 < g.semBase + g.semCnt)),
             bars := x.bars.filter fun y => !(decide (g.barBase ≤ y.1 ∧ y.1 < g.barBase + g.barCnt)) }) s

/-! Records that cross: their arrival (R316, R317, R351). -/

/-- The port at which a device sends in a direction: 2 L + dir of a ring link, 8 + 2 q + dir of a span port (R315, R343). -/
def portOf (key : Nat) : Nat := if key < 8 then (if key % 2 = 0 then 2 * (key / 2) + 1 else 2 * ((key / 2 + 1) % 4)) else 12 + (key - 8) / 2

/-- Whether CW.XINJ of a cell names a receiving port (R351). -/
def xinjAt (c : Nat) (x : Cell) (port : Nat) : Bool :=
  x.xinj.getLsbD 63 && (match x.xinj.toNat % 4 with
    | 0 => port == 2 * dieOf c
    | 1 => port == 2 * dieOf c + 1
    | 2 => port == 12
    | _ => port == 13)

/-- An expander's count for a cell goes on by some bytes: the one among them that the cell's flip names clears ARM (R351). -/
def Cell.countXinj (x : Cell) (count : Nat) : Cell × Option Nat :=
  let n := field x.xinj 8 24
  let y := { x with xinjCount := x.xinjCount + count }
  if x.xinjCount ≤ n ∧ n < x.xinjCount + count then ({ y with xinj := y.xinj &&& 0x7FFFFFFFFFFFFFFF }, some (n - x.xinjCount))
  else (y, none)

/-- A blob with one bit of a byte inverted. -/
def Blob.flip (b : Blob) (i bit : Nat) : Blob := b.modify i fun y => (y.1 ^^^ BitVec.ofNat 8 (2 ^ bit), y.2)

/-- A span port delivers bytes of another device's records: each cell's flip is made in the byte it names (R351). -/
def flipFor (s : State) (port : Nat) (acc : Blob × State) (c : Nat) : Blob × State :=
  let x := s.cell c
  if xinjAt c x port = false then acc
  else
    let y := x.countXinj acc.1.length
    (y.2.elim acc.1 fun i => acc.1.flip i (field x.xinj 2 3), acc.2.setCell c y.1)

/-- A bit of a record on its way inverted. -/
def ChanState.flip (v : ChanState) (uid i bit : Nat) : ChanState :=
  let one (x : Staged) : Staged := if x.uid = uid then { x with sent := Blob.flip x.sent i bit } else x
  { v with staged := v.staged.map one, inFlight := v.inFlight.map one, lateFlight := v.lateFlight.map one }

/-- A ring port's expander delivers a run of a record's bytes (R351). -/
def deliverSeg (s : State) (port : Nat) (g : Seg) : State :=
  (cellKeys s).foldl (fun s c =>
    let x := s.cell c
    if xinjAt c x port = false then s
    else
      let y := x.countXinj g.count
      let s := s.setCell c y.1
      y.2.elim s fun i => s.modDom g.dom fun d =>
        { d with chans := d.chans.map fun z => if z.1 = g.chan then (z.1, z.2.flip g.uid (g.first + i) (field x.xinj 2 3)) else z }) s

/-- The other end of a port delivers what a test accepts of the bytes on their way, in order. -/
def deliverSegs (s : State) (port : Nat) (test : Seg → Bool) : State :=
  match peerPort port with
  | none => s
  | some q =>
    let gs := (s.port port).segs.filter test
    if gs.isEmpty then s
    else gs.foldl (fun s g => deliverSeg s q g) (s.modPort port fun x => { x with segs := x.segs.filter fun g => !test g })

/-- A record arrives at the consumer's side: written at the tail's place, or discarded and counted (R317, R319). -/
def storeRecord (s : State) (d n : Nat) (b : Binding) (c : Chan) (x : Blob) : State :=
  let v := (s.dom d).chan n
  if c.cap ≤ v.queue.length then s.modChan d n fun v => { v with drop := v.drop + 1 }
  else
    let p := v.tail % Nat.max c.cap 1
    (writeArea s (recordArea s d b c p) x).modChan d n fun v =>
      { v with queue := v.queue ++ [c.handle p], tail := (v.tail + 1) % countMod c.cap }

/-- Records arrive, and the header and the waiting cells follow. -/
def storeRecords (s : State) (d n : Nat) (xs : List Blob) : State :=
  match (s.dom d).active, (s.dom d).table with
  | some b, some t =>
    match t.chans[n]? with
    | some c => if xs.isEmpty ∨ c.spanOut then s else wakeRecv (writeHeaders (xs.foldl (fun s x => storeRecord s d n b c x) s) d n) d (cellKeys s)
    | none => s
  | _, _ => s

/-- Records whose last byte has left count in the producer's HEAD (R317). -/
def ChanState.left (v : ChanState) (cap : Nat) : ChanState := { v with phead := (v.phead + v.leaving) % countMod cap, leaving := 0 }

/-- Records on their way when a table ends arrive with it. -/
def flushFlight (s : State) (d : Nat) : State :=
  let s := (upFrom 0 8).foldl (fun s p => deliverSegs s p fun g => g.dom == d) s
  (s.dom d).chans.foldl (fun s x =>
    let s := s.modChan d x.1 fun v => v.left (((s.dom d).table.bind fun t => t.chans[x.1]?).elim 1 fun c => c.cap)
    let l := ((s.dom d).chan x.1).inFlight
    if l.isEmpty then s
    else storeRecords (s.modChan d x.1 fun v => { v with inFlight := [] }) d x.1 (l.map fun y => y.sent)) s

/-! The walk of a period (R112). -/

/-- A column's entries with their numbers. -/
def numbered (col : List Entry) : List (Nat × Entry) := List.zip (List.range col.length) col

/-- Put the entries of one cell's column on the agenda for the period that begins at a cycle; one that is corrupt is met within the
period whatever start it shows (R109). -/
def walkColumn (s : State) (d origin c : Nat) (col : List Entry) : State :=
  (numbered col).foldl (fun s x =>
    let e := x.2
    if e.corrupt then s.schedPhase d (origin + e.start % (s.dom d).periodCycles) (.blockRelease c x.1)
    else s.schedPhase d (origin + e.start) (if e.kind = 1 then .forkRead c x.1 else .blockRelease c x.1)) s

/-- Put the next start of every slot of a direction that is owned twice on the agenda, for its record (R315). -/
def armTwice (s : State) (key from_ : Nat) : State :=
  let m := twiceOwned s Table.linkOwn key
  if m = 0 then s
  else
    let t := { s with now := s.now + from_ }
    ((upFrom 0 512).filter fun n => m.getLsbD n).foldl (fun s n =>
      let ev : Instr := .linkSlot (portOf key) (15360 + n)
      if s.isSched ev then s else s.sched (t.now + (8 * n + tickCycles - t.tcyc) % tickCycles) ev) s

/-- Tables that take effect may own slots that another owns too, after a table-store fault. -/
def armOwners (s : State) (t : Table) : State :=
  t.linkOwn.foldl (fun s y => armTwice s y.1 0) (t.lp6Own.foldl (fun s y => armSlot s (y.1 / 8) (y.1 % 8) 0) s)

/-- The cell whose column is the first to hold a firing's entry. -/
def Table.holder (t : Table) (e : Entry) : Option Nat :=
  (t.columns.find? fun y => y.2.any fun z => z.stage == e.stage && z.k == e.k).map fun y => y.1

/-- The link slots of the period, and the arrivals (R317, R344). -/
def walkLinks (s : State) (d origin : Nat) (t : Table) : State :=
  let s := t.columns.foldl (fun s x => x.2.foldl (fun s e =>
    if t.holder e ≠ some x.1 then s
    else e.slots.foldl (fun s y =>
      s.schedPhase d (origin + y.2) (.linkSlot (portOf y.1) (512 * (d + 1) + y.2 % tickCycles / 8))) s) s) s
  (t.arrivals.filter fun y => !((t.chans[y.1]?).any Chan.spanOut)).foldl (fun s y =>
    s.schedPhase d (origin + y.2.2) (.streamArrival d y.1 ((t.chans[y.1]?).elim 0 fun c => c.push) y.2.1)) s

def walkPeriod (s : State) (d origin : Nat) (t : Table) : State :=
  let s := t.columns.foldl (fun s x => walkColumn s d origin x.1 x.2) s
  let s := s.schedPhase d (origin + t.period * tickCycles) (.modeChangePoint d 0)
  walkLinks (armOwners s t) d origin t

/-- Events of a domain's phase that are due or held, and its firings, end with its table. -/
def clearPhase (s : State) (d : Nat) : State :=
  { s with agenda := s.agenda.filter fun x => !decide (phaseDom s x.ev = some d) }.modDom d fun x =>
    { x with heldEvents := [], firings := [], heldTo := [] }

/-- The mode's table is that of the active binding; the period origin, the points and the latches start (R300, R301). -/
def startTable (s : State) (d mode : Nat) (t : Table) : State :=
  let now := s.phaseNow d
  let per := t.period * tickCycles
  let first := (8192 + per - 1) / per
  let s := s.modDom d fun x =>
    { x with mode := mode, t0 := now, pointNo := 1, latchNo := first, latched := [], bindReady := none, running := true, state := 2,
             degraded := x.degraded.map fun y => (y.1, first) }
  let s := s.schedPhase d (now + first * per - 8192) (.modeRequestLatch d)
  walkPeriod s d now t

/-- The banks change: code stores, limits, and the mapping of the shares are those of the binding in the standby bank. -/
def swapBanks (s : State) (d : Nat) (b : Binding) : State :=
  let x := s.dom d
  let s := x.cells.foldl (fun s c => s.modCell c fun y =>
    let l := SMap.get (0, 0, 0, 0) b.limits c
    { y with dom := d, code := y.codeStandby, codeStandby := y.code, codeErr := [], codePoison := [], limL := l.1, limC := l.2.1,
             limOB := l.2.2.1, limSOV := l.2.2.2 }) s
  s.modDom d fun x => { x with active := some b, standby := x.active, fresh := false }

/-- The lowest mode of a binding. -/
def lowestMode (b : Binding) : Nat := (b.tables.map fun t => t.id).foldl Nat.min 15

/-- Publishable buffers that both bindings hold keep their fronts, wherever their homes lie (R284): the entries keep what was published,
at new places. A buffer whose tensor is a new one starts with version 0 (log 75). -/
def keepFronts (old : Option Binding) (b : Binding) : Binding :=
  match old with
  | none => b
  | some a =>
    { b with pubs := b.pubs.map fun x =>
        match a.pubs.find? fun y => y.1 == x.1 && (b.tensors.find? fun t => t.1 == x.1).any fun t => (oldTensor old x.1 t.2).isSome with
        | some y =>
          let join (place data : BitVec 128) : BitVec 128 := (place &&& 0xFFFFFFFF) ||| (data &&& ~~~(0xFFFFFFFF : BitVec 128))
          (x.1, { x.2 with front := y.2.front, entry0 := join x.2.entry0 y.2.entry0, entry1 := join x.2.entry1 y.2.entry1 })
        | none => x }

/-- A table takes effect in this cycle: of the active binding, or of the one in the standby bank (R300, R281, R283, R284). `live`
says that a table was running, so that its channels may carry over. -/
def takeEffect (s : State) (d mode : Nat) (rebind live : Bool) : State :=
  let s := if live then flushFlight s d else s
  let x := s.dom d
  let old := x.active
  match (if rebind then x.standby.map (keepFronts old) else x.active) with
  | none => s
  | some b =>
    match b.table mode with
    | none => s
    | some t =>
      let from_ : Option (Binding × Table) := if live then match old, x.table with
        | some a, some ta => some (a, ta)
        | _, _ => none else none
      let s := clearPhase s d
      let chans := t.chans.map (nextChan s d from_ b t)
      let s := renumberLate s d (t.chans.map fun c => (carriedFrom from_ b t c).map fun x => x.1)
      let tabs := if rebind then (shareTables s d b).map Transfer.plain ++ hostEntries old b else []
      let fills := if rebind then switchContents s (writeAreas s (tabs.map (Transfer.read s))) d old b else []
      let moves := fills ++ chans.flatMap fun y => y.2
      let m := meetTransfers s d (tabs ++ moves)
      let s := if rebind then swapBanks (writeAreas m (tabs.map (Transfer.read m))) d b else m
      let s := writeAreas s (moves.map (Transfer.read m))
      let s := s.modDom d fun x => { x with mode := mode, chans := List.zip (List.range chans.length) (chans.map fun y => y.1) }
      let s := (List.range chans.length).foldl (fun s n => writeHeaders s d n) s
      let s := invalidateAll (zeroObjects (seedAll s d) d) d 0 true
      let s := if rebind then s.modDom d fun x => { x with marks := replicaMarks s d b } else s
      let s := s.modHub fun h => { h with anyTable := true, firstTable := match h.firstTable with | some f => some f | none => some s.now }
      startTable s d mode t

end Sys2Proof.Machine
end

