-- ==== Sys2Proof/Machine/Image.lean ====
section
/-! DEFINITION. Images: the layout of a byte image in host memory, the checks it meets at load, and what it declares (R42 to R48). -/

namespace Sys2Proof.Machine

/-- Little-endian numbers of an image, by offset and bytes. -/
abbrev Src := Nat → Nat → Nat

/-- A section, by its offset in the image and its length. -/
structure Section where
  ofs : Nat
  len : Nat
  deriving DecidableEq, Repr

/-- A section read from its own start. -/
def Section.src (p : Section) (g : Src) : Src := fun o n => g (p.ofs + o) n
def Section.holds (p : Section) (o n : Nat) : Bool := decide (o + n ≤ p.len)

/-- What a mode declares (R48). -/
structure ModeDecl where
  id : Nat
  safe : Bool
  linkdeg : Bool
  period : Nat
  peak : Nat
  stages : List Stage
  chans : List Chan
  deriving DecidableEq, Repr

/-- What a tensor declares: its descriptor, its initial contents, and the block that publishes it, 0 for none (R48). -/
structure TensorDecl where
  desc : BitVec 512
  dataOfs : Nat
  dataLen : Nat
  pub : Nat
  deriving DecidableEq, Repr

/-- The place of a stage's first cell in a variant (R48). -/
structure Placement where
  mode : Nat
  stage : Nat
  die : Nat
  cluster : Nat
  cell : Nat
  deriving DecidableEq, Repr

/-- An image as loaded: modes in ascending id, tensors by id. -/
structure Image where
  certified : Bool := false
  blocks : List BlockInfo := []
  modes : List ModeDecl := []
  tensors : List TensorDecl := []
  data : List Byte := []
  variants : List (Nat × List Placement) := []
  bytes : List Byte := []
  deriving DecidableEq, Repr

/-! The header (R45 to R47). -/

def sectionCount (g : Src) : Nat := g 0x08 4

/-- Entries of the section table: id, section. -/
def sectionTable (g : Src) : List (Nat × Section) :=
  (List.range (sectionCount g)).map fun i => let a := 0x10 + 16 * i; (g a 4, ⟨g (a + 8) 4, g (a + 12) 4⟩)

def findSection (t : List (Nat × Section)) (id : Nat) : Option Section := (t.find? fun x => x.1 == id).map fun x => x.2

/-- An optional section; an empty one where it is missing. -/
def sectionOf (t : List (Nat × Section)) (id : Nat) : Section := (findSection t id).getD ⟨0, 0⟩

def headerGood (g : Src) (len : Nat) : Bool :=
  decide (16 ≤ len) && g 0 4 == 0x4D495A50 && g 6 2 / 2 == 0 && decide (1 ≤ sectionCount g ∧ sectionCount g ≤ 16) && g 0x0C 4 == 0 &&
  decide (0x10 + 16 * sectionCount g ≤ len) && (List.range (sectionCount g)).all fun i => g (0x14 + 16 * i) 4 == 0

/-- The section table. SIGNATURE is last by the sections' offsets; bytes after it belong to none and are not judged (log 79). -/
def tableGood (t : List (Nat × Section)) (len : Nat) : Bool :=
  let ids := t.map fun x => x.1
  let sig := sectionOf t 0x09
  (ids.all fun i => decide (1 ≤ i ∧ i ≤ 9)) && ids.eraseDups.length == ids.length && (t.all fun x => decide (x.2.ofs + x.2.len ≤ len)) &&
  ([0x01, 0x02, 0x03, 0x09].all fun i => ids.contains i) && t.all fun x => x.1 == 9 || decide (x.2.ofs + x.2.len ≤ sig.ofs)

/-! BLOCKS and CODE. -/

/-- `k` records of `n` bytes at an offset of a section, after the entries that end at `e` (R48). With none, the offset need only lie in
the section (log 79). -/
def Section.records (p : Section) (e o n k : Nat) : Bool := p.holds o (n * k) && (k == 0 || decide (e ≤ o))

/-- The fields of a block entry at an offset of BLOCKS. A tile-set record's TID and HI are not held against the tensors of the image
(log 79). -/
def blockGood (g : Src) (code blocks : Section) (n i : Nat) : Bool :=
  let b := blocks.src g
  let a := 16 + 64 * i
  let len := b (a + 0x14) 4
  b a 2 == i + 1 && decide (b (a + 2) 2 ≤ n) && decide (b (a + 4) 1 ≤ 4) && decide (b (a + 5) 1 < 4) && b (a + 6) 2 == 0 &&
  decide (1 ≤ b (a + 8) 8 ∧ b (a + 8) 8 < 2 ^ 40) && b (a + 0x10) 4 % 4 == 0 && decide (4 ≤ len ∧ len ≤ 65536) && len % 4 == 0 &&
  code.holds (b (a + 0x10) 4) len && blocks.records (16 + 64 * n) (b (a + 0x1C) 4) 16 (b (a + 0x18) 4) && b (a + 0x30) 16 == 0 &&
  (List.range (b (a + 0x18) 4)).all fun j =>
    let r := b (a + 0x1C) 4 + 16 * j
    decide (b (r + 2) 1 ≤ 1) && b (r + 3) 5 == 0 && decide (b (r + 8) 4 ≤ b (r + 12) 4)

def readBlock (g : Src) (code blocks : Section) (i : Nat) : BlockInfo :=
  let b := blocks.src g
  let a := 16 + 64 * i
  { id := b a 2, fbk := b (a + 2) 2, logsz := b (a + 4) 1, exit := b (a + 5) 1 % 2 == 1, ramp := b (a + 5) 1 / 2 == 1, wcet := b (a + 8) 8,
    code := (List.range (b (a + 0x14) 4 / 4)).map fun k => BitVec.ofNat 32 (code.src g (b (a + 0x10) 4 + 4 * k) 4),
    tiles := (List.range (b (a + 0x18) 4)).map fun j =>
      let r := b (a + 0x1C) 4 + 16 * j
      (b r 2, b (r + 2) 1 == 1, b (r + 8) 4, b (r + 12) 4),
    copies := (List.range 4).map fun k => b (a + 0x20 + 4 * k) 4 }

def blockCount (g : Src) (blocks : Section) : Nat := blocks.src g 0 4

/-- The offset at which `k` blocks that lie back to back from an offset of CODE end, whatever their order, or none. -/
def codeEnd (b : Src) (n k ofs : Nat) : Option Nat :=
  match k with
  | 0 => some ofs
  | k + 1 =>
    (((List.range n).map fun i => 16 + 64 * i).find? fun a => b (a + 0x10) 4 == ofs).bind fun a => codeEnd b n k (ofs + b (a + 0x14) 4)

/-- The BLOCKS and CODE sections; they may hold no block (log 79). -/
def blocksGood (g : Src) (code blocks : Section) : Bool :=
  let n := blockCount g blocks
  blocks.holds 0 16 && blocks.src g 4 12 == 0 && decide (n ≤ 65535) && blocks.holds 16 (64 * n) &&
  ((List.range n).all fun i => blockGood g code blocks n i) && codeEnd (blocks.src g) n n 0 == some code.len

/-! GRAPH. -/

def stageGood (b : Src) (n a : Nat) : Bool :=
  decide (1 ≤ b a 2 ∧ b a 2 ≤ n) && decide (b (a + 2) 2 ≤ n) && decide (b (a + 4) 1 < 64) && b (a + 5) 3 == 0 &&
  (b (a + 2) 2 != 0 || b (a + 4) 1 == 0)

def readStage (b : Src) (a : Nat) : Stage := { blk := b a 2, alt := b (a + 2) 2, fix := b (a + 4) 1 }

/-- A stage number, or an end off the device. -/
def isFar (n : Nat) : Bool := decide (0xFFFE ≤ n)

def readChan (b : Src) (a : Nat) : Chan :=
  { fstg := b a 2, fport := b (a + 2) 1, tport := b (a + 3) 1, tstg := b (a + 4) 2, fmt := b (a + 6) 1, scope := b (a + 7) 1,
    push := b (a + 8) 2, pop := b (a + 0x0A) 2, size := b (a + 0x0C) 4, init := b (a + 0x10) 2, carry := b (a + 0x12) 1 == 1,
    dataOfs := b (a + 0x14) 4 }

/-- The fields of a channel record among `n` stages. One end at least is a stage; an end off the device has system scope, and a
host's records have 8 bytes (R336, R352). -/
def chanGood (b : Src) (data : Section) (n a : Nat) : Bool :=
  let c := readChan b a
  (if isFar c.fstg then c.fport == 0 else decide (c.fstg < n) && (c.fport == 30 || c.fport == 31)) &&
  (if isFar c.tstg then c.tport == 0 else decide (c.tstg < n) && (c.tport == 28 || c.tport == 29)) &&
  !(isFar c.fstg && isFar c.tstg) && decide (c.scope ≤ 4) && (!(isFar c.fstg || isFar c.tstg) || c.scope == 4) &&
  decide (1 ≤ c.push ∧ 1 ≤ c.pop) && c.size % 8 == 0 && decide (8 ≤ c.size ∧ c.size ≤ 65536) && (!c.hostEnd || c.size == 8) &&
  decide (b (a + 0x12) 1 ≤ 1) && b (a + 0x13) 1 == 0 && b (a + 0x18) 8 == 0 && data.holds c.dataOfs (c.init * c.size)

/-- The fields of entry `i` of `n` modes. -/
def modeGood (g : Src) (graph data : Section) (nblk n i : Nat) : Bool :=
  let b := graph.src g
  let a := 16 + 32 * i
  let nst := b (a + 0x0C) 2
  let nch := b (a + 0x0E) 2
  let st := b (a + 0x10) 4
  let ch := b (a + 0x14) 4
  decide (b a 1 < 16) && decide (b (a + 1) 1 < 4) && b (a + 2) 2 == 0 && decide (1 ≤ b (a + 4) 4 ∧ b (a + 4) 4 ≤ 2 ^ 20) &&
  decide (b (a + 8) 2 ≤ 1360) && b (a + 0x0A) 2 == 0 && b (a + 0x18) 8 == 0 && graph.records (16 + 32 * n) st 8 nst && graph.records (16 + 32 * n) ch 32 nch &&
  ((List.range nst).all fun j => stageGood b nblk (st + 8 * j)) && (List.range nch).all fun j => chanGood b data nst (ch + 32 * j)

def readMode (g : Src) (graph : Section) (i : Nat) : ModeDecl :=
  let b := graph.src g
  let a := 16 + 32 * i
  { id := b a 1, safe := b (a + 1) 1 % 2 == 1, linkdeg := b (a + 1) 1 / 2 == 1, period := b (a + 4) 4, peak := b (a + 8) 2,
    stages := (List.range (b (a + 0x0C) 2)).map fun j => readStage b (b (a + 0x10) 4 + 8 * j),
    chans := (List.range (b (a + 0x0E) 2)).map fun j => readChan b (b (a + 0x14) 4 + 32 * j) }

def readModes (g : Src) (graph : Section) : List ModeDecl := (List.range (graph.src g 0 4)).map (readMode g graph)

/-- The GRAPH section; it may hold no mode (log 79). -/
def graphGood (g : Src) (graph data : Section) (nblk : Nat) : Bool :=
  let n := graph.src g 0 4
  let ms := readModes g graph
  graph.holds 0 16 && graph.src g 4 12 == 0 && decide (n ≤ 16) && graph.holds 16 (32 * n) &&
  ((List.range n).all fun i => modeGood g graph data nblk n i) && (ms.map fun m => m.id).eraseDups.length == n &&
  decide ((ms.filter fun m => m.safe).length ≤ 1 ∧ (ms.filter fun m => m.linkdeg).length ≤ 1)

/-! TENSORS, FORMATS, VARIANTS. -/

/-- Whether a free-form word is possible (R18, R20). -/
def freeWordGood (w : Nat) : Bool := fmtWordOk w

/-- Reserved bits, reserved values and the image fields of a descriptor (R217, R48). -/
def tensorGood (v : Nat) (data : Section) (nblk : Nat) : Bool :=
  let t := BitVec.ofNat 512 v
  let f (lo n : Nat) : Nat := tField t lo n
  let n := tRank t
  decide (1 ≤ n ∧ n ≤ 6) && f 13 3 == 0 && decide (f 24 2 < 3) && f 31 1 == 0 && f 41 23 == 0 && f 122 6 == 0 && f 248 8 == 0 &&
  f (128 + 20 * n) (120 - 20 * n) == 0 && f (256 + 10 * n) (64 - 10 * n) == 0 && f 464 48 == 0 &&
  (if f 0 8 = 0x2F then freeWordGood (f 104 18) else f 104 18 == 0) && data.holds (f 384 32) (f 416 32) &&
  decide (f 448 16 ≤ nblk)

def readTensor (v : Nat) : TensorDecl :=
  let t := BitVec.ofNat 512 v
  { desc := BitVec.ofNat 512 (v % 2 ^ 384), dataOfs := tField t 384 32, dataLen := tField t 416 32, pub := tField t 448 16 }

def tensorsGood (g : Src) (ts data : Section) (nblk : Nat) : Bool :=
  ts.len % 64 == 0 && (List.range (ts.len / 64)).all fun i => tensorGood (ts.src g (64 * i) 64) data nblk

def formatsGood (g : Src) (fs : Section) : Bool :=
  fs.len % 8 == 0 && (List.range (fs.len / 8)).all fun i =>
    let w := fs.src g (8 * i) 8
    decide (w < 2 ^ 18) && freeWordGood w

/-- The placement record at an offset. -/
def readPlacement (b : Src) (a : Nat) : Option Placement :=
  if b (a + 1) 1 = 0 ∧ b (a + 7) 1 = 0 ∧ b a 1 < 16 ∧ b (a + 4) 1 < 4 ∧ b (a + 5) 1 < 16 ∧ b (a + 6) 1 < 16 then
    some { mode := b a 1, stage := b (a + 2) 2, die := b (a + 4) 1, cluster := b (a + 5) 1, cell := b (a + 6) 1 }
  else none

/-- `n` variants from an offset of VARIANTS. -/
def readVariants (g : Src) (vs : Section) (n a : Nat) : Option (List (Nat × List Placement)) :=
  match n with
  | 0 => some []
  | n + 1 =>
    let b := vs.src g
    let k := b (a + 4) 4
    if vs.holds a 16 && b (a + 8) 8 == 0 && vs.holds (a + 16) (8 * k) then
      match (List.range k).mapM fun i => readPlacement b (a + 16 + 8 * i), readVariants g vs n (a + 16 + 8 * k) with
      | some l, some r => some ((b a 4, l) :: r)
      | _, _ => none
    else none

def variantsOf (g : Src) (t : List (Nat × Section)) : Option (List (Nat × List Placement)) :=
  match findSection t 0x07 with
  | none => some []
  | some vs =>
    if vs.holds 0 16 && vs.src g 4 12 == 0 && decide (16 * vs.src g 0 4 ≤ vs.len) then readVariants g vs (vs.src g 0 4) 16 else none

/-! The load (R47). -/

/-- The contents of every section that R48 lays out. -/
def contentsGood (g : Src) (t : List (Nat × Section)) : Bool :=
  let code := sectionOf t 0x01
  let blocks := sectionOf t 0x02
  let data := sectionOf t 0x05
  blocksGood g code blocks && graphGood g (sectionOf t 0x03) data (blockCount g blocks) &&
  tensorsGood g (sectionOf t 0x04) data (blockCount g blocks) && formatsGood g (sectionOf t 0x06)

/-- Modes in ascending id. -/
def sortModes (ms : List ModeDecl) : List ModeDecl := (List.range 16).filterMap fun i => ms.find? fun m => m.id == i

/-- What a byte image declares, or none where it breaks R45 to R48. -/
def readImage (g : Src) (len : Nat) : Option Image :=
  if headerGood g len = false then none
  else
    let t := sectionTable g
    if tableGood t len = false then none
    else if contentsGood g t = false then none
    else
      let ts := sectionOf t 0x04
      let data := sectionOf t 0x05
      (variantsOf g t).map fun vs =>
        { certified := g 6 2 == 1,
          blocks := (List.range (blockCount g (sectionOf t 0x02))).map (readBlock g (sectionOf t 0x01) (sectionOf t 0x02)),
          modes := sortModes (readModes g (sectionOf t 0x03)),
          tensors := (List.range (ts.len / 64)).map fun i => readTensor (ts.src g (64 * i) 64),
          data := (List.range data.len).map fun i => BitVec.ofNat 8 (g (data.ofs + i) 1), variants := vs,
          bytes := (List.range len).map fun i => BitVec.ofNat 8 (g i 1) }

def statusFormat : Nat := 0x10
def statusLevel : Nat := 0x11
def statusSig : Nat := 0x12

/-- Bytes of an image's signature (R346). -/
def imageSigBytes : Nat := 16224

/-- Whether the SIGNATURE section verifies under an image-signing key over every byte before it (R346). -/
def signatureGood (s : State) (g : Src) (x : Image) : Bool :=
  let p := sectionOf (sectionTable g) 0x09
  p.len == imageSigBytes && s.hub.imageKeys.any fun k => Config.sigVerifies k (x.bytes.take p.ofs) ((x.bytes.drop p.ofs).take p.len)

/-- Load an image from host memory: what it declares, or the status of its refusal (R47). -/
def loadImage (s : State) (addr len : Nat) : Except Nat Image :=
  let g : Src := fun o n => if o + n ≤ len then Mem.readN s.host (addr + o) n else 0
  match readImage g len with
  | none => .error statusFormat
  | some x => if g 4 2 ≠ 1 then .error statusLevel else if signatureGood s g x then .ok x else .error statusSig

end Sys2Proof.Machine
end

