-- ==== Sys2Proof/Machine/Balance.lean ====
section
/-! DEFINITION. The balance engine's analysis of a mode: rates, firing order, formats, hazards (R264 to R266, R272, R274 to R277). -/

namespace Sys2Proof.Machine

/-- A failure and what the status record names (R272). -/
structure BindFail where
  code : Nat
  step : Nat := 0
  mode : Nat := 0
  edge : Nat := 0xFFFF
  block : Nat := 0
  tid : Nat := 0xFFFF
  stage : Nat := 0xFFFF
  tile0 : Nat := 0
  tile1 : Nat := 0
  deriving DecidableEq, Repr

/-- The 32 bytes of a status record, with the part's defect-map signature (R272). -/
def statusRecord (x : BindFail) (sig : BitVec 32) : List Byte :=
  leBytes 32 (x.code + x.step * 2 ^ 8 + x.mode * 2 ^ 12 + x.edge * 2 ^ 32 + x.block * 2 ^ 48 + x.tid * 2 ^ 64 + x.stage * 2 ^ 80 +
    x.tile0 * 2 ^ 96 + x.tile1 * 2 ^ 128 + sig.toNat * 2 ^ 160)

def statusRate : Nat := 0x01
def statusDeadlock : Nat := 0x02
def statusFmt : Nat := 0x03
def statusHazard : Nat := 0x04
def statusCapacity : Nat := 0x05
def statusNoDie : Nat := 0x06
def statusNoVariant : Nat := 0x07
def statusBudget : Nat := 0x08
def statusSched : Nat := 0x09
def statusDomain : Nat := 0x0A
def statusBusy : Nat := 0x0B

def Image.block (x : Image) (n : Nat) : BlockInfo := x.blocks.getD (n - 1) {}

/-- A list with the places of its members. -/
def withNo {α : Type} (l : List α) : List (Nat × α) := List.zip (List.range l.length) l

/-! Step 1: the repetition vector (R274). -/

/-- An edge: its number, producer, consumer, push and pop counts. An end off the device is a node of its own (R352). -/
structure Edge where
  no : Nat
  p : Nat
  q : Nat
  a : Nat
  b : Nat
  deriving DecidableEq, Repr

def ModeDecl.edges (m : ModeDecl) : List Edge :=
  let n := m.stages.length
  (withNo m.chans).map fun x =>
    { no := x.1, p := if isFar x.2.fstg then n + 2 * x.1 else x.2.fstg, q := if isFar x.2.tstg then n + 2 * x.1 + 1 else x.2.tstg,
      a := x.2.push, b := x.2.pop }

/-- A positive rational in lowest terms. -/
def ratio (n d : Nat) : Nat × Nat := let g := Nat.gcd n d; (n / g, d / g)

def rateOf (m : SMap (Nat × Nat)) (n : Nat) : Option (Nat × Nat) := (m.find? fun x => x.1 == n).map fun x => x.2

/-- A solve in progress: the rates known, the edges of the pass that stay unseen, the nodes of the component, and whether the
pass has seen an edge. -/
structure Solve where
  rep : SMap (Nat × Nat) := []
  kept : List Edge := []
  comp : List Nat := []
  changed : Bool := false
  deriving DecidableEq, Repr

def Solve.know (z : Solve) (n : Nat) (r : Nat × Nat) : Solve :=
  { z with rep := SMap.put z.rep n r, comp := n :: z.comp, changed := true }

/-- One edge of a pass; an inconsistent one is the error. -/
def visitEdge (z : Solve) (e : Edge) : Except Nat Solve :=
  match rateOf z.rep e.p, rateOf z.rep e.q with
  | none, none => .ok { z with kept := z.kept ++ [e] }
  | some r, none => .ok (z.know e.q (ratio (r.1 * e.a) (r.2 * e.b)))
  | none, some r => .ok (z.know e.p (ratio (r.1 * e.b) (r.2 * e.a)))
  | some r, some t => if r.1 * e.a * t.2 = t.1 * e.b * r.2 then .ok { z with changed := true } else .error e.no

/-- Passes over the unseen edges until one changes nothing. -/
def passEdges (fuel : Nat) (z : Solve) (unseen : List Edge) : Except Nat (Solve × List Edge) :=
  match fuel with
  | 0 => .ok (z, unseen)
  | n + 1 => do
    let z ← unseen.foldlM visitEdge { z with kept := [], changed := false }
    if z.changed then passEdges n z z.kept else .ok (z, z.kept)

/-- The component's rates as the smallest whole numbers. -/
def scaleComp (z : Solve) : SMap (Nat × Nat) :=
  let rs := z.comp.filterMap (rateOf z.rep)
  let l := rs.foldl (fun a r => Nat.lcm a r.2) 1
  let g := rs.foldl (fun a r => Nat.gcd a (r.1 * l / r.2)) 0
  z.comp.foldl (fun m n => match rateOf m n with
    | some r => SMap.put m n (r.1 * l / r.2 / g, 1)
    | none => m) z.rep

/-- Component by component, from the lowest unseen edge; a node from `n` on, an end off the device, must fire once (R352). -/
def solveRates (fuel n : Nat) (edges : List Edge) (rep : SMap (Nat × Nat)) (unseen : List Edge) : Except Nat (SMap (Nat × Nat)) :=
  match fuel, unseen with
  | k + 1, e :: r => do
    let z ← passEdges (r.length + 2) { rep := SMap.put rep e.p (1, 1), comp := [e.p] } (e :: r)
    let rep := scaleComp z.1
    let off (x : Nat) : Bool := decide (n ≤ x) && (rateOf rep x).any fun y => y.1 != 1
    match edges.find? fun x => off x.p || off x.q with
    | some x => .error x.no
    | none => solveRates k n edges rep z.2
  | _, _ => .ok rep

/-- Firings per period of each stage; the error is the edge. -/
def repetition (m : ModeDecl) : Except Nat (List Nat) := do
  let es := m.edges
  let rep ← solveRates es.length m.stages.length es [] es
  .ok ((List.range m.stages.length).map fun i => (rateOf rep i).elim 1 fun r => r.1)

/-! Step 2: the firing order (R275). -/

/-- Counters of a period: records held and largest so far by channel; firings left and done by stage; the order so far. -/
structure Period where
  cnt : List Nat
  peak : List Nat
  left : List Nat
  done : List Nat
  order : List (Nat × Nat) := []
  deriving DecidableEq, Repr

/-- An end off the device fires before every stage where it produces (R352). -/
def startPeriod (m : ModeDecl) (rep : List Nat) : Period :=
  let cnt := m.chans.map fun c => c.init + if isFar c.fstg then c.push else 0
  { cnt := cnt, peak := cnt, left := rep, done := rep.map fun _ => 0 }

def fireable (m : ModeDecl) (z : Period) (s : Nat) : Bool :=
  decide (0 < z.left.getD s 0) && (List.zip m.chans z.cnt).all fun x => x.1.tstg != s || decide (x.1.pop ≤ x.2)

def fireStage (m : ModeDecl) (z : Period) (s : Nat) : Period :=
  let cnt := (List.zip m.chans z.cnt).map fun x => x.2 - (if x.1.tstg = s then x.1.pop else 0) + if x.1.fstg = s then x.1.push else 0
  { cnt := cnt, peak := List.zipWith Nat.max z.peak cnt, left := z.left.modify s fun x => x - 1,
    done := z.done.modify s fun x => x + 1, order := z.order ++ [(s, z.done.getD s 0)] }

/-- Fire until nothing is left; the error is the starved stage and channel. -/
def runPeriod (m : ModeDecl) (fuel : Nat) (z : Period) : Except (Nat × Nat) Period :=
  match fuel with
  | 0 => .ok z
  | n + 1 =>
    let ss := List.range m.stages.length
    match ss.reverse.find? (fireable m z) with
    | some s => runPeriod m n (fireStage m z s)
    | none =>
      match ss.find? fun s => decide (0 < z.left.getD s 0) with
      | none => .ok z
      | some s =>
        .error (s, ((withNo (List.zip m.chans z.cnt)).find? fun x => x.2.1.tstg == s && decide (x.2.2 < x.2.1.pop)).elim 0xFFFF fun x => x.1)

/-! Step 3: formats and signatures (R276). -/

/-- Elements of a packed group, and of an MX format's (R123). -/
def fmtGroup (f : Fmt) : Nat := match f.width with | 4 => 2 | 6 => 4 | _ => 1

/-- The channel that a stage binds to a port. -/
def portEdge (m : ModeDecl) (s port : Nat) : Option (Nat × Chan) :=
  (withNo m.chans).find? fun x => if port < 30 then x.2.tstg == s && x.2.tport == port else x.2.fstg == s && x.2.fport == port

/-- A channel's own faults: its format, and a port that a lower channel binds too. -/
def chanFault (m : ModeDecl) (e : Nat) (c : Chan) : Bool :=
  (match fmtOfCode c.fmt with
    | none => true
    | some f => f.isMx || (f.width == 6 && c.size % 3 != 0)) ||
  (!isFar c.fstg && (portEdge m c.fstg c.fport).any fun x => decide (x.1 < e)) ||
  (!isFar c.tstg && (portEdge m c.tstg c.tport).any fun x => decide (x.1 < e))

/-- A use of a block: as a stage's block (0), as a fork's alternate (1), as a fallback (2). -/
structure BlockUse where
  mode : ModeDecl
  stage : Nat
  blk : Nat
  role : Nat
  deriving DecidableEq, Repr

def BlockUse.port (u : BlockUse) (p : Nat) : Option (Nat × Chan) := portEdge u.mode u.stage p

def blockUses (x : Image) (m : ModeDecl) : List BlockUse :=
  ((withNo m.stages).flatMap fun s => [⟨m, s.1, s.2.blk, 0⟩, ⟨m, s.1, s.2.alt, 1⟩, ⟨m, s.1, (x.block s.2.blk).fbk, 2⟩]).filter
    fun u => u.blk != 0

/-- Whether two uses of a block disagree on a port: formats, sizes and counts, or counts alone where one is a fallback. -/
def portDiffers (u v : BlockUse) (p : Nat) : Bool :=
  let count (c : Chan) : Nat := if p < 30 then c.pop else c.push
  match u.port p, v.port p with
  | none, none => false
  | some a, some b => count a.2 != count b.2 || (u.role != 2 && v.role != 2 && (a.2.fmt != b.2.fmt || a.2.size != b.2.size))
  | _, _ => true

/-- What a disagreement names: the edge of the later use, else an edge of the mode, else the block; a fork pair that does not bind the
same ports, the block. -/
def useFault (u v : BlockUse) (p : Nat) : Bool × Nat :=
  if u.role ≠ 2 ∧ v.role ≠ 2 ∧ (u.role = 1 ∨ v.role = 1) ∧ (u.port p).isSome ≠ (v.port p).isSome then (true, v.blk)
  else
    match v.port p, u.port p with
    | some b, _ => (false, b.1)
    | none, some a => if u.mode.id = v.mode.id then (false, a.1) else (true, v.blk)
    | none, none => (true, v.blk)

/-- The faults of a mode's uses of blocks against its own and those of lower modes. -/
def useFaults (x : Image) (m : ModeDecl) : List (Bool × Nat) :=
  let us := (x.modes.filter fun k => decide (k.id ≤ m.id)).flatMap (blockUses x)
  (withNo us).flatMap fun v =>
    if v.2.mode.id ≠ m.id then []
    else (us.take v.1).flatMap fun u =>
      if u.blk ≠ v.2.blk ∨ (u.role = 2 ∧ v.2.role = 2) then []
      else ([28, 29, 30, 31].filter (portDiffers u v.2)).map (useFault u v.2)

/-- Bytes of one tile (R219). -/
def tileBytes (t : BitVec 512) (f : Fmt) : Nat := (prodOf (tTile t) * f.width + 7) / 8 + if f.isMx then prodOf (tTile t) / 32 else 0

/-- The largest frame of a home (R219). -/
def largestFrame (home : Nat) : Nat := if home = 0 then 2 ^ 21 else 2 ^ 16

/-- The status of a tensor that its declaration refuses (R122, R123, R128, R201, R218). -/
def tensorFault (t : BitVec 512) : Option Nat :=
  let dom := tField t 11 2
  let inner := (tTile t).getLastD 1
  let b := if dom = 1 then 2 * inner else inner
  let sws := tField t 32 5
  let sww := tField t 37 4
  if dom = 3 then some statusDomain
  else
    match tFmt t with
    | none => some statusFmt
    | some f =>
      if inner % fmtGroup f ≠ 0 ∨ (f.isMx ∧ inner % 32 ≠ 0) ∨ (dom ≠ 0 ∧ (f.isComplex = false ∨ !([4, 8, 16, 32, 64, 128, 256].contains b))) ∨
          (sww ≠ 0 ∧ (tHome t ≠ 1 ∨ sws < 12 ∨ 19 < sws ∨ 20 < sws + sww)) then some statusFmt
      else if largestFrame (tHome t) < tileBytes t f then some statusCapacity
      else none

/-- Blocks, alternates and fallbacks of a mode. -/
def usedBlocks (x : Image) (m : ModeDecl) : List Nat := ((blockUses x m).map fun u => u.blk).eraseDups

/-- Whether a block of a mode declares a read (or a write) of a tensor. -/
def declares (x : Image) (m : ModeDecl) (tid : Nat) (write : Bool) : Bool :=
  (usedBlocks x m).any fun b => (x.block b).tiles.any fun t => t.1 == tid && t.2.1 == write

/-- A mode that reads a spectral tensor that another mode writes (R203). -/
def spectralFault (x : Image) (m : ModeDecl) (tid : Nat) (t : BitVec 512) : Bool :=
  (tField t 11 2 == 1 || tField t 11 2 == 2) && declares x m tid false && x.modes.any fun k => k.id != m.id && declares x k tid true

def checkFormats (x : Image) (m : ModeDecl) : Except BindFail Unit :=
  let bad : BindFail := { code := statusFmt, step := 3, mode := m.id }
  let uf := useFaults x m
  let edges := ((withNo m.chans).filter fun c => chanFault m c.1 c.2 || uf.contains (false, c.1)).map fun c => c.1
  match edges, uf.find? fun u => u.1 with
  | e :: _, _ => .error { bad with edge := e }
  | [], some u => .error { bad with block := u.2 }
  | [], none =>
    match (withNo x.tensors).findSome? fun t => match tensorFault t.2.desc with
        | some c => some (t.1, c)
        | none => if spectralFault x m t.1 t.2.desc then some (t.1, statusFmt) else none with
    | some t => .error { bad with code := t.2, tid := t.1 }
    | none => .ok ()

/-! Step 4: order and hazards (R277). -/

/-- The cells of a placed stage. -/
def stageCells (x : Image) (s : Stage) : List Nat :=
  match s.at0 with
  | some c => upFrom c (2 ^ (x.block s.blk).logsz)
  | none => []

def shareChannel (m : ModeDecl) (s t : Nat) : Bool :=
  m.chans.any fun c => (c.fstg == s || c.tstg == s) && (c.fstg == t || c.tstg == t)

/-- Whether firings of two stages share a channel, a stage or, once placed, a cell. -/
def linked (x : Image) (m : ModeDecl) (stages : List Stage) (s t : Nat) : Bool :=
  s == t || shareChannel m s t ||
  match stages[s]?, stages[t]? with
  | some a, some b => (stageCells x a).any fun c => (stageCells x b).contains c
  | _, _ => false

/-- For each firing of an order, the earlier ones that precede it, as the bits of a number. -/
def precedence (x : Image) (m : ModeDecl) (stages : List Stage) (order : List (Nat × Nat)) : List Nat :=
  (withNo order).foldl (fun acc f =>
    acc ++ [(withNo (order.take f.1)).foldl (fun w g =>
      if linked x m stages g.2.1 f.2.1 then w ||| 2 ^ g.1 ||| acc.getD g.1 0 else w) 0]) []

/-- The tile sets of a stage: of its block, its alternate and its fallback (R265, R277). -/
def stageTiles (x : Image) (s : Stage) : List (Nat × Bool × Nat × Nat) :=
  ([s.blk, s.alt, (x.block s.blk).fbk].filter fun b => b != 0).flatMap fun b => (x.block b).tiles

/-- Tiles of a tensor in two sets, each the reads or the writes: their ranges. -/
def overlaps (xs ys : List (Nat × Bool × Nat × Nat)) (tid : Nat) (wx wy : Bool) : List (Nat × Nat) :=
  (xs.filter fun a => a.1 == tid && a.2.1 == wx).flatMap fun a =>
    (ys.filter fun b => b.1 == tid && b.2.1 == wy).filterMap fun b =>
      let lo := Nat.max a.2.2.1 b.2.2.1
      let hi := Nat.min a.2.2.2 b.2.2.2
      if lo ≤ hi then some (lo, hi) else none

def growRange (n : Nat) (l : List (Nat × Nat)) (lo hi : Nat) : Nat × Nat :=
  match n with
  | 0 => (lo, hi)
  | n + 1 => growRange n l lo (l.foldl (fun h r => if r.1 ≤ h + 1 then Nat.max h r.2 else h) hi)

/-- The lowest contiguous range of some ranges. -/
def lowestRange (l : List (Nat × Nat)) : Option (Nat × Nat) :=
  match l with
  | [] => none
  | r :: rest =>
    let m := rest.foldl (fun a b => if b.1 < a.1 then b else a) r
    some (growRange l.length l m.1 m.2)

def Image.pubOf (x : Image) (tid : Nat) : Nat := (x.tensors[tid]?).elim 0 fun t => t.pub

/-- Whether a stage runs the block that publishes a tensor. -/
def publishes (x : Image) (tid : Nat) (s : Stage) : Bool := x.pubOf tid != 0 && (s.blk == x.pubOf tid || s.alt == x.pubOf tid)

/-- Versions that a binding gives a tensor before any renaming (R266). -/
def Image.baseVersions (x : Image) (tid : Nat) : Nat := if x.pubOf tid = 0 then 1 else 2

/-- The tiles of a tensor that one firing reads and the other, a firing of the buffer's writer, writes, where the reader may run at
once with two firings of that writer (R263, R277). -/
def readerMeets (x : Image) (tid : Nat) (twice : Bool) (reader writer : Stage) : List (Nat × Nat) :=
  if twice && publishes x tid writer && !publishes x tid reader then
    overlaps (stageTiles x reader) (stageTiles x writer) tid false true
  else []

/-- One pair of firings that may run at once, and one tensor that both name: the writes renamed so far, with this one. A publishing
writer conflicts with a reader only where the reader meets two of its firings (R277). -/
def checkPair (x : Image) (m : ModeDecl) (i j tid : Nat) (f g : Stage) (twice : Nat → Nat → Bool) (renamed : List (Nat × Nat)) :
    Except BindFail (List (Nat × Nat)) :=
  let fail (r : Nat × Nat) : BindFail :=
    { code := statusHazard, step := 4, mode := m.id, tid := tid, tile0 := r.1, tile1 := r.2, block := g.blk }
  let fs := stageTiles x f
  let gs := stageTiles x g
  let meets (publishing : Bool) (ws rs : List (Nat × Bool × Nat × Nat)) : List (Nat × Nat) :=
    if publishing then [] else overlaps ws rs tid true false
  match lowestRange (meets (publishes x tid f) fs gs ++ readerMeets x tid (twice i tid) f g ++ readerMeets x tid (twice j tid) g f),
    lowestRange (meets (publishes x tid g) gs fs ++ overlaps gs fs tid true true) with
  | some r, _ => .error (fail r)
  | none, none => .ok renamed
  | none, some r =>
    if renamed.contains (j, tid) then .ok renamed
    else if 8 ≤ x.baseVersions tid + (renamed.filter fun y => y.2 == tid).length then .error (fail r)
    else .ok (renamed ++ [(j, tid)])

/-- Every pair that the order does not cover; the writes that are renamed, by firing and tensor. -/
def checkHazards (x : Image) (m : ModeDecl) (order : List (Nat × Nat)) : Except BindFail (List (Nat × Nat)) := do
  let prec := precedence x m m.stages order
  let free (i j : Nat) : Bool := i != j && !(prec.getD i 0).testBit j && !(prec.getD j 0).testBit i
  let stage (i : Nat) : Stage := m.stages.getD (order.getD i (0, 0)).1 ⟨0, 0, 0, none⟩
  let n := order.length
  let twice (r tid : Nat) : Bool :=
    x.pubOf tid != 0 && decide (2 ≤ ((List.range n).filter fun w => publishes x tid (stage w) && free r w).length)
  let pairs := (List.range n).flatMap fun i => ((upFrom (i + 1) (n - 1 - i)).filter (free i)).map fun j => (i, j)
  pairs.foldlM (fun rn p =>
    let ids := (stageTiles x (stage p.1)).map fun t => t.1
    ((List.range x.tensors.length).filter fun t => ids.contains t).foldlM
      (fun rn t => checkPair x m p.1 p.2 t (stage p.1) (stage p.2) twice rn) rn) []

/-- What steps 1 to 5 fix of a mode before its stages are placed: firings per period, order, capacities, renamed writes. -/
structure Plan where
  rep : List Nat
  order : List (Nat × Nat)
  caps : List Nat
  renamed : List (Nat × Nat)
  deriving DecidableEq, Repr

/-- Versions of a tensor that a plan needs (R266, R277). -/
def Plan.versions (p : Plan) (x : Image) (tid : Nat) : Nat :=
  x.baseVersions tid + (p.renamed.filter fun y => y.2 == tid).length

/-- The versions of renamed tensors that firing `i` of the order reads and writes: fixed by its place (R277). -/
def Plan.versAt (p : Plan) (i : Nat) : List (Nat × Nat × Nat) :=
  (p.renamed.map fun y => y.2).eraseDups.map fun t =>
    let n := (p.renamed.filter fun y => y.2 == t && decide (y.1 < i)).length
    (t, n, if p.renamed.contains (i, t) then n + 1 else n)

/-- Steps 1 to 4, and of step 5 the capacities (R278). -/
def analyse (x : Image) (m : ModeDecl) : Except BindFail Plan := do
  let rep ← (repetition m).mapError fun e => { code := statusRate, step := 1, mode := m.id, edge := e }
  let z ← (runPeriod m (rep.foldl (· + ·) 0) (startPeriod m rep)).mapError fun y =>
    { code := statusDeadlock, step := 2, mode := m.id, stage := y.1, edge := y.2 }
  checkFormats x m
  let rn ← checkHazards x m z.order
  match (withNo z.peak).find? fun y => decide (224 ≤ y.1 ∨ 65535 < y.2) with
  | some y => .error { code := statusCapacity, step := 5, mode := m.id, edge := y.1 }
  | none => .ok { rep := rep, order := z.order, caps := z.peak, renamed := rn }

end Sys2Proof.Machine
end

