-- ==== Sys2Proof/Machine/Placement.lean ====
section
/-! DEFINITION. The balance engine's placement, memory layout, windows, slots and tables, and the binding as a whole (R51, R203, R267,
R273, R278 to R281, R316, R318, R329, R344, R352). -/

namespace Sys2Proof.Machine

/-! What other bindings hold. -/

/-- The bindings of a domain that hold frames and slots: those of its banks, and one in progress (R278, R282). -/
def Domain.bindings (x : Domain) : List Binding := x.boundBanks ++ (x.binding.bind fun y => y.2.2.tables).toList

/-- Frames that any binding holds on a die, as base and count in 4 KiB units. -/
def heldFrames (s : State) (die : Nat) : List (Nat × Nat) :=
  (List.range 9).flatMap fun d => (s.dom d).bindings.flatMap fun b => (b.frames.filter fun f => f.1 == die).map fun f => f.2

/-- Slots that other domains' tables own: of an LP6 channel, or of a direction (R280, R318). -/
def othersOwn (s : State) (d : Nat) (own : Table → SMap (BitVec 512)) (key : Nat) : BitVec 512 :=
  ((List.range 9).filter fun e => e != d).foldl (fun w e =>
    (s.dom e).bindings.foldl (fun w b => b.tables.foldl (fun w t => w ||| SMap.get 0 (own t) key) w) w) 0

/-- The largest declared peak of a domain's bound modes, in its active and standby banks (R329). -/
def Domain.peak (x : Domain) : Nat := x.boundBanks.foldl (fun p b => b.tables.foldl (fun p t => Nat.max p t.peak) p) 0

def Domain.onDie (x : Domain) (die : Nat) : Bool := x.dies.contains die

/-- PEAK of a die: the sum over the partitions with cells on it (R329). -/
def diePeak (s : State) (die : Nat) : Nat :=
  ((List.range 8).filter fun d => (s.dom d).onDie die).foldl (fun p d => p + (s.dom d).peak) 0

/-! Which dies and clusters may be used (R328). -/

def dieUsable (s : State) (die : Nat) : Bool := s.hub.dieMap.getLsbD die && !s.hub.dieMap.getLsbD (4 + die)
def clusterUsable (s : State) (k : Nat) : Bool := dieUsable s (k / 4) && !s.hub.dieMap.getLsbD (24 + k) && (s.cluster k).gate == 0

/-- Whether the span neighbour of a port exists (R342, R352): port 0 towards the lower number, port 1 towards the higher. -/
def spanNeighbour (h : Hub) (port : Nat) : Bool :=
  h.spanRing || (if port = 0 then decide (1 ≤ h.spanNumber) else decide (h.spanNumber + 1 < h.spanCount))

/-! Step 6: placement (R279). -/

/-- WCET that a stage counts (R265). -/
def stageWcet (x : Image) (s : Stage) : Nat :=
  if s.alt = 0 then (x.block s.blk).wcet else 64 + Nat.max (x.block s.blk).wcet (x.block s.alt).wcet

/-- Whether stage `s` at a first cell keeps the scope constraints towards the stages that are placed (R267). -/
def keepsScope (x : Image) (m : ModeDecl) (placed : List Stage) (s cell : Nat) : Bool :=
  let size (n : Nat) : Nat := (x.block (placed.getD n ⟨0, 0, 0, none⟩).blk).logsz
  m.chans.all fun c =>
    if isFar c.fstg ∨ isFar c.tstg ∨ (c.fstg ≠ s ∧ c.tstg ≠ s) then true
    else
      let t := if c.fstg = s then c.tstg else c.fstg
      if t = s then decide (c.scope < 3)
      else
        match (placed[t]?).bind fun y => y.at0 with
        | none => true
        | some o =>
          match c.scope with
          | 0 => o == cell && size t == size s
          | 1 => o / 16 == cell / 16
          | 2 => o / 64 == cell / 64
          | 3 => (o / 64 + 4 - cell / 64) % 4 == 1 || (o / 64 + 4 - cell / 64) % 4 == 3
          | _ => false

/-- The first cells of the aligned sets of a size within the grant, in usable clusters (R110, R279). -/
def cellSets (s : State) (d : Nat) (logsz : Nat) : List Nat :=
  let g := (s.dom d).grant.cells
  (List.range 256).filter fun c =>
    c % 2 ^ logsz == 0 && clusterUsable s (c / 16) && (upFrom c (2 ^ logsz)).all fun i => g.getLsbD i

def placeAt (stages : List Stage) (n cell : Nat) : List Stage := stages.modify n fun y => { y with at0 := some cell }

/-- The stages of a mode that a variant places, all checked; none where one fails (R279, step 1). -/
def variantStages (s : State) (d : Nat) (x : Image) (m : ModeDecl) (vs : List Placement) : Option (List Stage) :=
  (vs.filter fun p => p.mode == m.id).foldl (fun acc p =>
    match acc with
    | none => none
    | some st =>
      let cell := 16 * p.cluster + p.cell
      match st[p.stage]? with
      | none => none
      | some y =>
        if y.at0.isNone && p.cluster / 4 == p.die && (cellSets s d (x.block y.blk).logsz).contains cell && keepsScope x m st p.stage cell
        then some (placeAt st p.stage cell) else none) (some m.stages)

/-- Load of a cell: WCET times firings of the stages on it. -/
def cellLoad (x : Image) (stages : List Stage) (rep : List Nat) (c : Nat) : Nat :=
  (withNo stages).foldl (fun l y => if (stageCells x y.2).contains c then l + stageWcet x y.2 * rep.getD y.1 0 else l) 0

/-- Cells on which the active binding placed a block of the same image (R279, step 4). -/
def oldCells (s : State) (d : Nat) (x : Image) (blk : Nat) : List Nat :=
  match (s.dom d).active with
  | none => []
  | some b =>
    if b.image = x.bytes then
      b.tables.flatMap fun t => (t.stages.filter fun y => y.blk == blk).flatMap fun y => stageCells x y
    else []

/-- The best of some candidates in ascending order: those that held the block, then the smallest of the largest loads. -/
def bestSet (x : Image) (stages : List Stage) (rep : List Nat) (logsz : Nat) (old cands : List Nat) : Option Nat :=
  let set (c : Nat) : List Nat := upFrom c (2 ^ logsz)
  let pref (c : Nat) : Bool := (set c).all fun i => old.contains i
  let load (c : Nat) : Nat := (set c).foldl (fun l i => Nat.max l (cellLoad x stages rep i)) 0
  let cands := if cands.any pref then cands.filter pref else cands
  cands.foldl (fun b c => match b with
    | none => some c
    | some a => if load c < load a then some c else b) none

/-- Place every stage that no variant has placed, in stage order. -/
def placeStages (s : State) (d affinity : Nat) (x : Image) (m : ModeDecl) (rep : List Nat) (st : List Stage) :
    Except BindFail (List Stage) :=
  (List.range m.stages.length).foldlM (fun st n =>
    let y := st.getD n ⟨0, 0, 0, none⟩
    let lone := m.chans.any fun c =>
      (c.fstg == n && c.tstg == 0xFFFE && !spanNeighbour s.hub 1) || (c.tstg == n && c.fstg == 0xFFFE && !spanNeighbour s.hub 0)
    let fail : BindFail := { code := statusNoDie, step := 6, mode := m.id, stage := n }
    if lone then .error fail
    else if y.at0.isSome then .ok st
    else
      let lg := (x.block y.blk).logsz
      let cands := (cellSets s d lg).filter fun c => affinity.testBit (c / 64) && keepsScope x m st n c
      match bestSet x st rep lg (oldCells s d x y.blk) cands with
      | some c => .ok (placeAt st n c)
      | none => .error fail) st

/-- The variant that the binding uses, or none: its signature is the part's, and for an image that may do without, every placement
of every mode holds (R279, step 1). -/
def usedVariant (s : State) (d : Nat) (x : Image) : Option (List Placement) :=
  match x.variants.find? fun v => v.1 == s.hub.signature.toNat with
  | none => none
  | some v => if x.certified || x.modes.all fun m => (variantStages s d x m v.2).isSome then some v.2 else none

/-- The BUDGET check of a mode, after which the modes up to it are bound (R279, R329). PEAK counts partitions alone. -/
def checkBudget (s : State) (d : Nat) (x : Image) (m : ModeDecl) : Except BindFail Unit :=
  let own := (x.modes.filter fun k => decide (k.id ≤ m.id)).foldl (fun p k => Nat.max p k.peak) (s.dom d).peak
  let after (die : Nat) : Nat := if d < 8 then diePeak s die - (s.dom d).peak + own else diePeak s die
  let short (die : Nat) : Bool := decide (((s.die die).bud.toNat : Int) + (s.die die).pend < after die)
  if (s.dom d).dies.any short then .error { code := statusBudget, step := 6, mode := m.id } else .ok ()

def placeMode (s : State) (d affinity : Nat) (x : Image) (m : ModeDecl) (rep : List Nat) : Except BindFail (List Stage) := do
  let none_ : BindFail := { code := statusNoVariant, step := 6, mode := m.id }
  let st ← match usedVariant s d x with
    | none => if x.certified then .error none_ else .ok m.stages
    | some v => match variantStages s d x m v with
      | some st => .ok st
      | none => .error none_
  let st ← placeStages s d affinity x m rep st
  checkBudget s d x m
  .ok st

/-! Step 5: the memory layout (R267, R278). -/

/-- Data limit of a cell from its carve-out. -/
def dataLimit (c : Nat) : Nat := if 131072 ≤ c then c - 65536 else 4096 * (c / 8192)

/-- Whether a channel's record area lies in a scratchpad (KIND 0). -/
def inPad (x : Image) (st : List Stage) (c : Chan) : Bool :=
  c.scope == 0 && (x.block (st.getD c.fstg ⟨0, 0, 0, none⟩).blk).logsz == 0

/-- Stages that channels of cell scope join, and that therefore stand on one cell set wherever it is, by a number each. -/
def cellGroups (m : ModeDecl) : List Nat :=
  m.chans.foldl (fun g c =>
    if c.scope = 0 then g.map fun y => if y = g.getD c.tstg 0 then g.getD c.fstg 0 else y else g) (List.range m.stages.length)

/-- The scratchpad checks that step 5 makes before a stage is placed: the areas of the stages that stand on one cell whatever the
placement, downward from L (R278, log 78). -/
def checkPads (s : State) (d : Nat) (x : Image) (m : ModeDecl) (caps : List Nat) : Except BindFail (SMap Nat) :=
  (withNo m.chans).foldlM (fun top e =>
    if inPad x m.stages e.2 = false then .ok top
    else
      let k := (cellGroups m).getD e.2.fstg 0
      let n := Nat.max 1 (caps.getD e.1 1) * e.2.size
      let t := SMap.get (dataLimit (4096 * (s.dom d).grant.carve)) top k
      if t < n then .error { code := statusCapacity, step := 5, mode := m.id, edge := e.1 } else .ok (SMap.put top k (t - n))) []

/-- What the layout of the modes so far has taken: the next id to try for a channel's tensor, plus one; tensors placed; ranges of
shares that tensors hold; ends of the shares' use; frames; tile tables. -/
structure Layout where
  ids : Nat := 65536
  tensors : List (Nat × BitVec 512 × List Nat) := []
  regions : List (Nat × Nat × Nat) := []
  ends : SMap Nat := []
  frames : List (Nat × Nat × Nat) := []
  shareTabs : List (Nat × Nat × List Word) := []
  dieTabs : List (Nat × Nat × List Word) := []
  deriving DecidableEq, Repr

def Layout.has (l : Layout) (tid : Nat) : Bool := l.tensors.any fun t => t.1 == tid

def alignUp (a n : Nat) : Nat := (a + n - 1) / n * n

/-- Pairs in ascending order of their first. -/
def sortPairs (l : List (Nat × Nat)) : List (Nat × Nat) :=
  l.foldr (fun x acc => (acc.takeWhile fun y => decide (y.1 < x.1)) ++ x :: acc.dropWhile fun y => decide (y.1 < x.1)) []

/-- A range of a share from a mode's cursor, past what tensors hold, or none where the share has no room. -/
def putShare (s : State) (d k n align : Nat) (cur : SMap Nat) (l : Layout) : Option (Nat × SMap Nat × Layout) :=
  let held := sortPairs ((l.regions.filter fun r => r.1 == k).map fun r => r.2)
  let o := held.foldl (fun o r => if o < r.2 ∧ r.1 < o + n then alignUp r.2 align else o) (alignUp (SMap.get 0x1000 cur k) align)
  if s.shareSize d k < o + n then none
  else some (o, SMap.put cur k (o + n), { l with ends := SMap.put l.ends k (Nat.max (SMap.get 0 l.ends k) (o + n)) })

/-- Free ranges of a die's LP6 in 4 KiB units, beside those that are held. -/
def freeRuns (held : List (Nat × Nat)) (size : Nat) : List (Nat × Nat) :=
  let z := (sortPairs held).foldl (fun (acc : List (Nat × Nat) × Nat) r =>
    (if acc.2 < r.1 then acc.1 ++ [(acc.2, r.1)] else acc.1, Nat.max acc.2 (r.1 + r.2))) ([], 0)
  if z.2 < size then z.1 ++ [(z.2, size)] else z.1

/-- Bases of `n` frames of a size from free ranges, lowest first, all in 4 KiB units; fewer where the ranges end. -/
def takeFrames (runs : List (Nat × Nat)) (unit n : Nat) : List Nat :=
  match runs with
  | [] => []
  | r :: rest =>
    let b := alignUp r.1 unit
    let k := Nat.min n ((r.2 - b) / unit)
    (List.range k).map (fun i => b + unit * i) ++ takeFrames rest unit (n - k)

/-- The base of a run of `n` frames in one piece. -/
def takeRun (runs : List (Nat × Nat)) (unit n : Nat) : Option Nat :=
  (runs.find? fun r => decide (alignUp r.1 unit + unit * n ≤ r.2)).map fun r => alignUp r.1 unit

/-- A valid, writable entry with its parity (R220). -/
def tileWord (sz base : Nat) : Word :=
  let v := 3 + 8 * sz + base / 4096 * 4096
  BitVec.ofNat 64 (v + popcount 64 v % 2 * 2 ^ 63)

/-- The code of the smallest frame that a tile fits (R219, R220). -/
def frameCode (bytes : Nat) : Nat := if bytes ≤ 2 ^ 12 then 0 else if bytes ≤ 2 ^ 16 then 1 else 2

/-- Size of a die's LP6 in 4 KiB units (R212). -/
def lp6Units (h : Hub) (die : Nat) : Nat := h.lp6Gb.getD die 0 * 2 ^ 18

/-- One version of an LP6 or host tensor on a die: its tile table, and of an LP6 tensor its frames; a host tensor's entries are not
valid, since the binder knows no host addresses (R224). -/
def putDie (s : State) (die : Nat) (t : BitVec 512) (l : Layout) : Option (Nat × Layout) :=
  let n := tField t 352 32
  let sz := frameCode (tBytes t)
  let unit := if tHome t = 0 then frameSize sz / 4096 else 1
  let held (l : Layout) : List (Nat × Nat) := heldFrames s die ++ (l.frames.filter fun f => f.1 == die).map fun f => f.2
  let free (l : Layout) : List (Nat × Nat) := freeRuns (held l) (lp6Units s.hub die)
  let tn := (8 * n + 4096 * unit - 1) / (4096 * unit)
  match takeRun (free l) unit tn with
  | none => none
  | some tb =>
    let l := { l with frames := (die, tb, unit * tn) :: l.frames }
    if tHome t = 2 then some (4096 * tb, { l with dieTabs := (die, 4096 * tb, List.replicate n 0) :: l.dieTabs })
    else
      let bs := takeFrames (free l) unit n
      if bs.length < n then none
      else some (4096 * tb, { l with frames := bs.map (fun b => (die, b, unit)) ++ l.frames,
                                     dieTabs := (die, 4096 * tb, bs.map fun b => tileWord sz (4096 * b)) :: l.dieTabs })

/-- One version of a cluster-homed tensor in a share: its tile table, then its frames. -/
def putCluster (s : State) (d k : Nat) (t : BitVec 512) (cur : SMap Nat) (l : Layout) : Option (Nat × SMap Nat × Layout) :=
  let n := tField t 352 32
  let sz := frameCode (tBytes t)
  let fsz := frameSize sz
  let tab := alignUp (8 * n) fsz
  (putShare s d k (tab + fsz * n) fsz cur l).map fun z =>
    (z.1, z.2.1, { z.2.2 with shareTabs := z.2.2.shareTabs ++ [(k, z.1, (List.range n).map fun i => tileWord sz (z.1 + tab + fsz * i))] })

/-- A descriptor with its home bound (R217): die, cluster, table address, tile bytes, tiles. -/
def boundDesc (t : BitVec 512) (die cls ttp : Nat) : BitVec 512 :=
  let keep := (2 ^ 384 - 1) - (2 ^ 4 - 1) * 2 ^ 26 - (2 ^ 40 - 1) * 2 ^ 64 - (2 ^ 64 - 1) * 2 ^ 320
  let v := t.toNat &&& keep
  BitVec.ofNat 512 (v + die % 4 * 2 ^ 26 + cls % 4 * 2 ^ 28 + ttp % 2 ^ 40 * 2 ^ 64 + (tFmt t).elim 0 (tileBytes t) % 2 ^ 32 * 2 ^ 320 +
    prodOf (tGrid t) % 2 ^ 32 * 2 ^ 352)

/-- The descriptor of a die-scope channel's tensor: rank 2, n8, extents CAP and size, tiles of one record (R267). -/
def chanDesc (cap size : Nat) : BitVec 512 :=
  BitVec.ofNat 512 (0x02 + 2 * 2 ^ 8 + (cap - 1) * 2 ^ 128 + (size - 1) * 2 ^ 148 + (size - 1) * 2 ^ 266)

/-- Place `n` versions, each after the last; their table addresses. -/
def putVersions (n : Nat) (put : SMap Nat × Layout → Option (Nat × SMap Nat × Layout)) (z : SMap Nat × Layout) :
    Option (List Nat × SMap Nat × Layout) :=
  match n with
  | 0 => some ([], z)
  | n + 1 =>
    match put z with
    | none => none
    | some r => (putVersions n put r.2).map fun q => (r.1 :: q.1, q.2)

/-- The cluster of a placed stage. -/
def clusterAt (st : List Stage) (n : Nat) : Nat := ((st[n]?).bind fun y => y.at0).elim 0 fun c => c / 16

/-- Where the layout of a mode stands: cursors of the shares, tops of the data areas, the layout, the channels so far, the tensors of
die-scope channels with their dies. -/
structure ChanLayout where
  cur : SMap Nat := []
  top : SMap Nat := []
  lay : Layout
  chans : List Chan := []
  own : List (Nat × Nat × BitVec 512) := []
  deriving DecidableEq, Repr

/-- The next id, counting down, that no image tensor has; plus one, 0 for none. -/
def nextId (count ids : Nat) : Nat := if ids ≤ count then 0 else ids

/-- One channel's record area (R267, R316, R336). -/
def putChan (s : State) (d : Nat) (x : Image) (m : ModeDecl) (st : List Stage) (caps : List Nat) (z : ChanLayout) (e : Nat × Chan) :
    Except BindFail ChanLayout :=
  let fail : BindFail := { code := statusCapacity, step := 5, mode := m.id, edge := e.1 }
  let c := { e.2 with cap := Nat.max 1 (caps.getD e.1 1) }
  let n := c.cap * c.size
  let pk := clusterAt st c.fstg
  let ck := clusterAt st c.tstg
  let done (c : Chan) (z : ChanLayout) : Except BindFail ChanLayout := .ok { z with chans := z.chans ++ [c] }
  let ends := (if isFar c.fstg then [] else [pk]) ++ if isFar c.tstg then [] else [ck]
  let area (k : Nat) (z : ChanLayout) : Except BindFail (Nat × ChanLayout) :=
    match putShare s d k n 64 z.cur z.lay with
    | some r => .ok (r.1, { z with cur := r.2.1, lay := r.2.2 })
    | none => .error fail
  if ends.any fun k => decide (s.shareSize d k < 0x210 + 16 * e.1) then .error fail
  else if c.hostEnd then done { c with kind := 3, home := ends.getD 0 0 } z
  else
    match c.scope with
    | 0 =>
      if inPad x st c then
        let cell := ((st[c.fstg]?).bind fun y => y.at0).getD 0
        let top := SMap.get (dataLimit (4096 * (s.dom d).grant.carve)) z.top cell
        if top < n then .error fail
        else done { c with kind := 0, home := cell, base := top - n } { z with top := SMap.put z.top cell (top - n) }
      else do
        let r ← area pk z
        done { c with kind := 1, home := pk, base := r.1 } r.2
    | 1 => do
      let r ← area pk z
      done { c with kind := 1, home := pk, base := r.1 } r.2
    | 2 =>
      match nextId x.tensors.length z.lay.ids with
      | 0 => .error fail
      | i + 1 =>
        done { c with kind := 2, home := ck, base := i }
          { z with lay := { z.lay with ids := i }, own := z.own ++ [(i, pk / 4, chanDesc c.cap c.size)] }
    | _ =>
      if isFar c.fstg then do
        let r ← area ck z
        done { c with kind := 3, home := ck, base := r.1 } r.2
      else if isFar c.tstg then do
        let r ← area pk z
        done { c with kind := 3, phome := pk, pbase := r.1 } r.2
      else do
        let p ← area pk z
        let q ← area ck p.2
        done { c with kind := 3, phome := pk, pbase := p.1, home := ck, base := q.1 } q.2

/-- The first stage of a mode whose block, alternate or fallback names a tensor, in a cluster that a test accepts. -/
def namingStage (x : Image) (st : List Stage) (tid : Nat) (ok : Nat → Bool) : Option Nat :=
  (st.find? fun y => ((stageTiles x y).any fun t => t.1 == tid) && y.at0.any fun c => ok (c / 16)).bind fun y => y.at0

/-- Place one tensor: of the image, or of a die-scope channel on its die. A descriptor whose DIE is 0 names no die; its tensor stands
where the first stage that names it does, else on the lowest granted die (log 79). -/
def putTensor (s : State) (d : Nat) (x : Image) (m : ModeDecl) (st : List Stage) (vers : Nat → Nat) (z : SMap Nat × Layout)
    (e : Nat × Option Nat × BitVec 512) : Except BindFail (SMap Nat × Layout) :=
  let fail : BindFail := { code := statusCapacity, step := 5, mode := m.id, tid := e.1 }
  let t := e.2.2
  let dom := s.dom d
  let named := tDie t ≠ 0
  let keep (t : BitVec 512) (r : List Nat × SMap Nat × Layout) : Except BindFail (SMap Nat × Layout) :=
    .ok (r.2.1, { r.2.2 with tensors := r.2.2.tensors ++ [(e.1, t, r.1)] })
  if named ∧ dieUsable s (tDie t) = false then .error { code := statusNoDie, step := 6, mode := m.id, tid := e.1 }
  else if tHome t = 1 then
    let ok (k : Nat) : Bool := !named || k / 4 == tDie t
    match namingStage x st e.1 ok, dom.clusters.filter ok with
    | _, [] => .error fail
    | at_, k0 :: _ =>
      let k := at_.elim k0 fun c => c / 16
      let t := boundDesc t (k / 4) (k % 4) 0
      match putVersions (vers e.1) (fun z => putCluster s d k t z.1 z.2) z with
      | none => .error fail
      | some r => keep (boundDesc t (k / 4) (k % 4) (r.1.getD 0 0)) (r.1, r.2.1, { r.2.2 with
          regions := r.2.2.regions ++ r.1.map fun o => (k, o, o + alignUp (8 * tField t 352 32) (frameSize (frameCode (tBytes t))) +
            frameSize (frameCode (tBytes t)) * tField t 352 32) })
  else
    let die := match e.2.1 with
      | some y => y
      | none => if named then tDie t else (namingStage x st e.1 fun _ => true).elim (dom.dies.getD 0 0) fun c => c / 64
    let t := boundDesc t die 0 0
    match putVersions (vers e.1) (fun z => (putDie s die t z.2).map fun r => (r.1, z.1, r.2)) z with
    | none => .error fail
    | some r => keep (boundDesc t die 0 (r.1.getD 0 0)) r

/-- The tensors that a mode places: those it names that no lower mode has placed, with those nobody names in the last mode; and the
tensors of its die-scope channels (R278). -/
def modeTensors (x : Image) (m : ModeDecl) (st : List Stage) (last : Bool) (l : Layout) : List (Nat × Option Nat × BitVec 512) :=
  ((withNo x.tensors).filter fun t =>
    !l.has t.1 && (last || st.any fun y => (stageTiles x y).any fun u => u.1 == t.1)).map fun t => (t.1, none, t.2.desc)

/-- Step 5 of a placed mode: its channels, and the layout after it. Cluster-homed tensors follow the record areas; LP6 tensors and
tensors of channels follow in the order of their ids. -/
def layMode (s : State) (d : Nat) (x : Image) (m : ModeDecl) (st : List Stage) (p : Plan) (vers : Nat → Nat) (last : Bool) (l : Layout) :
    Except BindFail (List Chan × Layout) := do
  let z ← (withNo m.chans).foldlM (putChan s d x m st p.caps) { lay := l }
  let ts := modeTensors x m st last z.lay
  let own := z.own.map fun y => (y.1, some y.2.1, y.2.2)
  let r ← ((ts.filter fun t => tHome t.2.2 == 1) ++ (ts.filter fun t => tHome t.2.2 != 1) ++ own.reverse).foldlM
    (putTensor s d x m st vers) (z.cur, z.lay)
  .ok (z.chans, r.2)

/-- Limits of a cell: L, C, and its spill overflow region after all else in its share (R207, R278). -/
def cellLimits (s : State) (d : Nat) (l : Layout) (c : Nat) : Nat × Nat × Nat × Nat :=
  let x := s.dom d
  let carve := 4096 * x.grant.carve
  let cs := x.cells.filter fun y => y / 16 == c / 16
  let o := alignUp (SMap.get 0x1000 l.ends (c / 16)) 4096
  let fits := decide (o + 4096 * cs.length ≤ s.shareSize d (c / 16))
  (dataLimit carve, carve, if fits then o + 4096 * (cs.takeWhile fun y => y != c).length else 0, if fits then 4096 else 0)

/-! Step 7: windows and slots (R280, R318, R344). -/

/-- A firing's window, with its link slots as direction and cycle, and its arrivals by channel. -/
structure Window where
  no : Nat
  stage : Nat
  k : Nat
  s : Nat
  d : Nat
  rsv : Nat
  slots : List (Nat × Nat) := []
  arr : List (Nat × Nat) := []
  deriving DecidableEq, Repr

/-- `k` of the slots of a list in ascending order, evenly spaced: slot j the first at or above 512 j / k, taken cyclically. -/
def ownSlots (k : Nat) (cands : List Nat) : List Nat :=
  ((List.range k).foldl (fun (acc : List Nat × List Nat) j =>
    match (acc.1.find? fun c => decide (512 * j / k ≤ c)) <|> acc.1.head? with
    | some c => (acc.1.filter (· != c), c :: acc.2)
    | none => acc) (cands, [])).2

def slotMap (l : List Nat) : BitVec 512 := l.foldl (fun w c => w ||| BitVec.ofNat 512 (2 ^ c)) 0

/-- Slots of a map in ascending order. -/
def mapSlots (w : BitVec 512) : List Nat := (List.range 512).filter fun c => w.getLsbD c

/-- Slots a domain owns on an LP6 channel: its grant, evenly spaced over the assignable slots that no other table owns (R213, R280). -/
def ownLp6 (s : State) (d key : Nat) : BitVec 512 :=
  let o := othersOwn s d Table.lp6Own key
  slotMap (ownSlots (SMap.get 0 (s.dom d).grant.lp6 key) ((List.range 512).filter fun c => c % 32 != 15 && c % 32 != 31 && !o.getLsbD c))

/-- The grant on a direction: 2 L + dir of a ring link, 8 + 2 q + dir of a span port (R333). -/
def linkGrant (g : Grant) (key : Nat) : Nat := if key < 8 then SMap.get 0 g.link key else SMap.get 0 g.span (key - 8)

def ownLink (s : State) (d key : Nat) : BitVec 512 :=
  let o := othersOwn s d Table.linkOwn key
  slotMap (ownSlots (linkGrant (s.dom d).grant key) ((List.range 512).filter fun c => !o.getLsbD c))

/-- The direction in which a channel's records leave: none where they do not cross. -/
def chanDir (st : List Stage) (c : Chan) : Option Nat :=
  if c.crosses = false ∨ isFar c.fstg then none
  else if isFar c.tstg then some 10
  else
    let dp := clusterAt st c.fstg / 4
    let dc := clusterAt st c.tstg / 4
    some (if dc = (dp + 1) % 4 then 2 * dp else 2 * dc + 1)

/-- The directions that a mode's channels use. -/
def usedDirs (st : List Stage) (chans : List Chan) : List Nat := (List.range 12).filter fun k => chans.any fun c => chanDir st c == some k

/-- Payload of a slot, and cycles from its end to the arrival (R315, R313, R343). -/
def slotPayload (key : Nat) : Nat := if key < 8 then 5120 else 640
def spanLatency (m : Nat) : Nat := 8 * ((m + 135) / 8)
def slotLatency (h : Hub) (key : Nat) : Nat := if key < 8 then 48 else spanLatency (SMap.get {} h.ports 13).lat

/-- The first `n` owned slots from a cycle that are not taken, up to `ticks` ticks on. -/
def nextSlots (own taken : List Nat) (from_ tick : Nat) (ticks n : Nat) : List Nat :=
  match ticks with
  | 0 => []
  | t + 1 =>
    if n = 0 then []
    else
      let here := ((own.map fun c => tick * tickCycles + 8 * c).filter fun a => decide (from_ ≤ a) && !taken.contains a).take n
      here ++ nextSlots own taken from_ (tick + 1) t (n - here.length)

/-- Arrivals of a firing's channels in one direction, its slots given: each from the slot that carries its last byte. -/
def arrivals (h : Hub) (key : Nat) (slots : List Nat) (cs : List (Nat × Chan)) (sent : Nat) : List (Nat × Nat) :=
  match cs with
  | [] => []
  | c :: r =>
    let sent := sent + c.2.push * c.2.size
    (c.1, slots.getD ((sent - 1) / slotPayload key) 0 + 8 + slotLatency h key) :: arrivals h key slots r sent

/-- The link slots of a firing, direction by direction; none where a slot is missing (R318). -/
def linkSlots (s : State) (st : List Stage) (chans : List Chan) (own : SMap (BitVec 512)) (period : Nat) (ws : List Window) (w : Window) :
    Option Window :=
  (usedDirs st chans).foldl (fun acc key =>
    let cs := (withNo chans).filter fun c => c.2.fstg == w.stage && chanDir st c.2 == some key
    match acc with
    | none => none
    | some w =>
      if cs.isEmpty then some w
      else
        let bytes := cs.foldl (fun b c => b + c.2.push * c.2.size) 0
        let need := (bytes + slotPayload key - 1) / slotPayload key
        let taken := ws.flatMap fun v => (v.slots.filter fun y => y.1 == key).map fun y => y.2
        let from_ := w.d + w.rsv
        let got := nextSlots (mapSlots (SMap.get 0 own key)) taken from_ (from_ / tickCycles) (period - from_ / tickCycles) need
        if got.length < need then none
        else some { w with slots := w.slots ++ got.map (fun a => (key, a)), arr := w.arr ++ arrivals s.hub key got cs 0 }) (some w)

/-- Cycles between the reserve of a firing and what it sends to a later one (R280, R318). -/
def lag (x : Image) (st : List Stage) (chans : List Chan) (g f : Window) : Nat :=
  let shared := (withNo chans).filter fun c => (c.2.fstg == g.stage && c.2.tstg == f.stage) || (c.2.fstg == f.stage && c.2.tstg == g.stage)
  let cells (n : Nat) : List Nat := stageCells x (st.getD n ⟨0, 0, 0, none⟩)
  let far := (shared.filter fun c => c.2.fstg == g.stage && c.2.crosses).foldl (fun l c =>
    Nat.max l ((g.arr.find? fun a => a.1 == c.1).elim 0 fun a => a.2 - (g.d + g.rsv))) 0
  if g.stage ≠ f.stage ∧ shared ≠ [] ∧ (shared.all fun c => c.2.scope == 2) ∧ !((cells g.stage).any fun c => (cells f.stage).contains c) then
    Nat.max far 24
  else far

def bumpRamp (fuel : Nat) (taken : List Nat) (a : Nat) : Nat :=
  match fuel with
  | 0 => a
  | n + 1 => if taken.contains a then bumpRamp n taken (a + 1) else a

/-- A block of a stage that names a host tensor and declares no `.copies host` (R224). -/
def hostFault (x : Image) (y : Stage) : Option Nat :=
  ([y.blk, y.alt, (x.block y.blk).fbk].filter fun b => b != 0).find? fun b =>
    ((x.block b).tiles.any fun t => (x.tensors[t.1]?).any fun u => tHome u.desc == 2) && (x.block b).copies.getD 3 0 == 0

/-- A placed mode as step 7 meets it. -/
structure Placed where
  img : Image
  mode : ModeDecl
  st : List Stage
  chans : List Chan
  own : SMap (BitVec 512)
  /-- Arrival cycles of the channels that come from a span (R344). -/
  spans : List (Nat × Nat)
  deriving DecidableEq, Repr

/-- The window of the next firing after those before it; `prec` has the bits of those that precede it, and `last` says that it follows
every other (R203). -/
def nextWindow (s : State) (z : Placed) (prec : Nat) (last : Bool) (ws : List Window) (no stage k : Nat) : Except BindFail Window :=
  let y := z.st.getD stage ⟨0, 0, 0, none⟩
  let b := z.img.block y.blk
  let fail : BindFail := { code := statusSched, step := 7, mode := z.mode.id, block := y.blk, stage := stage }
  let far := z.chans.any fun c => c.fstg == stage && decide (3 ≤ c.scope)
  let rsv := 64 + (if b.fbk = 0 then 0 else (z.img.block b.fbk).wcet) + if far then 1 else 0
  let w : Window := { no := no, stage := stage, k := k, s := 0, d := 0, rsv := rsv }
  let after := (withNo ws).foldl (fun a v =>
    if prec.testBit v.1 then Nat.max a (v.2.d + v.2.rsv + lag z.img z.st z.chans v.2 w)
    else if last then Nat.max a (v.2.d + v.2.rsv) else a) 1
  let span := (z.spans.filter fun a => (z.chans[a.1]?).any fun c => c.tstg == stage).foldl (fun m a => Nat.max m a.2) after
  let ramps := (ws.filter fun v =>
    clusterAt z.st v.stage == clusterAt z.st stage && (z.img.block (z.st.getD v.stage ⟨0, 0, 0, none⟩).blk).ramp).map fun v => v.s
  let start := if b.ramp then bumpRamp (ramps.length + 1) ramps span else span
  let w := { w with s := start, d := start + stageWcet z.img y }
  match hostFault z.img y with
  | some n => .error { fail with block := n }
  | none =>
    if z.mode.period * tickCycles < w.d + rsv then .error fail
    else match linkSlots s z.st z.chans z.own z.mode.period ws w with
      | some w => .ok w
      | none => .error fail

/-- The firing order with the firings of exit blocks last, but for those that another firing follows (R203). -/
def exitLast (x : Image) (m : ModeDecl) (order : List (Nat × Nat)) : List (Nat × Bool × Nat × Nat) :=
  let prec := precedence x m m.stages order
  let exits (i : Nat) : Bool :=
    (m.stages[(order.getD i (0, 0)).1]?).any fun y => (x.block y.blk).exit || (y.alt != 0 && (x.block y.alt).exit)
  let moves (i : Nat) : Bool := exits i && (withNo prec).all fun p => !p.2.testBit i || exits p.1
  let l := (withNo order).map fun f => (f.1, moves f.1, f.2)
  (l.filter fun f => !f.2.1) ++ l.filter fun f => f.2.1

/-- Owned slots that start before a cycle. -/
def slotsBefore (own : List Nat) (a : Nat) : Nat :=
  a / tickCycles * own.length + (own.filter fun c => decide (8 * c < a % tickCycles)).length

/-- Declared LP6 bytes of a stage. -/
def lp6Bytes (x : Image) (y : Stage) : Nat := Nat.max ((x.block y.blk).copies.getD 0 0) (if y.alt = 0 then 0 else (x.block y.alt).copies.getD 0 0)

/-- A firing whose share of the owned LP6 slots in its window is too small on a channel (R280). -/
def lp6Short (z : Placed) (own : SMap (BitVec 512)) (ws : List Window) (w : Window) : Bool :=
  let stage (n : Nat) : Stage := z.st.getD n ⟨0, 0, 0, none⟩
  let die (n : Nat) : Nat := clusterAt z.st n / 4
  let need := ((lp6Bytes z.img (stage w.stage) + 63) / 64 + 2) / 3
  let n := (ws.filter fun v => die v.stage == die w.stage && decide (0 < lp6Bytes z.img (stage v.stage)) && decide (v.s < w.d ∧ w.s < v.d)).length
  decide (0 < need) && (List.range 8).any fun ch =>
    let l := mapSlots (SMap.get 0 own (8 * die w.stage + ch))
    decide (slotsBefore l w.d - slotsBefore l w.s < need * n)

/-- Every window of a mode. -/
def assignWindows (s : State) (z : Placed) (order : List (Nat × Nat)) (lp6 : SMap (BitVec 512)) : Except BindFail (List Window) := do
  let l := exitLast z.img z.mode order
  let prec := precedence z.img z.mode z.st (l.map fun f => f.2.2)
  let ws ← (withNo l).foldlM (fun ws f => do
    let w ← nextWindow s z (prec.getD f.1 0) f.2.2.1 ws f.2.1 f.2.2.2.1 f.2.2.2.2
    pure (ws ++ [w])) []
  match ws.find? (lp6Short z lp6 ws) with
  | some w =>
    .error { code := statusSched, step := 7, mode := z.mode.id, block := (z.st.getD w.stage ⟨0, 0, 0, none⟩).blk, stage := w.stage }
  | none => .ok ws

/-! The arrival table (R344). -/

/-- The section of a mode in an arrival table from an address: its period, and (channel, firing, arrival) of each entry. Sections stand
back to back; one that no mode can have ends the table. -/
def arrivalSection (s : State) (mode fuel a : Nat) : Option (Nat × List (Nat × Nat × Nat)) :=
  match fuel with
  | 0 => none
  | n + 1 =>
    let rd (o k : Nat) : Nat := Mem.readN s.host (a + o) k
    let len := rd 8 4
    if rd 0 4 = 0 ∨ 16 ≤ rd 4 1 ∨ rd 5 3 ≠ 0 ∨ rd 12 4 ≠ 0 then none
    else if rd 4 1 = mode then
      some (rd 0 4, (List.range len).map fun i => (rd (16 + 8 * i) 2, rd (18 + 8 * i) 2, rd (20 + 8 * i) 4))
    else arrivalSection s mode n (a + 16 + 8 * len)

/-- Arrivals of a mode's channels from a span, matched in channel order with the mode's section, where the table has one: one firing
each, since the far end fires once (R352). -/
def spanArrivals (s : State) (m : ModeDecl) (table : Nat) : Option (List (Nat × Nat)) :=
  let ins := (withNo m.chans).filter fun c => c.2.fstg == 0xFFFE
  match if table = 0 then none else arrivalSection s m.id 16 table with
  | none => if ins.isEmpty then some [] else none
  | some (p, es) =>
    let chs := es.map fun e => e.1
    if p = m.period ∧ es.length = ins.length ∧ (es.all fun e => e.2.1 == 0) ∧ ((List.zip chs (chs.drop 1)).all fun y => decide (y.1 < y.2)) then
      some (List.zipWith (fun c e => (c.1, e.2.2)) ins es)
    else none

/-- The section of a mode in the report of a binding, where the mode has channels to a span: the arrivals in channel order and then
firing order (R344). -/
def reportSection (t : Table) : List Byte :=
  let es := (withNo t.chans).flatMap fun c =>
    if c.2.spanOut then (sortPairs ((t.arrivals.filter fun a => a.1 == c.1).map fun a => a.2)).map fun a => (c.1, a) else []
  if t.chans.any Chan.spanOut then
    leBytes 4 t.period ++ leBytes 4 t.id ++ leBytes 8 es.length ++ es.flatMap fun e => leBytes 2 e.1 ++ leBytes 2 e.2.1 ++ leBytes 4 e.2.2
  else []

/-! Step 8: tables (R281, R51). -/

/-- The two doublewords of an entry (R107). -/
def packEntry (blk fbk s d kind logsz ramp cad fix alt : Nat) : BitVec 128 :=
  BitVec.ofNat 128 (blk + fbk * 2 ^ 16 + s / tickCycles * 2 ^ 32 + s % tickCycles * 2 ^ 52 + d / tickCycles % 2 ^ 20 * 2 ^ 64 +
    d % tickCycles * 2 ^ 84 + kind * 2 ^ 96 + logsz * 2 ^ 100 + ramp * 2 ^ 104 + cad * 2 ^ 105 + fix * 2 ^ 106 + alt * 2 ^ 112)

/-- The mode-change entry with which each column opens. -/
def pointEntry : Entry := { word := packEntry 0 0 0 0 2 0 0 0 0 0xFFFF, stage := 0xFFFF }

/-- The entry of a window; a fork's RAMP is that of its `block` (log 79). -/
def windowEntry (x : Image) (p : Plan) (st : List Stage) (chans : List Chan) (w : Window) : Entry :=
  let y := st.getD w.stage ⟨0, 0, 0, none⟩
  let b := x.block y.blk
  let far := chans.any fun c => c.fstg == w.stage && decide (3 ≤ c.scope)
  { word := packEntry y.blk b.fbk w.s w.d (if y.alt = 0 then 0 else 1) b.logsz (bit b.ramp) (if far then 0 else 1) y.fix y.alt,
    stage := w.stage, k := w.k, slots := w.slots, vers := p.versAt w.no }

/-- A cell's column: the point, then the entries of the firings on it in increasing S. -/
def columnOf (x : Image) (p : Plan) (st : List Stage) (chans : List Chan) (ws : List Window) (c : Nat) : List Entry :=
  let mine := ws.filter fun w => (stageCells x (st.getD w.stage ⟨0, 0, 0, none⟩)).contains c
  let order := sortPairs ((withNo mine).map fun w => (w.2.s, w.1))
  pointEntry :: order.filterMap fun o => (mine[o.2]?).map (windowEntry x p st chans)

/-- Bytes of the table store that a table takes on a die: columns, LP6 slot maps, slot maps of the directions it sends in. -/
def tableStoreBytes (t : Table) (die : Nat) : Nat :=
  t.columns.foldl (fun n c => if c.1 / 64 = die then n + 16 + 16 * c.2.length else n) 0 +
  80 * (t.lp6Own.filter fun y => y.1 / 8 == die).length + 80 * (t.linkOwn.filter fun y => decide (y.1 < 8) && portOf y.1 / 2 == die).length

/-- Blocks and fallbacks that tables place on a cell, ascending. -/
def cellBlocks (x : Image) (ts : List Table) (c : Nat) : List Nat :=
  let on := ts.flatMap fun t => (t.stages.filter fun y => (stageCells x y).contains c).flatMap fun y => [y.blk, y.alt, (x.block y.blk).fbk]
  (upFrom 1 x.blocks.length).filter fun b => on.contains b

/-- The lowest block that does not fit a cell's code bank. -/
def codeOver (x : Image) (ts : List Table) (c : Nat) : Option Nat :=
  ((cellBlocks x ts c).foldl (fun (acc : Nat × Option Nat) b =>
    let n := acc.1 + 4 * (x.block b).code.length
    (n, acc.2 <|> if 131072 < n then some b else none)) (0, none)).2

def checkStores (s : State) (d : Nat) (x : Image) (m : ModeDecl) (ts : List Table) : Except BindFail Unit :=
  let fail : BindFail := { code := statusCapacity, step := 8, mode := m.id }
  match ((s.dom d).cells.filterMap (codeOver x ts)).foldl (fun (b : Option Nat) n => some (b.elim n (Nat.min n))) none with
  | some b => .error { fail with block := b }
  | none =>
    if (List.range 4).any fun die => decide (262144 < ts.foldl (fun n t => n + tableStoreBytes t die) 0) then .error fail else .ok ()

/-- Steps 1 to 8 of one mode, after those of lower id. -/
def bindMode (s : State) (d affinity arr : Nat) (x : Image) (vers : Nat → Nat) (z : Layout × List Table) (m : ModeDecl) :
    Except BindFail (Layout × List Table) := do
  let p ← analyse x m
  let _ ← checkPads s d x m p.caps
  let st ← placeMode s d affinity x m p.rep
  let lay ← layMode s d x m st p vers ((x.modes.getLast?).any fun k => k.id == m.id) z.1
  let far := (m.chans.find? fun c => c.fstg == 0xFFFE).elim 0 fun c => c.tstg
  let spans ← match spanArrivals s m arr with
    | some a => .ok a
    | none => .error ({ code := statusSched, step := 7, mode := m.id, block := (st.getD far ⟨0, 0, 0, none⟩).blk, stage := far } : BindFail)
  let lp6 := ((List.range 32).filter fun k => SMap.get 0 (s.dom d).grant.lp6 k != 0).map fun k => (k, ownLp6 s d k)
  let own := (usedDirs st lay.1).map fun k => (k, ownLink s d k)
  let ws ← assignWindows s ⟨x, m, st, lay.1, own, spans⟩ p.order lp6
  let t : Table :=
    { id := m.id, period := m.period, safe := m.safe, linkdeg := m.linkdeg, peak := m.peak, stages := st, chans := lay.1,
      columns := (s.dom d).cells.map fun c => (c, columnOf x p st lay.1 ws c), lp6Own := lp6, linkOwn := own,
      arrivals := (ws.flatMap fun w => w.arr.map fun a => (a.1, w.k, a.2)) ++ spans.map fun a => (a.1, 0, a.2) }
  checkStores s d x m (z.2 ++ [t])
  .ok (lay.2, z.2 ++ [t])

/-! The binding. -/

/-- The two entries of a publishable buffer (R260, R266): version 0 in front. -/
def pubBuf (x : Image) (e : Nat × BitVec 512 × List Nat) : PubBuf :=
  let t := e.2.1
  let n := tField t 352 32
  let first (ttp : Nat) : Nat := if tHome t = 1 then ttp + alignUp (8 * n) (frameSize (frameCode (tBytes t))) else 0
  let entry (v : Nat) : BitVec 128 :=
    BitVec.ofNat 128 (first (e.2.2.getD v 0) % 2 ^ 23 + v * 2 ^ 24 + (if tHome t = 1 then 0 else 1) * 2 ^ 25 + tField t 0 8 * 2 ^ 64 +
      tField t 11 2 * 2 ^ 72 + tField t 16 8 * 2 ^ 74)
  { writer := x.pubOf e.1, kind := tHome t != 1, entry0 := entry 0, entry1 := entry 1 }

/-- What a successful binding writes to the standby bank. -/
def makeBinding (s : State) (d : Nat) (x : Image) (l : Layout) (ts : List Table) : Binding :=
  let sorted := (sortPairs ((withNo l.tensors).map fun t => (t.2.1, t.1))).filterMap fun o => l.tensors[o.2]?
  { blocks := (withNo x.blocks).map fun b => (b.1 + 1, b.2), tables := ts, tensors := sorted.map fun t => (t.1, t.2.1),
    versions := sorted.map fun t => (t.1, t.2.2), shareTabs := l.shareTabs, dieTabs := l.dieTabs, data := x.data,
    tensorData := (withNo x.tensors).map fun t => (t.1, t.2.dataOfs, t.2.dataLen),
    pubs := (sorted.filter fun t => x.pubOf t.1 != 0).map fun t => (t.1, pubBuf x t),
    limits := (s.dom d).cells.map fun c => (c, cellLimits s d l c), frames := l.frames, image := x.bytes, report := ts.flatMap reportSection }

/-- The eight steps over every mode (R272, R279). -/
def bindImage (s : State) (d affinity arr : Nat) (x : Image) : Except BindFail Binding :=
  if !((List.range 4).any fun die => affinity.testBit die && dieUsable s die) then
    .error { code := statusNoDie, step := 6, mode := (x.modes.head?).elim 0 fun m => m.id }
  else do
    let plans := x.modes.filterMap fun m => (analyse x m).toOption
    let vers (tid : Nat) : Nat := plans.foldl (fun n p => Nat.max n (p.versions x tid)) (x.baseVersions tid)
    let z ← x.modes.foldlM (bindMode s d affinity arr x vers) ({}, [])
    .ok (makeBinding s d x z.1 z.2)

/-- What a binding comes to: its status record, and on success its tables. -/
def bindResult (s : State) (d affinity arr : Nat) (img : Except Nat Image) : BindResult :=
  let fail (f : BindFail) : BindResult := { status := f.code, record := statusRecord f s.hub.signature }
  match img with
  | .error c => fail { code := c }
  | .ok x =>
    match bindImage s d affinity arr x with
    | .error f => fail f
    | .ok b => { fail { code := statusOk } with tables := some b }

/-- The longest a binding takes (R273): 10 ms, 2 us for each firing and channel, 1 us for each tile named. -/
def bindBound (x : Except Nat Image) : Nat :=
  match x with
  | .error _ => 14000000
  | .ok x =>
    let f := x.modes.foldl (fun n m => n + ((repetition m).toOption.getD []).foldl (· + ·) 0) 0
    let e := x.modes.foldl (fun n m => n + m.chans.length) 0
    let t := x.blocks.foldl (fun n b => b.tiles.foldl (fun n y => n + (y.2.2.2 - y.2.2.1 + 1)) n) 0
    14000000 + 2800 * f * (e + 1) + 1400 * t

/-- BIND (R273, R336, R347): refused while a binding is in progress or has not taken effect; else it takes a time that the manual
bounds (log 4). -/
def execBind (dom ring tag image length affinity arrival : Nat) (s : State) : Out :=
  let x := s.dom dom
  .next (
    if x.binding.isSome ∨ x.fresh then
      completeCommand s dom ring tag statusBusy 0 (statusRecord { code := statusBusy } s.hub.signature)
    else
      let img := loadImage s image length
      let s := s.modDom dom fun x => { x with binding := some (ring, tag, bindResult s dom affinity arrival img) }
      (s.tickFree).sched (s.now + Nat.min (Config.bindCycles s.free) (bindBound img)) (.bindingComplete dom ring tag))

/-- Code of the blocks that a binding places on a cell. -/
def Binding.codeOn (b : Binding) (c : Nat) : SMap (List (BitVec 32)) :=
  let on := b.tables.flatMap fun t =>
    (t.stages.filter fun y => y.at0.any fun a => decide (a ≤ c ∧ c < a + 2 ^ (SMap.get {} b.blocks y.blk).logsz)).flatMap fun y =>
      [y.blk, y.alt, (SMap.get {} b.blocks y.blk).fbk]
  (b.blocks.filter fun k => on.contains k.1).map fun k => (k.1, k.2.code)

/-- Where no table runs, step 8 writes the headers and initial records of the lowest mode (R281). -/
def writeInitial (s : State) (d : Nat) (b : Binding) : State :=
  match b.table (lowestMode b) with
  | none => s
  | some t =>
    let chans := t.chans.map (nextChan s d none b t)
    let s1 := writeAreas s ((chans.flatMap fun y => y.2).map (Transfer.read s))
    let s2 := s1.modDom d fun x =>
      { x with active := some b, mode := lowestMode b, chans := List.zip (List.range chans.length) (chans.map fun y => y.1) }
    let s3 := (List.range chans.length).foldl (fun s n => writeHeaders s d n) s2
    s3.modDom d fun _ => s.dom d

/-- The standby banks take what a binding writes: tables, code, tile tables, and contents of memory that nothing else holds (R281). -/
def writeStandby (s : State) (d : Nat) (b : Binding) : State :=
  let x := s.dom d
  let s := b.dieTabs.foldl (fun s t =>
    writeArea s ⟨.lp6 t.1, upFrom t.2.1 (8 * t.2.2.length)⟩ (plainBlob (t.2.2.flatMap fun (e : Word) => leBytes 8 e.toNat))) s
  let s := if x.active.isNone then writeInitial (writeAreas s (shareTables s d b)) d b else s
  let s := writeAreas s (boundContents s d x.active b)
  let s := x.cells.foldl (fun s c => s.modCell c fun y => { y with codeStandby := b.codeOn c }) s
  s.modDom d fun x =>
    { x with standby := some { b with writtenAt := s.now }, fresh := true, state := if x.state = 0 then 1 else x.state }

/-- A binding ends: the status record last of all (R272, R281). -/
def execBindingComplete (dom ring tag : Nat) (s : State) : Out :=
  .next (match (s.dom dom).binding with
    | none => s
    | some (_, _, r) =>
      let s := s.modDom dom fun x => { x with binding := none }
      let s := match r.tables with
        | some b => writeStandby s dom b
        | none => s
      completeCommand s dom ring tag r.status 0 r.record)

end Sys2Proof.Machine
end

