-- ==== Sys2Proof/Machine/Boot.lean ====
section
/-! DEFINITION. Device reset and the boot (R345 to R348, R328), faults of the whole device (R117), soft errors (R309), and words that
are no instruction (R74). -/

namespace Sys2Proof.Machine

/-! The boot. -/

/-- RSN of a die (R328, R345, R348). -/
def DieBoot.reason (x : DieBoot) (authentic : Bool) : Nat :=
  if !x.inPackage then 1 else if x.harvested then 2 else if !x.trains then 5 else if !x.derives then 4
  else if !authentic then 3 else if !x.memoryOk then 6 else 0

/-- Mutual authentication (R348): the hub and a die each sign the other's nonce, and each verifies the other's signature under the
key that the configuration record enrolls. -/
def authentic (h : Hub) (key : List Byte) (x : DieBoot) : Bool :=
  Config.sigVerifies key x.hubNonce (Config.sign (Config.identityPair x.puf).2 x.hubNonce) &&
  Config.sigVerifies h.hubKey x.dieNonce (Config.sign h.identity.2 x.dieNonce)

/-- RSN of die `d`; one of which the boot finds nothing is not in the package. -/
def bootReason (h : Hub) (b : BootFind) (d : Nat) : Nat :=
  (b.dies[d]?).elim 1 fun x => DieBoot.reason x (authentic h (h.dieKeys.getD d []) x)

/-- DIE_MAP of a boot. -/
def bootMap (h : Hub) (b : BootFind) : BitVec 40 :=
  let rsn (d : Nat) : Nat := bootReason h b d
  BitVec.ofNat 40 ((upFrom 0 4).foldl (fun v d => v + (if rsn d = 0 then 2 ^ d else 0) + (if 3 ≤ rsn d then 2 ^ (4 + d) else 0) +
    rsn d * 2 ^ (8 + 4 * d)) 0 + b.harvest.toNat * 2 ^ 24)

/-- The device at reset: its clock reads zero, and what lies outside it goes on. -/
def freshDevice (s : State) : State :=
  { State.reset with now := s.now, host := s.host, free := s.free, nextId := s.nextId,
                     agenda := [⟨s.now + tickCycles, eventPrio .tick, .tick⟩],
                     hub := { State.reset.hub with clockOfs := (2 ^ 60 - s.now % 2 ^ 60) % 2 ^ 60 } }

/-- A boot that ends in an error: the hub halts, and PCIe stays down. -/
def bootError (s : State) (stage err : BitVec 4) : State := s.modHub fun h => { h with stage := stage, berr := err }

/-- The ports after training: absent where a die or a neighbour is (R328, R342). -/
def bootPorts (s : State) : State :=
  let absent (s : State) (p : Nat) (gone : Bool) : State := if gone then s.modPort p fun x => { x with st := 4 } else s
  let s := (upFrom 0 4).foldl (fun s d =>
    absent (absent (absent s (2 * d) (!dieUsable s d || !dieUsable s ((d + 3) % 4))) (2 * d + 1) (!dieUsable s d || !dieUsable s ((d + 1) % 4)))
      (8 + d) (!dieUsable s d)) (((upFrom 8 6).foldl (fun s p => s.modPort p fun x => { x with modon := 1 }) s))
  (upFrom 0 2).foldl (fun s q =>
    if spanNeighbour s.hub q = false then absent s (12 + q) true
    else
      let m := (Config.freeValue s.free).toNat % 2 ^ 13
      { s with free := s.free + 1 }.modPort (12 + q) fun x => { x with lat := m, st := if 4096 < spanLatency m then 3 else 0 }) s

/-- Each die that the hub reaches derives its key pair (R347). -/
def derivePairs (s : State) (b : BootFind) : State :=
  (upFrom 0 4).foldl (fun s d => match b.dies[d]? with
    | some x =>
      if x.inPackage && !x.harvested && x.derives then s.modDie d fun y => { y with identity := Config.identityPair x.puf } else s
    | none => s) s

/-- Steps 4 to 6: dies, memory, PCIe. Each fenced die, and the end of the boot, is a device event on vector 18 (R341). -/
def bootDies (s : State) (b : BootFind) : State :=
  let s := bootPorts ((derivePairs s b).modHub fun h => { h with dieMap := bootMap h b })
  if b.pcieOk = false then bootError s 5 5
  else
    let s := bootError s 6 0
    let fenced := (upFrom 0 4).filter fun d => s.hub.dieMap.getLsbD (4 + d)
    (fenced.foldl (fun s _ => s.modHub fun h => { h with msix := SMap.set 0 h.msix 18 (SMap.get 0 h.msix 18 + 1) }) s).modHub fun h =>
      { h with msix := SMap.set 0 h.msix 18 (SMap.get 0 h.msix 18 + 1) }

/-- What the configuration record and the flash give the hub (R346, R349). -/
def takeConfig (h : Hub) (b : BootFind) : Hub :=
  { h with config := b.config, firmware := b.firmware, dieFirmware := b.dies.map fun x => x.firmware, imageKeys := b.imageKeys.take 4,
           dieKeys := b.dieKeys.take 4, hubKey := b.hubKey, identity := Config.identityPair b.hubPuf, spanNumber := b.spanNumber, spanRing := b.spanRing, spanCount := b.spanCount, lp6Gb := b.lp6Gb, signature := b.signature }

/-- DEVICE_RESET: the steps of R345 with what they find. -/
def execDeviceReset (find : BootFind) (s : State) : Out :=
  let s := freshDevice s
  .next (if !(Config.romKeyHash find.rootKey && Config.sigVerifies find.rootKey find.firmware find.firmwareSig) then bootError s 0 1
    else if find.config.isEmpty then bootError s 1 2
    else if !Config.sigVerifies find.rootKey find.config find.configSig then bootError s 1 3
    else if !find.pufOk then bootError s 2 4
    else bootDies (s.modHub fun h => takeConfig h find) find)

/-! Faults of the whole device (R117): every clock stops. -/

def execLinkClockLoss (s : State) : Out := .next (s.modHub fun h => { h with up := false })
def execThermalShutdown (s : State) : Out := .next (s.modHub fun h => { h with up := false })

/-! Soft errors (R309): bits of a stored word flip, its check bits unchanged. -/

def flipWord (m : SMap Word) (k bits : Nat) : SMap Word := SMap.set 0 m k (SMap.get 0 m k ^^^ BitVec.ofNat 64 bits)

/-- A table entry with flipped bits: its parity tells an odd number of them (R109). -/
def Entry.strike (e : Entry) (bits : Nat) : Entry :=
  { e with word := e.word ^^^ BitVec.ofNat 128 bits, bad := e.bad ^^ (popcount 128 bits % 2 == 1) }

/-- A fault in the running table. -/
def strikeRunning (x : Domain) (f : Table → Table) : Domain :=
  { x with active := x.active.map fun b => { b with tables := b.tables.map fun t => if t.id = x.mode then f t else t } }

/-- An entry of the running table's column of a cell. -/
def strikeTable (x : Domain) (cell entry bits : Nat) : Domain :=
  strikeRunning x fun t =>
    { t with columns := t.columns.map fun y => if y.1 = cell then (y.1, y.2.modify entry fun e => e.strike bits) else y }

/-- A 64-bit word of a slot map that a table holds. -/
def flipMap (m : SMap (BitVec 512)) (key word bits : Nat) : SMap (BitVec 512) :=
  SMap.set 0 m key (SMap.get 0 m key ^^^ (BitVec.ofNat 64 bits).setWidth 512 <<< (64 * (word % 8)))

def execSoftError (place : ErrAt) (bits : Nat) (s : State) : Out :=
  .next (match place with
    | .scratchpad c w => s.modCell c fun x => { x with sp := { x.sp with err := flipWord x.sp.err w bits } }
    | .accumulator c e => s.modCell c fun x => { x with accErr := flipWord x.accErr (e / 2) bits }
    | .slice k w => s.modCluster k fun x => { x with slice := { x.slice with err := flipWord x.slice.err w bits } }
    | .code c b w => s.modCell c fun x => { x with codeErr := flipWord x.codeErr (b * 2 ^ 14 + w / 2) bits }
    | .sreg c r => s.modCell c fun x => { x with regErr := flipWord x.regErr (r % 32) bits }
    | .vreg c r w => s.modCell c fun x => { x with regErr := flipWord x.regErr (64 + r % 32 + 256 * (w % 32)) bits }
    | .mask c r w => s.modCell c fun x => { x with regErr := flipWord x.regErr (128 + r % 8 + 256 * (w % 4)) bits }
    | .lp6 d l =>
      s.modDie d fun x => { x with lineErr := SMap.set 0 x.lineErr l (SMap.get 0 x.lineErr l ^^^ BitVec.ofNat 512 bits) }
    | .table d c e => s.modDom d fun x => strikeTable x c e bits
    | .lp6Map d die ch w =>
      armSlot (s.modDom d fun x => strikeRunning x fun t => { t with lp6Own := flipMap t.lp6Own (8 * die + ch) w bits }) die ch 0
    | .linkMap d key w => armTwice (s.modDom d fun x => strikeRunning x fun t => { t with linkOwn := flipMap t.linkOwn key w bits }) key 0)

/-- UNASSIGNED_ENCODING: words that are no instruction raise ILLEGAL, whatever their guard field (R74). -/
def execUnassignedEncoding (w0 w1 : BitVec 32) (long : Bool) (s : State) : Out :=
  .next (takeTrap s .illegal (wordsVal [w0.toNat, if long then w1.toNat else 0]))

end Sys2Proof.Machine
end

