-- ==== Sys2Proof/Machine/Modes.lean ====
section
/-! DEFINITION. Mode changes and their requests, the safe mode, the launch of a table, and partition reset (R298 to R301, R306 to
R308, R327, R336). -/

namespace Sys2Proof.Machine

/-! Requests (R301, R327). -/

/-- A request becomes pending at the hub, where it replaces an earlier one; while a link-degraded order stands it is kept apart
(R327). While the tables of a domain do not run, its cells' requests are void (R306). -/
def takeRequest (s : State) (d mode : Nat) (host : Bool) : State :=
  s.modDom d fun x =>
    if x.running = false ∧ host = false then x
    else if x.degraded.isSome then { x with apart := some mode }
    else { x with pending := some mode, pendingAt := s.now }

def execModeRequestPending (d mode _die _cluster _cx : Nat) (host : Bool) (s : State) : Out := .next (takeRequest s d mode host)

/-- The mode a link-degraded order names (R42, R327). -/
def linkdegMode (b : Binding) : Option Nat := (b.tables.find? fun t => t.linkdeg).map fun t => t.id

/-- The latch of a point, 8,192 cycles before it (R301): the pending request, or a link-degraded order for this point; and a
rebinding whose status record was written earlier (R299). The next latch comes one period later. -/
def execModeRequestLatch (d : Nat) (s : State) : Out :=
  let x := s.dom d
  let k := x.latchNo
  let s := s.modDom d fun x =>
    let x := { x with latchNo := k + 1 }
    let x := match x.degraded, x.pending with
      | some (m, j), _ => if j = k then { x with latched := x.latched ++ [(k, m)] } else x
      | none, some m => { x with latched := x.latched ++ [(k, m)], pending := none }
      | none, none => x
    match x.standby with
    | some b => if x.fresh ∧ x.bindReady.isNone ∧ b.writtenAt < s.now then { x with bindReady := some k } else x
    | none => x
  .next (if x.running then s.schedPhase d (s.phaseNow d + x.periodCycles) (.modeRequestLatch d) else s)

/-- A link-degraded order reaches a domain (R327): it replaces the pending request, and is latched for the first point at least
8,192 cycles later. -/
def orderDegraded (s : State) (d : Nat) : State :=
  let x := s.dom d
  match x.active with
  | none => s
  | some b =>
    match linkdegMode b with
    | none => s
    | some m =>
      if x.running = false ∨ m = x.mode then s
      else
        let k := Nat.max x.pointNo ((s.phaseNow d + 8192 - x.t0 + x.periodCycles - 1) / x.periodCycles)
        s.modDom d fun x =>
          { x with degraded := some (m, k), apart := if x.pending.isSome ∧ x.pendingAt = s.now then x.pending else x.apart,
                   pending := none,
                   latched := if k < x.latchNo then (x.latched.filter fun y => y.1 != k) ++ [(k, m)] else x.latched }

/-! The point (R299, R300). -/

/-- The scheduled target of a domain's point: ALT of the opening entry, where it names a mode. -/
def scheduledTarget (t : Table) : Option Nat :=
  (t.columns.findSome? fun x => x.2.head?).bind fun e => if e.alt < 16 then some e.alt else none

/-- The target of a rebinding (R299): the latched or scheduled one where the new binding holds it, else the mode in being, else the
lowest. -/
def rebindTarget (b : Binding) (latched alt : Option Nat) (mode : Nat) : Nat :=
  let held (m : Option Nat) : Option Nat := m.bind fun m => if (b.table m).isSome then some m else none
  match held latched, held alt with
  | some m, _ => m
  | none, some m => m
  | none, none => if (b.table mode).isSome then mode else lowestMode b

/-- The order that a point takes: whether it rebinds, and the mode (R299). A target that the binding in being does not hold is passed
over, as one that a new binding does not hold is (log 81). -/
def pointOrder (x : Domain) : Option (Bool × Nat) :=
  let k := x.pointNo
  let lat := (x.latched.find? fun y => y.1 == k).map fun y => y.2
  let alt := x.table.bind scheduledTarget
  match (if x.fresh && x.bindReady.any fun j => decide (j ≤ k) then x.standby else none), x.active with
  | some b, some _ => some (true, rebindTarget b lat alt x.mode)
  | none, some a => ([lat, alt].filterMap id).find? (fun m => (a.table m).isSome) |>.map fun m => (false, m)
  | _, none => none

/-- A link-degraded order's point is taken: the request kept apart is pending from the next cycle (R327). -/
def endOrder (s : State) (d : Nat) : State :=
  let x := s.dom d
  let s := s.modDom d fun x => { x with degraded := none, apart := none }
  match x.apart with
  | some m => s.sched (s.now + 1) (.modeRequestPending d m 0 0 0 false)
  | none => s

/-- A point is due on every die (R330): a pending change of the power takes effect with it. -/
def updateBudgets (s : State) (d : Nat) : State := (s.dom d).dies.foldl (fun s x => s.sched s.now (.budgetUpdate x)) s

/-- Routines loaded for the engines of a domain's clusters take effect for it at its point; one that no domain waits for takes the
place of the old one (R249). -/
def passRoutines (s : State) (d : Nat) : State :=
  (s.dom d).clusters.foldl (fun s k => [2 * k, 2 * k + 1].foldl (fun s e => s.modEngine e fun x =>
    let next := x.routinesNext.map fun y => (y.1, y.2.1, y.2.2.1, y.2.2.2.filter fun p => p != d)
    { x with routines := (next.filter fun y => y.2.2.2.isEmpty).foldl (fun m y => SMap.put m y.1 (y.2.1, y.2.2.1)) x.routines,
             routinesNext := next.filter fun y => !y.2.2.2.isEmpty }) s) s

/-- A mode-change point (R112): taken where an order stands, passed at no cost otherwise. -/
def execModeChangePoint (d _entry : Nat) (s : State) : Out :=
  let s := if (s.dom d).running then endReserves s d else s
  let x := s.dom d
  .next (match x.running, x.table with
    | true, some t =>
      let s := passRoutines (updateBudgets s d) d
      let mine := x.degraded.any fun y => y.2 == x.pointNo
      let s := if mine then endOrder s d else s
      match pointOrder x with
      | some (rebind, m) => takeEffect s d m rebind true
      | none =>
        let s := s.modDom d fun y => { y with pointNo := y.pointNo + 1, latched := y.latched.filter fun z => z.1 != x.pointNo }
        walkPeriod s d (s.phaseNow d) t
    | _, _ => s)

/-! The safe mode (R298). -/

/-- Stop every firing of a domain that still runs; none of their fallbacks is released and nothing commits. -/
def stopAll (s : State) (d : Nat) (v : Word) : State :=
  (s.dom d).firings.foldl (fun s f =>
    match (s.dom d).firing f.id with
    | some f => if f.ended then s else stopFiring s d f .kill fun _ => (.kill, v)
    | none => s) s

/-- The mode that an image marks safe. -/
def safeMode (b : Binding) : Option Nat := (b.tables.find? fun t => t.safe).map fun t => t.id

/-- No request and no order stands any more. -/
def clearRequests (s : State) (d : Nat) : State :=
  s.modDom d fun x => { x with pending := none, latched := [], apart := none, degraded := none }

/-- The switch to the safe mode, at a tick boundary; without one the partition is reset and the host told (R298). -/
def execSafeModeSwitch (d : Nat) (s : State) : Out :=
  let x := s.dom d
  .next (if x.running = false then s
    else
      match x.active.bind safeMode with
      | some m =>
        if m = x.mode then postNotice (s.sched s.now (.partitionReset d)) d 0 statusSafeReset
        else takeEffect (clearRequests (stopAll s d (BitVec.ofNat 64 (2 ^ 61))) d) d m false true
      | none => postNotice (s.sched s.now (.partitionReset d)) d 0 statusSafeReset)

/-! Launch (R336, R281). -/

/-- The table takes effect at T tk + 0 cyc. -/
def execLaunchEffect (d : Nat) (s : State) : Out :=
  let x := s.dom d
  .next (match x.launching with
    | none => s
    | some (ring, tag, mode, _, seed) =>
      let s := s.modDom d fun x => { x with launching := none, seed := seed }
      completeCommand (takeEffect s d mode x.fresh false) d ring tag statusOk 0 [])

/-! Partition reset (R306, R307). -/

/-- What a cell that is cleared keeps: its place, the code it holds, its limits (R23). -/
def Cell.cleared (c : Cell) (dom until_ : Nat) : Cell :=
  { dom := dom, code := c.code, codeStandby := c.codeStandby, codeErr := c.codeErr, codePoison := c.codePoison, limL := c.limL,
    limC := c.limC, limOB := c.limOB, limSOV := c.limSOV, clearUntil := until_ }

/-- A binding in progress is abandoned (R273, R306). -/
def abandonBinding (s : State) (d : Nat) : State :=
  match (s.dom d).binding with
  | none => s
  | some (ring, tag, _) =>
    completeCommand ((s.unsched (.bindingComplete d ring tag)).modDom d fun x => { x with binding := none }) d ring tag statusAbandoned 0
      (leBytes 32 (statusAbandoned + 0xFFFF * 2 ^ 32 + 0xFFFF * 2 ^ 64 + 0xFFFF * 2 ^ 80 + s.hub.signature.toNat * 2 ^ 160))

/-- A launch that has not taken effect is void. -/
def voidLaunch (s : State) (d : Nat) : State :=
  match (s.dom d).launching with
  | none => s
  | some (ring, tag, _) =>
    completeCommand ((s.unsched (.launchEffect d)).modDom d fun x => { x with launching := none }) d ring tag statusAbandoned 0 []

/-- Cycle r: nothing is released any more, every firing is stopped, requests are gone, freezes and holds end (R306). -/
def execPartitionReset (d : Nat) (s : State) : Out :=
  .next (if hasCells s d = false then s
    else
      let s := stopAll s d 0
      let s := clearRequests (clearPhase s d) d
      let s := (((s.unsched (.freeze d)).unsched (.thaw d)).unsched (.safeModeSwitch d)).modHub fun h =>
        { h with tfreeze := h.tfreeze &&& ~~~(BitVec.ofNat 8 (2 ^ d)) }
      let s := s.modDom d fun x =>
        { x with state := 3, running := false, frozen := none, thawAt := none, heldEvents := [], bindReady := none,
                 resetAt := some s.now }
      let s := (s.dom d).cells.foldl (fun s c => if (s.cell c).run = .held then stopCell s c .kill 0 else s) s
      let s := passRoutines (voidLaunch (abandonBinding s d) d) d
      (s.sched (s.now + 64) (.partitionResetClear d)).sched (s.now + 8256) (.partitionResetComplete d))

/-- Clusters whose engines a domain shares with another that runs. -/
def sharedCluster (s : State) (d k : Nat) : Bool :=
  (upFrom 0 9).any fun e => e != d && (s.dom e).running && (s.dom e).clusters.contains k

/-- Cycle r + 64: channels, objects, generators, caches, fault sets and cells are cleared; the generators of engines that another
running domain shares go on, since a reset changes no result of another (R308). -/
def execPartitionResetClear (d : Nat) (s : State) : Out :=
  .next (if (s.dom d).resetAt.any (fun r => r + 64 == s.now) = false then s
    else
      let x := s.dom d
      let s := s.modDom d fun x => { x with chans := x.chans.map fun y => (y.1, {}), faults := [] }
      let s := (x.chans.map fun y => y.1).foldl (fun s n => writeHeaders s d n) s
      let s := invalidateAll (zeroObjects s d) d 0 true
      let s := x.cells.foldl (fun s c => (s.unsched (.matrixStepEnd c)).modCell c fun y => y.cleared d (s.now + 8192)) s
      (x.clusters.filter fun k => !sharedCluster s d k).foldl (fun s k => [2 * k, 2 * k + 1].foldl (fun s e => s.modEngine e fun y =>
        { y with genC := 0, core := { y.core with genV := 0 } }) s) s)

/-- Cycle r + 8,256: the reset is complete; the binding stays in its bank. Reset commands complete in their own cycle. -/
def execPartitionResetComplete (d : Nat) (s : State) : Out :=
  let due := (s.dom d).resetWaits.filter fun y => y.2.2 == s.now
  let s := if (s.dom d).resetAt.any (fun r => r + 8256 == s.now) then
      s.modDom d fun x => { x with state := if x.active.isSome ∨ x.fresh then 1 else 0, resetAt := none, chans := [] }
    else s
  let s := s.modDom d fun x => { x with resetWaits := x.resetWaits.filter fun y => y.2.2 != s.now }
  .next (due.foldl (fun s y => completeCommand s d y.1 y.2.1 statusOk 0 []) s)

end Sys2Proof.Machine
end

