-- ==== Sys2Proof/Machine/Links.lean ====
section
/-! DEFINITION. Ring and span links: streams, their slots, late records, the ports' status, pause, repair and training; and the
power of the dies (R313 to R331, R342, R343). -/

namespace Sys2Proof.Machine

/-! Ports (R314, R325, R342). -/

/-- The port that a code names on a die: ring ports, the hub module, span ports. -/
def codePort (die code : Nat) : Nat :=
  match code with
  | 0 => 2 * die
  | 1 => 2 * die + 1
  | 2 => 8 + die
  | n => 8 + n

/-- The direction in which a port sends: 2 L + dir, or 8 + 2 q (R315, R343). -/
def sendDir (p : Nat) : Nat := if 12 ≤ p then 8 + 2 * (p - 12) else if p % 2 = 1 then 2 * (p / 2) else 2 * ((p / 2 + 3) % 4) + 1

/-- The status word of a port (R325). A hub module reports four fields, as a link of one module does; an absent port STATE alone. -/
def portWord (p : Nat) (x : Port) : Word :=
  let n := x.st.toNat
  if n = 4 then 4
  else if 8 ≤ p ∧ p < 12 then BitVec.ofNat 64 (n + x.modon.toNat % 2 * 2 ^ 4 + x.modhalf.toNat % 2 * 2 ^ 8 + x.spare.toNat * 2 ^ 48)
  else
    let one (v m : Nat) : Nat := if 12 ≤ p then v % m else v
    BitVec.ofNat 64 (n + bit x.alert * 8 + one x.modon.toNat 2 * 2 ^ 4 + one x.modhalf.toNat 4 * 2 ^ 8 + x.retry.toNat * 2 ^ 16 +
      x.crce.toNat * 2 ^ 32 + x.spare.toNat * 2 ^ 48 + x.late.toNat * 2 ^ 56)

/-- Payload of a slot as the modules or lanes in use give it (R326). -/
def payloadNow (p : Nat) (x : Port) : Nat :=
  if 12 ≤ p then (if x.modon.getLsbD 0 then 640 / (1 + x.modhalf.toNat % 4) else 0)
  else
    let lanes := (List.range 4).foldl (fun n m => if x.modon.getLsbD m then n + (if x.modhalf.getLsbD m then 32 else 64) else n) 0
    5120 * lanes / 256

/-- Room that replays take from the payload of a slot: the first fits the slot's own room (R324). -/
def replayCost (x : Port) (now : Nat) : Nat := if x.replayAt = now then flitBytes * (x.replays - 1) else 0

/-- FLIT_REPLAY: in the slot that starts in this cycle or next. -/
def execFlitReplay (port : Nat) (s : State) : Out :=
  .next (if (s.port port).st = 4 then s else s.modPort port fun x => x.replay s.nextSlotAt)

/-! Streams: what leaves in a slot (R317 to R319). -/

/-- The channels of a domain's running table that a port sends, with their numbers. -/
def sentBy (s : State) (d port : Nat) : List (Nat × Chan) :=
  match (s.dom d).running, (s.dom d).table with
  | true, some t => (withNo t.chans).filter fun c => chanDir t.stages c.2 == some (sendDir port)
  | _, _ => []

/-- Bytes of a staged record that leave: read from the staging area with their poison; none beyond the share (R316). -/
def stagedBytes (s : State) (d k ofs n : Nat) : Blob :=
  (upFrom ofs n).map fun o =>
    if o < s.shareSize d k then
      let a := s.shareByte d k o
      (Mem.byte (s.cluster k).slice.bytes a, (s.cluster k).slice.bad (a / 8))
    else (0, false)

/-- What a slot takes of a channel's staged records: the room left, the records that stay, those that have left, and the runs of
bytes sent. -/
structure Sent where
  room : Nat
  stay : List Staged := []
  left : List Staged := []
  segs : List Seg := []

/-- Send up to `room` bytes of the staged records of channel `n` that a test accepts, in order; a record before them that stays holds
them back. The expander has them 48 cycles after the slot that starts now. -/
def sendRecords (s : State) (d n : Nat) (c : Chan) (mine : Staged → Bool) (room : Nat) (l : List Staged) : Sent :=
  match l with
  | [] => { room := room }
  | x :: r =>
    if mine x = false ∨ room = 0 then { room := room, stay := x :: r }
    else
      let k := Nat.min room (c.size - x.sent.length)
      let y := { x with sent := x.sent ++ stagedBytes s d c.phome (x.ofs + x.sent.length) k }
      let g : Seg := ⟨s.now + 56, d, n, x.uid, x.sent.length, k⟩
      if y.sent.length < c.size then { room := 0, stay := y :: r, segs := [g] }
      else
        let z := sendRecords s d n c mine (room - k) r
        { z with left := y :: z.left, segs := g :: z.segs }

/-- The bytes that leave meet their check bits (R309). -/
def meetSent (s : State) (d : Nat) (c : Chan) (l : List Staged) (gs : List Seg) : State :=
  gs.foldl (fun s g => (l.find? fun x => x.uid == g.uid).elim s fun x =>
    meetArea s d (shareArea s d c.phome (x.ofs + g.first) g.count)) s

/-- Records of a firing that have missed their slot become late: the bytes of each that stand in the first `bound` of the firing's
stream in this direction, by its declared place there; `base` is where the channel's stream begins. They are late from `at_` on, the
end of the slot. -/
def missRecords (c : Chan) (k base bound at_ : Nat) (l : List Staged) : List Staged × Nat :=
  let mine := l.filter fun x => x.k == k && !x.late
  let first := c.push - mine.length
  let z := l.foldl (fun (acc : List Staged × Nat × Nat) x =>
    if x.k == k && !x.late then
      let hit := decide (base + (first + acc.2.1 + 1) * c.size ≤ bound)
      (acc.1 ++ [{ x with late := hit, lateAt := at_ }], acc.2.1 + 1, acc.2.2 + bit hit)
    else (acc.1 ++ [x], acc.2.1, acc.2.2)) ([], 0, 0)
  (z.1, z.2.2)

/-- The entry that a slot serves, by its cycle in the period, with the slot's place among the entry's slots in its direction. -/
def slotEntry (s : State) (d key : Nat) : Option (Entry × Nat × Nat) :=
  let x := s.dom d
  match x.table with
  | none => none
  | some t =>
    let ph := (s.phaseNow d - x.t0) % x.periodCycles
    (t.columns.flatMap fun c => c.2).findSome? fun e =>
      let mine := e.slots.filter fun y => y.1 == key
      ((withNo mine).find? fun y => y.2.2 == ph).map fun y => (e, y.1, mine.length)

/-- A lower-numbered running domain that owns a slot too, which only a table-store fault can cause (R315). -/
def slotTaken (s : State) (d key slot : Nat) : Bool :=
  (List.range d).any fun e => (s.dom e).running && (s.dom e).frozen.isNone &&
    ((s.dom e).table).any fun t => (SMap.get 0 t.linkOwn key).getLsbD slot

/-- A slot being served: the state, the room left, the bytes of the firing's stream in this direction before the next channel, the
records made late, and the runs of bytes sent. -/
structure Serve where
  s : State
  room : Nat
  base : Nat := 0
  late : Nat := 0
  segs : List Seg := []

/-- One channel of the firing whose slot it is: what leaves, and what is late: records that stay, and at the firing's last slot those
that no commit has made. `last` says that the slot is the firing's last. -/
def serveChannel (d k bound : Nat) (last on : Bool) (a : Serve) (n : Nat) (c : Chan) : Serve :=
  let v := (a.s.dom d).chan n
  let r := if on then sendRecords a.s d n c (fun x => x.k == k && !x.late) a.room v.staged else { room := 0, stay := v.staged }
  let m := if last then missRecords c k 0 (a.base + (c.push + c.cap + 1) * c.size) (a.s.now + 8) r.stay
    else if on then (r.stay, 0) else missRecords c k a.base bound (a.s.now + 8) r.stay
  { s := (meetSent a.s d c v.staged r.segs).modChan d n fun v =>
      { v with staged := m.1, leaving := v.leaving + r.left.length,
               commits := if last then v.commits.filter fun j => j != k else v.commits,
               inFlight := if c.spanOut then v.inFlight else v.inFlight ++ r.left },
    room := r.room, base := a.base + c.push * c.size, late := a.late + m.2 + if last && !v.commits.contains k then c.push else 0,
    segs := a.segs ++ r.segs }

/-- What a slot of a ring link has sent is on its way to the other end's expander, which delivers it 48 cycles after the slot's end
(R351). -/
def launchSegs (s : State) (port slot : Nat) (l : List Seg) : State :=
  if l.isEmpty ∨ 8 ≤ port then s
  else (s.modPort port fun x => { x with segs := x.segs ++ l }).sched (s.now + 56) (.linkSlot port (10240 + slot))

/-- Serve a slot with the room that the replays so far leave; a flip made in one of its flits costs a replay (R311, R324). -/
def withReplays (s : State) (port : Nat) (on : Bool) (serve : State → Nat → Serve) : Serve :=
  let room (s : State) : Nat := if on then payloadNow port (s.port port) - replayCost (s.port port) s.now else 0
  let used := room s - (serve s (room s)).room
  let s := sendFlits s port ((used + flitBytes - 1) / flitBytes)
  let z := serve s (room s)
  { z with s := z.s.modPort port fun x => { x with busyAt := if z.room < room s then some s.now else x.busyAt } }

/-- A slot that the binding assigned to a firing (R317): its committed records leave, packed in channel order; what stays is late from
the end of the slot of a link that does not carry, or of the firing's last slot. -/
def assignedSlot (s : State) (port d slot : Nat) : State :=
  let key := sendDir port
  match slotEntry s d key with
  | none => s
  | some (e, i, m) =>
    let on := carrying s port && !slotTaken s d key slot
    let cs := (sentBy s d port).filter fun c => c.2.fstg == e.stage
    let z := withReplays s port on fun s room =>
      cs.foldl (fun a c => serveChannel d e.k ((i + 1) * slotPayload key) (decide (i + 1 = m)) on a c.1 c.2) { s := s, room := room }
    (launchSegs (z.s.modPort port fun x => { x with lateNow := x.lateNow + z.late }) port slot z.segs).sched (s.now + 8)
      (.linkSlot port (slot + 5120))

/-- A slot that two tables own starts: the higher-numbered one's partition gets a record (R315), and again a tick later while it lasts. -/
def twiceSlot (s : State) (port slot : Nat) : State :=
  let key := sendDir port
  let ds := (List.range 9).filter fun e => (s.dom e).running && (s.dom e).frozen.isNone &&
    ((s.dom e).table).any fun t => (SMap.get 0 t.linkOwn key).getLsbD slot
  let s := (ds.drop 1).foldl (fun s d => recordFault s d { cause := .memerr, tstore := true, die := port / 2 % 4, agent := 33 }) s
  armTwice s key 1

/-- Late records of a port's channels, domain by domain and channel by channel (R319). -/
def lateChannels (s : State) (port : Nat) : List (Nat × Nat × Chan) :=
  (List.range 9).flatMap fun d => ((sentBy s d port).filter fun c => ((s.dom d).chan c.1).staged.any fun x => x.late).map fun c => (d, c)

/-- Late records of one channel leave; one whose own slot has not ended is not late yet (R317). -/
def drainChannel (a : Serve) (d n : Nat) (c : Chan) : Serve :=
  let r := sendRecords a.s d n c (fun x => x.late && decide (x.lateAt ≤ a.s.now)) a.room ((a.s.dom d).chan n).staged
  let s := (meetSent a.s d c ((a.s.dom d).chan n).staged r.segs).modChan d n fun v =>
    { v with staged := r.stay, leaving := v.leaving + r.left.length,
             lateFlight := if c.spanOut then v.lateFlight else v.lateFlight ++ r.left }
  let s := if c.spanOut then s else r.left.foldl (fun s _ => s.sched (s.now + 56) (.lateRecordArrival d n)) s
  { a with s := s, room := r.room, segs := a.segs ++ r.segs }

/-- Late records leave in a slot that carries no scheduled one. -/
def drainSlot (s : State) (port slot : Nat) : State :=
  let p := s.port port
  if (lateChannels s port).isEmpty ∨ carrying s port = false then s
  else if p.busyAt = some s.now then s.sched (s.now + 8) (.linkSlot port ((slot + 1) % 512))
  else
    let z := withReplays s port true fun s room =>
      (lateChannels s port).foldl (fun a y => drainChannel a y.1 y.2.1 y.2.2) { s := s, room := room }
    let s := (launchSegs z.s port slot z.segs).modPort port fun x => { x with busyAt := p.busyAt }
    (s.sched (s.now + 8) (.linkSlot port (slot + 5120))).sched (s.now + 8) (.linkSlot port ((slot + 1) % 512))

/-- Put the port's next slot for late records on the agenda, if any wait and none is there. -/
def armDrain (s : State) (port : Nat) : State :=
  let due := s.nextSlotAt
  let mine (x : Timed) : Bool := match x.ev with
    | .linkSlot p n => p == port && decide (n < 512)
    | _ => false
  if (lateChannels s port).isEmpty ∨ carrying s port = false ∨ s.agenda.any mine then s
  else s.sched due (.linkSlot port ((due + s.hub.clockOfs) % tickCycles / 8))

/-- A slot ends: staging places whose record has left are free, and records that missed it are late (R317, R319). -/
def endSlot (s : State) (port : Nat) : State :=
  let s := (List.range 9).foldl (fun s d => (sentBy s d port).foldl (fun s c =>
    if ((s.dom d).chan c.1).leaving = 0 then s else writeHeaders (s.modChan d c.1 fun v => v.left c.2.cap) d c.1) s) s
  armDrain (s.modPort port fun x => { x with late := satAdd8 x.late x.lateNow, lateNow := 0 }) port

/-- LINK_SLOT. A slot that a table of domain d assigns is numbered 512 (d + 1) up; one for late records by itself; a slot's end from
5,120, the delivery at the other end from 10,240, and a slot that is owned twice from 15,360. -/
def execLinkSlot (port slot : Nat) (s : State) : Out :=
  .next (if slot < 512 then drainSlot s port slot
    else if slot < 5120 then assignedSlot s port (slot / 512 - 1) (slot % 512)
    else if slot < 10240 then endSlot s port
    else if slot < 15360 then deliverSegs s port fun g => decide (g.due ≤ s.now)
    else twiceSlot s port (slot - 15360))

/-! Arrivals (R317, R319, R343). -/

/-- Cycle A of a firing's records on a channel: they are stored, and those that are missing are owed. -/
def execStreamArrival (dom channel count firing : Nat) (s : State) : Out :=
  let v := (s.dom dom).chan channel
  let here := v.inFlight.filter fun x => x.k == firing
  let s := storeRecords (s.modChan dom channel fun v => { v with inFlight := v.inFlight.filter fun x => x.k != firing }) dom channel
    (here.map fun x => x.sent)
  .next (wakeRecv (s.modChan dom channel fun v => { v with owed := v.owed + (count - here.length - v.got), got := v.got - (count - here.length) })
    dom (cellKeys s))

/-- A record that comes outside its firing's arrival: it lowers the owed count, or counts towards the arrival that follows. -/
def arriveRecord (s : State) (d n : Nat) (x : Blob) : State :=
  (storeRecords s d n [x]).modChan d n fun v => if 0 < v.owed then { v with owed := v.owed - 1 } else { v with got := v.got + 1 }

def execLateRecordArrival (dom channel : Nat) (s : State) : Out :=
  .next (match ((s.dom dom).chan channel).lateFlight with
    | [] => s
    | x :: r => arriveRecord (s.modChan dom channel fun v => { v with lateFlight := r }) dom channel x.sent)

/-- Bytes of a stream of another device, as span port 0's expander delivers them in one slot: they follow those of earlier slots, and
`count` is how many records have their last byte among them (R317, R343, R351). -/
def execSpanArrival (dom channel : Nat) (bytes : List Byte) (count : Nat) (s : State) : Out :=
  .next (match (s.dom dom).table with
    | some t =>
      match t.chans[channel]? with
      | some c =>
        if c.fstg = 0xFFFE ∧ (s.dom dom).running then
          let r := (cellKeys s).foldl (flipFor s 12) (plainBlob bytes, s)
          let l := ((s.dom dom).chan channel).part ++ r.1
          (List.range count).foldl (fun s i =>
              arriveRecord s dom channel ((List.range c.size).map fun j => l.getD (i * c.size + j) (0, false)))
            (r.2.modChan dom channel fun v => { v with part := l.drop (count * c.size) })
        else s
      | none => s
    | none => s)

/-! str.send and str.recv (R320, R321). -/

/-- The channel of a port, if its records cross a link or reach the host. -/
def streamChan (s : State) (port : Nat) : Option (Nat × Chan) :=
  (s.myFiring.bind fun f => portChan s.me' f port).filter fun x => x.2.kind == 3

def execStrSend (g : PReg) (port : BitVec 1) (b : SReg) (s : State) : Out :=
  issue s g 1 1 fun s =>
    (readClean s [b]).bind fun x s =>
      match streamChan s (30 + port.toNat) with
      | none => .ok () (s.modMe fun c => c.setFlags s.now flagQMIS)
      | some _ => pushPort s (30 + port.toNat) (x.get 0)

/-- A pop that may wait: the record, STREAMLATE where one is owed, or the wait. -/
def runRecv (d : SReg) (port : Nat) (s : State) : Ret Unit :=
  match streamChan s port, s.myFiring with
  | some (n, c), some f =>
    let v := s.me'.chan n
    if avail v f port = 0 ∧ f.pops port < c.pop then
      if 0 < v.owed then .trap .streamlate (BitVec.ofNat 64 n) s
      else .ok () (s.modMe fun x => { x with wait := .recv d port x.pc })
    else (popPort s port).bind fun h s => writeDst s d h none 1
  | _, _ => writeDst (s.modMe fun c => c.setFlags s.now flagQMIS) d 0 none 1

def execStrRecv (g : PReg) (d : SReg) (port : BitVec 1) (s : State) : Out := issue s g 1 1 (runRecv d (28 + port.toNat))

/-- The check of a waiting `str.recv` at the end of a cycle. -/
def execStrRecvPass (c : Nat) (s : State) : Out :=
  let back := s.cur
  let s := { s with cur := c }
  .next { (match (s.cell c).wait with
    | .recv d port pc =>
      match streamChan s port, s.myFiring with
      | some (n, _), some f =>
        let v := s.me'.chan n
        let trap (s : State) (k : Cause) (w : Word) : State := trapCell (s.modCell c fun x => { x with pc := pc }) c k w
        if 0 < avail v f port then
          match (popPort s port).bind fun h s => writeDst s d h none 1 with
          | .ok _ s => s.modCell c fun x => { x with wait := .none, t := Nat.max x.t (s.now + 1) }
          | .trap k w s => trap s k w
        else if 0 < v.owed then trap s .streamlate (BitVec.ofNat 64 n)
        else s
      | _, _ => s
    | _ => s) with cur := back }

/-! Status, pause, repair, training (R325 to R327). -/

/-- The power word of a die (R329). -/
def powerWord (s : State) (d : Nat) : Word :=
  let x := s.die d
  let signed (v : Int) (w : Nat) : Nat := (v % 2 ^ w).toNat
  BitVec.ofNat 64 (x.bud.toNat + signed x.pend 12 * 2 ^ 11 + diePeak s d % 2 ^ 11 * 2 ^ 23 + signed x.loanL 11 * 2 ^ 34 +
    signed x.loanR 11 * 2 ^ 45 + x.last.toNat * 2 ^ 56)

def execLnkStat (g : PReg) (d a : SReg) (s : State) : Out :=
  issue s g 1 1 fun s =>
    (readClean s [a]).bind fun x s =>
      let n := (x.get 0).toNat
      let die := dieOf s.cur
      if 6 ≤ n then .trap .illegal (x.get 0) s
      else writeDst s d (if n = 3 then powerWord s die else let p := codePort die n; portWord p (s.port p)) none 1

/-- The port that a link instruction names; a code of 2, 3, 6 or 7, or nonzero upper bits, raises ILLEGAL (R326). -/
def linkPort (s : State) (v : Word) : Ret Nat :=
  if v = 0 ∨ v = 1 ∨ v = 4 ∨ v = 5 then .ok (codePort (dieOf s.cur) v.toNat) s else .trap .illegal v s

/-- Partitions that own slots in either direction of a link (R327). -/
def ownersOf (s : State) (port : Nat) : List Nat :=
  let keys := if 12 ≤ port then [sendDir port, sendDir port + 1] else (portEnds port).map sendDir
  (List.range 8).filter fun d => (s.dom d).running && ((s.dom d).table).any fun t =>
    keys.any (fun k => SMap.get 0 t.linkOwn k != 0) || t.chans.any fun c => port == 12 && c.fstg == 0xFFFE

/-- A port leaves STATE 0: with the first end of a link, orders go out and the host is told (R327, R341). -/
def leaveUp (s : State) (port : Nat) (st : BitVec 3) : State :=
  let first := carrying s port
  let s := s.modPort port fun x => { x with st := st }
  if first then sendMsix ((ownersOf s port).foldl orderDegraded s) 18 else s

/-- `lnk.pause`: the port at the end of its slot, the neighbour when it has the message (R313, R326). -/
def execLnkPause (g : PReg) (a : SReg) (s : State) : Out :=
  supervisor s (encode (.lnkPause g a)) (issue s g 1 1 fun s =>
    (readClean s [a]).bind fun x s =>
      (linkPort s (x.get 0)).bind fun p s =>
        if (s.port p).st ≠ 0 then .ok () s
        else
          let done := s.now + 1 + { s with now := s.now + 1 }.toStep
          .ok () ((peerPort p).toList.foldl (fun s q => s.sched (Nat.max done (s.now + 64)) (.linkPauseEffect q))
            (s.sched done (.linkPauseEffect p))))

def execLinkPauseEffect (port : Nat) (s : State) : Out := .next (if (s.port port).st = 0 then leaveUp s port 1 else s)

/-- Spare lanes of a module in one direction: 4 on a ring link, and on a hub module, which is a module of the same kind (DEDUCED, log
76); a span port has none (R314). -/
def spareLanes (port : Nat) : Nat := if port < 12 then 4 else 0

/-- Map a lane to a spare, as the port's transmit lanes (0) or its receive lanes (1), which the other end counts as its own (R326). -/
def useSpare (s : State) (port module dir : Nat) : State :=
  let k := 2 * module + dir
  if spareLanes port ≤ SMap.get 0 (s.port port).used k then s
  else
    let one (s : State) (q k : Nat) : State :=
      s.modPort q fun x => { x with spare := satAdd8 x.spare 1, used := SMap.put x.used k (SMap.get 0 x.used k + 1) }
    (peerPort port).toList.foldl (fun s q => one s q (2 * module + (1 - dir))) (one s port k)

def execLnkRemap (g : PReg) (a b : SReg) (s : State) : Out :=
  supervisor s (encode (.lnkRemap g a b)) (issue s g 1 1 fun s =>
    (readClean s [a, b]).bind fun x s =>
      (linkPort s (x.get 0)).bind fun p s =>
        let v := x.get 1
        if 2 ^ 9 ≤ v.toNat ∨ (12 ≤ p ∧ (field v 0 2 ≠ 0 ∨ 8 ≤ field v 2 6)) then .trap .illegal v s
        else if (s.port p).st ≠ 1 then .ok () s
        else .ok () (useSpare s p (field v 0 2) (field v 8 1)))

/-- `lnk.train`: which modules train, and the latency that a span port measures, the manual does not say; free values stand for both
(log 4). -/
def startTrain (s : State) (p : Nat) (v : Word) : State :=
  let run := if 12 ≤ p then field v 0 1 else field v 0 4
  let half := if 12 ≤ p then (if v.getLsbD 5 then 3 else if v.getLsbD 4 then 1 else 0) else field v 4 4
  let good := (Config.freeValue s.free).toNat &&& run
  let m := (Config.freeValue (s.free + 1)).toNat % 2 ^ 13
  let s := (portEnds p).foldl (fun s q => s.modPort q fun x => { x with st := 2 }) s
  let s := { s with free := s.free + 3 }
  s.sched (s.now + tickCycles * Nat.min 16 (Config.trainTicks (s.free - 1))) (.linkTrainDone p good half m)

def execLnkTrain (g : PReg) (a b : SReg) (s : State) : Out :=
  supervisor s (encode (.lnkTrain g a b)) (issue s g 1 1 fun s =>
    (readClean s [a, b]).bind fun x s =>
      (linkPort s (x.get 0)).bind fun p s =>
        let v := x.get 1
        if 2 ^ 8 ≤ v.toNat ∨ (12 ≤ p ∧ (field v 1 3 ≠ 0 ∨ field v 6 2 ≠ 0)) then .trap .illegal v s
        else if (s.port p).st ≠ 1 then .ok () s
        else .ok () (startTrain s p v))

/-- Training ends paused with its modules set, or down where none trained or a span is too long (R326, R343). -/
def execLinkTrainDone (port run half latency : Nat) (s : State) : Out :=
  .next ((portEnds port).foldl (fun s q =>
    if (s.port q).st ≠ 2 then s
    else s.modPort q fun x =>
      let down := run % 16 = 0 ∨ (12 ≤ q ∧ 4096 < spanLatency latency)
      { x with st := if down then 3 else 1, modon := BitVec.ofNat 4 run, lat := if 12 ≤ q then latency else x.lat,
               modhalf := BitVec.ofNat 4 (if 12 ≤ q then half else half &&& run) }) s)

def execLnkResume (g : PReg) (a : SReg) (s : State) : Out :=
  supervisor s (encode (.lnkResume g a)) (issue s g 1 1 fun s =>
    (readClean s [a]).bind fun x s =>
      (linkPort s (x.get 0)).bind fun p s =>
        if (s.port p).st ≠ 1 then .ok () s else .ok () (s.sched (tickAtLeast s (s.now + 64)) (.linkResumeEffect p)))

/-- The link is up again: the counts clear, and late records follow (R326). -/
def execLinkResumeEffect (port : Nat) (s : State) : Out :=
  .next (if (s.port port).st ≠ 1 then s
    else
      let s := (portEnds port).foldl (fun s q =>
        if (s.port q).st = 1 then s.modPort q fun x => { x with st := 0, retry := 0, crce := 0, late := 0, alert := false } else s) s
      releaseWalks (releaseLines ((portEnds port).foldl armDrain s)))

/-- A module of a port loses a lane for which it has no spare: it degrades to x32, a span port from x8 to x4 to x2; one that is as
narrow as it can be stops (R314, R342; DEDUCED, log 76). -/
def Port.degrade (x : Port) (span : Bool) (module : Nat) : Port :=
  let next : BitVec 4 := x.modhalf ||| (if span ∧ x.modhalf.getLsbD 0 then 2 else BitVec.ofNat 4 (2 ^ module))
  if x.modhalf = next then { x with modon := x.modon &&& ~~~(BitVec.ofNat 4 (2 ^ module)) } else { x with modhalf := next }

/-- LANE_FAILURE: the lane is repaired by a spare, or its module degrades at both ends; a link with no module left is down (DEDUCED,
log 76). -/
def execLaneFailure (port module _lane : Nat) (rx : Bool) (s : State) : Out :=
  let dir := bit rx
  .next (if (s.port port).st = 4 ∨ (if port < 8 then 4 else 1) ≤ module then s
    else if SMap.get 0 (s.port port).used (2 * module + dir) < spareLanes port then useSpare s port module dir
    else
      let s := (portEnds port).foldl (fun s q => s.modPort q fun x => x.degrade (decide (12 ≤ q)) module) s
      if (s.port port).modon ≠ 0 then s else (portEnds port).foldl (fun s q => leaveUp s q 3) s)

/-! Power (R329 to R331). -/

/-- The ring neighbour of a die, right or left. -/
def ringDie (d : Nat) (right : Bool) : Nat := if right then (d + 1) % 4 else (d + 3) % 4

/-- Whether a die may give units beside those it has promised: its budget stays at its peak and 120 MU at least. -/
def mayGive (s : State) (d n : Nat) : Bool :=
  decide ((Nat.max (diePeak s d) 120 : Int) ≤ (s.die d).bud.toNat + (s.die d).pend - (s.die d).promised - n)

/-- A die promises units: they leave its PEND when the transfer is done (DEDUCED, log 73). -/
def promise (s : State) (d n : Nat) : State := s.modDie d fun x => { x with promised := x.promised + n }

/-- The checks of R330 on the operands: the port, then the amount. -/
def powerArgs (s : State) (a b : Word) : Ret (Bool × Nat) :=
  if 2 ≤ a.toNat then .trap .illegal a s
  else if b = 0 ∨ 1020 < b.toNat then .trap .illegal b s
  else .ok (a == 1, b.toNat) s

def setLast (s : State) (d : Nat) (v : BitVec 2) : State := s.modDie d fun x => { x with last := v }

/-- Both changes become pending at once, so that no unit is lost or made (R329); the taker waits for the giver's report. -/
def givePend (s : State) (giver taker n : Nat) (giverRight : Bool) : State :=
  (s.modDie giver fun x => { x with pend := x.pend - n, promised := x.promised - n }).modDie taker fun x =>
    { x with pend := x.pend + n, givers := x.givers ++ [(giverRight, none)] }

def execPwrBorrow (g : PReg) (a b : SReg) (s : State) : Out :=
  supervisor s (encode (.pwrBorrow g a b)) (issue s g 1 1 fun s =>
    (readClean s [a, b]).bind fun x s =>
      (powerArgs s (x.get 0) (x.get 1)).bind fun y s =>
        let d := dieOf s.cur
        if (s.die d).last = 3 ∨ dieUsable s (ringDie d y.1) = false then .ok () (setLast s d 2)
        else .ok () ((setLast s d 3).sched (s.now + 64) (.powerGiverCheck d y.1 y.2)))

/-- The neighbour's check, 64 cycles after the issue on die `die`. -/
def execPowerGiverCheck (die : Nat) (right : Bool) (n : Nat) (s : State) : Out :=
  let giver := ringDie die right
  let ok := mayGive s giver n
  .next ((if ok then promise s giver n else s).sched (s.now + 64) (.powerTransferDone die right n false ok))

def execPwrRepay (g : PReg) (a b : SReg) (s : State) : Out :=
  supervisor s (encode (.pwrRepay g a b)) (issue s g 1 1 fun s =>
    (readClean s [a, b]).bind fun x s =>
      (powerArgs s (x.get 0) (x.get 1)).bind fun y s =>
        let d := dieOf s.cur
        let loan := if y.1 then (s.die d).loanR else (s.die d).loanL
        let other := ringDie d y.1
        if (s.die d).last = 3 ∨ loan < y.2 ∨ dieUsable s other = false then .ok () (setLast s d 2)
        else if mayGive s d y.2 then
          .ok () ((setLast (promise s d y.2) d 3).sched (s.now + 128) (.powerTransferDone d y.1 y.2 true true))
        else .ok () ((setLast s d 3).sched (s.now + 1) (.powerTransferDone d y.1 y.2 true false)))

/-- The changes are pending, the loans change, and LAST tells the issuing die (R330). -/
def execPowerTransferDone (die : Nat) (right : Bool) (n : Nat) (repay ok : Bool) (s : State) : Out :=
  let other := ringDie die right
  let v : Int := if repay then -(n : Int) else n
  let loan (x : Die) (r : Bool) (v : Int) : Die := if r then { x with loanR := x.loanR + v } else { x with loanL := x.loanL + v }
  .next (if ok = false then setLast s die 2
    else
      let s := if repay then givePend s die other n (!right) else givePend s other die n right
      setLast ((s.modDie die fun x => loan x right v).modDie other fun x => loan x (!right) (-v)) die 1)

/-- Whether the pending change of a die may take effect: a positive one waits for the report of every giver. -/
def Die.settled (x : Die) (now : Nat) : Bool :=
  decide (x.pend ≤ 0) || x.givers.all fun g => g.2.any fun r => decide (r ≤ now)

/-- The report of a giver reaches a neighbour at a cycle. -/
def Die.report (x : Die) (right : Bool) (at_ : Nat) : Die :=
  { x with givers := x.givers.map fun g => if g.1 = right ∧ g.2.isNone then (g.1, some at_) else g }

/-- A pending change takes effect, and the die reports its decrease to a neighbour that waits (R330). -/
def execBudgetUpdate (die : Nat) (s : State) : Out :=
  let x := s.die die
  .next (if x.settled s.now = false then s
    else
      let s := s.modDie die fun y =>
        { y with bud := BitVec.ofNat 11 (y.bud.toNat + y.pend).toNat, pend := 0, givers := if 0 < y.pend then [] else y.givers }
      [true, false].foldl (fun s r => s.modDie (ringDie die r) fun y => y.report (!r) (s.now + 64)) s)

/-- Whether a binding in an active or standby bank uses anything of a cluster (R331): a cell that holds a column, which is what a
binding writes for each cell it assigns; or a share in which it has placed anything. Semaphores and barriers are reached by the
cluster's cells alone (R255). -/
def Binding.uses (b : Binding) (k : Nat) : Bool :=
  (b.limits.any fun y => y.1 / 16 == k) || (b.tables.any fun t => t.columns.any fun y => y.1 / 16 == k) ||
  b.tensors.any fun y => tHome y.2 == 1 && tCluster y.2 == k

def clusterUsed (s : State) (k : Nat) : Bool :=
  (List.range 9).any fun d => (s.dom d).boundBanks.any fun b => b.uses k

def execPwrGate (g : PReg) (a : SReg) (s : State) : Out :=
  supervisor s (encode (.pwrGate g a)) (issue s g 1 1 fun s =>
    (readClean s [a]).bind fun x s =>
      let v := x.get 0
      let k := 4 * dieOf s.cur + v.toNat
      if 4 ≤ v.toNat then .trap .illegal v s
      else if (s.cluster k).gate ≠ 0 ∨ clusterUsed s k then .ok () s
      else .ok () ((s.modCluster k fun y => { y with gate := 1 }).sched (s.now + 256) (.gateComplete k)))

def execGateComplete (k : Nat) (s : State) : Out := .next (s.modCluster k fun y => { y with gate := 2 })

/-- CW.GATE's WAKE bit (R331). -/
def execWake (k : Nat) (s : State) : Out := .next (startWake s k)

/-- A woken cluster is on. It releases no block for 2,048 cycles, nor for 2,048 after a lower-numbered cluster woken with it, whose
wake completes in the same cycle (R116, DEDUCED, log 71). -/
def execWakeComplete (k : Nat) (s : State) : Out :=
  let first := (upFrom 0 k).foldl (fun m j =>
    if (s.cluster j).wokenAt = some s.now then Nat.max m ((s.cluster j).allowed + 2048) else m) (s.now + 2048)
  .next (s.modCluster k fun y => { y with gate := 0, allowed := first, wokenAt := some s.now })

end Sys2Proof.Machine
end

