-- ==== Sys2Proof/Machine/Regulator.lean ====
section
/-! DEFINITION. The time regulator: ticks, time samples, holdover and its registers (R99 to R105), and the power changes that a tick
boundary lets take effect (R330). -/

namespace Sys2Proof.Machine

/-- The bound of R105 in units of PHERR: 64 cell cycles. -/
def lockBound : Nat := 1024

/-- 200 ppm in units of FOFS, and the largest change of a tick (R100). -/
def fofsLimit : Int := 858993
def fofsStep : Nat := 215

def boundInt (lo hi v : Int) : Int := if v < lo then lo else if hi < v then hi else v

/-- The steering after a tick. Where the regulator steers to within the bounds of R100 the manual does not say: a free value (log
4). -/
def steer (h : Hub) (free : Word) : BitVec 24 :=
  BitVec.ofInt 24 (boundInt (-fofsLimit) fofsLimit (h.fofs.toInt + ((free.toNat % (2 * fofsStep + 1) : Nat) : Int) - fofsStep))

/-- Whether an error has been measured and the last one lies within the bound. -/
def Hub.inBound (h : Hub) : Bool := h.sampled && decide (h.pherr.toInt.natAbs ≤ lockBound)

/-- The regulator's state after a tick of discipline: locked after 256 ticks within the bound (R105). -/
def Hub.track (h : Hub) : Hub :=
  if h.inBound then
    { h with within := Nat.min 256 (h.within + 1), rstate := if 256 ≤ h.within + 1 then 2 else h.rstate }
  else { h with within := 0, rstate := 1 }

/-- Ticks age the last sample; discipline steers unless it is off or in holdover. -/
def Hub.tick (h : Hub) (free : Word) : Hub :=
  let h := { h with age := satAdd16 h.age 1 }
  if h.rstate = 1 ∨ h.rstate = 2 then { h.track with fofs := steer h free } else h

/-- Whether a table that runs has cells on a die. -/
def tableOn (s : State) (die : Nat) : Bool := (upFrom 0 9).any fun d => (s.dom d).running && (s.dom d).onDie die

/-- TICK: a boundary on every die at once. -/
def execTick (s : State) : Out :=
  let s := (({ s with free := s.free + 1 }.modHub fun h => h.tick (Config.freeValue s.free))).sched (s.now + tickCycles) .tick
  let s := (upFrom 0 4).foldl (fun s d =>
    if (s.die d).pend ≠ 0 ∧ tableOn s d = false then s.sched s.now (.budgetUpdate d) else s) s
  .next (if s.hub.en ∧ s.hub.rstate ≠ 3 ∧ s.hub.holdth.toNat ≤ s.hub.age.toNat then s.sched s.now .holdover else s)

/-- HOLDOVER: the steering stays at its last value (R102). -/
def execHoldover (s : State) : Out :=
  .next (if s.hub.en then s.modHub fun h => { h with rstate := 3, within := 0 } else s)

/-- Cell cycles from the epoch to a grandmaster time: 1.4 for each nanosecond (R99). -/
def Hub.cyclesAt (h : Hub) (ns : Nat) : Int := ((ns : Int) - (h.epoch.toNat : Int)) * 7 / 5

/-- The clock is set: ticks, and launches that wait for one, follow it (R101). -/
def setClock (s : State) (v : Nat) : State :=
  let s := (s.unsched .tick).modHub fun h => { h with clockOfs := (v + (2 ^ 60 - s.now % 2 ^ 60)) % 2 ^ 60, cset := true }
  let s := s.sched (s.atClock ((v / tickCycles + 1) * tickCycles)) .tick
  (upFrom 0 9).foldl (fun s d =>
    match (s.dom d).launching with
    | some (_, _, _, start, _) => (s.unsched (.launchEffect d)).sched (s.atClock (start * tickCycles)) (.launchEffect d)
    | none => s) s

/-- The phase error that a sample measures: the clock less the grandmaster's, in sixteenths of a cell cycle, held to its field. -/
def phaseError (s : State) (ns : Nat) : BitVec 20 :=
  BitVec.ofInt 20 (boundInt (-524288) 524287 ((s.clock : Int) * 16 - ((ns : Int) - (s.hub.epoch.toNat : Int)) * 112 / 5))

/-- TIME_SAMPLE: a valid sample of the selected source. The first sets the clock while no table has run (R101); later ones are
measured, and the clock only slews (R100, R102). A time before the epoch is no valid sample. -/
def execTimeSample (ns : Nat) (s : State) : Out :=
  let h := s.hub
  .next (if h.en = false ∨ h.cyclesAt ns < 0 then s
    else
      let s := if h.cset ∨ h.anyTable then s else setClock s (h.cyclesAt ns).toNat
      s.modHub fun h =>
        let h := { h with age := 0, sampled := true, pherr := phaseError s ns }
        { h with rstate := if h.rstate = 3 ∨ !h.inBound then 1 else h.rstate, within := if h.rstate = 3 ∨ !h.inBound then 0 else h.within })

/-- REG_CTL: a reserved SRC leaves the word unchanged; EN starts and ends discipline (R104). -/
def execRegCtl (v : Word) (s : State) : Out :=
  .next (if s.pcie = false ∨ v.toNat % 4 = 3 then s
    else
      s.modHub fun h =>
        let en := v.getLsbD 2
        { h with src := BitVec.ofNat 2 v.toNat, en := en, holdth := if field v 16 16 = 0 then 1 else BitVec.ofNat 16 (field v 16 16),
                 rstate := if !en then 0 else if h.en then h.rstate else 1, within := if en && h.en then h.within else 0 })

/-- REG_EPOCH: ignored after the coarse set (R104). -/
def execRegEpoch (v : Word) (s : State) : Out := .next (if s.pcie = false ∨ s.hub.cset then s else s.modHub fun h => { h with epoch := v })

end Sys2Proof.Machine
end

