-- ==== Sys2Proof/Machine/Host.lean ====
section
/-! DEFINITION. The host: its commands on bound and running domains, attestation, doorbells and queue slots, the registers of BAR0,
memory windows and the debug port (R229, R249, R271, R332 to R340, R349). -/

namespace Sys2Proof.Machine

/-! Commands (R336). -/

/-- The binding that the next launch makes active: the one in the standby bank where it has not taken effect. -/
def Domain.nextBinding (x : Domain) : Option Binding := if x.fresh then x.standby else x.active

/-- A binding whose tables name a span channel. -/
def Binding.usesSpan (b : Binding) : Bool := b.tables.any fun t => t.chans.any fun c => c.fstg == 0xFFFE || c.tstg == 0xFFFE

/-- Cells that pass to a domain are cleared (R23). -/
def claimCells (s : State) (d : Nat) : State :=
  (s.dom d).cells.foldl (fun s c => if (s.cell c).dom = d then s else s.modCell c fun y => y.cleared d (s.now + 8192)) s

/-- LAUNCH: at T tk + 0 cyc the table takes effect. -/
def execLaunch (dom ring tag mode start : Nat) (seed : BitVec 32) (s : State) : Out :=
  let x := s.dom dom
  .next (match x.nextBinding with
    | none => completeCommand s dom ring tag statusBadArg 0 []
    | some b =>
      if x.state ≠ 1 ∨ (b.table mode).isNone ∨ start * tickCycles < s.clock + 8192 ∨ x.launching.isSome then
        completeCommand s dom ring tag statusBadArg 0 []
      else if b.usesSpan ∧ s.hub.rstate ≠ 2 then completeCommand s dom ring tag statusUnlocked 0 []
      else
        ((claimCells s dom).modDom dom fun x => { x with launching := some (ring, tag, mode, start, seed) }).sched
          (s.atClock (start * tickCycles)) (.launchEffect dom))

/-- RESET, in the cycle in which the hub reads the entry: r is 64 cycles later (R306, R336). -/
def execReset (dom ring tag : Nat) (s : State) : Out :=
  let s := s.modDom dom fun x => { x with resetWaits := x.resetWaits ++ [(ring, tag, s.now + 8320)] }
  .next ((s.sched (s.now + 64) (.partitionReset dom)).sched (s.now + 8320) (.partitionResetComplete dom))

/-- Whether a host's write numbered below `n` waits at a channel or is on its way. -/
def hostWrites (s : State) (n : Nat) : Bool :=
  s.dies.any fun x => (x.2.reqs ++ x.2.inFlight).any fun r => decide (r.id < n) && match r.op with | .hostWrite _ => true | _ => false

/-- TTSYNC from the host: once the host's writes received before it are performed, the entries go, and it completes 96 cycles later
(R229). Writes are performed where a slot starts, so that is where it looks again. -/
def execHostTtsync (dom ring tag tid : Nat) (all : Bool) (s : State) : Out :=
  let again (s : State) (phase due : Nat) : State :=
    (s.modRing dom ring fun r => { r with syncing := some phase }).sched due (.hostTtsync dom ring tag tid all)
  let seen (n : Nat) : State :=
    if hostWrites s n then again s (n + 1) (s.now + 8 - s.tcyc % 8) else again (ttSync s dom tid all) 0 (s.now + 96)
  .next (match ((s.dom dom).ring ring).syncing with
    | none => seen s.nextId
    | some 0 => completeCommand (s.modRing dom ring fun r => { r with syncing := none }) dom ring tag statusOk 0 []
    | some (n + 1) => seen n)

/-- MODEREQ: pending when the hub receives it (R301, R336). -/
def execModereq (dom ring tag mode : Nat) (s : State) : Out :=
  .next (if (s.dom dom).modeBound mode then
      completeCommand (s.sched s.now (.modeRequestPending dom mode 0 0 0 true)) dom ring tag statusOk 0 []
    else completeCommand s dom ring tag statusBadArg 0 [])

/-- The channel a command names, or the status with which it is refused: none of the running mode, one that does not end at the
host, or one whose host end is the other (R271, R306, R336). -/
def hostChan (x : Domain) (n : Nat) (push : Bool) : Except Nat Chan :=
  if x.state ≠ 2 then .error statusBadArg
  else
    match x.table.bind fun t => t.chans[n]? with
    | none => .error statusBadArg
    | some c =>
      if c.hostEnd = false then .error statusQScope
      else if (if push then c.fstg else c.tstg) = 0xFFFF then .ok c else .error statusBadArg

/-- CHPUSH commits at once (R336). -/
def execChpush (dom ring tag channel : Nat) (v : Word) (s : State) : Out :=
  let done (s : State) (status : Nat) : Out := .next (completeCommand s dom ring tag status 0 [])
  match hostChan (s.dom dom) channel true with
  | .error e => done s e
  | .ok c =>
    if c.cap ≤ ((s.dom dom).chan channel).queue.length then done s statusFull
    else
      let s := s.modChan dom channel fun x => { x with queue := x.queue ++ [v], tail := (x.tail + 1) % countMod c.cap }
      done (wakeRecv (writeHeaders s dom channel) dom (cellKeys s)) statusOk

/-- CHPOP commits at once (R336). -/
def execChpop (dom ring tag channel : Nat) (s : State) : Out :=
  let done (s : State) (status : Nat) (v : Word) : Out := .next (completeCommand s dom ring tag status v [])
  match hostChan (s.dom dom) channel false with
  | .error e => done s e 0
  | .ok c =>
    match ((s.dom dom).chan channel).queue with
    | [] => done s statusEmpty 0
    | v :: _ => done (writeHeaders (s.modChan dom channel fun x => x.pop c 1) dom channel) statusOk v

/-- Bytes of code an engine's store holds once the routines that wait are in, without one RID. -/
def Engine.storeBytes (e : Engine) (rid : Nat) : Nat :=
  let next := e.routinesNext.filter fun y => y.1 != rid
  (next.map fun y => 4 * y.2.2.1.length).foldl (· + ·) 0 +
  ((e.routines.filter fun y => y.1 != rid && !next.any fun z => z.1 == y.1).map fun y => 4 * y.2.2.length).foldl (· + ·) 0

/-- The domains whose next point a routine of a cluster waits for (R249). -/
def routineWaits (s : State) (k : Nat) : List Nat :=
  (upFrom 0 8).filter fun d => (s.dom d).running && (s.dom d).clusters.contains k

/-- RTNLOAD, of the supervisor domain alone (R249, R336). -/
def execRtnload (dom ring tag die cluster engine rid rwcet code length : Nat) (s : State) : Out :=
  let done (s : State) (status : Nat) : Out := .next (completeCommand s dom ring tag status 0 [])
  let k := 4 * die + cluster
  let e := 2 * k + engine
  if dom ≠ 8 ∨ 4 ≤ die ∨ 4 ≤ cluster ∨ 2 ≤ engine ∨ 64 ≤ rid ∨ rwcet = 0 ∨ 2 ^ 20 < rwcet ∨ 16384 < length ∨ length % 4 ≠ 0 ∨
      clusterUsable s k = false ∨ 16384 < (s.engine e).storeBytes rid + length then done s statusBadArg
  else
    let ws := (List.range (length / 4)).map fun i => BitVec.ofNat 32 (Mem.readN s.host (code + 4 * i) 4)
    let waits := routineWaits s k
    done (s.modEngine e fun x =>
      if waits.isEmpty then
        { x with routines := SMap.put x.routines rid (rwcet, ws), routinesNext := SMap.del x.routinesNext rid }
      else { x with routinesNext := SMap.put x.routinesNext rid (rwcet, ws, waits) }) statusOk

/-- What an attestation says (R349), in an order the model chooses (log 44): measurements of the firmware, the configuration record
and each die's firmware, each bound image with its domain, the die map, the nonce. -/
def attestBody (s : State) (nonce : List Byte) : List Byte :=
  let h := s.hub
  Config.sha256 h.firmware ++ Config.sha256 h.config ++ h.dieFirmware.flatMap Config.sha256 ++
  ((upFrom 0 9).flatMap fun d => (s.dom d).boundBanks.flatMap fun b => leBytes 8 d ++ Config.sha256 b.image) ++
  leBytes 8 h.dieMap.toNat ++ nonce

/-- The signature's 17,088 bytes. -/
def attestBytes (s : State) (nonce : List Byte) : List Byte :=
  let body := attestBody s nonce
  body ++ (Config.sign s.hub.identity.2 body ++ leBytes 17088 0).take 17088

def execAttest (dom ring tag nonce response : Nat) (s : State) : Out :=
  .next (completeCommand (hostWrite s response (attestBytes s (Mem.bytesAt s.host nonce 32))) dom ring tag statusOk 0 [])

def execBadop (dom ring tag : Nat) (s : State) : Out := .next (completeCommand s dom ring tag statusBadOp 0 [])

/-! Doorbells and queue slots (R338, R339). -/

/-- A mapped ring has a tail: one too far ahead of its head stops it, with a notice. -/
def takeTail (s : State) (d i : Nat) (tail : BitVec 32) : State :=
  let r := (s.dom d).ring i
  let s := s.modRing d i fun r => { r with tail := tail }
  if r.stopped then s
  else if ringOn r.reg ∧ 2 ^ ringLog r.reg < (tail - r.head).toNat then
    postNotice (s.modRing d i fun r => { r with stopped := true }) d i statusBadArg
  else nextCommand s d

/-- The tail of a ring: its slot's, or what the next map takes: the shadow's where it was written since the last unmap. -/
def Ring.tailNow (r : Ring) : BitVec 32 := if r.slot.isSome then r.tail else r.shadow.getD r.saved

/-- The most cycles, 1 ms, that a ring whose shadow was written waits for its map (R338). -/
def mapBound : Nat := 1400000

/-- The hub's firmware is to map a ring; when, within the bound, and onto which slot is its own choice (log 77), for which number 64
stands. -/
def askMap (s : State) (d i : Nat) : State :=
  if s.isSched (.ringMap d i 64) then s
  else s.tickFree.sched (s.now + Nat.min (Config.hostCycles s.free) mapBound) (.ringMap d i 64)

/-- DOORBELL: the tail of a mapped ring, or the shadow of one that is not; from number 8 on, the hub's own read of a ring's entry. -/
def execDoorbell (dom ring : Nat) (tail : BitVec 32) (s : State) : Out :=
  .next (if s.pcie = false ∨ 9 ≤ dom then s
    else if 8 ≤ ring then readCommand s dom (ring - 8)
    else if ((s.dom dom).ring ring).slot.isSome then takeTail s dom ring tail
    else askMap (s.modRing dom ring fun r => { r with shadow := some tail }) dom ring)

/-- The context of a mapped ring is saved, and its slot is free. -/
def unmapRing (s : State) (d i : Nat) : State :=
  match ((s.dom d).ring i).slot with
  | none => s
  | some k =>
    (s.modHub fun h => { h with slots := SMap.del h.slots k }).modRing d i fun r =>
      { r with slot := none, saved := r.tail, shadow := none }

/-- The slot that the firmware chooses for a map: the lowest free one, else any, whose ring it unmaps first; commands that wait in
that ring have it mapped again (log 77). -/
def chooseSlot (s : State) : Nat × State :=
  match (upFrom 0 64).find? fun k => !s.hub.slots.any fun x => x.1 == k with
  | some k => (k, s)
  | none =>
    let k := (Config.freeValue s.free).toNat % 64
    let y := SMap.get (0, 0) s.hub.slots k
    let t := unmapRing s.tickFree y.1 y.2
    let r := (t.dom y.1).ring y.2
    (k, if r.saved = r.head then t else askMap t y.1 y.2)

/-- RING_MAP: the slot takes the ring's tail. -/
def execRingMap (dom ring slot : Nat) (s : State) : Out :=
  let r := (s.dom dom).ring ring
  .next (if s.pcie = false ∨ 9 ≤ dom ∨ 8 ≤ ring ∨ 64 < slot ∨ r.slot.isSome ∨ (s.hub.slots.any fun x => x.1 == slot) then s
    else
      let z := if slot = 64 then chooseSlot s else (slot, s)
      let s := z.2.modHub fun h => { h with slots := SMap.put h.slots z.1 (dom, ring) }
      takeTail (s.modRing dom ring fun r => { r with slot := some z.1, shadow := none }) dom ring r.tailNow)

/-- RING_UNMAP, at the cycle U of R339. -/
def execRingUnmap (dom ring : Nat) (s : State) : Out := .next (unmapRing s dom ring)

/-! Grants (R333, R335). -/

/-- The domains other than one. -/
def otherDoms (d : Nat) : List Nat := (upFrom 0 9).filter fun p => p != d

def Grant.clusters (g : Grant) : List Nat := (upFrom 0 16).filter fun k => (upFrom (16 * k) 16).any fun c => g.cells.getLsbD c

/-- Whether a cluster may be granted: neither it nor its die is harvested, fenced or absent. -/
def grantable (s : State) (k : Nat) : Bool := dieUsable s (k / 4) && !s.hub.dieMap.getLsbD (24 + k)

/-- Whether two ranges share a number. -/
def rangesMeet (a n b m : Nat) : Bool := decide (a < b + m) && decide (b < a + n) && n != 0 && m != 0

/-- Whether a grant's objects meet those of another domain in a cluster both use. -/
def objectsMeet (s : State) (d : Nat) (g : Grant) : Bool :=
  (otherDoms d).any fun p =>
    let o := (s.dom p).grant
    (o.clusters.any fun k => g.clusters.contains k) &&
    (rangesMeet g.semBase g.semCnt o.semBase o.semCnt || rangesMeet g.barBase g.barCnt o.barBase o.barCnt)

/-- GCELLS, word `j`. -/
def grantCells (s : State) (d j : Nat) (v : Word) : Option Grant :=
  let g := (s.dom d).grant
  let new := BitVec.ofNat 256 (v.toNat * 2 ^ (64 * j))
  let cells := (g.cells &&& ~~~(BitVec.ofNat 256 ((2 ^ 64 - 1) * 2 ^ (64 * j)))) ||| new
  let taken (c : Nat) : Bool := (otherDoms d).any fun p => (s.dom p).grant.cells.getLsbD c
  if ((upFrom (64 * j) 64).any fun c => new.getLsbD c && (taken c || !grantable s (c / 16))) ∨ objectsMeet s d { g with cells := cells }
  then none else some { g with cells := cells }

/-- Granules of a slice that no other domain's grant holds, ascending. -/
def freeGranules (s : State) (d k : Nat) : List Nat :=
  (upFrom 0 128).filter fun n => !(otherDoms d).any fun p => (s.granules p k).contains n

/-- GGRAN, word `j`: the lowest free granules. -/
def grantGranules (s : State) (d j : Nat) (v : Word) : Option Grant :=
  let n (k : Nat) : Nat := field v (8 * (k % 8)) 8
  let ks := upFrom (8 * j) 8
  if ks.any fun k => decide (128 < n k) || decide ((freeGranules s d k).length < n k) || (n k != 0 && !grantable s k) then none
  else
    let g := (s.dom d).grant
    some { g with ggran := ks.foldl (fun m k => SMap.set 0 m k (n k)) g.ggran,
                  granules := ks.foldl (fun m k => SMap.set [] m k ((freeGranules s d k).take (n k))) g.granules }

/-- GSYNC. -/
def grantObjects (s : State) (d : Nat) (v : Word) : Option Grant :=
  let g := { (s.dom d).grant with semBase := field v 0 9, semCnt := field v 9 9, barBase := field v 18 6, barCnt := field v 24 7 }
  if 256 < g.semBase + g.semCnt ∨ 64 < g.barBase + g.barCnt ∨ objectsMeet s d g then none else some g

/-- Four halfwords from number `4 j`, each at most `top` and in sum with the other domains' shares. -/
def grantHalves (s : State) (d j top : Nat) (v : Word) (of : Grant → SMap Nat) : Option (SMap Nat) :=
  let n (i : Nat) : Nat := field v (16 * (i % 4)) 16
  let sum (i : Nat) : Nat := ((otherDoms d).map fun p => SMap.get 0 (of (s.dom p).grant) i).foldl (· + ·) 0
  let is := upFrom (4 * j) 4
  if is.any fun i => decide (top < n i) || (n i != 0 && decide (top < sum i + n i)) then none
  else some (is.foldl (fun m i => SMap.set 0 m i (n i)) (of (s.dom d).grant))

/-- The grant after a write at an offset of the block, none where it is refused. -/
def grantAfter (s : State) (d offset : Nat) (v : Word) : Option Grant :=
  let g := (s.dom d).grant
  let j (from_ : Nat) : Nat := (offset - from_) / 8
  if offset < 0x28 then grantCells s d (j 8) v
  else if offset < 0x38 then grantGranules s d (j 0x28) v
  else if offset < 0x40 then grantObjects s d v
  else if offset < 0x48 then (if 256 < field v 0 9 then none else some { g with carve := field v 0 9 })
  else if offset < 0x88 then
    if field v 0 64 ≠ 0 ∧ dieUsable s (j 0x48 / 2) = false then none
    else (grantHalves s d (j 0x48) 480 v Grant.lp6).map fun m => { g with lp6 := m }
  else if offset < 0x98 then (grantHalves s d (j 0x88) 512 v Grant.link).map fun m => { g with link := m }
  else (grantHalves s d 0 512 v Grant.span).map fun m => { g with span := m }

/-- GRANT_WRITE: taken, or refused with GERR, as every write is while STATE is not 0. -/
def execGrantWrite (dom offset : Nat) (v : Word) (s : State) : Out :=
  .next (if s.pcie = false ∨ 9 ≤ dom ∨ offset < 8 ∨ 0xA0 ≤ offset then s
    else
      match (if (s.dom dom).state = 0 then grantAfter s dom offset v else none) with
      | some g => s.modDom dom fun x => { x with grant := g }
      | none => s.modDom dom fun x => { x with gerr := true })

/-! Ring registers (R333, R334, R340, R341). -/

/-- FLT_TAIL's upper word: the records consumed; one beyond TAIL is ignored. -/
def execFltTail (dom : Nat) (head : BitVec 32) (s : State) : Out :=
  let x := s.dom dom
  .next (if s.pcie = false ∨ 9 ≤ dom ∨ ((head - x.fltTail).toNat ≠ 0 ∧ (head - x.fltTail).toNat < 2 ^ 31) then s
    else s.modDom dom fun x => { x with fltHead := head })

/-- The writable bits of a ring register. -/
def ringBits (v : Word) : Word := v &&& 0xFFFFFFFFFFFFF01F

/-- PCTL: GERR clears where a 1 is written, REN is written (R334). -/
def writePctl (s : State) (d : Nat) (v : Word) : State :=
  nextCommand (s.modDom d fun x => { x with gerr := x.gerr && !v.getLsbD 2, ren := BitVec.ofNat 8 (field v 8 8) }) d

/-- A write in a partition's block, to a register that has no event of its own; an RSV bit, an RO field and a place with no register
ignore it (R5). -/
def writeBlock (s : State) (d o : Nat) (v : Word) : State :=
  if o = 0 then writePctl s d v
  else if 0x100 ≤ o ∧ o < 0x200 then
    let i := (o - 0x100) / 0x20
    match (o - 0x100) % 0x20 with
    | 0x00 =>
      let s := s.modRing d i fun r => { r with reg := ringBits v }
      if ((s.dom d).ring i).slot.isSome then takeTail s d i ((s.dom d).ring i).tail else s
    | 0x10 => if i < 2 then s.modDom d fun x => { x with cplReg := SMap.set 0 x.cplReg i (ringBits v) } else s
    | _ => s
  else
    match o with
    | 0x200 => s.modDom d fun x => { x with fltReg := ringBits v }
    | 0x210 => s.modDom d fun x => { x with fltLost := BitVec.ofNat 32 (field v 0 32) }
    | 0x218 =>
      s.modDom d fun x =>
        { x with cplHead := SMap.set 0 (SMap.set 0 x.cplHead 0 (BitVec.ofNat 32 (field v 0 32))) 1 (BitVec.ofNat 32 (field v 32 32)) }
    | 0x220 =>
      s.modDom d fun x => { x with coal := BitVec.ofNat 32 (field v 0 16 + Nat.max 1 (field v 16 16) * 2 ^ 16) }
    | _ => s

/-- Four halfwords of a grant, from number `4 j`, as a register. -/
def halfWords (m : SMap Nat) (j : Nat) : Nat := ((upFrom 0 4).map fun i => SMap.get 0 m (4 * j + i) % 2 ^ 16 * 2 ^ (16 * i)).sum

/-- A domain's grant registers (R333). -/
def Grant.register (g : Grant) (o : Nat) : Nat :=
  if o < 0x28 then g.cells.toNat / 2 ^ (64 * (o / 8 - 1)) % 2 ^ 64
  else if o < 0x38 then ((upFrom 0 8).map fun k => SMap.get 0 g.ggran (8 * (o / 8 - 5) + k) % 2 ^ 8 * 2 ^ (8 * k)).sum
  else if o < 0x40 then g.semBase + g.semCnt * 2 ^ 9 + g.barBase * 2 ^ 18 + g.barCnt * 2 ^ 24
  else if o < 0x48 then g.carve
  else if o < 0x88 then halfWords g.lp6 (o / 8 - 9)
  else if o < 0x98 then halfWords g.link (o / 8 - 17)
  else halfWords g.span 0

/-- A read in a partition's block (R333, R334, R340, R341). -/
def Domain.register (x : Domain) (o : Nat) : Nat :=
  if o = 0 then x.state.toNat + bit x.gerr * 4 + x.ren.toNat * 2 ^ 8
  else if o < 0xA0 then x.grant.register o
  else if 0x100 ≤ o ∧ o < 0x200 then
    let i := (o - 0x100) / 0x20
    match (o - 0x100) % 0x20 with
    | 0x00 => (x.ring i).reg.toNat
    | 0x08 => (x.ring i).head.toNat
    | 0x10 => if i < 2 then (SMap.get 0 x.cplReg i).toNat else 0
    | 0x18 => if i < 2 then (SMap.get 0 x.cplTail i).toNat else 0
    | _ => 0
  else
    match o with
    | 0x200 => x.fltReg.toNat
    | 0x208 => x.fltTail.toNat + x.fltHead.toNat * 2 ^ 32
    | 0x210 => x.fltLost.toNat
    | 0x218 => (SMap.get 0 x.cplHead 0).toNat + (SMap.get 0 x.cplHead 1).toNat * 2 ^ 32
    | 0x220 => x.coal.toNat
    | _ => 0

/-- The regulator's registers (R104). -/
def Hub.regCtl (h : Hub) : Nat := h.src.toNat + bit h.en * 4 + h.holdth.toNat * 2 ^ 16
def Hub.regStatus (h : Hub) : Nat := h.rstate.toNat + bit h.cset * 4 + h.pherr.toNat * 2 ^ 4 + h.fofs.toNat * 2 ^ 24 + h.age.toNat * 2 ^ 48

/-- Where an offset of BAR0 lies (R332): a register of the hub, a partition's block with the offset in it, a doorbell page with the
offset in it. -/
inductive BarPlace where
  | hub (o : Nat)
  | block (d o : Nat)
  | door (d i o : Nat)
  deriving DecidableEq, Repr

def barPlace (offset : Nat) : BarPlace :=
  if 0x10000 ≤ offset ∧ offset < 0x10000 + 0x400 * 9 then .block ((offset - 0x10000) / 0x400) ((offset - 0x10000) % 0x400)
  else if 0x100000 ≤ offset ∧ offset < 0x100000 + 0x1000 * 72 then
    .door ((offset - 0x100000) / 0x8000) ((offset - 0x100000) / 0x1000 % 8) ((offset - 0x100000) % 0x1000)
  else .hub offset

/-- The doubleword at an aligned offset of BAR0; WO and RSV bits, and places with no register, read zero (R5, R332). -/
def readRegister (s : State) (offset : Nat) : Nat :=
  let h := s.hub
  match barPlace offset with
  | .block d o => (s.dom d).register o
  | .door d i o => if o = 0 then ((s.dom d).ring i).tailNow.toNat else 0
  | .hub o =>
    match o with
    | 0 => 0x5A390001
    | 8 => h.stage.toNat + h.berr.toNat * 2 ^ 4
    | 0x1000 => h.regCtl
    | 0x1008 => h.epoch.toNat
    | 0x1010 => h.regStatus
    | 0x2000 => h.dieMap.toNat
    | 0x3000 => (portWord 12 (s.port 12)).toNat
    | 0x3008 => (portWord 13 (s.port 13)).toNat
    | _ => 0

/-- A write at an aligned offset of BAR0: a register with an event of its own does what that event does. -/
def writeRegister (offset : Nat) (v : Word) (s : State) : Out :=
  match barPlace offset with
  | .block d o =>
    if o = 0x208 then execFltTail d (BitVec.ofNat 32 (field v 32 32)) s
    else if 8 ≤ o ∧ o < 0xA0 then execGrantWrite d o v s
    else .next (writeBlock s d o v)
  | .door d i o => if o = 0 then execDoorbell d i (BitVec.ofNat 32 v.toNat) s else .next s
  | .hub o => if o = 0x1000 then execRegCtl v s else if o = 0x1008 then execRegEpoch v s else .next s

/-- REGISTER_WRITE: a write at an offset of BAR0 (R5, R332); with no value, the read of it. -/
def execRegisterWrite (offset : Nat) (v : Option Word) (s : State) : Out :=
  let a := offset / 8 * 8
  if s.pcie = false then .next s
  else
    match v with
    | some v => writeRegister a v s
    | none => .next (s.modHub fun h => { h with readVal := BitVec.ofNat 2048 (readRegister s a), readUr := false })

/-! Memory windows (R332, R328). -/

/-- The doubleword at an address of a die's LP6, in a service slot; a die that is not usable, or an address beyond its memory,
drops a write and ends a read as an unsupported request. -/
def execHostMemoryAccess (die addr : Nat) (write : Bool) (v : Word) (s : State) : Out :=
  let a := addr / 8 * 8
  .next (if s.pcie = false then s
    else if dieUsable s die = false ∨ 4 ≤ die ∨ 4096 * lp6Units s.hub die ≤ a then
      if write then s else s.modHub fun h => { h with readVal := 0, readUr := true }
    else addReq s die { id := 0, dom := 8, cls := .best, ready := s.now, addr := a, op := if write then .hostWrite v else .hostRead })

/-! The debug port (R303, R332). -/

/-- Metadata as one word: tag, block size, exponent offset, and TY of a tile. -/
def Meta.bits (m : Meta) : Nat := m.tag.toNat + m.bsz.toNat * 4 + m.eoff.toNat * 32 + bit m.ty * 8192
def Meta.ofBits (v : Nat) : Meta :=
  { tag := BitVec.ofNat 2 v, bsz := BitVec.ofNat 3 (v / 4), eoff := BitVec.ofNat 8 (v / 32), ty := v / 8192 % 2 == 1 }

/-- A loop as one word: start, end, count, active. -/
def HwLoop.bits (l : HwLoop) : Nat := l.st % 2 ^ 16 + l.en % 2 ^ 16 * 2 ^ 16 + bit l.act * 2 ^ 32 + l.cnt * 2 ^ 64
def HwLoop.ofBits (v : Nat) : HwLoop :=
  { st := v % 2 ^ 14, en := v / 2 ^ 16 % 2 ^ 14, act := v / 2 ^ 32 % 2 == 1, cnt := v / 2 ^ 64 % 2 ^ 64 }

/-- Word `w` of a context, and the context with it written (R164, R196). -/
def Ctx.word (x : Ctx) (w : Nat) : Nat :=
  match w with
  | 0 => x.fmta.toNat | 1 => x.fmtb.toNat | 2 => x.fmtc.toNat | 3 => x.sda.toNat | 4 => x.sdb.toNat | _ => 0

def Ctx.setWord (x : Ctx) (w v : Nat) : Ctx :=
  match w with
  | 0 => { x with fmta := BitVec.ofNat 18 v } | 1 => { x with fmtb := BitVec.ofNat 18 v }
  | 2 => { x with fmtc := BitVec.ofNat 18 v } | 3 => { x with sda := BitVec.ofNat 21 v }
  | 4 => { x with sdb := BitVec.ofNat 22 v } | _ => x

/-- The cause with a code (R291); a code without one stands for none. -/
def causeOf (n : Nat) : Cause :=
  ([.illegal, .priv, .align, .loopbound, .memerr, .xlate, .wprot, .qscope, .qempty, .domain, .fmt, .overrun, .doubleOverrun, .trapi,
    .brk, .step, .barflow, .spill, .kill, .streamlate, .ratecount].find? fun c => c.code.toNat == n).getD .none

/-- A status word of a held cell takes a value as it stands (R18). -/
def Cell.setStatus (x : Cell) (number v : Nat) : Cell :=
  match number with
  | 0x10 => { x with sticky := BitVec.ofNat 8 v }
  | 0x11 => { x with oor := BitVec.ofNat 20 v }
  | 0x12 => { x with dfc := BitVec.ofNat 64 v }
  | 0x18 => { x with tcause := causeOf (v % 256), tdbg := v.testBit 8 }
  | 0x19 => { x with tval := BitVec.ofNat 64 v }
  | 0x1A => { x with pc := v % 2 ^ 16 / 4 * 4, tpc := BitVec.ofNat 16 v, tblk := BitVec.ofNat 16 (v / 2 ^ 16) }
  | 0x24 => { x with rep := v % 2 ^ 32, repPend := none }
  | 0x2C => { x with spovf := BitVec.ofNat 23 v }
  | _ => x

/-- Whether a token has an access or a copy command that is still to produce it (R95). -/
def Cell.pending (x : Cell) (k : Nat) : Bool := x.pend.any (fun y => y.tok == k) || x.queue.any fun y => y.tok == k

/-- A token counts as produced: what is still to come produces none (log 50). -/
def Cell.produce (x : Cell) (k : Nat) : Cell :=
  { x with pend := x.pend.map (fun y => if y.tok = k then { y with tok := 0 } else y),
           queue := x.queue.map fun y => if y.tok = k then { y with tok := 0 } else y }

def readDebug (s : State) (c : Nat) (p : DbgAt) : Nat :=
  let x := s.cell c
  match p with
  | .sreg n => (x.getS (BitVec.ofNat 5 n)).toNat
  | .vreg n => (SMap.get 0 x.vreg (n % 32)).toNat
  | .mask n => x.getM (BitVec.ofNat 3 n)
  | .acc e => (SMap.get 0 (x.tile (e / 4096 % 8)).words (e % 4096)).toNat
  | .pred => (upFrom 0 8).foldl (fun v n => v + bit (x.getP (BitVec.ofNat 3 n)) * 2 ^ n) 0
  | .pc => x.pc
  | .cw n => (readCw s c n).toNat
  | .vmeta n => (x.metaOf (BitVec.ofNat 5 n)).bits
  | .tmeta n => (x.tile (n % 8)).info.bits
  | .loop n => (x.loop (n % 4)).bits
  | .scratchpad w => x.sp.readN (8 * (w % 2 ^ 17)) 8
  | .dfb n => bit (x.getD (BitVec.ofNat 5 n))
  | .token k => bit (x.pending (k % 16) && k % 16 != 0)
  | .context n w => (SMap.get {} x.ctxs (n % 4)).word w
  | .current => x.ctx.toNat
  | .status n => if n = 0x10 ∨ n = 0x11 ∨ n = 0x12 ∨ n = 0x18 ∨ n = 0x19 ∨ n = 0x1A ∨ n = 0x24 ∨ n = 0x2C then (readCw s c n).toNat else 0
  | .gen n => match n with | 0 => x.genV.toNat | 1 => x.genD.toNat | 2 => x.genX.toNat | _ => 0
  | .code b w => ((SMap.get [] x.code b).getD w 0).toNat

/-- Control words that are a cell's own (R18, R312, R351). -/
def ownWord (n : Nat) : Bool := decide (n ≤ 0x80) || n == 0x87

def writeDebug (s : State) (c : Nat) (p : DbgAt) (v : BitVec 2048) : State :=
  let n := v.toNat
  match p with
  | .sreg r => s.modCell c fun x => x.setS (BitVec.ofNat 5 r) (BitVec.ofNat 64 n) false
  | .vreg r => s.modCell c fun x => x.setV (BitVec.ofNat 5 r) n true
  | .mask r => s.modCell c fun x => x.setM (BitVec.ofNat 3 r) n
  | .acc e =>
    s.modCell c fun x =>
      let t := x.tile (e / 4096 % 8)
      x.setTile (e / 4096 % 8) { t with words := SMap.set 0 t.words (e % 4096) (BitVec.ofNat 32 n) }
  | .pred => s.modCell c fun x => (upFrom 1 7).foldl (fun x k => x.setP (BitVec.ofNat 3 k) (v.getLsbD k)) x
  | .pc => s.modCell c fun x => { x with pc := n % 2 ^ 16 / 4 * 4, tpc := BitVec.ofNat 16 (n / 4 * 4) }
  | .cw k =>
    if ownWord k then
      match writeCw { s with cur := c } k (BitVec.ofNat 64 n) 0 with
      | .ok _ t => { t with cur := s.cur }
      | .trap _ _ _ => s
    else s
  | .vmeta r => s.modCell c fun x => x.setMeta (BitVec.ofNat 5 r) (Meta.ofBits n)
  | .tmeta t => s.modCell c fun x => x.setTile (t % 8) { x.tile (t % 8) with info := Meta.ofBits n }
  | .loop k => s.modCell c fun x => x.setLoop (k % 4) (HwLoop.ofBits n)
  | .scratchpad w => s.modCell c fun x => { x with sp := x.sp.writeN (8 * (w % 2 ^ 17)) 8 n }
  | .dfb r =>
    s.modCell c fun x =>
      let q : SReg := BitVec.ofNat 5 r
      x.setS q (x.getS q) (v.getLsbD 0)
  | .token k => if k % 16 ≠ 0 ∧ v.getLsbD 0 = false then s.modCell c fun x => x.produce (k % 16) else s
  | .context k w => s.modCell c fun x => { x with ctxs := SMap.set {} x.ctxs (k % 4) ((SMap.get {} x.ctxs (k % 4)).setWord w n) }
  | .current => s.modCell c fun x => { x with ctx := BitVec.ofNat 2 n }
  | .status k => s.modCell c fun x => x.setStatus k n
  | .gen k =>
    s.modCell c fun x =>
      match k with
      | 0 => { x with genV := BitVec.ofNat 32 n } | 1 => { x with genD := BitVec.ofNat 32 n }
      | 2 => { x with genX := BitVec.ofNat 32 n } | _ => x
  | .code b w => s.modCell c fun x => { x with code := SMap.put x.code b ((SMap.get [] x.code b).set w (BitVec.ofNat 32 n)) }

/-- DEBUG_PORT_ACCESS: a cell that is not held reads zero and ignores writes. -/
def execDebugPortAccess (cell : Nat) (place : DbgAt) (write : Bool) (v : BitVec 2048) (s : State) : Out :=
  let held := cell < 256 ∧ (s.cell cell).run = .held
  .next (if s.pcie = false then s
    else if write then (if held then writeDebug s cell place v else s)
    else (sendBest s (8 + dieOf cell)).modHub fun h => { h with readVal := if held then BitVec.ofNat 2048 (readDebug s cell place) else 0, readUr := false })

end Sys2Proof.Machine
end

