-- ==== Sys2Proof/Machine/Spectral.lean ====
section
/-! DEFINITION. Spectral mode: the transform unit, `dtag`, `mma.c` (R188 to R200). -/

namespace Sys2Proof.Machine

/-! Exact spectra (R188, R192). A sum of inputs times cosines of multiples of 2π/b is held by its coefficients on the values
cos(2πk/b) for k below b/4, which are linearly independent over the rationals: it is rational exactly when every coefficient
but the first is zero. Otherwise the sum is an algebraic number of degree at most 64 whose distance from any bound between
two FP32 values is more than 2^-18500, so that `cosBits` fixed-point bits decide its rounding. -/

def cosBits : Nat := 19400

/-- cos(2π/2^n) in fixed point, from cos(2π/4) = 0 by half angles. -/
def cosHalf : Nat → Nat
  | 0 => 0
  | n + 1 => isqrt ((2 ^ cosBits + cosHalf n) * 2 ^ (cosBits - 1))

/-- cos(2πk/b) for k = 0, 1, … by the recurrence of multiples of an angle, `c` its cosine. -/
def cosList (fuel : Nat) (c p q : Nat) : List Nat :=
  match fuel with
  | 0 => []
  | fuel + 1 => p :: cosList fuel c q (2 * c * q / 2 ^ cosBits - p)

/-- The cosines for k below b/4. -/
def cosTable (b : Nat) : List Nat :=
  let c := cosHalf (Nat.log2 b - 2)
  cosList (b / 4) c (2 ^ cosBits) c

/-- cos(2πj/b) as a signed member of the basis: its k and its sign; none for the angle whose cosine is 0. -/
def cosIndex (b j : Nat) : Option (Nat × Bool) :=
  let j := j % b
  let j := if b / 2 < j then b - j else j
  if j = b / 4 then none else if b / 4 < j then some (b / 2 - j, true) else some (j, false)

/-- Add a signed value at a place of a list. -/
def addAtPlace (l : List Int) (k : Nat) (v : Int) : List Int :=
  match l with
  | [] => []
  | x :: r => match k with
    | 0 => (x + v) :: r
    | k + 1 => x :: addAtPlace r k v

/-- The coefficients of Σ v·cos(2πj/b) over pairs (j, v). -/
def cosSum (b : Nat) (l : List (Nat × Int)) : List Int :=
  l.foldl (fun cs x => match cosIndex b x.1 with
    | some (k, neg) => addAtPlace cs k (if neg then -x.2 else x.2)
    | none => cs) (List.replicate (b / 4) 0)

def dotInt (cs : List Int) (ts : List Nat) : Int :=
  match cs, ts with
  | c :: cs, t :: ts => c * (t : Int) + dotInt cs ts
  | _, _ => 0

/-- The value of a coefficient list in units of 2^q. -/
def cosNum (table : List Nat) (cs : List Int) (q : Int) : Num :=
  if (cs.drop 1).all (fun c => c == 0) then
    let c := cs.getD 0 0
    .fin (decide (c < 0)) c.natAbs q false
  else
    let v := dotInt cs table
    .fin (decide (v < 0)) (v.natAbs / 2 ^ 512) (q - cosBits + 512) true

/-- The least exponent of a list of finite values. -/
def leastExp (l : List Num) : Int :=
  l.foldl (fun a x => match x with | .fin _ _ e _ => if e < a then e else a | _ => a) 0

def inUnits (q : Int) : Num → Int
  | .fin n m e _ => scaled n m e q
  | _ => 0

/-- One output part: the sum scaled by 2^-s and rounded once; an exact zero is +0. -/
def specPart (table : List Nat) (b : Nat) (s : Nat) (q : Int) (terms : List (Nat × Int)) : Nat × BitVec 8 :=
  let x := cosNum table (cosSum b terms) q
  if x.isZero then (0, 0) else round (x.shift (-(s : Int))) Elem.fp32 .rne 0

/-- s of R190. -/
def specShift (b : Nat) : Nat := (Nat.log2 b + 1) / 2

/-- A block whose source holds a NaN or an infinity (R193): INVALID for an infinity and no NaN. -/
def specialBlock (xs : List Num) : Option (BitVec 8) :=
  if xs.any Num.isNan then some 0 else if xs.any Num.isInf then some flagINVALID else none

def fp32Nan : Nat := 0x7FC00000

/-- Forward transform of a block of b values: b/2 packed slots as pairs of codes in order, and flags. -/
def fwdBlock (b : Nat) (xs : List Nat) : List Nat × BitVec 8 :=
  let vs := xs.map (decodeElem Elem.fp32)
  match specialBlock vs with
  | some f => (xs.map fun _ => fp32Nan, f)
  | none =>
    let q := leastExp vs
    let iv := vs.map (inUnits q)
    let table := cosTable b
    let part (f shift : Nat) : Nat × BitVec 8 :=
      specPart table b (specShift b) q (List.zip ((List.range b).map fun n => f * n + shift) iv)
    let out := (part 0 0 :: part (b / 2) 0 :: ((upFrom 1 (b / 2 - 1)).map fun t => [part t 0, part t (b / 4)]).flatten)
    (out.map fun x => x.1, out.foldl (fun fl x => fl ||| x.2) 0)

/-- Inverse transform of a packed block given as its b parts in order. -/
def invBlock (b : Nat) (xs : List Nat) : List Nat × BitVec 8 :=
  let vs := xs.map (decodeElem Elem.fp32)
  match specialBlock vs with
  | some f => (xs.map fun _ => fp32Nan, f)
  | none =>
    let q := leastExp vs
    let iv := vs.map (inUnits q)
    let table := cosTable b
    let slot (t : Nat) : Int × Int := (iv.getD (2 * t) 0, iv.getD (2 * t + 1) 0)
    let bin (f : Nat) : Int × Int :=
      if f = 0 then ((slot 0).1, 0) else if f = b / 2 then ((slot 0).2, 0)
      else if f < b / 2 then slot f else ((slot (b - f)).1, -(slot (b - f)).2)
    let bins := (List.range b).map bin
    let out := (List.range b).map fun n =>
      specPart table b (Nat.log2 b - specShift b) q
        ((List.zip (List.range b) bins).map fun x => [(x.1 * n, x.2.1), (x.1 * n + b / 4, x.2.2)]).flatten
    (out.map fun x => x.1, out.foldl (fun fl x => fl ||| x.2) 0)

/-- `xfm.pack` of a full block given as its 2b parts. -/
def packBlock (b : Nat) (xs : List Nat) : List Nat := xs.getD 0 0 :: xs.getD b 0 :: (xs.take b).drop 2

/-- The conjugate's imaginary part. -/
def conjPart (x : Nat) : Nat := if isNan32 x then fp32Nan else x ^^^ 2 ^ 31

/-- `xfm.unpack` of a packed block given as its b parts. -/
def unpackBlock (b : Nat) (xs : List Nat) : List Nat :=
  let up := (upFrom 1 (b / 2 - 1)).map fun t => [xs.getD (2 * t) 0, xs.getD (2 * t + 1) 0]
  let down := (upFrom 1 (b / 2 - 1)).map fun t => [xs.getD (2 * (b / 2 - t)) 0, conjPart (xs.getD (2 * (b / 2 - t) + 1) 0)]
  (([xs.getD 0 0, 0] :: up) ++ ([xs.getD 1 0, 0] :: down)).flatten

/-! Groups of registers (R191). -/

/-- The parts of a group in order. -/
def Cell.groupWords (c : Cell) (v : VReg) (n : Nat) : List Nat := ((groupRegs v n).map fun r => elems 32 64 (c.getV r)).flatten

/-- Blocks of `n` parts. -/
def blocksOf (fuel n : Nat) (l : List Nat) : List (List Nat) :=
  match fuel with
  | 0 => []
  | fuel + 1 => l.take n :: blocksOf fuel n (l.drop n)

/-- Write a group, each register ready after a latency. -/
def Cell.setGroup (c : Cell) (now lat : Nat) (regs : List VReg) (ws : List (List Nat)) (info : Meta) : Cell :=
  match regs, ws with
  | r :: regs, w :: ws =>
    (((c.setV r (packElems 32 w) true).setReady (resVec r) (now + lat)).setMeta r info).setGroup now lat regs ws info
  | _, _ => c

/-- What a transform does: source and destination registers, tags, parts per block, the change of EOFF, times. -/
structure Xfm where
  src : Nat
  dst : Nat
  tag : BitVec 2
  newTag : BitVec 2
  parts : Nat
  eoff : Int
  lat : Nat
  busy : Nat
  deriving DecidableEq, Repr

/-- The metadata of R195: none where the source group fails. -/
def xfmMeta (c : Cell) (z : Bsz) (va : VReg) (x : Xfm) : Option Meta :=
  let m := c.metaOf va
  let e := m.eoffInt + x.eoff
  if (groupRegs va x.src).all (fun r => c.metaOf r == m) && m.tag == x.tag &&
      (m.tag == 0 || m.bsz.toNat == z.code) && decide (-128 ≤ e) && decide (e ≤ 127) then
    some { tag := x.newTag, bsz := if x.newTag = 0 then 0 else BitVec.ofNat 3 z.code, eoff := BitVec.ofInt 8 e }
  else none

/-- A transform instruction. -/
def runXfm (ws : List Nat) (z : Bsz) (vd va : VReg) (x : Xfm) (f : List Nat → List Nat × BitVec 8) (s : State) : Ret Unit :=
  (meetRegs s (vKeys (groupRegs va x.src) 0)).bind fun _ s =>
    match xfmMeta s.me z va x with
    | none => .trap .domain (wordsVal ws) s
    | some m =>
      let n := 64 * x.src / x.parts
      let out := (blocksOf n x.parts (s.me.groupWords va x.src)).map f
      let s := s.modMe fun c =>
        (c.setGroup s.now x.lat (groupRegs vd x.dst) (blocksOf x.dst 64 (out.map fun o => o.1).flatten) m).setReady unitXfm
          (s.now + x.busy)
      .ok () (flagsLater s x.lat (out.foldl (fun fl o => fl ||| o.2) 0))

def xfmReal (z : Bsz) (fwd : Bool) : Xfm :=
  let g := z.group
  let s : Int := specShift z.size
  { src := g, dst := g, tag := if fwd then 0 else 1, newTag := if fwd then 1 else 0, parts := z.size,
    eoff := if fwd then s else -s, lat := 8 + 2 * g + Nat.log2 z.size, busy := 2 * g }

def execXfmFwd (g : PReg) (bsz : Bsz) (vd va : VReg) (s : State) : Out :=
  issue s g 1 1 (runXfm (encode (.xfmFwd g bsz vd va)) bsz vd va (xfmReal bsz true) (fwdBlock bsz.size))

def execXfmInv (g : PReg) (bsz : Bsz) (vd va : VReg) (s : State) : Out :=
  issue s g 1 1 (runXfm (encode (.xfmInv g bsz vd va)) bsz vd va (xfmReal bsz false) (invBlock bsz.size))

def xfmMove (z : Bsz) (pack : Bool) : Xfm :=
  let g := z.group
  { src := if pack then 2 * g else g, dst := if pack then g else 2 * g, tag := if pack then 2 else 1, newTag := if pack then 1 else 2,
    parts := if pack then 2 * z.size else z.size, eoff := 0, lat := 4 + 4 * g, busy := 4 * g }

def execXfmPack (g : PReg) (bsz : Bsz) (vd va : VReg) (s : State) : Out :=
  issue s g 1 1 (runXfm (encode (.xfmPack g bsz vd va)) bsz vd va (xfmMove bsz true) fun l => (packBlock bsz.size l, 0))

def execXfmUnpack (g : PReg) (bsz : Bsz) (vd va : VReg) (s : State) : Out :=
  issue s g 1 1 (runXfm (encode (.xfmUnpack g bsz vd va)) bsz vd va (xfmMove bsz false) fun l => (unpackBlock bsz.size l, 0))

/-! `dtag` (R196, R197). -/

/-- Whether a word keeps the table of R197. -/
def dtagOk (v : Word) (z : Bsz) : Bool :=
  let idx := field v 0 5
  let tgt := field v 5 3
  decide (tgt < 4) && (tgt == 0 || (tgt == 1 && decide (idx < 6)) || idx == 0) && (tgt == 2 || field v 16 8 == 0) &&
  ((tgt == 3 && z == .b256) || !v.getLsbD 24) && field v 25 39 == 0

def cxfOk (n : Nat) : Bool := n == 0x30 || n == 0x31 || n == 0x32

/-- The metadata that `dtag` sends to its target. -/
def dtagMeta (z : Bsz) (tag : BitVec 2) (v : Word) (ty : Bool) : Meta :=
  { tag := tag, bsz := if tag = 0 then 0 else BitVec.ofNat 3 z.code, eoff := BitVec.ofNat 8 (field v 8 8), ty := ty }

/-- A spectral operand description. -/
def descWord (m : Meta) : Nat := m.tag.toNat + m.bsz.toNat * 4 + m.eoff.toNat * 32

/-- A `dtag` whose word came from a port holds the next issue until every earlier write to its register or tile is done, and writes
the metadata then (R197). -/
def holdTag (s : State) (z : Bsz) (tag : BitVec 2) (v : Word) : State :=
  endTag (s.modMe fun c => { c with wait := .tag (field v 5 3 == 1) (field v 0 5) (dtagMeta z tag v false) }) s.cur

def putTag (s : State) (z : Bsz) (tag : BitVec 2) (v : Word) : State :=
  let idx := field v 0 5
  match field v 5 3 with
  | 0 => s.modMe fun c => c.setMeta (BitVec.ofNat 5 idx) (dtagMeta z tag v false)
  | 1 => s.modMe fun c => c.setInfo idx (dtagMeta z tag v (c.tile idx).info.ty)
  | 2 => s.modMe fun c => c.setContext { c.context with sda := BitVec.ofNat 21 (descWord (dtagMeta z tag v false) + field v 16 8 * 2 ^ 13) }
  | _ => s.modMe fun c => c.setContext { c.context with sdb := BitVec.ofNat 22 (descWord (dtagMeta z tag v false) + field v 24 1 * 2 ^ 21) }

def runDtag (ws : Word) (z : Bsz) (a : SReg) (tag : BitVec 2) (s : State) : Ret Unit :=
  (readClean s [a]).bind fun x s =>
    let v := x.get 0
    (need s (dtagOk v z) .illegal v).bind fun _ s =>
      (need s (tag != 3) .domain ws).bind fun _ s =>
        (need s (field v 5 3 != 2 || cxfOk (field v 16 8)) .fmt ws).bind fun _ s =>
          (need s (field v 5 3 != 1 || tag == 0 || !(s.me.tile (field v 0 5)).info.ty) .fmt ws).bind fun _ s =>
            .ok () (if 28 ≤ a.toNat ∧ field v 5 3 < 2 then holdTag s z tag v else putTag s z tag v)

def execDtag (g : PReg) (bsz : Bsz) (a : SReg) (tag : BitVec 2) (s : State) : Out :=
  issue s g 1 1 (runDtag (wordsVal (encode (.dtag g bsz a tag))) bsz a tag)

/-! `mma.c` (R198, R199). -/

def descTag (v : Nat) : Nat := v % 4
def descBsz (v : Nat) : Nat := v / 4 % 8
def descEoff (v : Nat) : Int := Int.bmod (v / 32 % 256 : Nat) 256

/-- Checks 2 to 6 of R199. -/
def mmaCCheck (s : State) (ws : Word) (acc : Nat) (z : Bsz) : Ret Unit :=
  let a := s.me.context.sda.toNat
  let b := s.me.context.sdb.toNat
  let t := (s.me.tile acc).info
  let u := (s.me.tile (acc + 1)).info
  let e := descEoff a + descEoff b
  (need s (a / 2 ^ 13 != 0) .fmt ws).bind fun _ s =>
    (need s (!t.ty && !u.ty) .fmt ws).bind fun _ s =>
      (need s (descTag a == 1 && descTag b == 1 && descBsz a == z.code && descBsz b == z.code) .domain ws).bind fun _ s =>
        (need s (t.tag == 1 && u.tag == 1 && t.bsz.toNat == z.code && u.bsz.toNat == z.code) .domain ws).bind fun _ s =>
          need s (decide (t.eoffInt = e) && decide (u.eoffInt = e) && decide (-128 ≤ e) && decide (e ≤ 127)) .domain ws

def runMmaC (ws : List Nat) (acc : BitVec 3) (a b : SReg) (z : Bsz) (s : State) : Ret Unit :=
  (readWords s [a, b] false true true).bind fun x s =>
    (mmaCCheck s (wordsVal ws) acc.toNat z).bind fun _ s =>
      let k := owK (x.get 0)
      .ok () (handOver s { newOp (.complex (x.get 0) (x.get 1) z) acc.toNat with
          full := if cxfFmt s.me.context = .ce4m3 then 4 * k else 8 * k, k := k } [acc.toNat, acc.toNat + 1] true)

def execMmaC (g : PReg) (acc : BitVec 3) (a b : SReg) (bsz : Bsz) (s : State) : Out :=
  issue s g 1 1 (runMmaC (encode (.mmaC g acc a b bsz)) acc a b bsz)

end Sys2Proof.Machine
end

