-- ==== Sys2Proof/Machine/Dispatch.lean ====
section
/-! DEFINITION. One arm for each operation and event: a direct call of its meaning. -/

namespace Sys2Proof.Machine

def exec (i : Instr) (s : State) : Host.Outcome State Fault Refusal :=
  match i with
  | .add g d a b w n o => Sys2Proof.Machine.execAdd g d a b w n o s
  | .sub g d a b w n o => Sys2Proof.Machine.execSub g d a b w n o s
  | .mul g d a b w n o => Sys2Proof.Machine.execMul g d a b w n o s
  | .madd g d a b w n o => Sys2Proof.Machine.execMadd g d a b w n o s
  | .mulh g d a b w => Sys2Proof.Machine.execMulh g d a b w s
  | .div g d a b w => Sys2Proof.Machine.execDiv g d a b w s
  | .rem g d a b w => Sys2Proof.Machine.execRem g d a b w s
  | .min g d a b w => Sys2Proof.Machine.execMin g d a b w s
  | .max g d a b w => Sys2Proof.Machine.execMax g d a b w s
  | .sra g d a b w => Sys2Proof.Machine.execSra g d a b w s
  | .sext g d a w => Sys2Proof.Machine.execSext g d a w s
  | .bfx g d a b w => Sys2Proof.Machine.execBfx g d a b w s
  | .mulhn g d a b w => Sys2Proof.Machine.execMulhn g d a b w s
  | .divn g d a b w => Sys2Proof.Machine.execDivn g d a b w s
  | .remn g d a b w => Sys2Proof.Machine.execRemn g d a b w s
  | .minn g d a b w => Sys2Proof.Machine.execMinn g d a b w s
  | .maxn g d a b w => Sys2Proof.Machine.execMaxn g d a b w s
  | .shr g d a b w => Sys2Proof.Machine.execShr g d a b w s
  | .zext g d a w => Sys2Proof.Machine.execZext g d a w s
  | .and g d a b w => Sys2Proof.Machine.execAnd g d a b w s
  | .or g d a b w => Sys2Proof.Machine.execOr g d a b w s
  | .xor g d a b w => Sys2Proof.Machine.execXor g d a b w s
  | .andn g d a b w => Sys2Proof.Machine.execAndn g d a b w s
  | .orn g d a b w => Sys2Proof.Machine.execOrn g d a b w s
  | .shl g d a b w => Sys2Proof.Machine.execShl g d a b w s
  | .rol g d a b w => Sys2Proof.Machine.execRol g d a b w s
  | .clz g d a w => Sys2Proof.Machine.execClz g d a w s
  | .ctz g d a w => Sys2Proof.Machine.execCtz g d a w s
  | .pop g d a w => Sys2Proof.Machine.execPop g d a w s
  | .bfi g d a b w => Sys2Proof.Machine.execBfi g d a b w s
  | .sel g d a b w p => Sys2Proof.Machine.execSel g d a b w p s
  | .ix g d a b scale => Sys2Proof.Machine.execIx g d a b scale s
  | .addImm g d a imm => Sys2Proof.Machine.execAddImm g d a imm s
  | .andImm g d a imm => Sys2Proof.Machine.execAndImm g d a imm s
  | .orImm g d a imm => Sys2Proof.Machine.execOrImm g d a imm s
  | .xorImm g d a imm => Sys2Proof.Machine.execXorImm g d a imm s
  | .shlImm g d a imm => Sys2Proof.Machine.execShlImm g d a imm s
  | .shrImm g d a imm => Sys2Proof.Machine.execShrImm g d a imm s
  | .sraImm g d a imm => Sys2Proof.Machine.execSraImm g d a imm s
  | .wideImmediate g d a imm op => Sys2Proof.Machine.execWideImmediate g d a imm op s
  | .cmp g pd1 pd2 ct cond a b => Sys2Proof.Machine.execCmp g pd1 pd2 ct cond a b s
  | .cmpImm g pd1 pd2 ct cond a imm => Sys2Proof.Machine.execCmpImm g pd1 pd2 ct cond a imm s
  | .br g off => Sys2Proof.Machine.execBr g off s
  | .call g off => Sys2Proof.Machine.execCall g off s
  | .nop g => Sys2Proof.Machine.execNop g s
  | .done g => Sys2Proof.Machine.execDone g s
  | .ret g => Sys2Proof.Machine.execRet g s
  | .brr g a => Sys2Proof.Machine.execBrr g a s
  | .rep g a => Sys2Proof.Machine.execRep g a s
  | .tickw g a => Sys2Proof.Machine.execTickw g a s
  | .fsel g d => Sys2Proof.Machine.execFsel g d s
  | .chk g a off => Sys2Proof.Machine.execChk g a off s
  | .ldD g d a tok imm => Sys2Proof.Machine.execLdD g d a tok imm s
  | .ldW g d a tok imm => Sys2Proof.Machine.execLdW g d a tok imm s
  | .stD g d a tok imm => Sys2Proof.Machine.execStD g d a tok imm s
  | .stW g d a tok imm => Sys2Proof.Machine.execStW g d a tok imm s
  | .ld g d a tok imm size n rt => Sys2Proof.Machine.execLd g d a tok imm size n rt s
  | .ldsp g d a tok imm size n rt => Sys2Proof.Machine.execLdsp g d a tok imm size n rt s
  | .st g d a tok imm size rt => Sys2Proof.Machine.execSt g d a tok imm size rt s
  | .amoAdd g d a tok imm dbl space stream b => Sys2Proof.Machine.execAmoAdd g d a tok imm dbl space stream b s
  | .amoMin g d a tok imm dbl space stream b => Sys2Proof.Machine.execAmoMin g d a tok imm dbl space stream b s
  | .amoMax g d a tok imm dbl space stream b => Sys2Proof.Machine.execAmoMax g d a tok imm dbl space stream b s
  | .amoMinn g d a tok imm dbl space stream b => Sys2Proof.Machine.execAmoMinn g d a tok imm dbl space stream b s
  | .amoMaxn g d a tok imm dbl space stream b => Sys2Proof.Machine.execAmoMaxn g d a tok imm dbl space stream b s
  | .amoSwap g d a tok imm dbl space stream b => Sys2Proof.Machine.execAmoSwap g d a tok imm dbl space stream b s
  | .amoCas g d a tok imm dbl space stream b => Sys2Proof.Machine.execAmoCas g d a tok imm dbl space stream b s
  | .amoAmax g d a tok imm dbl space stream b => Sys2Proof.Machine.execAmoAmax g d a tok imm dbl space stream b s
  | .cwget g d num => Sys2Proof.Machine.execCwget g d num s
  | .cwput g a num => Sys2Proof.Machine.execCwput g a num s
  | .qcnt g d port => Sys2Proof.Machine.execQcnt g d port s
  | .fence g scope => Sys2Proof.Machine.execFence g scope s
  | .sbar g mask => Sys2Proof.Machine.execSbar g mask s
  | .tokw g tok => Sys2Proof.Machine.execTokw g tok s
  | .semAdd g a b => Sys2Proof.Machine.execSemAdd g a b s
  | .semWait g a b => Sys2Proof.Machine.execSemWait g a b s
  | .barInit g a b => Sys2Proof.Machine.execBarInit g a b s
  | .barArrive g a => Sys2Proof.Machine.execBarArrive g a s
  | .barWait g a => Sys2Proof.Machine.execBarWait g a s
  | .pub g a => Sys2Proof.Machine.execPub g a s
  | .hres g d a => Sys2Proof.Machine.execHres g d a s
  | .trap g a => Sys2Proof.Machine.execTrap g a s
  | .brk g => Sys2Proof.Machine.execBrk g s
  | .tret g => Sys2Proof.Machine.execTret g s
  | .modeReq g a => Sys2Proof.Machine.execModeReq g a s
  | .inject g => Sys2Proof.Machine.execInject g s
  | .ttsync g a => Sys2Proof.Machine.execTtsync g a s
  | .vadd f g vd va vb m => Sys2Proof.Machine.execVadd f g vd va vb m s
  | .vsub f g vd va vb m => Sys2Proof.Machine.execVsub f g vd va vb m s
  | .vmul f g vd va vb m => Sys2Proof.Machine.execVmul f g vd va vb m s
  | .vfma f g vd va vb m => Sys2Proof.Machine.execVfma f g vd va vb m s
  | .vfnma f g vd va vb m => Sys2Proof.Machine.execVfnma f g vd va vb m s
  | .vmin f g vd va vb m => Sys2Proof.Machine.execVmin f g vd va vb m s
  | .vmax f g vd va vb m => Sys2Proof.Machine.execVmax f g vd va vb m s
  | .vabs f g vd va m => Sys2Proof.Machine.execVabs f g vd va m s
  | .vneg f g vd va m => Sys2Proof.Machine.execVneg f g vd va m s
  | .vrcp f g vd va m => Sys2Proof.Machine.execVrcp f g vd va m s
  | .vrsqrt f g vd va m => Sys2Proof.Machine.execVrsqrt f g vd va m s
  | .vexp2 f g vd va m => Sys2Proof.Machine.execVexp2 f g vd va m s
  | .vlog2 f g vd va m => Sys2Proof.Machine.execVlog2 f g vd va m s
  | .vtanh f g vd va m => Sys2Proof.Machine.execVtanh f g vd va m s
  | .vsigm f g vd va m => Sys2Proof.Machine.execVsigm f g vd va m s
  | .vcmul f g vd va vb m => Sys2Proof.Machine.execVcmul f g vd va vb m s
  | .vceq f g md va vb m => Sys2Proof.Machine.execVceq f g md va vb m s
  | .vcne f g md va vb m => Sys2Proof.Machine.execVcne f g md va vb m s
  | .vclt f g md va vb m => Sys2Proof.Machine.execVclt f g md va vb m s
  | .vcle f g md va vb m => Sys2Proof.Machine.execVcle f g md va vb m s
  | .vsel f g vd va vb m => Sys2Proof.Machine.execVsel f g vd va vb m s
  | .vand f g vd va vb m => Sys2Proof.Machine.execVand f g vd va vb m s
  | .vor f g vd va vb m => Sys2Proof.Machine.execVor f g vd va vb m s
  | .vxor f g vd va vb m => Sys2Proof.Machine.execVxor f g vd va vb m s
  | .vshl f g vd va vb m => Sys2Proof.Machine.execVshl f g vd va vb m s
  | .vshr f g vd va vb m => Sys2Proof.Machine.execVshr f g vd va vb m s
  | .vsra f g vd va vb m => Sys2Proof.Machine.execVsra f g vd va vb m s
  | .vrelu f g vd va m => Sys2Proof.Machine.execVrelu f g vd va m s
  | .vsplat f g vd a m => Sys2Proof.Machine.execVsplat f g vd a m s
  | .vins f g vd a b m => Sys2Proof.Machine.execVins f g vd a b m s
  | .vext f g d va b m => Sys2Proof.Machine.execVext f g d va b m s
  | .vmov f g vd va m => Sys2Proof.Machine.execVmov f g vd va m s
  | .vrsum f g vd va m => Sys2Proof.Machine.execVrsum f g vd va m s
  | .vrmax f g vd va m => Sys2Proof.Machine.execVrmax f g vd va m s
  | .vrmin f g vd va m => Sys2Proof.Machine.execVrmin f g vd va m s
  | .vramax f g vd va m => Sys2Proof.Machine.execVramax f g vd va m s
  | .vscan f g vd va m => Sys2Proof.Machine.execVscan f g vd va m s
  | .vscanx f g vd va m => Sys2Proof.Machine.execVscanx f g vd va m s
  | .vperm f g vd va vb m => Sys2Proof.Machine.execVperm f g vd va vb m s
  | .vshuf f g vd va vb m => Sys2Proof.Machine.execVshuf f g vd va vb m s
  | .vrot f g vd va b m => Sys2Proof.Machine.execVrot f g vd va b m s
  | .vzip f g vd va vb m => Sys2Proof.Machine.execVzip f g vd va vb m s
  | .vunzip f g vd va vb m => Sys2Proof.Machine.execVunzip f g vd va vb m s
  | .vbcl f g vd va b m => Sys2Proof.Machine.execVbcl f g vd va b m s
  | .vectorLong g vd va vb m op fmt rnd => Sys2Proof.Machine.execVectorLong g vd va vb m op fmt rnd s
  | .vcvt g vd va p m fmt rnd fmt2 => Sys2Proof.Machine.execVcvt g vd va p m fmt rnd fmt2 s
  | .vquant g vd va p fmt rnd fmt2 => Sys2Proof.Machine.execVquant g vd va p fmt rnd fmt2 s
  | .vdequant g vd va p fmt rnd fmt2 => Sys2Proof.Machine.execVdequant g vd va p fmt rnd fmt2 s
  | .vamax g vd va m fmt rnd => Sys2Proof.Machine.execVamax g vd va m fmt rnd s
  | .vld g vd a tok m fmt rt imm => Sys2Proof.Machine.execVld g vd a tok m fmt rt imm s
  | .vlds g vd a b tok m fmt rt imm => Sys2Proof.Machine.execVlds g vd a b tok m fmt rt imm s
  | .vldx g vd a vb tok m fmt rt imm => Sys2Proof.Machine.execVldx g vd a vb tok m fmt rt imm s
  | .vst g vd a tok m fmt rt imm => Sys2Proof.Machine.execVst g vd a tok m fmt rt imm s
  | .vsts g vd a b tok m fmt rt imm => Sys2Proof.Machine.execVsts g vd a b tok m fmt rt imm s
  | .vstx g vd a vb tok m fmt rt imm => Sys2Proof.Machine.execVstx g vd a vb tok m fmt rt imm s
  | .mma g acc a b fmt => Sys2Proof.Machine.execMma g acc a b fmt s
  | .mmaCk g acc a b fmt => Sys2Proof.Machine.execMmaCk g acc a b fmt s
  | .mmaCo g acc a b fmt => Sys2Proof.Machine.execMmaCo g acc a b fmt s
  | .mz g acc i32 => Sys2Proof.Machine.execMz g acc i32 s
  | .mld g acc a i32 => Sys2Proof.Machine.execMld g acc a i32 s
  | .mst g acc a i32 => Sys2Proof.Machine.execMst g acc a i32 s
  | .mdrain g acc a b fmt => Sys2Proof.Machine.execMdrain g acc a b fmt s
  | .cfgsel g n => Sys2Proof.Machine.execCfgsel g n s
  | .xfmFwd g bsz vd va => Sys2Proof.Machine.execXfmFwd g bsz vd va s
  | .xfmInv g bsz vd va => Sys2Proof.Machine.execXfmInv g bsz vd va s
  | .xfmPack g bsz vd va => Sys2Proof.Machine.execXfmPack g bsz vd va s
  | .xfmUnpack g bsz vd va => Sys2Proof.Machine.execXfmUnpack g bsz vd va s
  | .dtag g bsz a tag => Sys2Proof.Machine.execDtag g bsz a tag s
  | .mmaC g acc a b bsz => Sys2Proof.Machine.execMmaC g acc a b bsz s
  | .mmaG g acc a b fmt vi => Sys2Proof.Machine.execMmaG g acc a b fmt vi s
  | .mmaSp g acc a b fmt c pat => Sys2Proof.Machine.execMmaSp g acc a b fmt c pat s
  | .cpNd g e a tok => Sys2Proof.Machine.execCpNd g e a tok s
  | .cpCvt g e a tok rnd => Sys2Proof.Machine.execCpCvt g e a tok rnd s
  | .cpCrc g e a b tok => Sys2Proof.Machine.execCpCrc g e a b tok s
  | .cpFill g e a b tok => Sys2Proof.Machine.execCpFill g e a b tok s
  | .cpAlias g e a tok => Sys2Proof.Machine.execCpAlias g e a tok s
  | .cpRtn g e a b tok => Sys2Proof.Machine.execCpRtn g e a b tok s
  | .strSend g port b => Sys2Proof.Machine.execStrSend g port b s
  | .strRecv g d port => Sys2Proof.Machine.execStrRecv g d port s
  | .lnkStat g d a => Sys2Proof.Machine.execLnkStat g d a s
  | .lnkPause g a => Sys2Proof.Machine.execLnkPause g a s
  | .lnkRemap g a b => Sys2Proof.Machine.execLnkRemap g a b s
  | .lnkTrain g a b => Sys2Proof.Machine.execLnkTrain g a b s
  | .lnkResume g a => Sys2Proof.Machine.execLnkResume g a s
  | .pwrBorrow g a b => Sys2Proof.Machine.execPwrBorrow g a b s
  | .pwrRepay g a b => Sys2Proof.Machine.execPwrRepay g a b s
  | .pwrGate g a => Sys2Proof.Machine.execPwrGate g a s
  | .loop g a dist bound => Sys2Proof.Machine.execLoop g a dist bound s
  | .liLow g d imm => Sys2Proof.Machine.execLiLow g d imm s
  | .liHigh g d imm => Sys2Proof.Machine.execLiHigh g d imm s
  | .adr g d off => Sys2Proof.Machine.execAdr g d off s
  | .storePerformed cell id => Sys2Proof.Machine.execStorePerformed cell id s
  | .instructionCompletion cell flags => Sys2Proof.Machine.execInstructionCompletion cell flags s
  | .blockRelease cell entry => Sys2Proof.Machine.execBlockRelease cell entry s
  | .forkRead cell entry => Sys2Proof.Machine.execForkRead cell entry s
  | .forkRelease cell => Sys2Proof.Machine.execForkRelease cell s
  | .rampStart cell => Sys2Proof.Machine.execRampStart cell s
  | .tickwExpiry cell => Sys2Proof.Machine.execTickwExpiry cell s
  | .detentStop dom firing => Sys2Proof.Machine.execDetentStop dom firing s
  | .fallbackRelease dom firing => Sys2Proof.Machine.execFallbackRelease dom firing s
  | .deadlineCommit dom firing => Sys2Proof.Machine.execDeadlineCommit dom firing s
  | .doubleOverrun dom firing => Sys2Proof.Machine.execDoubleOverrun dom firing s
  | .safeModeSwitch dom => Sys2Proof.Machine.execSafeModeSwitch dom s
  | .modeChangePoint dom entry => Sys2Proof.Machine.execModeChangePoint dom entry s
  | .modeRequestPending dom mode die cluster cx host => Sys2Proof.Machine.execModeRequestPending dom mode die cluster cx host s
  | .modeRequestLatch dom => Sys2Proof.Machine.execModeRequestLatch dom s
  | .mmaCoRendezvous dom firing ordinal => Sys2Proof.Machine.execMmaCoRendezvous dom firing ordinal s
  | .matrixStepEnd cell => Sys2Proof.Machine.execMatrixStepEnd cell s
  | .semWaitPass cell => Sys2Proof.Machine.execSemWaitPass cell s
  | .barWaitPass cell => Sys2Proof.Machine.execBarWaitPass cell s
  | .pubSwap cell => Sys2Proof.Machine.execPubSwap cell s
  | .strRecvPass cell => Sys2Proof.Machine.execStrRecvPass cell s
  | .commandStart engine cell => Sys2Proof.Machine.execCommandStart engine cell s
  | .engineStep engine => Sys2Proof.Machine.execEngineStep engine s
  | .tileWalk engine cell => Sys2Proof.Machine.execTileWalk engine cell s
  | .commandCompletion engine cell => Sys2Proof.Machine.execCommandCompletion engine cell s
  | .routineStart engine => Sys2Proof.Machine.execRoutineStart engine s
  | .routineOverrun engine => Sys2Proof.Machine.execRoutineOverrun engine s
  | .lp6Slot die channel => Sys2Proof.Machine.execLp6Slot die channel s
  | .lp6Refresh die channel => Sys2Proof.Machine.execLp6Refresh die channel s
  | .lp6Delivery die channel id => Sys2Proof.Machine.execLp6Delivery die channel id s
  | .freeze dom => Sys2Proof.Machine.execFreeze dom s
  | .thaw dom => Sys2Proof.Machine.execThaw dom s
  | .debugHalt cell cause => Sys2Proof.Machine.execDebugHalt cell cause s
  | .cwDbgen v => Sys2Proof.Machine.execCwDbgen v s
  | .partitionReset dom => Sys2Proof.Machine.execPartitionReset dom s
  | .partitionResetClear dom => Sys2Proof.Machine.execPartitionResetClear dom s
  | .partitionResetComplete dom => Sys2Proof.Machine.execPartitionResetComplete dom s
  | .scratchpadFlip cell word bit => Sys2Proof.Machine.execScratchpadFlip cell word bit s
  | .wakeComplete cluster => Sys2Proof.Machine.execWakeComplete cluster s
  | .gateComplete cluster => Sys2Proof.Machine.execGateComplete cluster s
  | .powerGiverCheck die right n => Sys2Proof.Machine.execPowerGiverCheck die right n s
  | .powerTransferDone die right n repay ok => Sys2Proof.Machine.execPowerTransferDone die right n repay ok s
  | .budgetUpdate die => Sys2Proof.Machine.execBudgetUpdate die s
  | .linkSlot port slot => Sys2Proof.Machine.execLinkSlot port slot s
  | .streamArrival dom channel count firing => Sys2Proof.Machine.execStreamArrival dom channel count firing s
  | .spanArrival dom channel bytes count => Sys2Proof.Machine.execSpanArrival dom channel bytes count s
  | .lateRecordArrival dom channel => Sys2Proof.Machine.execLateRecordArrival dom channel s
  | .flitReplay port => Sys2Proof.Machine.execFlitReplay port s
  | .linkPauseEffect port => Sys2Proof.Machine.execLinkPauseEffect port s
  | .linkTrainDone port run half latency => Sys2Proof.Machine.execLinkTrainDone port run half latency s
  | .linkResumeEffect port => Sys2Proof.Machine.execLinkResumeEffect port s
  | .bind dom ring tag image length affinity arrival => Sys2Proof.Machine.execBind dom ring tag image length affinity arrival s
  | .bindingComplete dom ring tag => Sys2Proof.Machine.execBindingComplete dom ring tag s
  | .launch dom ring tag mode start seed => Sys2Proof.Machine.execLaunch dom ring tag mode start seed s
  | .launchEffect dom => Sys2Proof.Machine.execLaunchEffect dom s
  | .reset dom ring tag => Sys2Proof.Machine.execReset dom ring tag s
  | .hostTtsync dom ring tag tid all => Sys2Proof.Machine.execHostTtsync dom ring tag tid all s
  | .modereq dom ring tag mode => Sys2Proof.Machine.execModereq dom ring tag mode s
  | .chpush dom ring tag channel v => Sys2Proof.Machine.execChpush dom ring tag channel v s
  | .chpop dom ring tag channel => Sys2Proof.Machine.execChpop dom ring tag channel s
  | .rtnload dom ring tag die cluster engine rid rwcet code length => Sys2Proof.Machine.execRtnload dom ring tag die cluster engine rid rwcet code length s
  | .attest dom ring tag nonce response => Sys2Proof.Machine.execAttest dom ring tag nonce response s
  | .badop dom ring tag => Sys2Proof.Machine.execBadop dom ring tag s
  | .coalesceWindowExpiry dom flt => Sys2Proof.Machine.execCoalesceWindowExpiry dom flt s
  | .unassignedEncoding w0 w1 long => Sys2Proof.Machine.execUnassignedEncoding w0 w1 long s
  | .timeSample ns => Sys2Proof.Machine.execTimeSample ns s
  | .regCtl v => Sys2Proof.Machine.execRegCtl v s
  | .regEpoch v => Sys2Proof.Machine.execRegEpoch v s
  | .cwDfc cell v => Sys2Proof.Machine.execCwDfc cell v s
  | .cwFmt cell which v => Sys2Proof.Machine.execCwFmt cell which v s
  | .cwInject cell v => Sys2Proof.Machine.execCwInject cell v s
  | .cwTfreeze v => Sys2Proof.Machine.execCwTfreeze v s
  | .hreq die => Sys2Proof.Machine.execHreq die s
  | .rst v => Sys2Proof.Machine.execRst v s
  | .cwXinj cell v => Sys2Proof.Machine.execCwXinj cell v s
  | .wake cluster => Sys2Proof.Machine.execWake cluster s
  | .laneFailure port module lane rx => Sys2Proof.Machine.execLaneFailure port module lane rx s
  | .deviceReset find => Sys2Proof.Machine.execDeviceReset find s
  | .doorbell dom ring tail => Sys2Proof.Machine.execDoorbell dom ring tail s
  | .ringMap dom ring slot => Sys2Proof.Machine.execRingMap dom ring slot s
  | .ringUnmap dom ring => Sys2Proof.Machine.execRingUnmap dom ring s
  | .grantWrite dom offset v => Sys2Proof.Machine.execGrantWrite dom offset v s
  | .fltTail dom head => Sys2Proof.Machine.execFltTail dom head s
  | .hostMemoryAccess die addr write v => Sys2Proof.Machine.execHostMemoryAccess die addr write v s
  | .debugPortAccess cell place write v => Sys2Proof.Machine.execDebugPortAccess cell place write v s
  | .registerWrite offset v => Sys2Proof.Machine.execRegisterWrite offset v s
  | .softError place bits => Sys2Proof.Machine.execSoftError place bits s
  | .linkClockLoss => Sys2Proof.Machine.execLinkClockLoss s
  | .thermalShutdown => Sys2Proof.Machine.execThermalShutdown s
  | .tick => Sys2Proof.Machine.execTick s
  | .holdover => Sys2Proof.Machine.execHoldover s

end Sys2Proof.Machine
end

