-- ==== Sys2Proof/Machine/Fetch.lean ====
section
/-! DEFINITION. Fetching: the words of a cell's code store with their check bits (R51, R309), the instruction at a PC, and the
choice of what happens next in the device (R25, R258, R294, R308). -/

namespace Sys2Proof.Machine

/-- The 64-bit code-store word that holds a word of a block: R309 checks each one. -/
def codeKey (block x : Nat) : Nat := block * 2 ^ 14 + x / 2

/-- A code-store word that no fetch can deliver. -/
def Cell.codeBad (c : Cell) (k : Nat) : Bool :=
  SMap.get false c.codePoison k || decide (2 ≤ popcount 64 (SMap.get 0 c.codeErr k).toNat)

/-- The code-store words of the instruction at a word address. -/
def Cell.codeKeys (c : Cell) (x : Nat) : List Nat :=
  (if c.sizeAt x = 2 then [codeKey c.block x, codeKey c.block (x + 1)] else [codeKey c.block x]).eraseDups

/-- Correct or poison the code-store words an issue reads, and whether it meets an uncorrectable one. -/
def Cell.meetCode (c : Cell) (ks : List Nat) : Cell × Bool :=
  match ks with
  | [] => (c, false)
  | k :: r =>
    if c.codeBad k then
      ({ c with codeErr := SMap.del c.codeErr k, codePoison := SMap.put c.codePoison k true,
                uec := if SMap.get false c.codePoison k then c.uec else satAdd8 c.uec 1 }, true)
    else if SMap.get 0 c.codeErr k = 0 then c.meetCode r
    else { c with codeErr := SMap.del c.codeErr k, spc := satAdd16 c.spc 1 }.meetCode r

/-- The instruction at a cell's PC. What is no instruction comes back as the words that R74 names: none past the end of
the code (R13), the first word alone where the second is missing. Code that runs off its end traps in the issue that follows, with the
address past the end in CW.TPC (log 83, the model's choice). -/
def Cell.instrAt (c : Cell) : Instr :=
  let x := c.pc / 4
  let n := c.codeWords.length
  if n ≤ x then .unassignedEncoding 0 0 false
  else
    let w0 := c.wordAt x
    let w1 := if x + 1 < n then some (c.wordAt (x + 1)) else none
    match decodeWords w0 w1 with
    | .ok i => i
    | .error _ => .unassignedEncoding (BitVec.ofNat 32 w0) (BitVec.ofNat 32 (if isLong w0 then w1.getD 0 else 0)) (isLong w0)

/-- The scalar registers of an instruction that a routine core executes (R248); none for one that it does not. -/
def routineRegs : Instr → Option (List SReg)
  | .add _ d a b _ _ _ | .sub _ d a b _ _ _ | .mul _ d a b _ _ _ | .madd _ d a b _ _ _ => some [d, a, b]
  | .mulh _ d a b _ | .div _ d a b _ | .rem _ d a b _ | .min _ d a b _ | .max _ d a b _ | .sra _ d a b _ | .bfx _ d a b _
  | .mulhn _ d a b _ | .divn _ d a b _ | .remn _ d a b _ | .minn _ d a b _ | .maxn _ d a b _ | .shr _ d a b _
  | .and _ d a b _ | .or _ d a b _ | .xor _ d a b _ | .andn _ d a b _ | .orn _ d a b _ | .shl _ d a b _ | .rol _ d a b _
  | .bfi _ d a b _ | .ix _ d a b _ => some [d, a, b]
  | .sel _ d a b _ _ => some [d, a, b]
  | .sext _ d a _ | .zext _ d a _ | .clz _ d a _ | .ctz _ d a _ | .pop _ d a _ => some [d, a]
  | .addImm _ d a _ | .andImm _ d a _ | .orImm _ d a _ | .xorImm _ d a _ | .shlImm _ d a _ | .shrImm _ d a _
  | .sraImm _ d a _ => some [d, a]
  | .cmp _ _ _ _ _ a b => some [a, b]
  | .cmpImm _ _ _ _ _ a _ => some [a]
  | .br _ _ | .nop _ | .done _ => some []
  | .ldD _ d a _ _ | .ldW _ d a _ _ | .stD _ d a _ _ | .stW _ d a _ _ => some [d, a]
  | .ld _ d a _ _ _ _ rt | .ldsp _ d a _ _ _ _ rt | .st _ d a _ _ _ rt => if rt.space = .sp then some [d, a] else none
  | .loop _ a _ _ | .liLow _ a _ | .liHigh _ a _ | .adr _ a _ => some [a]
  | .vadd .. | .vsub .. | .vmul .. | .vfma .. | .vfnma .. | .vmin .. | .vmax .. | .vabs .. | .vneg .. | .vrcp .. | .vrsqrt ..
  | .vexp2 .. | .vlog2 .. | .vtanh .. | .vsigm .. | .vcmul .. | .vceq .. | .vcne .. | .vclt .. | .vcle .. | .vsel .. | .vand ..
  | .vor .. | .vxor .. | .vshl .. | .vshr .. | .vsra .. | .vrelu .. | .vmov .. | .vrsum .. | .vrmax .. | .vrmin .. | .vramax ..
  | .vscan .. | .vscanx .. | .vperm .. | .vshuf .. | .vzip .. | .vunzip .. | .vcvt .. | .vquant .. | .vdequant ..
  | .vamax .. => some []
  | .vsplat _ _ _ a _ => some [a]
  | .vins _ _ _ a b _ => some [a, b]
  | .vext _ _ d _ b _ => some [d, b]
  | .vrot _ _ _ _ b _ | .vbcl _ _ _ _ b _ => some [b]
  | .vectorLong _ vd va vb _ op _ _ =>
    some (match op with
      | .vsplat => [va] | .vins => [va, vb] | .vext => [vd, vb] | .vrot | .vbcl => [vb] | _ => [])
  | .vld _ _ a _ _ _ rt _ | .vst _ _ a _ _ _ rt _ => if rt.space = .sp then some [a] else none
  | .vlds _ _ a b _ _ _ rt _ | .vsts _ _ a b _ _ _ rt _ => if rt.space = .sp then some [a, b] else none
  | .vldx _ _ a _ _ _ _ rt _ | .vstx _ _ a _ _ _ _ rt _ => if rt.space = .sp then some [a] else none
  | _ => none

/-- Whether a routine core executes an instruction: it is one of R248's, and names no port. -/
def routineOk (i : Instr) : Bool :=
  match routineRegs i with
  | some rs => rs.all fun r => decide (r.toNat < 28)
  | none => false

/-- The instruction at the PC of a control thread: a routine core takes any other word as no instruction (R248). -/
def State.instrOf (s : State) (c : Nat) : Instr :=
  let x := s.cell c
  let i := x.instrAt
  if c < 256 ∨ routineOk i then i
  else .unassignedEncoding (BitVec.ofNat 32 (x.wordAt (x.pc / 4)))
    (BitVec.ofNat 32 (if isLong (x.wordAt (x.pc / 4)) then x.wordAt (x.pc / 4 + 1) else 0)) (isLong (x.wordAt (x.pc / 4)))

/-- What happens next. -/
inductive Turn where
  /-- The first event of the agenda. -/
  | event (x : Timed)
  /-- A cell issues the instruction at its PC in a cycle. -/
  | issue (cell cycle : Nat)
  /-- A requested debug halt at an issue boundary (R303). -/
  | halt (cell cycle : Nat)
  deriving DecidableEq, Repr

/-- The cycle in which a running cell may issue: none while it waits or where the detent comes first (R25, R296). -/
def issueCycle (s : State) (c : Nat) : Option Nat :=
  let x := s.cell c
  match x.issueAt (x.usesIn (s.instrOf c)) with
  | none => none
  | some t =>
    let t := Nat.max t s.now
    match stopDue s c with
    | some d => if d ≤ t then none else some t
    | none => some t

/-- A cell's turn, if it has one. -/
def turnOf (s : State) (c : Nat) : Option Turn :=
  match issueCycle s c with
  | none => none
  | some t => if (s.cell c).hreq ∧ (s.cell c).haltAt ≤ t then some (.halt c t) else some (.issue c t)

def Turn.cycle : Turn → Nat
  | .event x => x.due
  | .issue _ t => t
  | .halt _ t => t

def Turn.place : Turn → Nat
  | .event x => x.prio
  | .issue c _ => issuePlace + c
  | .halt c _ => issuePlace + c

/-- The earlier of two turns, the first where they are equal. -/
def earlier (a b : Option Turn) : Option Turn :=
  match a, b with
  | none, b => b
  | a, none => a
  | some x, some y =>
    if x.cycle < y.cycle ∨ (x.cycle = y.cycle ∧ x.place ≤ y.place) then some x else some y

/-- Every control thread: the cells, then the engines' routine cores. -/
def threads (s : State) : List Nat := (s.cells.map fun x => x.1) ++ s.engines.map fun x => 256 + x.1

def firstTurn (s : State) (cs : List Nat) : Option Turn :=
  match cs with
  | [] => none
  | c :: r => earlier (turnOf s c) (firstTurn s r)

/-- What happens next: the earliest event or issue; in one cycle, by place (R258, R294). -/
def nextTurn (s : State) : Option Turn := earlier (s.agenda.head?.map .event) (firstTurn s (threads s))

/-- The state in which an event acts: its cycle is now, and it leaves the agenda. -/
def State.toEvent (s : State) (x : Timed) : State := { s with now := Nat.max s.now x.due, agenda := s.agenda.tail }

/-- The state in which a cell acts. -/
def State.toIssue (s : State) (c t : Nat) : State := { s with now := t, cur := c }

/-- Nothing is wrong with the code-store words of a list. -/
def Cell.codeClean (c : Cell) (ks : List Nat) : Bool := ks.all fun k => !c.codeBad k && decide (SMap.get 0 c.codeErr k = 0)

/-- The acting cell fetches: the state after the check bits are met, and whether the code store fails (R309). -/
def fetchAt (s : State) : State × Bool :=
  if s.me.codeClean (s.me.codeKeys (s.me.pc / 4)) then (s, false)
  else
    let r := s.me.meetCode (s.me.codeKeys (s.me.pc / 4))
    (s.setMe r.1, r.2)

/-- A code-store error raises MEMERR with the PC (R309, R293). -/
def codeTrap (s : State) : State := takeTrap s .memerr (memPlace 4 s.me.pc)

/-! Placing an instruction where the next step fetches it. -/

/-- A cell whose code is the given words, running, free to issue at once. -/
def Cell.withCode (c : Cell) (ws : List (BitVec 32)) (now : Nat) : Cell :=
  { c with code := SMap.put c.code 1 ws, codeErr := [], codePoison := [], block := 1, pc := 0, run := .running, wait := .none,
           t := now, ready := [], pend := [], seqr := [], queue := [], flagsAt := 0, vecAt := 0, ldspAt := 0, hreq := false, sstep := false,
           rep := 0, repPend := none, loops := [], firing := 0 }

/-- Cell 0 holds the words and runs them from PC 0; no other thread issues and no event comes first. -/
def placeWords (s : State) (ws : List (BitVec 32)) : State :=
  { s with cells := (0, (s.cell 0).withCode ws s.now) :: ((s.cells.filter fun x => x.1 != 0).map fun x =>
             (x.1, { x.2 with run := .idle })),
           engines := s.engines.map fun x => (x.1, { x.2 with core := { x.2.core with run := .idle } }),
           agenda := s.agenda.filter fun x => decide (s.now < x.due) }

end Sys2Proof.Machine
end

