-- ==== Sys2Proof/Machine/Step.lean ====
section
/-! DEFINITION. One step of the device: the earliest thing that is due happens. -/

namespace Sys2Proof.Machine

/-- Run a turn: an event, a requested halt, or the instruction at a cell's PC. -/
def runTurn (s : State) (x : Turn) : Host.Outcome State Fault Refusal :=
  match x with
  | .event e => exec e.ev (s.toEvent e)
  | .halt c t => exec (.debugHalt c 0x90) (s.toIssue c t)
  | .issue c t =>
    match fetchAt (s.toIssue c t) with
    | (s', true) => .next (codeTrap s')
    | (s', false) => exec (s.instrOf c) s'

/-- One step. With every clock stopped, or with nothing due, the machine stops. -/
def step (s : State) : Host.Outcome State Fault Refusal :=
  if s.hub.up = false then .fault .clocksStopped
  else
    match nextTurn s with
    | none => .fault .nothingDue
    | some x => runTurn s x

/-- The state with an instruction placed where the next step fetches it: cell 0, whose code store takes the words. -/
def State.withFetchWord (s : State) (nbits w : Nat) : State :=
  placeWords s [BitVec.ofNat 32 (w % 2 ^ nbits), BitVec.ofNat 32 (w % 2 ^ nbits / 2 ^ 32)]

end Sys2Proof.Machine
end

