-- ==== Sys2Proof/Safety.lean ====
section
/-! DEFINITION. What a safe run is: every step from a state answers a next state. -/

namespace Sys2Proof.Machine

/-- `n` steps from a state neither fault nor refuse. -/
def runsSafely (n : Nat) (s : State) : Prop :=
  match n with
  | 0 => True
  | n + 1 => ∃ s', step s = .next s' ∧ runsSafely n s'

/-- Every memory of the device is in its canonical form. -/
def memoriesWf (s : State) : Bool :=
  Mem.wf s.host && s.cells.all (fun x => Mem.wf x.2.sp.bytes) && s.clusters.all (fun x => Mem.wf x.2.slice.bytes) &&
  s.dies.all (fun x => Mem.wf x.2.lp6.bytes) && s.engines.all (fun x => Mem.wf x.2.core.sp.bytes)

end Sys2Proof.Machine
end

