-- ==== Sys2Proof/Certificates/Slice0/Obligations.lean ====
section
/-! DEFINITION. The statements for the provers: what the manual's numbered rules say the machine does, over every state and operand. -/

namespace Sys2Proof.Machine

/-! ### What the statements are written with -/

/-- Everything outside the acting cell is as before: time, the other control threads, clusters, engines, dies, domains, hub, host. -/
def OutsideKept (s t : State) : Prop :=
  t.now = s.now ∧ t.cur = s.cur ∧ t.clusters = s.clusters ∧ t.dies = s.dies ∧ t.doms = s.doms ∧ t.hub = s.hub ∧ t.host = s.host ∧
  (∀ c, c ≠ s.cur → t.cell c = s.cell c) ∧ ∀ e, { t.engine e with core := (s.engine e).core } = s.engine e

/-- Every byte of every memory reads as before. -/
def MemoryKept (s t : State) : Prop :=
  ∀ a, (∀ c, Mem.byte (t.cell c).sp.bytes a = Mem.byte (s.cell c).sp.bytes a) ∧
    (∀ k, Mem.byte (t.cluster k).slice.bytes a = Mem.byte (s.cluster k).slice.bytes a) ∧
    (∀ d, Mem.byte (t.die d).lp6.bytes a = Mem.byte (s.die d).lp6.bytes a) ∧ Mem.byte t.host a = Mem.byte s.host a

/-- What every issue may change of its cell: the program counter with the loops and the repeat counter that choose it (R87, R88), the
issue time and the ready times (R25), and a single step that ends (R304). -/
def Cell.issued (x y : Cell) : Cell :=
  { x with pc := y.pc, loops := y.loops, rep := y.rep, repPend := y.repPend, t := y.t, sstep := y.sstep, ready := y.ready }

/-- The same, with the scalar registers and their deferred-fault bits, and the sticky flags. -/
def Cell.issuedScalar (x y : Cell) : Cell :=
  { x.issued y with sreg := y.sreg, dfb := y.dfb, regErr := y.regErr, regPoison := y.regPoison, sticky := y.sticky,
                    stickyNow := y.stickyNow, stickyAt := y.stickyAt }

/-- Nothing outside the acting cell changes, no byte of memory, and the acting cell is `c`. -/
def KeepsAll (s t : State) (c : Cell) : Prop := OutsideKept s t ∧ MemoryKept s t ∧ t.me = c

/-- The program counter, the loops and the repeat counter as an instruction of `size` words leaves them that transfers nothing; the
statement NextPc says what that is. -/
def PcPasses (s t : State) (size : Nat) : Prop :=
  t.me.pc = (s.me.stepPc size).pc ∧ t.me.loops = (s.me.stepPc size).loops ∧ t.me.rep = (s.me.stepPc size).rep ∧
  t.me.repPend = (s.me.stepPc size).repPend

/-- The same, with the next issue one slot on (R25). -/
def Passes (s t : State) (size : Nat) : Prop := PcPasses s t size ∧ t.me.t = max s.me.t (s.now + 1)

/-- A cell becomes `x`, and nothing else changes but what stands on the agenda. -/
def CellBecomes (s t : State) (c : Nat) (x : Cell) : Prop :=
  t.cell c = x ∧ (∀ k, k ≠ c → t.cell k = s.cell k) ∧ (∀ e, { t.engine e with core := (s.engine e).core } = s.engine e) ∧
  t = { s with cells := t.cells, engines := t.engines, agenda := t.agenda }

/-- A domain becomes `x`, and nothing else changes but what stands on the agenda. -/
def DomBecomes (s t : State) (d : Nat) (x : Domain) : Prop :=
  t.dom d = x ∧ (∀ e, e ≠ d → t.dom e = s.dom e) ∧ t = { s with doms := t.doms, agenda := t.agenda }

/-- The hub becomes `x`, and nothing else changes but what stands on the agenda. -/
def HubBecomes (s t : State) (x : Hub) : Prop := t = { s with hub := x, agenda := t.agenda }

/-- Flags set on the acting cell in this cycle (R19). -/
def State.flagged (s : State) (f : BitVec 8) : State := s.modMe fun c => c.setFlags s.now f

/-- An event stands on the agenda for a cycle. -/
def Due (t : State) (n : Nat) (i : Instr) : Prop := ∃ x ∈ t.agenda, x.due = n ∧ x.ev = i

/-- From `s`, with its sources read and its flags set in `u`, the instruction writes `r` to `d` and ends: a scalar register takes the
value and the deferred-fault bit and is ready after the latency, s0 takes nothing, and nothing else changes; a port takes it as the
statement DestinationPorts says. -/
def Delivers (s u : State) (i : Instr) (d : SReg) (r : Word) (dfr : Option SReg) (lat size : Nat) : Prop :=
  (d.toNat < 28 → ∃ t, exec i s = .next t ∧ (d ≠ 0 → t.me.getS d = r ∧ t.me.getD d = dfr.isSome) ∧
    t.me.readyAt d.toNat = max (u.now + lat) (u.me.readyAt d.toNat) ∧ Passes u t size ∧
    (∀ q, q ≠ d → t.me.getS q = u.me.getS q ∧ t.me.getD q = u.me.getD q) ∧
    t.me.sticky = u.me.sticky ∧ t.doms = u.doms ∧ KeepsAll u t (u.me.issuedScalar t.me)) ∧
  (28 ≤ d.toNat → exec i s = finish (writeDst u d r dfr lat) fun v => advance v size 1)

/-! #### Scalar integer instructions -/

/-- The low `w` bits of a value, extended to 64 bits: zero-extended for the unsigned types (`n`), sign-extended for the others. -/
def narrow (w : Width) (n : Bool) (v : Word) : Word :=
  if n then (v.setWidth (Width.bits w)).setWidth 64 else (v.setWidth (Width.bits w)).signExtend 64

/-- A register read as an integer of a type (R76). -/
def typed (w : Width) (n : Bool) (v : Word) : Int :=
  if n then (v.setWidth (Width.bits w)).toNat else (v.setWidth (Width.bits w)).toInt

/-- Smallest and largest value of a type (R76). -/
def smallest (w : Width) (n : Bool) : Int := if n then 0 else -2 ^ (Width.bits w - 1)
def largest (w : Width) (n : Bool) : Int := if n then 2 ^ Width.bits w - 1 else 2 ^ (Width.bits w - 1) - 1

/-- `r` is the exact value `v` written through Fit, and `satd` says whether it was clamped (R76). -/
def FitsTo (w : Width) (n sat : Bool) (v : Int) (r : Word) (satd : Bool) : Prop :=
  if sat then
    r = narrow w n r ∧ typed w n r = max (smallest w n) (min (largest w n) v) ∧
      (satd = true ↔ v < smallest w n ∨ largest w n < v)
  else r = narrow w n (BitVec.ofInt 64 v) ∧ satd = false

/-- What an operation of the add group, of the signed group or of the unsigned group leaves in its destination (R77, R78): `a`, `b`
and the old `d` are the values read. -/
def ArithResult (op : SOp) (a b d r : Word) (satd : Bool) : Prop :=
  match op with
  | .add w n o => FitsTo w n o (typed w n a + typed w n b) r satd
  | .sub w n o => FitsTo w n o (typed w n a - typed w n b) r satd
  | .mul w n o => FitsTo w n o (typed w n a * typed w n b) r satd
  | .madd w n o => FitsTo w n o (typed w n d + typed w n a * typed w n b) r satd
  | .mulh w => r = narrow w false (BitVec.ofInt 64 (typed w false a * typed w false b / 2 ^ Width.bits w)) ∧ satd = false
  | .mulhn w => r = narrow w true (BitVec.ofInt 64 (typed w true a * typed w true b / 2 ^ Width.bits w)) ∧ satd = false
  | .div w => satd = false ∧ r = narrow w false
      (if typed w false b = 0 then BitVec.allOnes 64 else BitVec.ofInt 64 ((typed w false a).tdiv (typed w false b)))
  | .divn w => satd = false ∧ r = narrow w true
      (if typed w true b = 0 then BitVec.allOnes 64 else BitVec.ofInt 64 ((typed w true a).tdiv (typed w true b)))
  | .rem w => satd = false ∧ typed w false r = (if typed w false b = 0 then typed w false a else
      typed w false a - typed w false b * (typed w false a).tdiv (typed w false b)) ∧ r = narrow w false r
  | .remn w => satd = false ∧ typed w true r = (if typed w true b = 0 then typed w true a else
      typed w true a - typed w true b * (typed w true a).tdiv (typed w true b)) ∧ r = narrow w true r
  | .min w => satd = false ∧ r = narrow w false (if typed w false a ≤ typed w false b then a else b)
  | .max w => satd = false ∧ r = narrow w false (if typed w false a ≤ typed w false b then b else a)
  | .minn w => satd = false ∧ r = narrow w true (if typed w true a ≤ typed w true b then a else b)
  | .maxn w => satd = false ∧ r = narrow w true (if typed w true a ≤ typed w true b then b else a)
  | .sra w => satd = false ∧
      r = ((a.setWidth (Width.bits w)).sshiftRight (b.toNat % Width.bits w)).signExtend 64
  | .shr w => satd = false ∧ r = ((a.setWidth (Width.bits w)) >>> (b.toNat % Width.bits w)).setWidth 64
  | .sext w => satd = false ∧ r = narrow w false a
  | .zext w => satd = false ∧ r = narrow w true a
  | _ => True

/-- The field that `bfx` and `bfi` name: position and length, the length cut to the width (R78, R79). -/
def fieldLen (w : Width) (b : Word) : Nat :=
  if Width.bits w ≤ b.toNat % 64 then 0 else min (b.toNat / 256 % 128) (Width.bits w - b.toNat % 64)

/-- What a bit field, a bit-group operation, `sel` or `ix` leaves in its destination (R78 to R80). -/
def BitResult (op : SOp) (a b d : Word) (p : Bool) (r : Word) : Prop :=
  match op with
  | .bfx w =>
    if fieldLen w b = 0 then r = 0
    else ∀ i, i < 64 → r.getLsbD i = a.getLsbD (b.toNat % 64 + min i (fieldLen w b - 1))
  | .bfi w =>
    r = narrow w false r ∧ ∀ i, i < Width.bits w → r.getLsbD i =
      if b.toNat % 64 ≤ i ∧ i < b.toNat % 64 + fieldLen w b then a.getLsbD (i - b.toNat % 64) else d.getLsbD i
  | .and w => r = narrow w false (a &&& b)
  | .or w => r = narrow w false (a ||| b)
  | .xor w => r = narrow w false (a ^^^ b)
  | .andn w => r = narrow w false (a &&& ~~~b)
  | .orn w => r = narrow w false (a ||| ~~~b)
  | .shl w => r = narrow w false (a <<< (b.toNat % Width.bits w))
  | .rol w => r = ((a.setWidth (Width.bits w)).rotateLeft (b.toNat % Width.bits w)).signExtend 64
  | .clz w => r.toNat ≤ Width.bits w ∧ (∀ i, i < r.toNat → a.getLsbD (Width.bits w - 1 - i) = false) ∧
      (r.toNat < Width.bits w → a.getLsbD (Width.bits w - 1 - r.toNat) = true)
  | .ctz w => r.toNat ≤ Width.bits w ∧ (∀ i, i < r.toNat → a.getLsbD i = false) ∧
      (r.toNat < Width.bits w → a.getLsbD r.toNat = true)
  | .pop w => r.toNat = (List.range (Width.bits w)).countP fun i => a.getLsbD i
  | .sel w _ => r = narrow w false (if p then a else b)
  | .ix sc => r = a + b <<< sc.toNat
  | _ => True

/-- The operations of R77 and of R78 but `bfx`; the rest belong to the bit groups. -/
def isArithmetic (op : SOp) : Bool :=
  match op with
  | .bfx _ | .bfi _ | .and _ | .or _ | .xor _ | .andn _ | .orn _ | .shl _ | .rol _ | .clz _ | .ctz _ | .pop _ | .sel _ _ | .ix _ => false
  | _ => true

/-- The latency of an operation's class: the multiply class, the divide class, which holds the divider so long, and the ALU class (R25,
R77 to R80). -/
def classLatency (op : SOp) : Nat :=
  match op with
  | .mul .. | .madd .. | .mulh _ | .mulhn _ => 3
  | .div _ | .divn _ | .rem _ | .remn _ => 34
  | _ => 1

/-- A scalar integer instruction in its parts: guard, destination, first source, second source or immediate, operation, words. -/
structure ScalarForm where
  g : PReg
  d : SReg
  a : SReg
  b : Option SReg
  imm : Word
  op : SOp
  size : Nat

/-- Every scalar integer instruction (R77 to R81). -/
def scalarForm : Instr → Option ScalarForm
  | .add g d a b w n o => some ⟨g, d, a, some b, 0, .add w n o, 1⟩
  | .sub g d a b w n o => some ⟨g, d, a, some b, 0, .sub w n o, 1⟩
  | .mul g d a b w n o => some ⟨g, d, a, some b, 0, .mul w n o, 1⟩
  | .madd g d a b w n o => some ⟨g, d, a, some b, 0, .madd w n o, 1⟩
  | .mulh g d a b w => some ⟨g, d, a, some b, 0, .mulh w, 1⟩
  | .div g d a b w => some ⟨g, d, a, some b, 0, .div w, 1⟩
  | .rem g d a b w => some ⟨g, d, a, some b, 0, .rem w, 1⟩
  | .min g d a b w => some ⟨g, d, a, some b, 0, .min w, 1⟩
  | .max g d a b w => some ⟨g, d, a, some b, 0, .max w, 1⟩
  | .sra g d a b w => some ⟨g, d, a, some b, 0, .sra w, 1⟩
  | .sext g d a w => some ⟨g, d, a, none, 0, .sext w, 1⟩
  | .bfx g d a b w => some ⟨g, d, a, some b, 0, .bfx w, 1⟩
  | .mulhn g d a b w => some ⟨g, d, a, some b, 0, .mulhn w, 1⟩
  | .divn g d a b w => some ⟨g, d, a, some b, 0, .divn w, 1⟩
  | .remn g d a b w => some ⟨g, d, a, some b, 0, .remn w, 1⟩
  | .minn g d a b w => some ⟨g, d, a, some b, 0, .minn w, 1⟩
  | .maxn g d a b w => some ⟨g, d, a, some b, 0, .maxn w, 1⟩
  | .shr g d a b w => some ⟨g, d, a, some b, 0, .shr w, 1⟩
  | .zext g d a w => some ⟨g, d, a, none, 0, .zext w, 1⟩
  | .and g d a b w => some ⟨g, d, a, some b, 0, .and w, 1⟩
  | .or g d a b w => some ⟨g, d, a, some b, 0, .or w, 1⟩
  | .xor g d a b w => some ⟨g, d, a, some b, 0, .xor w, 1⟩
  | .andn g d a b w => some ⟨g, d, a, some b, 0, .andn w, 1⟩
  | .orn g d a b w => some ⟨g, d, a, some b, 0, .orn w, 1⟩
  | .shl g d a b w => some ⟨g, d, a, some b, 0, .shl w, 1⟩
  | .rol g d a b w => some ⟨g, d, a, some b, 0, .rol w, 1⟩
  | .clz g d a w => some ⟨g, d, a, none, 0, .clz w, 1⟩
  | .ctz g d a w => some ⟨g, d, a, none, 0, .ctz w, 1⟩
  | .pop g d a w => some ⟨g, d, a, none, 0, .pop w, 1⟩
  | .bfi g d a b w => some ⟨g, d, a, some b, 0, .bfi w, 1⟩
  | .sel g d a b w p => some ⟨g, d, a, some b, 0, .sel w p, 1⟩
  | .ix g d a b sc => some ⟨g, d, a, some b, 0, .ix sc, 1⟩
  | .addImm g d a imm => some ⟨g, d, a, none, imm.signExtend 64, .add .w64 false false, 1⟩
  | .andImm g d a imm => some ⟨g, d, a, none, imm.signExtend 64, .and .w64, 1⟩
  | .orImm g d a imm => some ⟨g, d, a, none, imm.signExtend 64, .or .w64, 1⟩
  | .xorImm g d a imm => some ⟨g, d, a, none, imm.signExtend 64, .xor .w64, 1⟩
  | .shlImm g d a imm => some ⟨g, d, a, none, imm.signExtend 64, .shl .w64, 1⟩
  | .shrImm g d a imm => some ⟨g, d, a, none, imm.signExtend 64, .shr .w64, 1⟩
  | .sraImm g d a imm => some ⟨g, d, a, none, imm.signExtend 64, .sra .w64, 1⟩
  | .wideImmediate g d a imm op => some ⟨g, d, a, none, imm.signExtend 64, op, 2⟩
  | _ => none

/-- Registers the instruction reads: a, then b, then d where the operation reads it. -/
def ScalarForm.sources (f : ScalarForm) : List SReg := f.a :: (f.b.toList ++ if sopReadsD f.op then [f.d] else [])

/-- The three values: a, b or the immediate, and d where it is read, from the sources as read. -/
def ScalarForm.second (f : ScalarForm) (x : Srcs) : Word := if f.b.isSome then x.get 1 else f.imm
def ScalarForm.third (f : ScalarForm) (x : Srcs) : Word := x.get (if f.b.isSome then 2 else 1)

/-! #### Sources -/

/-- The scalar sources of an instruction in the order of R96, after its guard; and whether it is arithmetic that carries the
deferred-fault bit of a source on (R15), a speculative load that defers it (R92), or a copy instruction, which checks it later (R242). -/
def sourcesOf (i : Instr) : Option (PReg × List SReg × Bool) :=
  match scalarForm i with
  | some f => some (f.g, f.sources, true)
  | none =>
    match i with
    | .cmp g _ _ t _ a b => some (if t = .setz then 0 else g, [a, b], false)
    | .cmpImm g _ _ t _ a _ => some (if t = .setz then 0 else g, [a], false)
    | .liHigh g d _ => some (g, [d], true)
    | .ret g => some (g, [27], false)
    | .brr g a | .rep g a | .tickw g a | .loop g a _ _ => some (g, [a], false)
    | .ldD g _ a _ _ | .ldW g _ a _ _ | .ld g _ a _ _ _ _ _ => some (g, [a], false)
    | .ldsp g _ a _ _ _ _ _ => some (g, [a], true)
    | .stD g d a _ _ | .stW g d a _ _ | .st g d a _ _ _ _ => some (g, [a, d], false)
    | .amoAdd g _ a _ _ _ _ _ b | .amoMin g _ a _ _ _ _ _ b | .amoMax g _ a _ _ _ _ _ b | .amoMinn g _ a _ _ _ _ _ b
    | .amoMaxn g _ a _ _ _ _ _ b | .amoSwap g _ a _ _ _ _ _ b | .amoAmax g _ a _ _ _ _ _ b => some (g, [a, b], false)
    | .amoCas g d a _ _ _ _ _ b => some (g, [a, b, d], false)
    | .cwput g a _ | .trap g a | .modeReq g a | .ttsync g a | .barArrive g a | .barWait g a | .pub g a | .hres g _ a | .lnkStat g _ a
    | .lnkPause g a | .lnkResume g a | .pwrGate g a => some (g, [a], false)
    | .semAdd g a b | .semWait g a b | .barInit g a b | .lnkRemap g a b | .lnkTrain g a b | .pwrBorrow g a b | .pwrRepay g a b =>
      some (g, [a, b], false)
    | .vsplat _ g _ a _ => some (g, [a], false)
    | .vins _ g _ a b _ => some (g, [a, b], false)
    | .vext _ g _ _ b _ | .vrot _ g _ _ b _ | .vbcl _ g _ _ b _ => some (g, [b], false)
    | .vectorLong g _ va vb _ op _ _ =>
      match op with
      | .vsplat => some (g, [va], false)
      | .vins => some (g, [va, vb], false)
      | .vext | .vrot | .vbcl => some (g, [vb], false)
      | _ => none
    | .vld g _ a _ _ _ _ _ | .vst g _ a _ _ _ _ _ | .vldx g _ a _ _ _ _ _ _ | .vstx g _ a _ _ _ _ _ _ => some (g, [a], false)
    | .vlds g _ a b _ _ _ _ _ | .vsts g _ a b _ _ _ _ _ => some (g, [a, b], false)
    | .mma g _ a b _ | .mmaCo g _ a b _ | .mmaCk g _ a b _ | .mmaC g _ a b _ | .mmaG g _ a b _ _ | .mdrain g _ a b _ =>
      some (g, [a, b], false)
    | .mmaSp g _ a b _ c _ => some (g, [a, b, c], false)
    | .mld g _ a _ | .mst g _ a _ | .dtag g _ a _ => some (g, [a], false)
    | .cpNd g _ a _ | .cpCvt g _ a _ _ | .cpAlias g _ a _ => some (g, [a], true)
    | .cpCrc g _ a b _ | .cpFill g _ a b _ | .cpRtn g _ a b _ => some (g, [a, b], true)
    | .strSend g _ b => some (g, [b], false)
    | _ => none

/-- What is checked before the sources are read: a control instruction is not under `rep` (R88), `rep` does not end a loop's body, a
`loop` lies inside the code (R86), the control word exists and may be named (R17), and the acting domain is the supervisor's for its own
instructions (R74). -/
def ReadsSources (s : State) (i : Instr) : Prop :=
  match i with
  | .brr .. | .ret .. | .tickw .. | .liHigh .. => s.me.underRep = false
  | .rep .. => s.me.underRep = false ∧ s.me.endsLoop (s.me.pc / 4) = false
  | .loop _ _ d _ => s.me.underRep = false ∧ s.me.pc / 4 + d.toNat < (SMap.get [] s.me.code s.me.block).length
  | .cwput _ _ n => cwExists n.toNat = true ∧ (n.toNat < 0x80 ∨ s.me.dom = 8)
  | .lnkPause .. | .lnkResume .. | .lnkRemap .. | .lnkTrain .. | .pwrBorrow .. | .pwrRepay .. | .pwrGate .. => s.me.dom = 8
  | _ => True

end Sys2Proof.Machine

open Sys2Proof Sys2Proof.Machine

/-! ### Scalar registers -/

/-- R14, R15, R309 on sources: registers that their check bits deliver read as what they hold, s0 as zero, the deferred-fault bit of
the first that carries one goes with them, and single flips of theirs are corrected for good; an output port reads zero and sets QMIS;
the first register that the check bits do not deliver raises MEMERR with its number, before anything is written. -/
def Rules.SourceRegisters : Prop :=
  (∀ (s : State) (rs : List SReg), (∀ r ∈ rs, r.toNat < 28 ∧ s.me.regBad r.toNat = false) →
    ∃ u, readSrcs s rs [] = .ok ⟨rs.map fun r => s.me.getS r, rs.find? fun r => s.me.getD r⟩ u ∧ s.me.getS 0 = 0 ∧
      s.me.getD 0 = false ∧ u.doms = s.doms ∧
      KeepsAll s u { s.me with regErr := s.me.regErr.filter fun x => rs.all fun r => r.toNat != x.1 % 256 }) ∧
  (∀ (s : State) (r : SReg), 30 ≤ r.toNat → ∃ u, readSrcs s [r] [] = .ok ⟨[0], none⟩ u ∧ u.me.sticky = s.me.sticky ||| flagQMIS ∧
    KeepsAll s u { s.me with sticky := u.me.sticky, stickyNow := u.me.stickyNow, stickyAt := u.me.stickyAt }) ∧
  (∀ (s : State) (rs rs' : List SReg) (r : SReg), (∀ q ∈ rs, q.toNat < 28 ∧ s.me.regBad q.toNat = false) →
    r.toNat < 28 → s.me.regBad r.toNat = true →
    ∃ u, readSrcs s (rs ++ r :: rs') [] = .trap .memerr (r.zeroExtend 64) u ∧ u.doms = s.doms ∧
      KeepsAll s u { s.me with uec := u.me.uec, regErr := u.me.regErr, regPoison := u.me.regPoison })

/-- R15, R74, R86, R88, R96: every instruction with scalar sources reads them before it writes anything, and takes the trap that its
sources raise: MEMERR of a register that no read delivers, QEMPTY, STREAMLATE or RATECOUNT of a port. One that uses its sources for
anything but the arithmetic that carries a deferred-fault bit on raises MEMERR with the first register that carries one. -/
def Rules.SourceTraps : Prop :=
  ∀ (i : Instr) (g : PReg) (rs : List SReg) (carries : Bool) (s u : State), sourcesOf i = some (g, rs, carries) → ReadsSources s i →
    s.me.getP g = true →
    (∀ c v, readSrcs s rs [] = .trap c v u → exec i s = .next (takeTrap u c v)) ∧
    (∀ x r, carries = false → readSrcs s rs [] = .ok x u → x.dfr = some r → exec i s = .next (takeTrap u .memerr (r.zeroExtend 64)))

/-- R14, R96, R316 and R321 on the input ports: a pop answers the oldest committed record not yet popped, or on a channel whose records
cross dies the offset of its place, and counts as a tentative pop of
the firing; a port named twice is popped once; a pop beyond the rate raises RATECOUNT with the port, one that finds no record QEMPTY
with the port or, where records cross dies, STREAMLATE with the channel.
That ports are read before a deferred-fault bit is met is the model's choice (log 69); STREAMLATE of a channel from the host is its reading
(log 18). -/
def Rules.SourcePorts : Prop :=
  ∀ (s : State) (q : SReg) (f : Firing) (n : Nat) (c : Chan), 28 ≤ q.toNat → q.toNat < 30 → s.myFiring = some f →
    portChan s.me' f q.toNat = some (n, c) →
    (c.pop ≤ f.pops q.toNat → readSrcs s [q] [] = .trap .ratecount (q.zeroExtend 64) s) ∧
    (f.pops q.toNat < c.pop → (s.me'.chan n).queue.length ≤ f.pops q.toNat →
      readSrcs s [q] [] = if c.kind = 3 then .trap .streamlate (BitVec.ofNat 64 n) s else .trap .qempty (q.zeroExtend 64) s) ∧
    (f.pops q.toNat < c.pop → f.pops q.toNat < (s.me'.chan n).queue.length →
      ∃ v u, (if c.kind = 3 ∧ c.fstg ≠ 0xFFFF then
          v = BitVec.ofNat 64 (c.base + ((s.me'.chan n).head + f.pops q.toNat) % max c.cap 1 * c.size)
        else (s.me'.chan n).queue[f.pops q.toNat]? = some v) ∧ readSrcs s [q] [] = .ok ⟨[v], none⟩ u ∧
        readSrcs s [q, q] [] = .ok ⟨[v, v], none⟩ u ∧
        u = { s with doms := u.doms } ∧ (∀ d, d ≠ s.me.dom → u.dom d = s.dom d) ∧
        s.me'.firings.map (fun x => if x.id = f.id then x.addPop q.toNat else x) = u.me'.firings ∧
        { u.me' with firings := s.me'.firings } = s.me')

/-- SourceRegisters, SourcePorts and SourceTraps together: R14, R15, R74, R86, R88, R96, R309, R316, R321. -/
def Obligations.SourcesRead : Prop := Rules.SourceRegisters ∧ Rules.SourcePorts ∧ Rules.SourceTraps

/-- R14, R15, R96 on destinations that are ports, for whatever value an instruction writes and whatever follows the write: q0 and q1
take nothing and set QMIS; a value with a deferred-fault bit raises MEMERR naming the register that carried it; a push beyond the
rate raises RATECOUNT; a port without a channel sets QMIS; any other push is tentative, in order. -/
def Obligations.DestinationPorts : Prop :=
  ∀ (s : State) (d : SReg) (v : Word) (lat : Nat) (k : State → State),
    (28 ≤ d.toNat → d.toNat < 30 → ∀ dfr, finish (writeDst s d v dfr lat) k = .next (k (s.flagged flagQMIS))) ∧
    (30 ≤ d.toNat → ∀ r, finish (writeDst s d v (some r) lat) k = .next (takeTrap s .memerr (r.zeroExtend 64))) ∧
    (30 ≤ d.toNat → (∀ f, s.myFiring = some f → portChan s.me' f d.toNat = none) →
      finish (writeDst s d v none lat) k = .next (k (s.flagged flagQMIS))) ∧
    (30 ≤ d.toNat → ∀ f n c, s.myFiring = some f → portChan s.me' f d.toNat = some (n, c) →
      (c.push ≤ (f.pushes d.toNat).length →
        finish (writeDst s d v none lat) k = .next (takeTrap s .ratecount (d.zeroExtend 64))) ∧
      ((f.pushes d.toNat).length < c.push → ∃ u, finish (writeDst s d v none lat) k = .next (k u) ∧ u = { s with doms := u.doms } ∧
        (∀ e, e ≠ s.me.dom → u.dom e = s.dom e) ∧ { u.me' with firings := s.me'.firings } = s.me' ∧
        u.me'.firings = s.me'.firings.map fun x => if x.id = f.id then x.addPush d.toNat v else x))

/-! ### Scalar integer instructions -/

/-- R77, R78 (but `bfx`), with the immediate forms of R81: the result, written through Fit at the type, SATD exactly when a
saturating form clamps, the deferred-fault bit as the OR of the sources' (R15), the next PC, and nothing else. -/
def Rules.ScalarArithmetic : Prop :=
  ∀ (i : Instr) (f : ScalarForm) (s u : State) (x : Srcs), scalarForm i = some f → isArithmetic f.op = true → s.me.getP f.g = true →
    readSrcs s f.sources [] = .ok x u →
    ∃ v r satd, ArithResult f.op (x.get 0) (f.second x) (f.third x) r satd ∧
      KeepsAll u v { u.me with sticky := if satd then u.me.sticky ||| flagSATD else u.me.sticky, stickyNow := v.me.stickyNow,
                               stickyAt := v.me.stickyAt, ready := v.me.ready } ∧ v.doms = u.doms ∧
      (∀ q, v.me.readyAt q =
        if q = unitDiv ∧ classLatency f.op = 34 then max (u.now + 34) (u.me.readyAt q) else u.me.readyAt q) ∧
      Delivers s v i f.d r x.dfr (classLatency f.op) f.size

/-- R78 (`bfx`), R79 and R80, with the immediate forms of R81: the result, the deferred-fault bit (R15), the next PC, and nothing
else: no flag. -/
def Rules.ScalarBits : Prop :=
  ∀ (i : Instr) (f : ScalarForm) (s u : State) (x : Srcs), scalarForm i = some f → isArithmetic f.op = false → s.me.getP f.g = true →
    readSrcs s f.sources [] = .ok x u →
    ∃ r, BitResult f.op (x.get 0) (f.second x) (f.third x) (u.me.getP (sopPredicate f.op)) r ∧ Delivers s u i f.d r x.dfr 1 f.size

/-- ScalarArithmetic and ScalarBits together: R15, R77, R78, R79, R80, R81. -/
def Obligations.ScalarIntegers : Prop := Rules.ScalarArithmetic ∧ Rules.ScalarBits

/-! ### Control flow -/

namespace Sys2Proof.Machine

/-- The guard of an instruction of a control thread: bits 25:23 of its first word (R50). -/
def guardOf (i : Instr) : PReg := BitVec.ofNat 3 ((encode i).getD 0 0 / 2 ^ 23)

/-- Words of an instruction (R49). -/
def sizeOfInstr (i : Instr) : Nat := (encode i).length

/-- The instructions that `rep` may not repeat (R88): those of the control majors. -/
def isControl : Instr → Bool
  | .br .. | .call .. | .nop .. | .done .. | .ret .. | .brr .. | .rep .. | .tickw .. | .fsel .. | .chk .. | .loop .. | .liLow ..
  | .liHigh .. | .adr .. => true
  | _ => false

/-- The instructions that raise PRIV in a partition before their guard is read (R74). -/
def isPrivileged : Instr → Bool
  | .lnkPause .. | .lnkRemap .. | .lnkTrain .. | .lnkResume .. | .pwrBorrow .. | .pwrRepay .. | .pwrGate .. | .inject .. | .tret .. => true
  | _ => false

/-- A transfer took place (R85): the new PC, two slots, and every loop left whose body the target lies outside. -/
def Transferred (s t : State) (target : Nat) : Prop :=
  t.me.pc = target ∧ t.me.t = max s.me.t (s.now + 2) ∧
  ∀ k, t.me.loop k =
    if k < 4 ∧ (s.me.loop k).act = true ∧ (target / 4 < (s.me.loop k).st ∨ (s.me.loop k).en < target / 4) then
      { s.me.loop k with act := false } else s.me.loop k

/-- The target of a branch: the PC plus four times a signed offset (R85). -/
def branchTarget (s : State) (off : Int) : Int := s.me.pc + 4 * off

/-- A target inside the code of the running block (R52, R13). -/
def InCode (s : State) (t : Int) : Prop := 0 ≤ t ∧ t < 4 * (SMap.get [] s.me.code s.me.block).length

/-- Sources that are read, in `u`, of which `q` is the first that carries a deferred-fault bit (R15). -/
def CarriesFault (s u : State) (rs : List SReg) (q : SReg) : Prop := ∃ x, readSrcs s rs [] = .ok x u ∧ x.dfr = some q

end Sys2Proof.Machine

/-- R50, R25: a false guard passes any instruction, at one slot, with no other effect, in a partition and in the supervisor domain,
under `rep` as well. What is checked before the guard stays so: a control instruction under `rep`, `rep` at the end of a loop's body, a
`loop` that leaves the code, a privileged instruction in a partition; and `setz` reads its guard as an input: these have statements of
their own. That a false guard passes `cwget` and `cwput` without a check of the control word they name is the model's reading (log 26). -/
def Obligations.FalseGuard : Prop :=
  ∀ (i : Instr) (s : State), i.isProgram = true → i.wf = true → s.me.getP (guardOf i) = false →
    (isControl i = true → s.me.underRep = false) → (isPrivileged i = true → s.me.dom = 8) →
    (∀ g pd1 pd2 c a b, i ≠ .cmp g pd1 pd2 .setz c a b) → (∀ g pd1 pd2 c a b, i ≠ .cmpImm g pd1 pd2 .setz c a b) →
    (∀ g a d b, i = .loop g a d b → s.me.pc / 4 + d.toNat < (SMap.get [] s.me.code s.me.block).length) →
    (∀ g a, i = .rep g a → ∀ k, (s.me.loop k).act = true → (s.me.loop k).en ≠ s.me.pc / 4) →
    ∃ t, exec i s = .next t ∧ Passes s t (sizeOfInstr i) ∧ t.doms = s.doms ∧ KeepsAll s t (s.me.issued t.me)

/-- R87 and R88: where an instruction of `size` words leaves the PC that transfers nothing. Under `rep` it stays until the last issue;
without one, every loop whose body the word ends and whose count runs out is left, from the innermost outward, up to loop m; where
it also ends the body of the next one, the PC goes to that body's start and the count falls by one, else to the next instruction. -/
def Obligations.NextPc : Prop :=
  ∀ (c : Cell) (size : Nat),
    (c.underRep = false → (∀ k, (c.loop k).act = false) → c.stepPc size = { c with pc := 4 * (c.pc / 4 + size) }) ∧
    (∀ n, c.repPend = some n → 1 < n → c.stepPc size = { c with repPend := none, rep := n - 1 }) ∧
    (∀ n, c.repPend = some n → n ≤ 1 → c.rep = 0 → c.stepPc size = { c with repPend := none }.stepPc size) ∧
    (c.repPend = none → 1 < c.rep → c.stepPc size = { c with rep := c.rep - 1 }) ∧
    (c.repPend = none → c.rep = 1 → c.stepPc size = { c with rep := 0 }.stepPc size) ∧
    (∀ m, c.underRep = false → m ≤ c.depth → (∀ k, k < c.depth → (c.loop k).act = true) →
      (∀ k, m ≤ k → k < c.depth → (c.loop k).en = c.pc / 4 ∧ (c.loop k).cnt ≤ 1) →
      let t := c.stepPc size
      t = { c with pc := t.pc, loops := t.loops } ∧
      (∀ k, m ≤ k → k < c.depth → t.loop k = { c.loop k with cnt := 0, act := false }) ∧
      (∀ k, c.depth ≤ k → t.loop k = c.loop k) ∧
      ((∀ k, m = k + 1 → (c.loop k).en ≠ c.pc / 4 ∨ 1 < (c.loop k).cnt) → ∀ k, k + 1 < m → t.loop k = c.loop k) ∧
      (m = 0 → t.pc = 4 * (c.pc / 4 + size)) ∧
      (∀ k, m = k + 1 → (c.loop k).en ≠ c.pc / 4 → t.pc = 4 * (c.pc / 4 + size) ∧ t.loop k = c.loop k) ∧
      (∀ k, m = k + 1 → (c.loop k).en = c.pc / 4 → 1 < (c.loop k).cnt →
        t.pc = 4 * (c.loop k).st ∧ t.loop k = { c.loop k with cnt := (c.loop k).cnt - 1 }))

/-- R85: a taken `br`, `call`, `ret`, `brr` or `chk`. `call` leaves the address of the next word in s27; `ret` and `brr` go to a
register's value, a multiple of 4 inside the code, and raise MEMERR where the register carries a deferred-fault bit; `chk` branches when
its register carries one, never for s0 or a port, and leaves the bit; `nop` and a branch with a false guard do nothing, at one slot.
That the second word of a body's last instruction lies outside the body is the model's reading (log 72). -/
def Rules.BranchesTaken : Prop :=
  ∀ (s : State) (g : PReg), s.me.underRep = false →
    (∀ i : Instr, (∃ o : BitVec 23, i = .br g o ∨ i = .call g o) ∨ i = .ret g ∨ (∃ a, i = .brr g a) ∨
        (∃ (a : SReg) (o : BitVec 18), i = .chk g a o) → s.me.getP g = false →
      ∃ t, exec i s = .next t ∧ Passes s t 1 ∧ t.doms = s.doms ∧ KeepsAll s t (s.me.issued t.me)) ∧
    (s.me.getP g = true → ∃ t, exec (.nop g) s = .next t ∧ Passes s t 1 ∧ t.doms = s.doms ∧ KeepsAll s t (s.me.issued t.me)) ∧
    (s.me.getP g = true → ∀ (i : Instr) (a : SReg), (i = .brr g a ∨ i = .ret g ∧ a = 27) → ∀ u, CarriesFault s u [a] a →
      exec i s = .next (takeTrap u .memerr (a.zeroExtend 64))) ∧
    (s.me.getP g = true → ∀ off : BitVec 23, InCode s (branchTarget s off.toInt) →
      (∃ t, exec (.br g off) s = .next t ∧ Transferred s t (branchTarget s off.toInt).toNat ∧ KeepsAll s t (s.me.issued t.me)) ∧
      ∃ t, exec (.call g off) s = .next t ∧ Transferred s t (branchTarget s off.toInt).toNat ∧
        t.me.getS 27 = BitVec.ofNat 64 (s.me.pc + 4) ∧ t.me.getD 27 = false ∧ s.now + 1 ≤ t.me.readyAt 27 ∧
        (∀ q, q ≠ 27 → t.me.getS q = s.me.getS q ∧ t.me.getD q = s.me.getD q) ∧ t.me.sticky = s.me.sticky ∧
        KeepsAll s t (s.me.issuedScalar t.me)) ∧
    (s.me.getP g = true → ∀ (i : Instr) (a : SReg) (x : Srcs) (u : State), (i = .brr g a ∨ i = .ret g ∧ a = 27) →
      readClean s [a] = .ok x u → (x.get 0).toNat % 4 = 0 → InCode s (x.get 0).toNat →
      ∃ t, exec i s = .next t ∧ Transferred s t (x.get 0).toNat ∧ t.doms = u.doms ∧ KeepsAll u t (u.me.issued t.me)) ∧
    (s.me.getP g = true → ∀ (a : SReg) (off : BitVec 18),
      (a.toNat < 28 → s.me.getD a = true → InCode s (branchTarget s off.toInt) →
        ∃ t, exec (.chk g a off) s = .next t ∧ Transferred s t (branchTarget s off.toInt).toNat ∧ KeepsAll s t (s.me.issued t.me)) ∧
      (28 ≤ a.toNat ∨ s.me.getD a = false →
        ∃ t, exec (.chk g a off) s = .next t ∧ Passes s t 1 ∧ t.doms = s.doms ∧ KeepsAll s t (s.me.issued t.me)))

/-- R52 and R88: a branch whose target lies outside the code raises ILLEGAL with its word; a register target that is no multiple of 4
raises ALIGN and one outside the code ILLEGAL, with the value; and any instruction of the control majors under `rep` raises ILLEGAL with
its words.
What `chk` makes of an undeliverable register is the model's reading (log 64). -/
def Rules.TransfersRefused : Prop :=
  ∀ (s : State) (g : PReg),
    (s.me.getP g = true → s.me.underRep = false →
      (∀ (i : Instr) (off : Int), (∃ o : BitVec 23, (i = .br g o ∨ i = .call g o) ∧ off = o.toInt) ∨
          (∃ (a : SReg) (o : BitVec 18), i = .chk g a o ∧ a.toNat < 28 ∧ s.me.getD a = true ∧ off = o.toInt) →
        ¬ InCode s (branchTarget s off) → exec i s = .next (takeTrap s .illegal (BitVec.ofNat 64 ((encode i).getD 0 0)))) ∧
      (∀ (i : Instr) (a : SReg) (x : Srcs) (u : State), (i = .brr g a ∨ i = .ret g ∧ a = 27) → readClean s [a] = .ok x u →
        ((x.get 0).toNat % 4 ≠ 0 → exec i s = .next (takeTrap u .align (x.get 0))) ∧
        ((x.get 0).toNat % 4 = 0 → ¬ InCode s (x.get 0).toNat → exec i s = .next (takeTrap u .illegal (x.get 0))))) ∧
    (∀ i : Instr, isControl i = true → s.me.underRep = true →
      exec i s = .next (takeTrap s .illegal (BitVec.ofNat 64 ((encode i).getD 0 0 + (encode i).getD 1 0 * 2 ^ 32))))

/-- BranchesTaken and TransfersRefused together: R52, R85, R88. -/
def Obligations.TransfersOfControl : Prop := Rules.BranchesTaken ∧ Rules.TransfersRefused

/-- R86: a body outside the code raises ILLEGAL, whatever the guard. Under a true guard a count with a deferred-fault bit raises MEMERR, a
fifth loop, a body that leaves the innermost loop or a count beyond the bound LOOPBOUND; a count of zero passes the body, at two slots, as
its last instruction would pass (R87); and a count of 1 to the bound opens the next loop and goes to its body. A false guard goes on into
the body. -/
def Rules.LoopEntry : Prop :=
  ∀ (s : State) (g : PReg) (a : SReg) (dist : BitVec 15) (bound : BitVec 32), s.me.underRep = false →
    let w := s.me.pc / 4
    let i := Instr.loop g a dist bound
    let words : Word := BitVec.ofNat 64 ((encode i).getD 0 0 + (encode i).getD 1 0 * 2 ^ 32)
    let inner := s.me.depth < 4 ∧ ∀ k, s.me.depth = k + 1 → (s.me.loop k).st ≤ w + 2 ∧ w + dist.toNat ≤ (s.me.loop k).en
    let inside := w + dist.toNat < (SMap.get [] s.me.code s.me.block).length
    (¬ inside → exec i s = .next (takeTrap s .illegal words)) ∧
    (inside → s.me.getP g = false →
      ∃ t, exec i s = .next t ∧ Passes s t 2 ∧ t.doms = s.doms ∧ KeepsAll s t (s.me.issued t.me)) ∧
    (inside → s.me.getP g = true → ∀ u, CarriesFault s u [a] a → exec i s = .next (takeTrap u .memerr (a.zeroExtend 64))) ∧
    (∀ (u : State) (x : Srcs), inside → s.me.getP g = true → readClean s [a] = .ok x u →
      let n := (x.get 0).toNat
      (¬ inner → exec i s = .next (takeTrap u .loopbound words)) ∧
      (inner → bound.toNat < n → exec i s = .next (takeTrap u .loopbound (x.get 0))) ∧
      (inner → 0 < n → n ≤ bound.toNat → ∃ t, exec i s = .next t ∧ t.me.pc = 4 * (w + 2) ∧
        t.me.loop s.me.depth = { st := w + 2, en := w + dist.toNat, cnt := n, act := true } ∧
        (∀ k, k ≠ s.me.depth → t.me.loop k = s.me.loop k) ∧ t.me.t = max s.me.t (s.now + 1) ∧ t.doms = u.doms ∧
        KeepsAll u t (u.me.issued t.me)) ∧
      (inner → n = 0 → ∃ t, exec i s = .next t ∧ t.me.t = max s.me.t (s.now + 2) ∧ t.doms = u.doms ∧
        KeepsAll u t (u.me.issued t.me) ∧
        (let y := { s.me with pc := 4 * (w + dist.toNat) }.stepPc (s.me.sizeAt (w + dist.toNat))
         t.me.pc = y.pc ∧ t.me.loops = y.loops)))

/-- R88: `rep` with a count below 2^32 lets the next instruction issue so many times, and with zero passes it, at one slot, as that
instruction would pass that transfers nothing, the last of a loop's body as well (R87); a greater count raises LOOPBOUND, a count with a
deferred-fault bit MEMERR; `rep` as the last word of an active loop's body raises ILLEGAL. -/
def Rules.RepCounts : Prop :=
  (∀ (s u : State) (g : PReg) (a : SReg), s.me.underRep = false → s.me.endsLoop (s.me.pc / 4) = false → s.me.getP g = true →
    CarriesFault s u [a] a → exec (.rep g a) s = .next (takeTrap u .memerr (a.zeroExtend 64))) ∧
  ∀ (s u : State) (g : PReg) (a : SReg) (x : Srcs), s.me.underRep = false → readClean s [a] = .ok x u →
    (s.me.endsLoop (s.me.pc / 4) = true →
      exec (.rep g a) s = .next (takeTrap s .illegal (BitVec.ofNat 64 ((encode (.rep g a)).getD 0 0)))) ∧
    (s.me.endsLoop (s.me.pc / 4) = false → s.me.getP g = true →
      (2 ^ 32 ≤ (x.get 0).toNat → exec (.rep g a) s = .next (takeTrap u .loopbound (x.get 0))) ∧
      (0 < (x.get 0).toNat → (x.get 0).toNat < 2 ^ 32 → ∃ t, exec (.rep g a) s = .next t ∧ t.me.repPend = some (x.get 0).toNat ∧
        t.me.pc = 4 * (s.me.pc / 4 + 1) ∧ (∀ k, t.me.loop k = s.me.loop k) ∧ t.me.t = max s.me.t (s.now + 1) ∧ t.doms = u.doms ∧
        KeepsAll u t (u.me.issued t.me)) ∧
      (x.get 0 = 0 → ∃ t, exec (.rep g a) s = .next t ∧ t.me.repPend = none ∧ t.me.t = max s.me.t (s.now + 1) ∧ t.doms = u.doms ∧
        KeepsAll u t (u.me.issued t.me) ∧
        (let y := { s.me with pc := 4 * (s.me.pc / 4 + 1) }.stepPc (s.me.sizeAt (s.me.pc / 4 + 1))
         t.me.pc = y.pc ∧ t.me.loops = y.loops) ∧
        (s.me.endsLoop (s.me.pc / 4 + 1) = false →
          t.me.pc = 4 * (s.me.pc / 4 + 1 + s.me.sizeAt (s.me.pc / 4 + 1)) ∧ ∀ k, t.me.loop k = s.me.loop k)))

/-- LoopEntry and RepCounts together: R86, R87, R88. -/
def Obligations.LoopsAndRepeat : Prop := Rules.LoopEntry ∧ Rules.RepCounts

/-- R82, R96, R120: `li` loads a sign-extended word or replaces the upper half, with the deferred-fault bit it finds; `adr` loads a code
address; `fsel` the word that chose the firing's block, or zero outside a firing. -/
def Rules.Immediates : Prop :=
  ∀ (s : State) (g : PReg) (d : SReg), s.me.getP g = true → s.me.underRep = false →
    (∀ imm : BitVec 32, Delivers s s (.liLow g d imm) d (imm.signExtend 64) none 1 2) ∧
    (∀ (imm : BitVec 32) (x : Srcs) (u : State), readSrcs s [d] [] = .ok x u →
      Delivers s u (.liHigh g d imm) d (imm ++ (x.get 0).setWidth 32) x.dfr 1 2) ∧
    (∀ off : BitVec 16, Delivers s s (.adr g d off) d (off.zeroExtend 64) none 1 2) ∧
    (∀ f, s.myFiring = some f → Delivers s s (.fsel g d) d f.fsel none 1 1) ∧
    (s.myFiring = none → Delivers s s (.fsel g d) d 0 none 1 1)

/-- R83, R84: what a compare leaves in its predicates: the condition of the two registers, joined to the old values by the combining
type; `setz` clears both where its guard is false, and every other type then writes nothing; p0 stays true; where both name one
predicate, the second value stands; a source with a deferred-fault bit raises MEMERR and no predicate is written. -/
def Rules.CompareResult : Prop :=
  ∀ (s : State) (i : Instr) (g pd1 pd2 : PReg) (t : Comb) (c : Cond) (rs : List SReg) (b : Word),
    ((∃ a r, i = .cmp g pd1 pd2 t c a r ∧ rs = [a, r]) ∨
      (∃ (a : SReg) (imm : BitVec 5), i = .cmpImm g pd1 pd2 t c a imm ∧ rs = [a] ∧
        b = if c = .tb ∨ c = .tnb then imm.zeroExtend 64 else imm.signExtend 64)) →
    (s.me.getP g = false → t ≠ .setz →
      ∃ y, exec i s = .next y ∧ Passes s y 1 ∧ y.doms = s.doms ∧ KeepsAll s y (s.me.issued y.me)) ∧
    (s.me.getP g = true ∨ t = .setz → ∀ q u, CarriesFault s u rs q → exec i s = .next (takeTrap u .memerr (q.zeroExtend 64))) ∧
    ∀ (u : State) (x : Srcs), (s.me.getP g = true ∨ t = .setz) → readClean s rs = .ok x u → (rs.length = 2 → b = x.get 1) →
    let a := x.get 0
    let holds := match c with
      | .eq => a == b | .ne => a != b | .lt => a.slt b | .ge => b.sle a | .ltu => a.ult b | .geu => b.ule a
      | .tb => a.getLsbD (b.toNat % 64) | .tnb => !a.getLsbD (b.toNat % 64)
    let p := u.me.getP pd1
    let q := u.me.getP pd2
    let new := match t with
      | .set => (holds, !holds) | .setz => (s.me.getP g && holds, s.me.getP g && !holds)
      | .all => (p && holds, q && holds) | .any => (p || holds, q || holds)
      | .none => (p && !holds, q && !holds) | .notall => (p || !holds, q || !holds)
      | .xany => (p || holds, q && !holds) | .xall => (p && holds, q || !holds)
    ∃ y, exec i s = .next y ∧ (pd2 ≠ 0 → y.me.getP pd2 = new.2) ∧ (pd1 ≠ 0 → pd1 ≠ pd2 → y.me.getP pd1 = new.1) ∧
      (∀ r, r ≠ pd1 → r ≠ pd2 → y.me.getP r = u.me.getP r) ∧ y.me.getP 0 = true ∧ u.now + 1 ≤ y.me.readyAt (32 + pd1.toNat) ∧
      u.now + 1 ≤ y.me.readyAt (32 + pd2.toNat) ∧ Passes u y 1 ∧ y.doms = u.doms ∧
      KeepsAll u y { u.me.issued y.me with pred := y.me.pred }

/-- Immediates and CompareResult together: R82, R83, R84, R96, R120. -/
def Obligations.ImmediatesAndCompares : Prop := Rules.Immediates ∧ Rules.CompareResult

/-! ### Scalar memory -/

namespace Sys2Proof.Machine

/-- The access of a scalar load or store in its parts: base register, offset in units of the size, bytes, space, stream, words. -/
structure AccessForm where
  g : PReg
  d : SReg
  a : SReg
  imm : BitVec 9
  n : Nat
  sp : Space
  strm : Nat
  size : Nat
  zero : Bool := false
  strong : Bool := false
  tok : Nat := 0

def sizeBytes : Size → Nat
  | .b => 1 | .h => 2 | .w => 4 | .d => 8

/-- The loads (R90): `ldsp` apart. -/
def loadForm : Instr → Option AccessForm
  | .ldD g d a _ imm => some { g := g, d := d, a := a, imm := imm, n := 8, sp := .sp, strm := 0, size := 1 }
  | .ldW g d a _ imm => some { g := g, d := d, a := a, imm := imm, n := 4, sp := .sp, strm := 0, size := 1 }
  | .ld g d a _ imm z n rt =>
    some { g := g, d := d, a := a, imm := imm, n := sizeBytes z, sp := rt.space, strm := rt.stream.toNat, size := 2, zero := n }
  | _ => none

/-- The stores (R90). -/
def storeForm : Instr → Option AccessForm
  | .stD g d a tok imm => some { g := g, d := d, a := a, imm := imm, n := 8, sp := .sp, strm := 0, size := 1, tok := tok.toNat }
  | .stW g d a tok imm => some { g := g, d := d, a := a, imm := imm, n := 4, sp := .sp, strm := 0, size := 1, tok := tok.toNat }
  | .st g d a tok imm z rt =>
    some { g := g, d := d, a := a, imm := imm, n := sizeBytes z, sp := rt.space, strm := rt.stream.toNat, size := 2,
           strong := rt.strong, tok := tok.toNat }
  | _ => none

/-- The atomics (R93): the operation's number, the access, and the register of b. -/
def atomicForm : Instr → Option (Nat × AccessForm × SReg)
  | .amoAdd g d a tok imm dbl sp strm b => some (0, ⟨g, d, a, imm, if dbl then 8 else 4, sp, strm.toNat, 2, false, true, tok.toNat⟩, b)
  | .amoMin g d a tok imm dbl sp strm b => some (1, ⟨g, d, a, imm, if dbl then 8 else 4, sp, strm.toNat, 2, false, true, tok.toNat⟩, b)
  | .amoMax g d a tok imm dbl sp strm b => some (2, ⟨g, d, a, imm, if dbl then 8 else 4, sp, strm.toNat, 2, false, true, tok.toNat⟩, b)
  | .amoMinn g d a tok imm dbl sp strm b => some (3, ⟨g, d, a, imm, if dbl then 8 else 4, sp, strm.toNat, 2, false, true, tok.toNat⟩, b)
  | .amoMaxn g d a tok imm dbl sp strm b => some (4, ⟨g, d, a, imm, if dbl then 8 else 4, sp, strm.toNat, 2, false, true, tok.toNat⟩, b)
  | .amoSwap g d a tok imm dbl sp strm b => some (5, ⟨g, d, a, imm, if dbl then 8 else 4, sp, strm.toNat, 2, false, true, tok.toNat⟩, b)
  | .amoCas g d a tok imm dbl sp strm b => some (6, ⟨g, d, a, imm, if dbl then 8 else 4, sp, strm.toNat, 2, false, true, tok.toNat⟩, b)
  | .amoAmax g d a tok imm dbl sp strm b => some (7, ⟨g, d, a, imm, if dbl then 8 else 4, sp, strm.toNat, 2, false, true, tok.toNat⟩, b)
  | _ => none

/-- The effective address: the base plus the signed offset times the size (R89). -/
def AccessForm.address (f : AccessForm) (base : Word) : Word := base + f.imm.signExtend 64 * BitVec.ofNat 64 f.n

/-- The cycle in which a write of memory is performed (R95): its own, or that of an earlier write of its stream and space where that is
later. -/
def writeDue (c : Cell) (strm : Nat) (sp : Space) (due : Nat) : Nat :=
  ((c.pend.filter fun x => x.strm == strm && x.space == sp && match x.upd with | .store _ | .amo .. => true | _ => false).map
    fun x => x.due).foldl max due

/-- CW.SPOVF after a write through the stack's redirect (R208): the lowest offset written in the overflow area. -/
def spillMark (c : Cell) (named reached : Space) (place : Nat) : BitVec 23 :=
  if named = .sp ∧ reached = .cb ∧ place < c.spovf.toNat then BitVec.ofNat 23 place else c.spovf

/-- The number of the kind of place in MEMERR's value (R293). -/
def placeKind : Space → Nat
  | .sp => 1 | .cb => 2

/-- The memory of a space of a cell. -/
def State.ramOf (s : State) (c : Nat) (sp : Space) : Ram :=
  match sp with
  | .sp => (s.cell c).sp
  | .cb => (s.cluster (clusterOf c)).slice

/-- A lane of `amo.amax` (R93): the larger magnitude of two FP32 patterns as unsigned numbers; a NaN's magnitude where one is a NaN. -/
def AmaxLane (m b r : Nat) : Prop :=
  let nan (v : Nat) : Prop := 0x7F800000 < v % 2 ^ 31
  (¬ nan m → ¬ nan b → r = max (m % 2 ^ 31) (b % 2 ^ 31)) ∧ (nan m → ¬ nan b → r = m % 2 ^ 31) ∧ (¬ nan m → nan b → r = b % 2 ^ 31) ∧
  (nan m → nan b → r = m % 2 ^ 31 ∨ r = b % 2 ^ 31)

/-- The words of a space that `n` bytes from `b` touch deliver, with nothing to correct, to a stream (R91, R309). -/
def Delivered (s : State) (strm : Nat) (sp : Space) (b n : Nat) : Prop :=
  ∀ w, b / 8 ≤ w → w ≤ (b + n - 1) / 8 → (s.seen strm sp).bad w = false ∧ SMap.get 0 (s.seen strm sp).err w = 0

/-- Latency of a space (R90). -/
def spaceLatency : Space → Nat
  | .sp => 4 | .cb => 24

/-- What a load of `n` bytes makes of a number (R90). -/
def widen (n : Nat) (zero : Bool) (v : Nat) : Word :=
  if zero then BitVec.ofNat 64 (v % 2 ^ (8 * n)) else BitVec.ofInt 64 (Int.bmod v (2 ^ (8 * n)))

/-- Where the memory of a space lies: a cell's scratchpad or its cluster's slice. -/
def State.bytesOf (s : State) (c : Nat) (sp : Space) : Mem :=
  match sp with
  | .sp => (s.cell c).sp.bytes
  | .cb => (s.cluster (clusterOf c)).slice.bytes

/-- Every byte but those of one space of one cell reads as before. -/
def OtherMemoryKept (s t : State) (c : Nat) (sp : Space) : Prop :=
  ∀ a, (∀ e, ¬ (sp = .sp ∧ e = c) → Mem.byte (t.cell e).sp.bytes a = Mem.byte (s.cell e).sp.bytes a) ∧
    (∀ k, ¬ (sp = .cb ∧ k = clusterOf c) → Mem.byte (t.cluster k).slice.bytes a = Mem.byte (s.cluster k).slice.bytes a) ∧
    (∀ d, Mem.byte (t.die d).lp6.bytes a = Mem.byte (s.die d).lp6.bytes a) ∧ Mem.byte t.host a = Mem.byte s.host a

end Sys2Proof.Machine

/-- R89, R208: where a scalar access goes. An address that is no multiple of the size raises ALIGN; a cluster-buffer offset beyond the
share raises XLATE and one inside it goes to the slice; a scratchpad address below the carve-out's end goes there and one beyond it
nowhere; through s26, an address below L is redirected to the overflow area in the share, and one too far below it raises SPILL. That a
redirected access beyond the share raises XLATE with the offset there as its value is the model's reading (log 20). -/
def Obligations.AccessTargets : Prop :=
  ∀ (s : State) (a : SReg) (ea : Word) (n : Nat), 0 < n →
    let share := s.shareSize s.me.dom (clusterOf s.cur)
    (∀ sp, ea.toNat % n ≠ 0 → target s a sp ea n = .trap .align ea s) ∧
    (ea.toNat % n = 0 →
      (share ≤ ea.toNat → target s a .cb ea n = .trap .xlate (BitVec.ofNat 64 (2 ^ 63 + ea.toNat % 2 ^ 63)) s) ∧
      (ea.toNat < share → target s a .cb ea n = .ok (.mem .cb (s.shareByte s.me.dom (clusterOf s.cur) ea.toNat) ea.toNat) s) ∧
      (a ≠ 26 ∨ s.me.limL ≤ ea.toNat →
        (ea.toNat < s.me.limC → target s a .sp ea n = .ok (.mem .sp ea.toNat ea.toNat) s) ∧
        (s.me.limC ≤ ea.toNat → target s a .sp ea n = .ok (.out ea.toNat) s)) ∧
      (a = 26 → ea.toNat < s.me.limL → s.me.limL ≤ ea.toNat + s.me.limSOV →
        let o := s.me.limOB + (ea.toNat + s.me.limSOV - s.me.limL)
        (share ≤ o → target s a .sp ea n = .trap .xlate (BitVec.ofNat 64 (2 ^ 63 + o % 2 ^ 63)) s) ∧
        (o < share → target s a .sp ea n = .ok (.mem .cb (s.shareByte s.me.dom (clusterOf s.cur) o) o) s)) ∧
      (a = 26 → ea.toNat + s.me.limSOV < s.me.limL → target s a .sp ea n = .trap .spill ea s))

/-- R90, R95: a load delivers the little-endian bytes at its address as its stream sees them, extended, after 4 or 24 cycles; beyond the
carve-out it delivers zero and sets OOR, which takes the address where the flag was clear; a word that the check bits do not deliver
raises MEMERR; and every trap of the access, of its base included, is taken. -/
def Rules.Loads : Prop :=
  ∀ (i : Instr) (f : AccessForm) (s u v : State) (x : Srcs), loadForm i = some f → s.me.getP f.g = true → readClean s [f.a] = .ok x u →
    (∀ sp b place, target u f.a f.sp (f.address (x.get 0)) f.n = .ok (.mem sp b place) v →
      (Delivered v f.strm sp b f.n →
        Delivers s v i f.d (widen f.n f.zero (v.load f.strm sp b f.n)) none (spaceLatency sp) f.size) ∧
      ((∃ w, b / 8 ≤ w ∧ w ≤ (b + f.n - 1) / 8 ∧ (v.seen f.strm sp).bad w = true) →
        ∃ y, exec i s = .next (takeTrap y .memerr (memPlace (placeKind sp) place)) ∧ y.me.sreg = v.me.sreg ∧
          y.doms = v.doms ∧ y.me.pc = v.me.pc)) ∧
    (∀ ad, target u f.a f.sp (f.address (x.get 0)) f.n = .ok (.out ad) v →
      ∃ y, KeepsAll v y { v.me with sticky := v.me.sticky ||| flagOOR, stickyNow := y.me.stickyNow, stickyAt := y.me.stickyAt,
                                    oor := if v.me.sticky &&& flagOOR = 0 then BitVec.ofNat 20 ad else v.me.oor } ∧
        y.doms = v.doms ∧ Delivers s y i f.d 0 none 4 f.size) ∧
    (∀ c w, target u f.a f.sp (f.address (x.get 0)) f.n = .trap c w v → exec i s = .next (takeTrap v c w))

/-- R91, R309: a load that meets words with one flipped bit delivers, rewrites them corrected and counts them in CW.SPC or CW.CBC. -/
def Rules.LoadsCorrect : Prop :=
  ∀ (i : Instr) (f : AccessForm) (s u v : State) (x : Srcs) (sp : Space) (b place : Nat), loadForm i = some f →
    s.me.getP f.g = true → readClean s [f.a] = .ok x u → f.d.toNat < 28 → f.d ≠ 0 →
    target u f.a f.sp (f.address (x.get 0)) f.n = .ok (.mem sp b place) v →
    (v.seen f.strm sp).anyBad b f.n = false → (v.seen f.strm sp).oneBit b f.n ≠ [] →
    ∃ t, exec i s = .next t ∧ t.me.getS f.d = widen f.n f.zero (v.load f.strm sp b f.n) ∧ MemoryKept v t ∧
      (match sp with
        | .sp => t.me.spc = satAdd16 v.me.spc ((v.seen f.strm sp).oneBit b f.n).length ∧
            (∀ w ∈ (v.seen f.strm sp).oneBit b f.n, SMap.get 0 t.me.sp.err w = 0)
        | .cb => (t.cluster (clusterOf v.cur)).cbc =
              satAdd16 (v.cluster (clusterOf v.cur)).cbc ((v.seen f.strm sp).oneBit b f.n).length ∧
            (∀ w ∈ (v.seen f.strm sp).oneBit b f.n, SMap.get 0 (t.cluster (clusterOf v.cur)).slice.err w = 0))

/-- R95: what a stream sees of a byte: the last of its own stores not yet performed that covers it, else what is performed. -/
def Rules.StreamSees : Prop :=
  ∀ (s : State) (strm : Nat) (sp : Space) (a : Nat),
    let own := (s.me.pend.filter fun x => x.strm == strm && x.space == sp).flatMap fun x =>
      match x.upd with | .store bs => bs.filter fun w => w.1 == a | _ => []
    s.load strm sp a 1 = (own.foldl (fun m w => (m &&& ~~~w.2.2) ||| (w.2.1 &&& w.2.2)) (Mem.byte (s.bytesOf s.cur sp) a)).toNat

/-- Loads, LoadsCorrect and StreamSees together: R90, R91, R95, R309. -/
def Obligations.ScalarLoads : Prop := Rules.Loads ∧ Rules.LoadsCorrect ∧ Rules.StreamSees

/-- R16, R26, R92: `ldsp` raises none of ALIGN, XLATE and MEMERR of its access, and takes a base that carries a deferred fault: its
destination reads zero with the deferred-fault bit, and CW.DFC takes the first cause, register and address. Otherwise it loads. Its
latency is that of the memory its address reaches, the cluster buffer's for a redirected stack access; of a base that carries a deferred
fault, that of the space named, the model's choice (log 66). That SPILL is not deferred is the model's reading (log 21). -/
def Obligations.SpeculativeLoads : Prop :=
  ∀ (s u : State) (g : PReg) (d a : SReg) (tok : Tok) (imm : BitVec 9) (z : Size) (n : Bool) (rt : Route) (x : Srcs),
    s.me.getP g = true → readSrcs s [a] [] = .ok x u →
    let i := Instr.ldsp g d a tok imm z n rt
    let ea := x.get 0 + imm.signExtend 64 * BitVec.ofNat 64 (sizeBytes z)
    let reached := if x.dfr = none ∧ rt.space = .sp ∧ a = 26 ∧ ea.toNat < u.me.limL ∧ u.me.limL ≤ ea.toNat + u.me.limSOV then Space.cb
      else rt.space
    let deferred (w : State) (c : Cause) (addr : Nat) : Prop :=
      ∃ y, OutsideKept w y ∧ MemoryKept w y ∧ y.me.sreg = w.me.sreg ∧ y.me.pc = w.me.pc ∧
        y.me.sticky = (if c = .memerr then w.me.sticky ||| flagPOISON else w.me.sticky) ∧
        y.me.dfc = (if w.me.dfc.getLsbD 16 then w.me.dfc
          else BitVec.ofNat 64 ((Cause.code c).toNat + d.toNat * 2 ^ 8 + 2 ^ 16 + addr % 2 ^ 32 * 2 ^ 32)) ∧
        Delivers s y i d 0 (if d.toNat < 28 then some d else none) (spaceLatency reached) 2
    let v := u.modMe fun c => { c with ldspAt := max c.ldspAt (u.now + spaceLatency reached) }
    (x.dfr ≠ none → deferred v .memerr 0) ∧
    (x.dfr = none →
      (∀ c w y, target v a rt.space ea (sizeBytes z) = .trap c w y → c ≠ .spill → deferred y c ea.toNat) ∧
      (∀ w y, target v a rt.space ea (sizeBytes z) = .trap .spill w y → exec i s = .next (takeTrap y .spill w)) ∧
      (∀ sp b place y, target v a rt.space ea (sizeBytes z) = .ok (.mem sp b place) y →
        Delivered y rt.stream.toNat sp b (sizeBytes z) →
        Delivers s y i d (widen (sizeBytes z) n (y.load rt.stream.toNat sp b (sizeBytes z))) none (spaceLatency sp) 2) ∧
      (∀ sp b place y, target v a rt.space ea (sizeBytes z) = .ok (.mem sp b place) y →
        (∃ w, b / 8 ≤ w ∧ w ≤ (b + sizeBytes z - 1) / 8 ∧ (y.seen rt.stream.toNat sp).bad w = true) →
        ∃ y', y'.me.sreg = y.me.sreg ∧ y'.me.pc = y.me.pc ∧ y'.doms = y.doms ∧ MemoryKept y y' ∧ deferred y' .memerr ea.toNat) ∧
      (∀ ad y, target v a rt.space ea (sizeBytes z) = .ok (.out ad) y →
        ∃ y', y'.me.sreg = y.me.sreg ∧ y'.me.sticky = y.me.sticky ||| flagOOR ∧ OutsideKept y y' ∧ MemoryKept y y' ∧
          Delivers s y' i d 0 none 4 2))

/-- R90, R91, R95, R208: a store reads its registers, and puts its little-endian bytes in flight, to be performed after 4 or 24 cycles,
and not before an earlier write of its stream and space; no memory changes before that. Beyond the carve-out it stores nothing, puts
nothing in flight (the model's choice, log 67) and sets OOR; part of a word that the check bits do not deliver raises MEMERR, and one
flipped bit of such a word is corrected; and every trap of the access is taken. That the words are met at the issue is the model's choice
(log 68).
That a deferred data register comes before the address checks is the model's choice (log 66). -/
def Rules.Stores : Prop :=
  ∀ (i : Instr) (f : AccessForm) (s u v : State) (x : Srcs), storeForm i = some f → s.me.getP f.g = true →
    readClean s [f.a, f.d] = .ok x u →
    (∀ sp b place, target u f.a f.sp (f.address (x.get 0)) f.n = .ok (.mem sp b place) v →
      ((v.seen f.strm sp).partBad b f.n = false →
        let y := v.corrected sp ((v.seen f.strm sp).partOne b f.n)
        ∃ t, exec i s = .next t ∧ Passes v t f.size ∧ t.doms = v.doms ∧ MemoryKept v t ∧ y.me.pend = v.me.pend ∧
          y.me.spovf = v.me.spovf ∧
          (∀ w, b / 8 ≤ w → w ≤ (b + f.n - 1) / 8 → ¬ (b ≤ 8 * w ∧ 8 * w + 8 ≤ b + f.n) →
            SMap.get 0 (v.seen f.strm sp).err w ≠ 0 → SMap.get 0 (t.ramOf v.cur sp).err w = 0) ∧
          ((∀ w, b / 8 ≤ w → w ≤ (b + f.n - 1) / 8 → SMap.get 0 (v.seen f.strm sp).err w = 0) → y = v) ∧
          KeepsAll y t { y.me.issued t.me with spovf := spillMark v.me f.sp sp place, pend := v.me.pend ++
            [⟨v.nextId, v.now, f.strm, sp, f.strong, f.tok, writeDue v.me f.strm sp (v.now + spaceLatency sp), v.me.pc,
              .store ((List.range f.n).map fun k => (b + k, ((x.get 1) >>> (8 * k)).setWidth 8, 0xFF))⟩] } ∧
          t.nextId = v.nextId + 1 ∧
          Due t (writeDue v.me f.strm sp (v.now + spaceLatency sp)) (.storePerformed v.cur v.nextId)) ∧
      ((v.seen f.strm sp).partBad b f.n = true →
        ∃ y, exec i s = .next (takeTrap y .memerr (memPlace (placeKind sp) place)) ∧ MemoryKept v y ∧ y.me.sreg = v.me.sreg ∧
          y.me.pend = v.me.pend ∧ y.me.spovf = v.me.spovf ∧ y.doms = v.doms ∧ y.me.pc = v.me.pc)) ∧
    (∀ ad, target u f.a f.sp (f.address (x.get 0)) f.n = .ok (.out ad) v →
      ∃ t, exec i s = .next t ∧ Passes v t f.size ∧ t.doms = v.doms ∧
        KeepsAll v t { v.me.issued t.me with
          sticky := v.me.sticky ||| flagOOR, stickyNow := t.me.stickyNow, stickyAt := t.me.stickyAt,
          oor := if v.me.sticky &&& flagOOR = 0 then BitVec.ofNat 20 ad else v.me.oor }) ∧
    (∀ c w, target u f.a f.sp (f.address (x.get 0)) f.n = .trap c w v → exec i s = .next (takeTrap v c w))

/-- R93 to R96, R208: an atomic reads its registers and puts its update in flight, performed 6 or 26 cycles after the issue, and not
before an earlier write of its stream and space; its destination is ready no sooner. A port as its destination is pushed in program
order: the push counts at once, and takes its value when the atomic is performed. Beyond the carve-out it delivers zero and puts nothing
in flight (the model's choice, log 67); every trap of the access is taken. -/
def Rules.AtomicsIssue : Prop :=
  ∀ (i : Instr) (f : AccessForm) (op : Nat) (b : SReg) (s u v : State) (x : Srcs), atomicForm i = some (op, f, b) → s.me.getP f.g = true → readClean s (f.a :: b :: if op = 6 then [f.d] else []) = .ok x u →
    (∀ sp m place, target u f.a f.sp (f.address (x.get 0)) f.n = .ok (.mem sp m place) v → Delivered v f.strm sp m f.n →
      let due := writeDue v.me f.strm sp (v.now + spaceLatency sp + 2)
      let flight (w t : State) (k : Nat) : Prop := exec i s = .next t ∧ Passes w t 2 ∧ t.doms = w.doms ∧
        KeepsAll w t { w.me.issued t.me with spovf := spillMark v.me f.sp sp place, flagsAt := t.me.flagsAt, pend := v.me.pend ++
          [⟨v.nextId, v.now, f.strm, sp, true, f.tok, due, v.me.pc, .amo op m (f.n == 8) (x.get 1) (x.get 2) f.d place k⟩] } ∧
        t.nextId = v.nextId + 1 ∧ Due t due (.storePerformed v.cur v.nextId)
      (f.d.toNat < 28 → ∃ t k, flight v t k ∧ due ≤ t.me.readyAt f.d.toNat) ∧
      (28 ≤ f.d.toNat → f.d.toNat < 30 → ∃ t k, flight (v.flagged flagQMIS) t k) ∧
      (30 ≤ f.d.toNat → (∀ z, v.myFiring = some z → portChan v.me' z f.d.toNat = none) → ∃ t k, flight (v.flagged flagQMIS) t k) ∧
      (30 ≤ f.d.toNat → ∀ z n c, v.myFiring = some z → portChan v.me' z f.d.toNat = some (n, c) →
        (c.push ≤ (z.pushes f.d.toNat).length → exec i s = .next (takeTrap v .ratecount (f.d.zeroExtend 64))) ∧
        ((z.pushes f.d.toNat).length < c.push →
          ∃ t, flight (v.modFiring v.me.dom z.id fun y => y.addPush f.d.toNat 0) t (z.pushes f.d.toNat).length))) ∧
    (∀ ad, target u f.a f.sp (f.address (x.get 0)) f.n = .ok (.out ad) v →
      ∃ y, OutsideKept v y ∧ MemoryKept v y ∧ y.me.sreg = v.me.sreg ∧ y.me.pend = v.me.pend ∧
        y.me.sticky = v.me.sticky ||| flagOOR ∧ Delivers s y i f.d 0 none 6 2) ∧
    (∀ c w, target u f.a f.sp (f.address (x.get 0)) f.n = .trap c w v → exec i s = .next (takeTrap v c w))

/-- Stores and AtomicsIssue together: R90, R91, R93, R95, R96, R208. -/
def Obligations.StoresAndAtomics : Prop := Rules.Stores ∧ Rules.AtomicsIssue

/-- R90, R95: a store in flight, when it is performed, writes exactly its bytes, under their masks, to the memory it names; every other
byte of every memory is as before.
That an access is performed once, whole and in its cycle is the model's choice (log 6). -/
def Rules.StorePerformed : Prop :=
  ∀ (s : State) (c id : Nat) (x : Access) (bs : List (Nat × Byte × Byte)),
    (s.cell c).pend.find? (fun y => y.id == id) = some x → x.upd = .store bs → (bs.map fun w => w.1).Nodup →
    ∃ t, exec (.storePerformed c id) s = .next t ∧
      (∀ w ∈ bs, Mem.byte (t.bytesOf c x.space) w.1 = (Mem.byte (s.bytesOf c x.space) w.1 &&& ~~~w.2.2) ||| (w.2.1 &&& w.2.2)) ∧
      (∀ a, (∀ w ∈ bs, w.1 ≠ a) → Mem.byte (t.bytesOf c x.space) a = Mem.byte (s.bytesOf c x.space) a) ∧
      OtherMemoryKept s t c x.space ∧ t.doms = s.doms ∧ t.hub = s.hub ∧ t.now = s.now ∧ t.cur = s.cur ∧ t.agenda = s.agenda ∧
      (∀ e, e ≠ c → t.cell e = s.cell e) ∧
      { t.cell c with sp := (s.cell c).sp } = { s.cell c with pend := (s.cell c).pend.filter fun y => y.id != id }

/-- R93, R96: an atomic, when it is performed, leaves the new value in its word and its old value in its destination, sign-extended for
`amo.add`, `amo.min` and `amo.max`: a register, or the push that its issue counted; no other byte of memory changes. `amo.amax` keeps the
larger magnitude of each FP32 lane, and sets INVALID exactly where a lane meets a NaN. A word that no read delivers any more raises MEMERR
then too, and nothing is written (the model's reading, log 68). -/
def Rules.AtomicPerformed : Prop :=
  ∀ (s : State) (c id : Nat) (x : Access) (op m : Nat) (dbl : Bool) (b e : Word) (d : SReg) (place k : Nat),
    (s.cell c).pend.find? (fun y => y.id == id) = some x → x.upd = .amo op m dbl b e d place k →
    let n := if dbl then 8 else 4
    let old : BitVec (8 * n) := BitVec.ofNat (8 * n) (Mem.readN (s.bytesOf c x.space) m n)
    let v : BitVec (8 * n) := b.setWidth (8 * n)
    ((s.ramOf c x.space).anyBad m n = true → ∃ y, exec (.storePerformed c id) s =
        .next { trapAt y c x.pc .memerr (memPlace (placeKind x.space) place) with cur := s.cur } ∧ MemoryKept s y ∧
          (y.cell c).sreg = (s.cell c).sreg ∧ y.doms = s.doms) ∧
    ((s.ramOf c x.space).anyBad m n = false → ∃ t, exec (.storePerformed c id) s = .next t ∧
      (op < 7 → Mem.readN (t.bytesOf c x.space) m n = (match op with
        | 0 => old + v
        | 1 => if old.sle v then old else v
        | 2 => if old.sle v then v else old
        | 3 => if old.ule v then old else v
        | 4 => if old.ule v then v else old
        | 5 => v
        | _ => if old = e.setWidth (8 * n) then v else old).toNat) ∧
      (op = 7 → AmaxLane old.toNat b.toNat (Mem.readN (t.bytesOf c x.space) m 4) ∧
        (dbl = true → AmaxLane (old.toNat / 2 ^ 32) (b.toNat / 2 ^ 32) (Mem.readN (t.bytesOf c x.space) (m + 4) 4)) ∧
        let nan : Prop := ∃ j, j < n / 4 ∧ (0x7F800000 < old.toNat / 2 ^ (32 * j) % 2 ^ 31 ∨ 0x7F800000 < b.toNat / 2 ^ (32 * j) % 2 ^ 31)
        (nan → (t.cell c).sticky = (s.cell c).sticky ||| flagINVALID) ∧ (¬ nan → (t.cell c).sticky = (s.cell c).sticky)) ∧
      (∀ a, a < m ∨ m + n ≤ a → Mem.byte (t.bytesOf c x.space) a = Mem.byte (s.bytesOf c x.space) a) ∧
      OtherMemoryKept s t c x.space ∧
      (d.toNat < 28 → d ≠ 0 → (t.cell c).getS d = (if op < 3 then old.signExtend 64 else old.setWidth 64) ∧ (t.cell c).getD d = false) ∧
      (∀ q, q ≠ d → (t.cell c).getS q = (s.cell c).getS q ∧ (t.cell c).getD q = (s.cell c).getD q) ∧
      (op < 7 → (t.cell c).sticky = (s.cell c).sticky) ∧ (∀ j, j ≠ c → t.cell j = s.cell j) ∧ t.hub = s.hub ∧
      (d.toNat < 30 → t.doms = s.doms) ∧
      (30 ≤ d.toNat → ∀ z, { s with cur := c }.myFiring = some z →
        let r : Word := if op < 3 then old.signExtend 64 else old.setWidth 64
        t.doms = (s.modFiring z.dom z.id fun y =>
          if d.toNat = 30 then { y with push2 := y.push2.set k r } else { y with push3 := y.push3.set k r }).doms))

/-- StorePerformed and AtomicPerformed together: R90, R93, R95, R96. -/
def Obligations.AccessesPerformed : Prop := Rules.StorePerformed ∧ Rules.AtomicPerformed

/-! ### Traps, privilege, ordering -/

/-- R294, R296, R297: the first trap of a firing of one cell ends it. The trap words take the cause, the value, the PC and the block;
the cell stops with its registers, predicates, masks, context and memory as they are; the firing's tentative operations and its mode
request are gone; and a fallback is due 64 cycles after the deadline, but after a fallback none. -/
def Obligations.TrapTaken : Prop :=
  ∀ (s : State) (c : Cause) (v : Word) (f : Firing), s.cur < 256 → s.myFiring = some f → f.ended = false → f.logsz = 0 →
    f.base = s.cur → f.out = [] → (∀ g ∈ s.me'.firings, g.id = f.id → g = f) →
    let t := takeTrap s c v
    t.me.tcause = c ∧ t.me.tdbg = false ∧ t.me.tval = v ∧ t.me.tpc = BitVec.ofNat 16 s.me.pc ∧
      t.me.tblk = BitVec.ofNat 16 s.me.block ∧ t.me.run = .idle ∧ t.me.wait = .none ∧ t.me.queue = [] ∧
      t.me.sreg = s.me.sreg ∧ t.me.dfb = s.me.dfb ∧ t.me.pred = s.me.pred ∧ t.me.mask = s.me.mask ∧ t.me.ctxs = s.me.ctxs ∧
      t.me.sticky = s.me.sticky ∧ t.me.dfc = s.me.dfc ∧ t.me.pc = s.me.pc ∧ (s.me.seqr = [] → t.me.sp = s.me.sp) ∧
      (∀ k, k ≠ s.cur → k < 256 → t.cell k = s.cell k) ∧
      (∃ g ∈ (t.dom s.me.dom).firings, g.id = f.id ∧ g.stopped = true ∧ g.ended = true ∧ g.cause = c ∧ g.pop0 = 0 ∧ g.pop1 = 0 ∧
        g.push2 = [] ∧ g.push3 = [] ∧ g.request = none) ∧
      ((s.dom s.me.dom).frozen = none → f.fb = false → Due t (f.deadline + 64) (.fallbackRelease s.me.dom f.id)) ∧
      (f.fb = true → t.agenda.filter (fun x => x.ev == .fallbackRelease s.me.dom f.id) =
        s.agenda.filter fun x => x.ev == .fallbackRelease s.me.dom f.id)

/-- R74, R295: a word that is no instruction raises ILLEGAL with its words; `trap` raises TRAP with its operand; a privileged row raises
PRIV in a partition, and so does a control word of the supervisor's, whatever its guard in the first case. -/
def Obligations.TrapsRaised : Prop :=
  ∀ (s : State),
    (∀ (w0 w1 : BitVec 32) (long : Bool), exec (.unassignedEncoding w0 w1 long) s =
      .next (takeTrap s .illegal (if long then w1 ++ w0 else w0.zeroExtend 64))) ∧
    (∀ (g : PReg) (a : SReg) (x : Srcs) (u : State), s.me.getP g = true → readClean s [a] = .ok x u →
      exec (.trap g a) s = .next (takeTrap u .trapi (x.get 0))) ∧
    (∀ i : Instr, isPrivileged i = true → s.me.dom ≠ 8 → exec i s = .next (takeTrap s .priv (BitVec.ofNat 64 ((encode i).getD 0 0)))) ∧
    (∀ (i : Instr) (g : PReg) (r : SReg) (n : BitVec 8), (i = .cwget g r n ∨ i = .cwput g r n) → s.me.getP g = true →
      (128 ≤ n.toNat → s.me.dom ≠ 8 → exec i s = .next (takeTrap s .priv (BitVec.ofNat 64 ((encode i).getD 0 0)))) ∧
      (n.toNat < 128 ∨ s.me.dom = 8 → n.toNat ∉ [0, 1, 2, 3, 4, 5, 6, 7, 8, 0x10, 0x11, 0x12, 0x18, 0x19, 0x1A, 0x20, 0x21, 0x22, 0x23,
          0x24, 0x28, 0x29, 0x2A, 0x2C, 0x80, 0x81, 0x82, 0x83, 0x84, 0x85, 0x86, 0x87] →
        exec i s = .next (takeTrap s .illegal (BitVec.ofNat 64 ((encode i).getD 0 0)))))

/-- R12, R49: `nop` takes its slot and does nothing else. R295: `brk` halts its cell in the next cycle where the debug class is enabled
for its partition, and is a `nop` elsewhere. -/
def Rules.PassThrough : Prop :=
  ∀ (s : State) (g : PReg), s.me.getP g = true →
    (s.me.underRep = false → ∃ t, exec (.nop g) s = .next t ∧ Passes s t 1 ∧ t.doms = s.doms ∧ KeepsAll s t (s.me.issued t.me)) ∧
    (∃ t, exec (.brk g) s = .next t ∧ Passes s t 1 ∧ t.doms = s.doms ∧ KeepsAll s t (s.me.issued t.me) ∧
      (s.me.dom < 8 → s.hub.dbgenNow.getLsbD s.me.dom = true → Due t (s.now + 1) (.debugHalt s.cur 0x10)) ∧
      (8 ≤ s.me.dom ∨ s.hub.dbgenNow.getLsbD s.me.dom = false → s.me.sstep = false → t.agenda = s.agenda))

/-- R232, R234, R235: after `fence`, `sbar` or `tokw` the thread issues nothing before the accesses they name are performed, and waits on
for copy commands and array work whose end is not known; where nothing is in flight they take one slot; token 0 names nothing. No
memory changes. -/
def Rules.Fences : Prop :=
  ∀ (s : State) (g : PReg), s.me.getP g = true →
    (∀ (i : Instr) (mine : Access → Bool) (m : BitVec 3),
      (∃ sc, i = .fence g sc ∧ mine = (fun _ => true) ∧ m = if sc = .cell then 4 else 7) ∨
      (∃ k : BitVec 11, i = .sbar g k ∧ mine = (fun x => k.getLsbD x.strm) ∧
        m = BitVec.ofNat 3 ((k.getLsbD 9).toNat + 2 * (k.getLsbD 10).toNat + 4 * (k.getLsbD 8).toNat)) →
      ∃ t, exec i s = .next t ∧ PcPasses s t 1 ∧ t.doms = s.doms ∧ KeepsAll s t { s.me.issued t.me with wait := t.me.wait } ∧
        s.now + 1 ≤ t.me.t ∧ (∀ x ∈ s.me.pend, mine x = true → x.due ≤ t.me.t) ∧
        (t.me.wait = .none ∨ t.me.wait = .copies m) ∧
        (t.me.wait = .none ↔ (∀ x ∈ s.me.queue, m.getLsbD (x.eng % 2) = false) ∧
          (m.getLsbD 2 = true → ∀ x ∈ s.me.seqr, x.ws ≠ 0)) ∧
        (s.me.pend = [] → s.me.queue = [] → s.me.seqr = [] → Passes s t 1 ∧ t.me.wait = .none)) ∧
    (∀ k : Tok, ∃ t, exec (.tokw g k) s = .next t ∧ PcPasses s t 1 ∧ t.doms = s.doms ∧
      KeepsAll s t { s.me.issued t.me with wait := t.me.wait } ∧
      (k = 0 → Passes s t 1 ∧ t.me.wait = s.me.wait) ∧
      (k ≠ 0 → (∀ x ∈ s.me.pend, x.tok = k.toNat → x.due ≤ t.me.t) ∧
        t.me.wait = if (∀ x ∈ s.me.queue, x.tok ≠ k.toNat) then .none else .token k.toNat))

/-- PassThrough and Fences together: R12, R49, R232, R234, R235, R295. -/
def Obligations.NopsAndFences : Prop := Rules.PassThrough ∧ Rules.Fences

/-! ### Control words -/

/-- R302: the cell of a die that CL and CX of its CW.DBGCTL select. -/
def selectedCell (s : State) (d : Nat) : Nat := 16 * (4 * d + (s.die d).dbgctl.toNat % 4) + (s.die d).dbgctl.toNat / 4 % 16

/-- R20: a value is a format: SPEC is not 11, WID lies in 3 to 8, EXP in 1 to 6, and sign and exponent leave a mantissa width of zero or
more. -/
def LegalFormat (v : Word) : Prop :=
  v.extractLsb' 16 2 ≠ 3 ∧ 3 ≤ (v.extractLsb' 0 4).toNat ∧ (v.extractLsb' 0 4).toNat ≤ 8 ∧ 1 ≤ (v.extractLsb' 5 3).toNat ∧
  (v.extractLsb' 5 3).toNat ≤ 6 ∧ (v.extractLsb' 4 1).toNat + (v.extractLsb' 5 3).toNat ≤ (v.extractLsb' 0 4).toNat

/-- R21, R205, R311: a write of CW.INJECT is taken: TGT is not 11; an accumulator element has a tile below 6, bits 23:15 of LOC zero and
BIT below 32; a scratchpad word has bits 23:17 of LOC zero; a link flit names port 0, 1 or 2. -/
def LegalInjection (v : Word) : Prop :=
  match (v.extractLsb' 0 2).toNat with
  | 0 => (v.extractLsb' 20 3).toNat < 6 ∧ v.extractLsb' 23 9 = 0 ∧ (v.extractLsb' 2 6).toNat < 32
  | 1 => v.extractLsb' 25 7 = 0
  | 2 => (v.extractLsb' 29 3).toNat ≤ 2
  | _ => False

/-- R18: what `cwget` reads of the words that every domain reaches, and R302, R331 and R351: of the supervisor's.
Where the checks of a word's number stand is the model's reading (log 26), as is which errors CW.CECNT counts (log 22). -/
def Rules.ControlWordReads : Prop :=
  ∀ (s : State) (g : PReg) (d : SReg), s.cur < 256 → s.me.getP g = true →
    let c := s.me
    let half (l : HwLoop) : Nat := l.st % 2 ^ 14 + l.en % 2 ^ 14 * 2 ^ 14 + (if l.act then 2 ^ 28 else 0)
    let loopc (a b : HwLoop) : Word := BitVec.ofNat 64 (a.cnt % 2 ^ 32 + b.cnt % 2 ^ 32 * 2 ^ 32)
    let loopd (a b : HwLoop) : Word := BitVec.ofNat 64 (half a % 2 ^ 32 + half b % 2 ^ 32 * 2 ^ 32)
    let ctx : Ctx := SMap.get {} c.ctxs c.ctx.toNat
    let clock := (s.now + s.hub.clockOfs) % 2 ^ 60
    (∀ (n : BitVec 8) (v : Word), (n, v) ∈ ([
        (0x00, c.cellix.zeroExtend 64), (0x01, BitVec.ofNat 64 (s.cur / 16 + s.cur % 16 * 16)), (0x02, BitVec.ofNat 64 (s.cur / 64)),
        (0x03, BitVec.ofNat 64 c.dom), (0x04, BitVec.ofNat 64 ((s.dom c.dom).mode % 16)),
        (0x05, BitVec.ofNat 64 (c.block % 2 ^ 16 + if c.fb then 2 ^ 16 else 0)), (0x06, BitVec.ofNat 64 (clock / 4096 % 2 ^ 48)),
        (0x07, BitVec.ofNat 64 (clock % 4096)),
        (0x10, c.sticky.zeroExtend 64), (0x11, c.oor.zeroExtend 64), (0x12, c.dfc),
        (0x18, BitVec.ofNat 64 ((Cause.code c.tcause).toNat + if c.tdbg then 256 else 0)), (0x19, c.tval), (0x1A, (c.tblk ++ c.tpc).zeroExtend 64),
        (0x20, loopc (c.loop 0) (c.loop 1)), (0x21, loopc (c.loop 2) (c.loop 3)),
        (0x22, loopd (c.loop 0) (c.loop 1)), (0x23, loopd (c.loop 2) (c.loop 3)), (0x24, BitVec.ofNat 64 (c.rep % 2 ^ 32)),
        (0x28, ctx.fmta.zeroExtend 64), (0x29, ctx.fmtb.zeroExtend 64), (0x2A, ctx.fmtc.zeroExtend 64), (0x2C, c.spovf.zeroExtend 64)]
        : List (BitVec 8 × Word)) → Delivers s s (.cwget g d n) d v none 1 1) ∧
    (∀ f, s.myFiring = some f → (s.dom c.dom).frozen = none →
      Delivers s s (.cwget g d 0x08) d (BitVec.ofNat 64 ((s.now - f.release) % 2 ^ 40)) none 1 1) ∧
    (c.dom = 8 → ∀ (n : BitVec 8) (v : Word), (n, v) ∈ ([
        (0x80, c.inject), (0x81, s.hub.tfreeze.zeroExtend 64),
        (0x82, ((s.die (s.cur / 64)).dbgctl &&& 0x43F).zeroExtend 64 ||| if (s.cell (selectedCell s (s.cur / 64))).run = .held then 512 else 0),
        (0x83, s.hub.dbgen.zeroExtend 64), (0x84, 0),
        (0x85, BitVec.ofNat 64 (c.spc.toNat + (s.cluster (s.cur / 16)).cbc.toNat * 2 ^ 16 + (s.die (s.cur / 64)).lpc.toNat * 2 ^ 32 +
          c.uec.toNat * 2 ^ 48)),
        (0x86, BitVec.ofNat 64 ((s.cluster (4 * (s.cur / 64))).gate.toNat + (s.cluster (4 * (s.cur / 64) + 1)).gate.toNat * 16 +
          (s.cluster (4 * (s.cur / 64) + 2)).gate.toNat * 256 + (s.cluster (4 * (s.cur / 64) + 3)).gate.toNat * 4096)),
        (0x87, c.xinj)] : List (BitVec 8 × Word)) → Delivers s s (.cwget g d n) d v none 1 1)

/-- R5, R16, R19, R20, R98: what `cwput` does to the words of every domain: CW.STICKY and CW.DFC are cleared by ones, but a flag set in the
same cycle stays; a format word of the current context takes a legal value, an illegal one raises FMT; the words that only read
ignore a write. The rows for CW.DFC and CW.FMTA to CW.FMTC do the same to a cell from outside. -/
def Rules.ControlWordWrites : Prop :=
  ∀ (s : State),
    (∀ (u : State) (g : PReg) (a : SReg) (x : Srcs), s.me.getP g = true → readClean s [a] = .ok x u →
      let v := x.get 0
      let puts (n : BitVec 8) (f : Cell → Cell) : Prop :=
        ∃ t, exec (.cwput g a n) s = .next t ∧ Passes u t 1 ∧ t.doms = u.doms ∧ KeepsAll u t (f (u.me.issued t.me))
      puts 0x10 (fun c => { c with sticky :=
        u.me.sticky &&& ~~~(v.setWidth 8 &&& ~~~(if u.me.stickyAt = u.now then u.me.stickyNow else 0)) }) ∧
      puts 0x12 (fun c => { c with dfc := if v.getLsbD 16 then 0 else u.me.dfc }) ∧
      (∀ n ∈ ([0, 1, 2, 3, 4, 5, 6, 7, 8, 0x11, 0x18, 0x19, 0x1A, 0x20, 0x21, 0x22, 0x23, 0x24, 0x2C] : List (BitVec 8)),
        puts n id) ∧
      (∀ (n : Nat), n < 3 →
        (¬ LegalFormat v → exec (.cwput g a (0x28 + BitVec.ofNat 8 n)) s =
          .next (takeTrap u .fmt (BitVec.ofNat 64 ((encode (.cwput g a (0x28 + BitVec.ofNat 8 n))).getD 0 0)))) ∧
        (LegalFormat v → ∃ t, exec (.cwput g a (0x28 + BitVec.ofNat 8 n)) s = .next t ∧ Passes u t 1 ∧
          KeepsAll u t { u.me.issued t.me with ctxs := t.me.ctxs } ∧
          (∀ k, k ≠ u.me.ctx.toNat → SMap.get {} t.me.ctxs k = SMap.get {} u.me.ctxs k) ∧
          SMap.get {} t.me.ctxs u.me.ctx.toNat = (match n with
            | 0 => { SMap.get {} u.me.ctxs u.me.ctx.toNat with fmta := v.setWidth 18 }
            | 1 => { SMap.get {} u.me.ctxs u.me.ctx.toNat with fmtb := v.setWidth 18 }
            | _ => { SMap.get {} u.me.ctxs u.me.ctx.toNat with fmtc := v.setWidth 18 })))) ∧
    (∀ (c : Nat) (v : Word),
      (∃ t, exec (.cwDfc c v) s = .next t ∧ CellBecomes s t c { s.cell c with dfc := if v.getLsbD 16 then 0 else (s.cell c).dfc }) ∧
      (∀ n, LegalFormat v → ∃ t, exec (.cwFmt c n v) s = .next t ∧ CellBecomes s t c { s.cell c with ctxs := (t.cell c).ctxs } ∧
        SMap.get {} (t.cell c).ctxs (s.cell c).ctx.toNat = (match n with
          | 0 => { SMap.get {} (s.cell c).ctxs (s.cell c).ctx.toNat with fmta := v.setWidth 18 }
          | 1 => { SMap.get {} (s.cell c).ctxs (s.cell c).ctx.toNat with fmtb := v.setWidth 18 }
          | _ => { SMap.get {} (s.cell c).ctxs (s.cell c).ctx.toNat with fmtc := v.setWidth 18 })))

/-- ControlWordReads and ControlWordWrites together: R5, R16, R18, R19, R20, R98, R302, R331, R351. -/
def Obligations.ControlWords : Prop := Rules.ControlWordReads ∧ Rules.ControlWordWrites

/-- R21, R205, R302, R303, R305, R306, R311, R351: the supervisor's words, written from outside as their rows say or by `cwput`: CW.INJECT
and CW.XINJ take a value whose reserved fields are right; CW.CECNT is written whole, in its cell, cluster and die, and CL, CX and SSTEP
of CW.DBGCTL in its die; CW.DBGEN takes effect on every die 32 cycles after `cwput`; HREQ asks the selected running
cell to halt 2 cycles later; CW.PRESET resets each partition it names, 32 cycles later, that has cells; CW.TFREEZE freezes a
partition 32 cycles after its bit is set, and thaws it no sooner than 32 cycles after it is cleared, at the place in the tick at
which it froze. -/
def Obligations.SupervisorWords : Prop :=
  ∀ (s : State) (v : Word),
    (∀ c, ∃ t, exec (.cwInject c v) s = .next t ∧
      (LegalInjection v → CellBecomes s t c { s.cell c with inject := v &&& 0x8000FFFFFFFFFFFF }) ∧
      (¬ LegalInjection v → CellBecomes s t c (s.cell c))) ∧
    (∀ (g : PReg) (a : SReg) (x : Srcs) (u : State), s.me.getP g = true → s.me.dom = 8 → readClean s [a] = .ok x u → x.get 0 = v →
      (∃ t, exec (.cwput g a 0x85) s = .next t ∧ Passes u t 1 ∧ MemoryKept u t ∧
        (v.extractLsb' 56 8 ≠ 0 → KeepsAll u t (u.me.issued t.me)) ∧
        (v.extractLsb' 56 8 = 0 → t.me = { u.me.issued t.me with spc := v.extractLsb' 0 16, uec := v.extractLsb' 48 8 } ∧
          t.cluster (clusterOf u.cur) = { u.cluster (clusterOf u.cur) with cbc := v.extractLsb' 16 16 } ∧
          t.die (dieOf u.cur) = { u.die (dieOf u.cur) with lpc := v.extractLsb' 32 16 } ∧
          t = { u with cells := t.cells, clusters := t.clusters, dies := t.dies, engines := t.engines })) ∧
      (v.getLsbD 8 = false → ∃ t, exec (.cwput g a 0x82) s = .next t ∧ Passes u t 1 ∧ MemoryKept u t ∧ t.me = u.me.issued t.me ∧
        (v.extractLsb' 6 2 ≠ 0 ∨ v.extractLsb' 11 53 ≠ 0 → t.dies = u.dies) ∧
        (v.extractLsb' 6 2 = 0 ∧ v.extractLsb' 11 53 = 0 →
          t.die (dieOf u.cur) = { u.die (dieOf u.cur) with dbgctl := v.setWidth 11 &&& 0x43F }))) ∧
    (∀ c, ∃ t, exec (.cwXinj c v) s = .next t ∧ CellBecomes s t c
      (if v.extractLsb' 5 3 = 0 ∧ v.extractLsb' 32 31 = 0 then { s.cell c with xinj := v, xinjCount := 0 } else s.cell c)) ∧
    (∃ t, exec (.cwDbgen v) s = .next t ∧ HubBecomes s t { s.hub with dbgenNow := v.setWidth 16 }) ∧
    (∀ (g : PReg) (a : SReg) (x : Srcs) (u : State), s.me.getP g = true → s.me.dom = 8 → readClean s [a] = .ok x u →
      x.get 0 = v → v.toNat < 2 ^ 16 →
      ∃ t, exec (.cwput g a 0x83) s = .next t ∧ Passes u t 1 ∧ t.hub = { u.hub with dbgen := v.setWidth 16 } ∧
        Due t (u.now + 32) (.cwDbgen v) ∧ t.me = u.me.issued t.me ∧ MemoryKept u t) ∧
    (∀ d, ∃ t, exec (.hreq d) s = .next t ∧
      let c := selectedCell s d
      if (s.cell c).run = .running ∧ (s.cell c).dom < 8 ∧ s.hub.dbgenNow.getLsbD (s.cell c).dom = true then
        CellBecomes s t c { s.cell c with hreq := true, haltAt := s.now + 2 }
      else t = s) ∧
    (∃ t, exec (.rst v) s = .next t ∧ t = { s with agenda := t.agenda } ∧
      (256 ≤ v.toNat → t = s) ∧
      (v.toNat < 256 → ∀ n, n < 8 → v.getLsbD n = true → (s.dom n).grant.cells ≠ 0 → Due t (s.now + 32) (.partitionReset n)) ∧
      (∀ x ∈ t.agenda, x ∈ s.agenda ∨ ∃ n, n < 8 ∧ x.due = s.now + 32 ∧ x.ev = .partitionReset n ∧ v.getLsbD n = true)) ∧
    (∃ t, exec (.cwTfreeze v) s = .next t ∧ t.hub = { s.hub with tfreeze := v.setWidth 8 } ∧ t.cells = s.cells ∧
      t.clusters = s.clusters ∧ t.host = s.host ∧
      (∀ n, n < 8 → v.getLsbD n = true → s.hub.tfreeze.getLsbD n = false → (s.dom n).thawAt = none → Due t (s.now + 32) (.freeze n)) ∧
      (∀ n z, n < 8 → v.getLsbD n = false → s.hub.tfreeze.getLsbD n = true → (s.dom n).frozen = some z →
        ∃ w, (t.dom n).thawAt = some w ∧ Due t w (.thaw n) ∧ w % 4096 = z % 4096 ∧ max (s.now + 32) (z + 1) ≤ w ∧
          w < max (s.now + 32) (z + 1) + 4096))

/-! ### Semaphores, barriers, publication -/

/-- R255 to R257: the synchronisation instructions check the number a register names against its range and the domain's grant, and
put the update in flight for 26 cycles, in no stream of an `sbar` mask, or make the thread wait; an ungranted number raises XLATE with its kind, one out of range
ILLEGAL. -/
def Rules.SyncIssue : Prop :=
  ∀ (s u : State) (g : PReg) (a b : SReg) (x : Srcs) (i : Instr) (bar : Bool), s.me.getP g = true →
    ((i = .semAdd g a b ∧ bar = false ∨ i = .semWait g a b ∧ bar = false ∨ i = .barInit g a b ∧ bar = true) ∧
        readClean s [a, b] = .ok x u ∨
      (i = .barArrive g a ∨ i = .barWait g a) ∧ bar = true ∧ readClean s [a] = .ok x u) →
    let n := (x.get 0).toNat
    let gr := u.me'.grant
    let granted := if bar then gr.barBase ≤ n ∧ n < gr.barBase + gr.barCnt ∧ n < 64
      else gr.semBase ≤ n ∧ n < gr.semBase + gr.semCnt ∧ n < 256
    let flies (t : State) (y : Update) : Prop :=
      t.me.pend = u.me.pend ++ [⟨u.nextId, u.now, 11, .cb, true, 0, u.now + 26, u.me.pc, y⟩] ∧
        Due t (u.now + 26) (.storePerformed u.cur u.nextId)
    let rest (t : State) : Prop := PcPasses u t 1 ∧ MemoryKept u t ∧ t.clusters = u.clusters ∧ t.hub = u.hub ∧ t.dies = u.dies ∧
      (∀ k, k ≠ u.cur → t.cell k = u.cell k) ∧
      t.me = { u.me.issued t.me with pend := t.me.pend, wait := t.me.wait, flagsAt := t.me.flagsAt }
    ((if bar then 64 else 256) ≤ n → exec i s = .next (takeTrap u .illegal (x.get 0))) ∧
    (n < (if bar then 64 else 256) → ¬ granted →
      exec i s = .next (takeTrap u .xlate (BitVec.ofNat 64 (2 ^ 63 + (if bar then 2 ^ 61 else 2 ^ 60) + n)))) ∧
    (granted →
      (i = .semAdd g a b → ∃ t, exec i s = .next t ∧ rest t ∧ flies t (.sem n ((x.get 1).setWidth 32).toInt) ∧ t.doms = u.doms) ∧
      (i = .semWait g a b → ∃ t, exec i s = .next t ∧ rest t ∧ t.me.wait = .sem n ((x.get 1).toNat % 2 ^ 32) ∧
        Due t u.now (.semWaitPass u.cur) ∧ t.doms = u.doms ∧ t.me.pend = u.me.pend) ∧
      (i = .barInit g a b → ∃ t, exec i s = .next t ∧ rest t ∧ flies t (.barAdd n ((x.get 1).toNat % 2 ^ 32)) ∧ u.now + 26 ≤ t.me.t) ∧
      (i = .barArrive g a → ∃ t, exec i s = .next t ∧ rest t ∧ flies t (.barSub n 1) ∧ u.now + 26 ≤ t.me.t) ∧
      (i = .barWait g a → ∃ t, exec i s = .next t ∧ rest t ∧ t.me.wait = .bar n ∧ Due t u.now (.barWaitPass u.cur) ∧
        t.me.pend = u.me.pend))

/-- R256 to R258: a semaphore takes the sum, clamped to 32 bits with SATD; a barrier takes the sum or difference, and one that leaves 32
bits raises BARFLOW and leaves the counter; and every thread of the cluster that waits is checked again in the same cycle.
How the updates of one cycle are ordered is the model's reading (log 14). -/
def Rules.SyncPerformed : Prop :=
  ∀ (s : State) (c id : Nat) (x : Access), (s.cell c).pend.find? (fun y => y.id == id) = some x →
    let k := clusterOf c
    (∀ (n : Nat) (b : Int), x.upd = .sem n b →
      let v : Int := (SMap.get 0 (s.cluster k).sems n).toNat + b
      ∃ t, exec (.storePerformed c id) s = .next t ∧
        ((SMap.get 0 (t.cluster k).sems n).toNat : Int) = max 0 (min v (2 ^ 32 - 1)) ∧
        (t.cell c).sticky = (if 0 ≤ v ∧ v < 2 ^ 32 then (s.cell c).sticky else (s.cell c).sticky ||| flagSATD) ∧
        (∀ m, m ≠ n → SMap.get 0 (t.cluster k).sems m = SMap.get 0 (s.cluster k).sems m) ∧
        { t.cluster k with sems := (s.cluster k).sems } = s.cluster k ∧ (∀ j, j ≠ k → t.cluster j = s.cluster j) ∧
        t.doms = s.doms ∧ MemoryKept s t ∧
        (∀ e m d, 16 * k ≤ e → e < 16 * k + 16 → (s.cell e).wait = .sem m d → Due t s.now (.semWaitPass e))) ∧
    (∀ (n : Nat) (b : Nat), x.upd = .barAdd n b → (SMap.get 0 (s.cluster k).bars n).toNat + b < 2 ^ 32 →
      ∃ t, exec (.storePerformed c id) s = .next t ∧
        (SMap.get 0 (t.cluster k).bars n).toNat = (SMap.get 0 (s.cluster k).bars n).toNat + b ∧
        (∀ m, m ≠ n → SMap.get 0 (t.cluster k).bars m = SMap.get 0 (s.cluster k).bars m) ∧ t.doms = s.doms ∧ MemoryKept s t ∧
        (∀ e m, 16 * k ≤ e → e < 16 * k + 16 → (s.cell e).wait = .bar m → Due t s.now (.barWaitPass e))) ∧
    (∀ n b : Nat, x.upd = .barAdd n b → 2 ^ 32 ≤ (SMap.get 0 (s.cluster k).bars n).toNat + b →
      exec (.storePerformed c id) s = .next (trapAt (s.modCell c fun y => { y with pend := y.pend.filter fun z => z.id != id }) c x.pc
        .barflow (BitVec.ofNat 64 n))) ∧
    (∀ n b : Nat, x.upd = .barSub n b → b ≤ (SMap.get 0 (s.cluster k).bars n).toNat →
      ∃ t, exec (.storePerformed c id) s = .next t ∧
        (SMap.get 0 (t.cluster k).bars n).toNat + b = (SMap.get 0 (s.cluster k).bars n).toNat ∧
        (∀ m, m ≠ n → SMap.get 0 (t.cluster k).bars m = SMap.get 0 (s.cluster k).bars m) ∧ t.doms = s.doms ∧ MemoryKept s t ∧
        (∀ e m, 16 * k ≤ e → e < 16 * k + 16 → (s.cell e).wait = .bar m → Due t s.now (.barWaitPass e))) ∧
    (∀ n b : Nat, x.upd = .barSub n b → (SMap.get 0 (s.cluster k).bars n).toNat < b →
      exec (.storePerformed c id) s = .next (trapAt (s.modCell c fun y => { y with pend := y.pend.filter fun z => z.id != id }) c x.pc
        .barflow (BitVec.ofNat 64 n)))

/-- R256 to R258: a wait on a semaphore passes once it holds the threshold or more, a wait on a barrier once it is zero; the thread issues
again 24 cycles later at the earliest. Until then it waits. -/
def Rules.SyncPasses : Prop :=
  ∀ (s : State) (c : Nat),
    (∀ n b, (s.cell c).wait = .sem n b → ∃ t, exec (.semWaitPass c) s = .next t ∧
      if b ≤ (SMap.get 0 (s.cluster (clusterOf c)).sems n).toNat then
        CellBecomes s t c { s.cell c with wait := .none, t := max (s.cell c).t (s.now + 24) } else t = s) ∧
    (∀ n, (s.cell c).wait = .bar n → ∃ t, exec (.barWaitPass c) s = .next t ∧
      if SMap.get 0 (s.cluster (clusterOf c)).bars n = 0 then
        CellBecomes s t c { s.cell c with wait := .none, t := max (s.cell c).t (s.now + 24) } else t = s) ∧
    ((∀ n b, (s.cell c).wait ≠ .sem n b) → exec (.semWaitPass c) s = .next s) ∧
    ((∀ n, (s.cell c).wait ≠ .bar n) → exec (.barWaitPass c) s = .next s)

/-- SyncIssue, SyncPerformed and SyncPasses together: R255, R256, R257, R258. -/
def Obligations.Synchronisation : Prop := Rules.SyncIssue ∧ Rules.SyncPerformed ∧ Rules.SyncPasses

/-- R260, R261, R266: `pub` reads its record in the scratchpad and checks it, the block's right to publish the buffer, the layout and the
format, and waits for the accesses issued before; the swap is due at once where nothing else is in flight. When the record is read, and in
which cycle the swap comes, are the model's reading (log 27). -/
def Rules.PublishIssue : Prop :=
  ∀ (s u : State) (g : PReg) (a : SReg) (x : Srcs), s.me.getP g = true → readClean s [a] = .ok x u →
    let ad := (x.get 0).toNat
    let d0 : Word := BitVec.ofNat 64 (u.load 0 .sp ad 8)
    let d1 : Word := BitVec.ofNat 64 (u.load 0 .sp (ad + 8) 8)
    let n := (d0.setWidth 16).toNat
    let words : Word := BitVec.ofNat 64 ((encode (.pub g a)).getD 0 0)
    (ad % 8 ≠ 0 → exec (.pub g a) s = .next (takeTrap u .align (x.get 0))) ∧
    (ad % 8 = 0 → ad + 16 ≤ u.me.limC → Delivered u 0 .sp ad 16 →
      (d0.extractLsb' 16 16 ≠ 0 ∨ d1.extractLsb' 18 14 ≠ 0 → exec (.pub g a) s = .next (takeTrap u .illegal words)) ∧
      (d0.extractLsb' 16 16 = 0 → d1.extractLsb' 18 14 = 0 →
        (u.me'.pubBuf n = none → exec (.pub g a) s = .next (takeTrap u .qscope (BitVec.ofNat 64 n))) ∧
        (∀ p f, u.me'.pubBuf n = some p → u.myFiring = some f →
          (p.writer ≠ f.blk → f.fb = false → exec (.pub g a) s = .next (takeTrap u .qscope (BitVec.ofNat 64 n))) ∧
          (p.writer = f.blk → d1.extractLsb' 8 2 = 3 → exec (.pub g a) s = .next (takeTrap u .domain words)) ∧
          (p.writer = f.blk → d1.extractLsb' 8 2 ≠ 3 → fmtOf (d1.setWidth 8).toNat 0 = none →
            exec (.pub g a) s = .next (takeTrap u .fmt words)) ∧
          (p.writer = f.blk → d1.extractLsb' 8 2 ≠ 3 → fmtOf (d1.setWidth 8).toNat 0 ≠ none → p.kind = false →
            ∃ t r, exec (.pub g a) s = .next t ∧ PcPasses u t 1 ∧ t.doms = u.doms ∧
              t.me.wait = .pub n (d0.toNat / 2 ^ 32) d1 r ∧ (∀ y ∈ u.me.pend, y.due ≤ r) ∧
              KeepsAll u t { u.me.issued t.me with wait := t.me.wait } ∧
              (u.me.queue = [] → u.me.seqr = [] → (∀ y ∈ u.agenda, y.ev ≠ .pubSwap u.cur) → Due t (max u.now r) (.pubSwap u.cur))))))

/-- R260, R261: the swap makes the other version the front, with the count, the layout and the format of the record and its place and
version as they stood; for a tensor the cached translations of its domain go, and the thread goes on after 96 cycles, else after 26 (log
27 has the cycle of the swap). -/
def Rules.PublishSwaps : Prop :=
  ∀ (s : State) (c buf count : Nat) (hi : Word) (r : Nat) (p : PubBuf) (b : Binding), (s.cell c).wait = .pub buf count hi r →
    (s.dom (s.cell c).dom).pubBuf buf = some p → (s.dom (s.cell c).dom).active = some b →
    ∃ t q, exec (.pubSwap c) s = .next t ∧ (t.dom (s.cell c).dom).pubBuf buf = some q ∧ q.front = !p.front ∧
      q.writer = p.writer ∧ q.kind = p.kind ∧
      (let old := if p.front then p.entry0 else p.entry1
       (if p.front then q.entry0 else q.entry1) = hi ++ (BitVec.ofNat 32 count ++ old.setWidth 32) ∧
       (if p.front then q.entry1 else q.entry0) = if p.front then p.entry1 else p.entry0) ∧
      (∀ m, m ≠ buf → (t.dom (s.cell c).dom).pubBuf m = (s.dom (s.cell c).dom).pubBuf m) ∧
      (∀ d, d ≠ (s.cell c).dom → t.dom d = s.dom d) ∧
      (c < 256 → t.cell c = { s.cell c with wait := .none, t := max (s.cell c).t (s.now + if p.kind then 96 else 26) } ∧
        ∀ k, k ≠ c → k < 256 → t.cell k = s.cell k) ∧
      (p.kind = true → ∀ e, e < 128 → (∃ y, (e, y) ∈ s.engines) → ∀ z ∈ (t.engine e).cache,
        ¬ (z.1 / 2 ^ 48 = (s.cell c).dom ∧ z.1 / 2 ^ 32 % 2 ^ 16 = buf)) ∧
      (p.kind = false → c < 256 → t.engines = s.engines) ∧ t.host = s.host ∧ t.hub = s.hub

/-- R262: `hres` reads the entry of a buffer's front, or of its other version, into a register pair after 24 cycles; a buffer that is not
bound raises QSCOPE, an operand beyond 17 bits ILLEGAL. -/
def Rules.BufferRead : Prop :=
  ∀ (s u : State) (g : PReg) (d a : SReg) (x : Srcs), s.me.getP g = true → readClean s [a] = .ok x u →
    d.toNat % 2 = 0 → 2 ≤ d.toNat → d.toNat ≤ 26 →
    let n := (x.get 0).toNat
    (2 ^ 17 ≤ n → exec (.hres g d a) s = .next (takeTrap u .illegal (x.get 0))) ∧
    (n < 2 ^ 17 → u.me'.pubBuf (n % 2 ^ 16) = none → exec (.hres g d a) s = .next (takeTrap u .qscope (BitVec.ofNat 64 (n % 2 ^ 16)))) ∧
    (∀ p, n < 2 ^ 17 → u.me'.pubBuf (n % 2 ^ 16) = some p →
      let e := if p.front = decide (2 ^ 16 ≤ n) then p.entry0 else p.entry1
      ∃ t, exec (.hres g d a) s = .next t ∧ Passes u t 1 ∧ t.me.getS (d + 1) = e.extractLsb' 64 64 ∧
        (d + 1 ≠ d → t.me.getS d = e.setWidth 64) ∧ t.me.getD d = false ∧ t.me.getD (d + 1) = false ∧
        u.now + 24 ≤ t.me.readyAt d.toNat ∧ u.now + 24 ≤ t.me.readyAt (d + 1).toNat ∧
        (∀ q, q ≠ d → q ≠ d + 1 → t.me.getS q = u.me.getS q ∧ t.me.getD q = u.me.getD q) ∧ t.me.sticky = u.me.sticky ∧
        t.doms = u.doms ∧ KeepsAll u t (u.me.issuedScalar t.me))

/-- PublishIssue, PublishSwaps and BufferRead together: R260, R261, R262, R266. -/
def Obligations.PublicationSwapsVersions : Prop := Rules.PublishIssue ∧ Rules.PublishSwaps ∧ Rules.BufferRead

/-! ### System instructions and debug -/

/-- R301, R228, R229: `mode.req` leaves the request with the firing, to be sent at its commit; a mode that is bound neither in the active
binding nor in one that waits to take effect (log 81) raises ILLEGAL, and so does an instruction without a firing. `ttsync` drops the domain's cached translations of a tensor, or all of them, once every access and copy command issued before is done (R232), and the next instruction issues 96 cycles after that; with
something still to wait for it takes its slot and holds the thread. -/
def Obligations.ModeAndTranslation : Prop :=
  (∀ (s : State) (c tid n : Nat) (all : Bool), (s.cell c).wait = .sync tid all n → c < 256 →
    ((s.cell c).queue = [] → (s.cell c).seqr = [] → n ≤ s.now → ∃ t, exec (.instructionCompletion c 0) s = .next t ∧
      (t.cell c).wait = .none ∧ (t.cell c).t = max (s.cell c).t (s.now + 96) ∧ (∀ k, k ≠ c → t.cell k = s.cell k) ∧ MemoryKept s t ∧
      (∀ e y, (e, y) ∈ s.engines → ∀ z ∈ (t.engine e).cache, ¬ (z.1 / 2 ^ 48 = (s.cell c).dom ∧ (all = true ∨ z.1 / 2 ^ 32 % 2 ^ 16 = tid)))) ∧
    ((s.cell c).queue ≠ [] → ∃ t, exec (.instructionCompletion c 0) s = .next t ∧ (t.cell c).wait = .sync tid all n ∧
      t.doms = s.doms ∧ ∀ e, (t.engine e).cache = (s.engine e).cache)) ∧
  ∀ (s u : State) (g : PReg) (a : SReg) (x : Srcs), s.me.getP g = true → readClean s [a] = .ok x u →
    let n := (x.get 0).toNat
    let bound := u.me'.boundBanks.any fun b => b.tables.any fun y => y.id == n
    (u.myFiring = none → exec (.modeReq g a) s = .next (takeTrap u .illegal (x.get 0))) ∧
    (∀ f, u.myFiring = some f → f.dom = u.me.dom →
      (n < 16 → bound = true →
        ∃ t, exec (.modeReq g a) s = .next t ∧ Passes u t 1 ∧ t.clusters = u.clusters ∧ t.hub = u.hub ∧
          t.me = u.me.issued t.me ∧ MemoryKept u t ∧ (∀ d, d ≠ u.me.dom → t.dom d = u.dom d) ∧
          (t.dom u.me.dom).firings = u.me'.firings.map fun y => if y.id = f.id then { y with request := some (n, u.cur) } else y) ∧
      (16 ≤ n ∨ bound = false →
        exec (.modeReq g a) s = .next (takeTrap u .illegal (x.get 0)))) ∧
    (2 ^ 17 ≤ n → exec (.ttsync g a) s = .next (takeTrap u .illegal (BitVec.ofNat 64 ((encode (.ttsync g a)).getD 0 0)))) ∧
    (n < 2 ^ 17 → u.cur < 256 → u.me.queue ≠ [] ∨ (∃ y ∈ u.me.pend, u.now < y.due) →
      ∃ t w, exec (.ttsync g a) s = .next t ∧ PcPasses u t 1 ∧ t.me.wait = w ∧ w ≠ .none ∧ t.me = { u.me.issued t.me with wait := w } ∧
        MemoryKept u t ∧ t.hub = u.hub ∧ t.doms = u.doms ∧ ∀ e, (t.engine e).cache = (u.engine e).cache) ∧
    (n < 2 ^ 17 → u.cur < 256 → u.me.queue = [] → u.me.seqr = [] → (∀ y ∈ u.me.pend, y.due ≤ u.now) → u.me.wait = .none →
      ∃ t, exec (.ttsync g a) s = .next t ∧ PcPasses u t 1 ∧ u.now + 96 ≤ t.me.t ∧
      t.me = u.me.issued t.me ∧ MemoryKept u t ∧ t.hub = u.hub ∧
      (∀ e y, (e, y) ∈ u.engines → ∀ z ∈ (t.engine e).cache,
        ¬ (z.1 / 2 ^ 48 = u.me.dom ∧ ((x.get 0).getLsbD 16 = true ∨ z.1 / 2 ^ 32 % 2 ^ 16 = n % 2 ^ 16))))

/-- R311, R312, R309, R324: `inject` starts the flip that an armed CW.INJECT holds: of a scratchpad word after 4 cycles and the delay, or of a
flit of a port that is present; with no target, or a port that is absent or fenced, it starts none and the word stays armed; the flip changes one bit of one word under unchanged check bits, and disarms the word. -/
def Rules.Injection : Prop :=
  ∀ (s : State),
    (∀ g : PReg, s.me.getP g = true → s.me.dom = 8 →
      (s.me.inject.getLsbD 63 = true → s.me.injStarted = false → s.me.inject.toNat % 4 = 1 →
        ∃ t, exec (.inject g) s = .next t ∧ Passes s t 1 ∧ KeepsAll s t { s.me.issued t.me with injStarted := true } ∧
          Due t (s.now + 4 + (s.me.inject.extractLsb' 32 16).toNat)
            (.scratchpadFlip s.cur (s.me.inject.extractLsb' 8 17).toNat (s.me.inject.extractLsb' 2 6).toNat)) ∧
      (s.me.inject.getLsbD 63 = true → s.me.injStarted = false → s.me.inject.toNat % 4 = 2 →
        (s.port (injectPort (dieOf s.cur) (s.me.inject.extractLsb' 8 24).toNat)).st ≠ 4 →
        ∃ t, exec (.inject g) s = .next t ∧ Passes s t 1 ∧
          KeepsAll s t { s.me.issued t.me with injStarted := true, injFlits := 0 }) ∧
      (s.me.inject.getLsbD 63 = false ∨ s.me.injStarted = true ∨ s.me.inject.toNat % 4 = 0 ∨ s.me.inject.toNat % 4 = 2 ∧
          (s.port (injectPort (dieOf s.cur) (s.me.inject.extractLsb' 8 24).toNat)).st = 4 →
        ∃ t, exec (.inject g) s = .next t ∧ Passes s t 1 ∧ KeepsAll s t (s.me.issued t.me))) ∧
    (∀ c w b, ∃ t, exec (.scratchpadFlip c w b) s = .next t ∧ CellBecomes s t c { s.cell c with
      sp := (t.cell c).sp, inject := (s.cell c).inject &&& 0x7FFFFFFFFFFFFFFF, injStarted := false } ∧
      (t.cell c).sp.bytes = (s.cell c).sp.bytes ∧ (t.cell c).sp.poison = (s.cell c).sp.poison ∧
      SMap.get 0 (t.cell c).sp.err w = SMap.get 0 (s.cell c).sp.err w ^^^ BitVec.ofNat 64 (2 ^ b) ∧
      ∀ v, v ≠ w → SMap.get 0 (t.cell c).sp.err v = SMap.get 0 (s.cell c).sp.err v) ∧
    (∀ c k p v, s.hub.stage = 6 → c < 256 → k < 256 → c / 64 = k / 64 → (s.cells.map fun y => y.1).Nodup →
      (∀ j, j ≠ k → (s.cell j).injStarted = false) → (s.cell k).injStarted = true → (s.cell k).inject.toNat % 4 = 2 →
      2 ≤ ((s.cell k).inject.extractLsb' 29 3).toNat → let n := (s.cell k).injFlits + Config.flitCount s.free
      let at0 := ((s.cell k).inject.extractLsb' 8 21).toNat
      let q := 8 + c / 64
      ∃ t, exec (.debugPortAccess c p false v) s = .next t ∧ (∀ j, j ≠ k → t.cell j = s.cell j) ∧
        (n ≤ at0 → t.cell k = { s.cell k with injFlits := n } ∧ t.hub.ports = s.hub.ports) ∧
        (at0 < n → t.cell k = { s.cell k with inject := (s.cell k).inject &&& 0x7FFFFFFFFFFFFFFF, injStarted := false } ∧
          (t.port q).retry = satAdd16 (s.port q).retry 1 ∧ (t.port q).crce = satAdd16 (s.port q).crce 1 ∧
          ∀ r, r ≠ q → t.port r = s.port r)) ∧
    (∀ c f, (∀ tl ix info, (s.cell c).wait ≠ .tag tl ix info) → (∀ tid all n, (s.cell c).wait ≠ .sync tid all n) → ∃ t, exec (.instructionCompletion c f) s = .next t ∧ CellBecomes s t c { s.cell c with
      sticky := (s.cell c).sticky ||| f, stickyNow := (t.cell c).stickyNow, stickyAt := s.now } ∧
      (t.cell c).stickyNow &&& f = f)

/-- R148, R187, R195, R295, R303, R304, R305: a debug halt holds a running cell whose partition has the debug class enabled, once its
issued vector and transform work has completed, with its state as it is, and records its cause in the debug class; CW.TPC holds the PC of
the matrix instruction whose work is in progress, and a sequencer in the middle of a step stops when that step ends, any other at once.
Where the class is not enabled the cell runs on. With FOH set for its partition a halt freezes the partition, and its bit of CW.TFREEZE
is set in the halt's cycle (log 25). `tret` resumes the selected cell 8 cycles later, for one issue where SSTEP is
set; the work of its sequencer comes later by the length of the hold. -/
def Rules.DebugHalts : Prop :=
  ∀ (s : State),
    (∀ c k, (s.cell c).run = .running → stopsNow s c = false → (s.cell c).dom < 8 → s.hub.dbgenNow.getLsbD (s.cell c).dom = true →
      (s.cell c).vecAt ≤ s.now →
      let working := (s.cell c).seqr.head?.any fun x => decide (0 < x.ws ∧ x.ws < s.now)
      let inStep := (s.cell c).seqr.head?.any fun x => (s.cell c).seqBusy && decide (0 < x.ws ∧ x.ws + 16 * x.step < s.now)
      ∃ t, exec (.debugHalt c k) s = .next t ∧
        t.cell c = { s.cell c with
          tcause := if k = 0x11 then .step else .brk, tdbg := true, tval := if k = 0x90 then BitVec.ofNat 64 (2 ^ 63) else 0,
          tpc := BitVec.ofNat 16 (if working then (s.cell c).seqr.head?.elim 0 fun x => x.pc else (s.cell c).pc),
          tblk := BitVec.ofNat 16 (s.cell c).block, run := .held, hreq := false, sstep := false,
          seqHeld := if inStep then (s.cell c).seqHeld else some s.now, seqBusy := inStep && (s.cell c).seqBusy } ∧
        (inStep = false → ∀ y ∈ t.agenda, y.ev ≠ .matrixStepEnd c) ∧
        (∀ e, e ≠ c → t.cell e = s.cell e) ∧ t.clusters = s.clusters ∧ t.dies = s.dies ∧ t.host = s.host ∧
        (s.hub.dbgenNow.getLsbD (8 + (s.cell c).dom) = true → t.hub.tfreeze.getLsbD (s.cell c).dom = true) ∧
        (s.hub.dbgenNow.getLsbD (8 + (s.cell c).dom) = false → t.hub = s.hub ∧ t.doms = s.doms)) ∧
    (∀ c k, (s.cell c).run = .running → stopsNow s c = false →
      (8 ≤ (s.cell c).dom ∨ s.hub.dbgenNow.getLsbD (s.cell c).dom = false → ∃ t, exec (.debugHalt c k) s = .next t ∧
        CellBecomes s t c { s.cell c with hreq := false } ∧ t.agenda = s.agenda) ∧
      ((s.cell c).dom < 8 → s.hub.dbgenNow.getLsbD (s.cell c).dom = true → s.now < (s.cell c).vecAt →
        ∃ t, exec (.debugHalt c k) s = .next t ∧
          CellBecomes s t c { s.cell c with hreq := false, t := max (s.cell c).t (s.cell c).vecAt } ∧
          Due t (s.cell c).vecAt (.debugHalt c k))) ∧
    (∀ c k, (s.cell c).run ≠ .running ∨ stopsNow s c = true → exec (.debugHalt c k) s = .next s) ∧
    (∀ g : PReg, s.me.getP g = true → s.me.dom = 8 →
      let c := s.selected (dieOf s.cur)
      c ≠ s.cur → s.cur < 256 →
      ∃ t, exec (.tret g) s = .next t ∧ Passes s t 1 ∧ t.doms = s.doms ∧ t.hub = s.hub ∧ MemoryKept s t ∧
        t.me = { s.me.issued t.me with seqr := t.me.seqr, seqBusy := t.me.seqBusy, seqHeld := t.me.seqHeld } ∧
        ((s.cell c).seqr = [] → t.me = s.me.issued t.me) ∧
        ((s.cell c).run = .held → stopsNow s c = false → t.cell c = { s.cell c with
          run := .running, t := max (s.cell c).t (s.now + 8), sstep := (s.die (dieOf s.cur)).dbgctl.getLsbD 10,
          seqHeld := none, ready := (t.cell c).ready, seqBusy := (t.cell c).seqBusy,
          seqr := (s.cell c).seqr.map fun x => match (s.cell c).seqHeld with
            | some h => if x.ws = 0 then x else { x with ws := x.ws + (s.now + 8 - h) }
            | none => x }) ∧
        ((s.cell c).run ≠ .held → t.cell c = s.cell c))

/-- R305, as log 11 reads it: the events of a partition's period phase, which a freeze holds: the releases, fork reads and `tickw` expiries
of its cells, its stops and commits at a deadline, its fallbacks, mode-change points and latches, the arrivals of its streams, and the
link slots that its tables use, numbered from 512 (d + 1). -/
def phaseEvent (s : State) (d : Nat) (i : Instr) : Bool :=
  match i with
  | .blockRelease c _ | .forkRead c _ | .forkRelease c | .tickwExpiry c => (s.cell c).dom == d
  | .detentStop e _ | .fallbackRelease e _ | .deadlineCommit e _ | .doubleOverrun e _ | .modeChangePoint e _
  | .modeRequestLatch e | .streamArrival e _ _ _ => e == d
  | .linkSlot _ n => decide (512 * (d + 1) ≤ n ∧ n < 512 * (d + 2))
  | _ => false

/-- R305: a freeze holds the events of the partition's phase and no other; a thaw moves the phase, the firings' times and the events on by
the length of the hold. -/
def Rules.FrozenTime : Prop :=
  ∀ (s : State) (d : Nat), d < 9 →
    ((s.dom d).frozen = none → ∃ t, exec (.freeze d) s = .next t ∧ (t.dom d).frozen = some s.now ∧
      DomBecomes s t d { s.dom d with frozen := some s.now, heldEvents := (t.dom d).heldEvents } ∧
      (∀ x ∈ s.agenda, phaseEvent s d x.ev = true → x ∉ t.agenda ∧ (x.due, x.ev) ∈ (t.dom d).heldEvents) ∧
      (∀ x ∈ s.agenda, phaseEvent s d x.ev = false → x ∈ t.agenda)) ∧
    ((s.dom d).frozen ≠ none → exec (.freeze d) s = .next s) ∧
    ((s.dom d).frozen = none → exec (.thaw d) s = .next s) ∧
    (∀ z, (s.dom d).frozen = some z → ∃ t, exec (.thaw d) s = .next t ∧
      DomBecomes s t d { s.dom d with
        frozen := none, thawAt := none, heldEvents := [], t0 := (s.dom d).t0 + (s.now - z),
        firings := (s.dom d).firings.map fun f => { f with start := f.start + (s.now - z), deadline := f.deadline + (s.now - z),
                                                             release := f.release + (s.now - z) } } ∧
      (∀ e ∈ (s.dom d).heldEvents, Due t (max s.now (e.1 + (s.now - z))) e.2) ∧ ∀ x ∈ s.agenda, x ∈ t.agenda)

/-- DebugHalts and FrozenTime together: R148, R187, R195, R295, R303, R304, R305. -/
def Obligations.DebugAndFreeze : Prop := Rules.DebugHalts ∧ Rules.FrozenTime

/-! ### Numbers and the vector unit -/

namespace Sys2Proof.Machine

/-- The float formats of one element that are no free form (R121). -/
def floatFormats : List Elem := [.fp32, .bf16, .fp16, .e4m3, .e5m2, .e3m2, .e2m3, .e2m1]

/-- Bits of a code of a format. -/
def codeWidth : Elem → Nat
  | .int w _ => w
  | .float sgn ex man _ _ => ex + man + sgn.toNat

/-- Element i of a vector register at a format (R140). -/
def Cell.element (c : Cell) (f : Fmt) (v : BitVec 5) (i : Nat) : Nat :=
  (SMap.get 0 c.vreg v.toNat).toNat / 2 ^ (Fmt.width f * i) % 2 ^ Fmt.width f

/-- The bit of a mask that governs element i; m0 holds ones (R141). -/
def Cell.masks (c : Cell) (m : MReg) (n i : Nat) : Bool :=
  m = 0 || (SMap.get 0 c.mask m.toNat).getLsbD (if n = 512 then i / 2 else i)

/-- A vector compute instruction in its parts. -/
structure VectorForm where
  g : PReg
  op : VOp
  fmt : Fmt
  mode : Rnd
  vd : BitVec 5
  va : BitVec 5
  vb : BitVec 5
  m : MReg
  size : Nat

/-- Every vector compute instruction of maps A and B, short and long (R68, R70). -/
def vectorForm : Instr → Option VectorForm
  | .vadd f g vd va vb m => some ⟨g, .vadd, fmtA f, .rne, vd, va, vb, m, 1⟩
  | .vsub f g vd va vb m => some ⟨g, .vsub, fmtA f, .rne, vd, va, vb, m, 1⟩
  | .vmul f g vd va vb m => some ⟨g, .vmul, fmtA f, .rne, vd, va, vb, m, 1⟩
  | .vfma f g vd va vb m => some ⟨g, .vfma, fmtA f, .rne, vd, va, vb, m, 1⟩
  | .vfnma f g vd va vb m => some ⟨g, .vfnma, fmtA f, .rne, vd, va, vb, m, 1⟩
  | .vmin f g vd va vb m => some ⟨g, .vmin, fmtA f, .rne, vd, va, vb, m, 1⟩
  | .vmax f g vd va vb m => some ⟨g, .vmax, fmtA f, .rne, vd, va, vb, m, 1⟩
  | .vabs f g vd va m => some ⟨g, .vabs, fmtA f, .rne, vd, va, 0, m, 1⟩
  | .vneg f g vd va m => some ⟨g, .vneg, fmtA f, .rne, vd, va, 0, m, 1⟩
  | .vrcp f g vd va m => some ⟨g, .vrcp, fmtA f, .rne, vd, va, 0, m, 1⟩
  | .vrsqrt f g vd va m => some ⟨g, .vrsqrt, fmtA f, .rne, vd, va, 0, m, 1⟩
  | .vexp2 f g vd va m => some ⟨g, .vexp2, fmtA f, .rne, vd, va, 0, m, 1⟩
  | .vlog2 f g vd va m => some ⟨g, .vlog2, fmtA f, .rne, vd, va, 0, m, 1⟩
  | .vtanh f g vd va m => some ⟨g, .vtanh, fmtA f, .rne, vd, va, 0, m, 1⟩
  | .vsigm f g vd va m => some ⟨g, .vsigm, fmtA f, .rne, vd, va, 0, m, 1⟩
  | .vcmul f g vd va vb m => some ⟨g, .vcmul, fmtA f, .rne, vd, va, vb, m, 1⟩
  | .vceq f g md va vb m => some ⟨g, .vceq, fmtA f, .rne, md.zeroExtend 5, va, vb, m, 1⟩
  | .vcne f g md va vb m => some ⟨g, .vcne, fmtA f, .rne, md.zeroExtend 5, va, vb, m, 1⟩
  | .vclt f g md va vb m => some ⟨g, .vclt, fmtA f, .rne, md.zeroExtend 5, va, vb, m, 1⟩
  | .vcle f g md va vb m => some ⟨g, .vcle, fmtA f, .rne, md.zeroExtend 5, va, vb, m, 1⟩
  | .vsel f g vd va vb m => some ⟨g, .vsel, fmtA f, .rne, vd, va, vb, m, 1⟩
  | .vand f g vd va vb m => some ⟨g, .vand, fmtA f, .rne, vd, va, vb, m, 1⟩
  | .vor f g vd va vb m => some ⟨g, .vor, fmtA f, .rne, vd, va, vb, m, 1⟩
  | .vxor f g vd va vb m => some ⟨g, .vxor, fmtA f, .rne, vd, va, vb, m, 1⟩
  | .vshl f g vd va vb m => some ⟨g, .vshl, fmtA f, .rne, vd, va, vb, m, 1⟩
  | .vshr f g vd va vb m => some ⟨g, .vshr, fmtA f, .rne, vd, va, vb, m, 1⟩
  | .vsra f g vd va vb m => some ⟨g, .vsra, fmtA f, .rne, vd, va, vb, m, 1⟩
  | .vrelu f g vd va m => some ⟨g, .vrelu, fmtA f, .rne, vd, va, 0, m, 1⟩
  | .vsplat f g vd a m => some ⟨g, .vsplat, fmtA f, .rne, vd, a, 0, m, 1⟩
  | .vins f g vd a b m => some ⟨g, .vins, fmtA f, .rne, vd, a, b, m, 1⟩
  | .vext f g d va b m => some ⟨g, .vext, fmtA f, .rne, d, va, b, m, 1⟩
  | .vmov f g vd va m => some ⟨g, .vmov, fmtA f, .rne, vd, va, 0, m, 1⟩
  | .vrsum f g vd va m => some ⟨g, .vrsum, fmtB f, .rne, vd, va, 0, m, 1⟩
  | .vrmax f g vd va m => some ⟨g, .vrmax, fmtB f, .rne, vd, va, 0, m, 1⟩
  | .vrmin f g vd va m => some ⟨g, .vrmin, fmtB f, .rne, vd, va, 0, m, 1⟩
  | .vramax f g vd va m => some ⟨g, .vramax, fmtB f, .rne, vd, va, 0, m, 1⟩
  | .vscan f g vd va m => some ⟨g, .vscan, fmtB f, .rne, vd, va, 0, m, 1⟩
  | .vscanx f g vd va m => some ⟨g, .vscanx, fmtB f, .rne, vd, va, 0, m, 1⟩
  | .vperm f g vd va vb m => some ⟨g, .vperm, fmtB f, .rne, vd, va, vb, m, 1⟩
  | .vshuf f g vd va vb m => some ⟨g, .vshuf, fmtB f, .rne, vd, va, vb, m, 1⟩
  | .vrot f g vd va b m => some ⟨g, .vrot, fmtB f, .rne, vd, va, b, m, 1⟩
  | .vzip f g vd va vb m => some ⟨g, .vzip, fmtB f, .rne, vd, va, vb, m, 1⟩
  | .vunzip f g vd va vb m => some ⟨g, .vunzip, fmtB f, .rne, vd, va, vb, m, 1⟩
  | .vbcl f g vd va b m => some ⟨g, .vbcl, fmtB f, .rne, vd, va, b, m, 1⟩
  | .vectorLong g vd va vb m op fmt rnd => some ⟨g, op, fmt, rnd, vd, va, vb, m, 2⟩
  | _ => none

/-- Operations that compute each element from the elements at its index (R149, R150). -/
def isElementwise : VOp → Bool
  | .vadd | .vsub | .vmul | .vfma | .vfnma | .vmin | .vmax | .vabs | .vneg | .vrcp | .vrsqrt | .vexp2 | .vlog2 | .vtanh | .vsigm
  | .vcmul | .vand | .vor | .vxor | .vshl | .vshr | .vsra | .vrelu => true
  | _ => false

/-- Latency in cycles at a format of n elements (R147). -/
def vectorLatency (op : VOp) (n : Nat) : Nat :=
  match op with
  | .vmul | .vfma | .vfnma => 4
  | .vcmul => 6
  | .vrcp | .vrsqrt | .vexp2 | .vlog2 | .vtanh | .vsigm => 12
  | .vext | .vperm | .vshuf | .vrot | .vzip | .vunzip | .vbcl => 3
  | .vrsum | .vrmax | .vrmin | .vramax => 2 + Nat.log2 n
  | .vscan | .vscanx => 3 + Nat.log2 n
  | _ => 2

/-- The checks of a vector instruction pass (R145, R309): its scalar sources are read, its registers and its mask delivered, in the
state `v`, and its operands' metadata accepted with `x` for the destination. -/
def VectorReady (s v : State) (f : VectorForm) (k : Srcs) (x : Option Meta) : Prop :=
  ∃ u, readClean s (vScalars f.op f.va f.vb) = .ok k u ∧
    meetRegs u (vKeys (vSources f.op f.vd f.va f.vb) (if f.op = .vext then 0 else f.m)) = .ok () v ∧
    metaCheck v.me f.op f.fmt f.vd f.va f.vb f.m = some x

/-- A vector register is written and nothing else changes but its metadata, its check bits and poison, the ready times, the generator
and the time by which flags stand; the flags are set when the instruction completes (R138). -/
def WritesVector (v t : State) (vd : BitVec 5) (x : Option Meta) (lat size : Nat) (flags : BitVec 8) : Prop :=
  Passes v t size ∧ (∀ r, r ≠ vd → SMap.get 0 t.me.vreg r.toNat = SMap.get 0 v.me.vreg r.toNat ∧ t.me.metaOf r = v.me.metaOf r) ∧
  t.me.metaOf vd = x.getD (v.me.metaOf vd) ∧ v.now + lat ≤ t.me.readyAt (64 + vd.toNat) ∧ v.now + lat ≤ t.me.flagsAt ∧
  (flags ≠ 0 → Due t (v.now + lat) (.instructionCompletion v.cur flags)) ∧ t.doms = v.doms ∧
  KeepsAll v t { v.me.issued t.me with
    vreg := t.me.vreg, vmeta := t.me.vmeta, regErr := t.me.regErr, regPoison := t.me.regPoison, genV := t.me.genV,
    flagsAt := t.me.flagsAt, vecAt := t.me.vecAt }

/-- R133: one step of a generator, and its state after `n` draws, which only RST takes. -/
def oneDraw (x : BitVec 32) : BitVec 32 :=
  let y := x ^^^ (x <<< 13)
  let z := y ^^^ (y >>> 17)
  z ^^^ (z <<< 5)
def drawn (mode : Rnd) (g : BitVec 32) (n : Nat) : BitVec 32 :=
  if mode = .rst then (List.range n).foldl (fun x _ => oneDraw x) g else g

/-- R132, R133: an exact value rounded, under RST with the number of the next draw: its code and its flags. -/
def rounded (v : Machine.Num) (f : Elem) (mode : Rnd) (g : BitVec 32) : Nat × BitVec 8 :=
  round v f mode (if mode = .rst then (oneDraw g).toNat / 2 ^ 20 else 0)

/-- R126: the exact sum of two numbers that are no NaN, and whether it makes one. Opposite values give +0. -/
def exactSum : Machine.Num → Machine.Num → Machine.Num × Bool
  | .inf a, .inf b => if a = b then (.inf a, false) else (.nan, true)
  | .inf a, _ => (.inf a, false)
  | _, .inf b => (.inf b, false)
  | .fin a m e _, .fin b n k _ =>
    let v := scaled a m e (min e k) + scaled b n k (min e k)
    (.fin (if v = 0 then a && b else decide (v < 0)) v.natAbs (min e k) false, false)
  | _, _ => (.nan, false)

/-- R126: the exact product of two numbers that are no NaN, and whether it makes one. -/
def exactProduct : Machine.Num → Machine.Num → Machine.Num × Bool
  | .inf a, .inf b => (.inf (xor a b), false)
  | .inf a, .fin b n _ _ => if n = 0 then (.nan, true) else (.inf (xor a b), false)
  | .fin a m _ _, .inf b => if m = 0 then (.nan, true) else (.inf (xor a b), false)
  | .fin a m e _, .fin b n k _ => (.fin (xor a b) (m * n) (e + k) false, false)
  | _, _ => (.nan, false)

/-- A number with the other sign. -/
def opposite : Machine.Num → Machine.Num
  | .inf a => .inf (!a)
  | .fin a m e s => .fin (!a) m e s
  | .nan => .nan

/-- R149: the first of two numbers that are no NaN lies below the second, −0 below +0. -/
def below : Machine.Num → Machine.Num → Bool
  | .inf a, .inf b => a && !b
  | .inf a, _ => a
  | _, .inf b => !b
  | .fin a m e _, .fin b n k _ =>
    let v := scaled a m e (min e k)
    let w := scaled b n k (min e k)
    decide (v < w) || (v == w && a && !b)
  | _, _ => false

/-- R135: the larger or the smaller of two numbers, or NaN. -/
def extreme (larger : Bool) (x y : Machine.Num) : Machine.Num :=
  if x = .nan ∨ y = .nan then .nan else if (if larger then below y x else below x y) then x else y

/-- R135: a sum in FP32 with RNE, of numbers of which one may be a NaN; and its flags. -/
def sum32 (x y : Machine.Num) : Machine.Num × BitVec 8 :=
  if x = .nan ∨ y = .nan then (.nan, 0)
  else
    let z := exactSum x y
    let r := round z.1 .fp32 .rne 0
    (decodeElem .fp32 r.1, r.2 ||| if z.2 then flagINVALID else 0)

/-- R135: the pairwise tree of 2^k elements. -/
def pairTree (f : Machine.Num → Machine.Num → Machine.Num) (k : Nat) (x : Nat → Machine.Num) : Machine.Num :=
  match k with
  | 0 => x 0
  | k + 1 => pairTree f k fun i => f (x (2 * i)) (x (2 * i + 1))

/-- R135: the flags of the FP32 sums at the nodes of that tree. -/
def pairTreeFlags (k : Nat) (x : Nat → Machine.Num) : BitVec 8 :=
  match k with
  | 0 => 0
  | k + 1 => (List.range (2 ^ k)).foldl (fun a i => a ||| (sum32 (x (2 * i)) (x (2 * i + 1))).2) 0 |||
      pairTreeFlags k fun i => (sum32 (x (2 * i)) (x (2 * i + 1))).1

end Sys2Proof.Machine

/-- R125, R131: a finite value of a float format rounds to itself, in every rounding mode, and sets no flag. -/
def Rules.RoundExact : Prop :=
  ∀ (f : Elem) (c r : Nat) (mode : Rnd) (neg : Bool) (m : Nat) (e : Int), f ∈ floatFormats → c < 2 ^ codeWidth f → r < 4096 →
    decodeElem f c = .fin neg m e false → round (decodeElem f c) f mode r = (c, 0)

/-- R131: round to nearest: of an exact value that does not overflow a float format, no finite value of the format lies nearer than the
one that RNE chooses. The values are compared as integers in units of 2^q below every exponent. -/
def Rules.RoundNearest : Prop :=
  ∀ (f : Elem) (neg : Bool) (m : Nat) (e q : Int) (c d : Nat) (fl : BitVec 8) (n1 n2 : Bool) (m1 m2 : Nat) (e1 e2 : Int),
    f ∈ floatFormats → round (.fin neg m e false) f .rne 0 = (c, fl) → fl &&& flagOVERFLOW = 0 →
    decodeElem f c = .fin n1 m1 e1 false → decodeElem f d = .fin n2 m2 e2 false → q ≤ e → q ≤ e1 → q ≤ e2 →
    (scaled n1 m1 e1 q - scaled neg m e q).natAbs ≤ (scaled n2 m2 e2 q - scaled neg m e q).natAbs

/-- R126, R130, R131 to R133, R149, R150: what an element of a real float format becomes. A NaN operand gives the format's canonical NaN and no
flag; else sums, products and products with a sum are the exact value rounded once, with INVALID where an infinity makes a NaN; the
smaller and larger compare by value with −0 below +0; `vabs` and `vneg` change the sign bit alone; of the transcendentals, the zeros,
the infinities, the negative operands, and the results that are exact: powers of two under `vrcp`, `vrsqrt` and `vlog2`, whole powers
under `vexp2`.
That a NaN operand sets no INVALID, and how the transcendentals are computed, are the model's reading (logs 31 and 65). -/
def Rules.FloatLanes : Prop :=
  ∀ (fmt : Fmt) (mode : Rnd) (a : Meta) (i x y z : Nat) (g : BitVec 32), fmt ∈ ([.fp32, .bf16, .fp16] : List Fmt) →
    x < 2 ^ Fmt.width fmt → y < 2 ^ Fmt.width fmt → z < 2 ^ Fmt.width fmt →
    let f := elemOf [] fmt
    let num (c : Nat) := decodeElem f c
    let lane (op : VOp) := elementLane op fmt mode a i x y z g
    let nan (op : VOp) : Prop := (lane op).1 = (if fmt = .fp32 then 0x7FC00000 else if fmt = .bf16 then 0x7FC0 else 0x7E00) ∧ (lane op).2.1 = 0
    let gives (op : VOp) (v : Machine.Num × Bool) : Prop :=
      lane op = ((rounded v.1 f mode g).1, (rounded v.1 f mode g).2 ||| (if v.2 then flagINVALID else 0), drawn mode g 1)
    (num x = .nan → ∀ op ∈ ([.vadd, .vsub, .vmul, .vfma, .vfnma, .vmin, .vmax, .vabs, .vneg, .vrelu, .vrcp, .vrsqrt, .vexp2, .vlog2,
      .vtanh, .vsigm] : List VOp), nan op) ∧
    (num y = .nan → ∀ op ∈ ([.vadd, .vsub, .vmul, .vfma, .vfnma, .vmin, .vmax] : List VOp), nan op) ∧
    (num z = .nan → nan .vfma ∧ nan .vfnma) ∧
    (num x ≠ .nan → num y ≠ .nan →
      gives .vadd (exactSum (num x) (num y)) ∧ gives .vsub (exactSum (num x) (opposite (num y))) ∧
      gives .vmul (exactProduct (num x) (num y)) ∧
      lane .vmin = (if below (num y) (num x) then y else x, 0, g) ∧ lane .vmax = (if below (num x) (num y) then y else x, 0, g) ∧
      (num z ≠ .nan →
        let p := exactProduct (num x) (num y)
        let s (q : Machine.Num) : Machine.Num × Bool := if p.1 = .nan then p else exactSum (num z) q
        gives .vfma (s p.1) ∧ gives .vfnma (s (opposite p.1)))) ∧
    (num x ≠ .nan →
      lane .vabs = (x % 2 ^ (Fmt.width fmt - 1), 0, g) ∧ lane .vneg = (x ^^^ 2 ^ (Fmt.width fmt - 1), 0, g) ∧
      lane .vrelu = (if below (.fin false 0 0 false) (num x) then x else 0, 0, g)) ∧
    (∀ n, num x = .inf n → gives .vrcp (.fin n 0 0 false, false) ∧ gives .vtanh (.fin n 1 0 false, false) ∧
      gives .vrsqrt (if n then (.nan, true) else (.fin false 0 0 false, false)) ∧
      gives .vexp2 (if n then .fin false 0 0 false else .inf false, false) ∧ gives .vlog2 (if n then (.nan, true) else (.inf false, false)) ∧
      gives .vsigm (if n then .fin false 0 0 false else .fin false 1 0 false, false)) ∧
    (∀ n m e, num x = .fin n m e false →
      (m = 0 → gives .vrcp (.inf n, false) ∧ gives .vrsqrt (.inf n, false) ∧ gives .vexp2 (.fin false 1 0 false, false) ∧
        gives .vlog2 (.inf true, false) ∧ gives .vtanh (.fin n 0 0 false, false) ∧ gives .vsigm (.fin false 1 (-1) false, false)) ∧
      (m ≠ 0 → n = true → gives .vrsqrt (.nan, true) ∧ gives .vlog2 (.nan, true)) ∧
      (∀ k : Nat, m = 2 ^ k → gives .vrcp (.fin n 1 (-(e + k)) false, false) ∧
        (n = false → (e + k) % 2 = 0 → gives .vrsqrt (.fin false 1 (-((e + k) / 2)) false, false)) ∧
        (n = false → gives .vlog2 (.fin (decide (e + k < 0)) (e + k).natAbs 0 false, false))) ∧
      (∀ v : Int, m ≠ 0 → v.natAbs < 4096 → scaled n m e (min e 0) = v * 2 ^ (-(min e 0)).toNat → gives .vexp2 (.fin false 1 v false, false)))

/-- R130, R149, R156: what an element of a complex format becomes under sums, differences, the product by a real scale and the complex
product, without NaN operands: each part rounded once, the real part first; and in slot 0 of a packed half-spectrum each part the
product of the same parts. -/
def Rules.ComplexLanes : Prop :=
  ∀ (fmt : Fmt) (mode : Rnd) (a : Meta) (i x y z : Nat) (g : BitVec 32), Fmt.complexCompute fmt = true →
    x < 2 ^ Fmt.width fmt → y < 2 ^ Fmt.width fmt →
    let h := 2 ^ (Fmt.width fmt / 2)
    let f := elemOf [] fmt
    let xr := decodeElem f (x % h)
    let xi := decodeElem f (x / h)
    let yr := decodeElem f (y % h)
    let yi := decodeElem f (y / h)
    let gives (op : VOp) (re im : Machine.Num × Bool) : Prop :=
      let r := rounded re.1 f mode g
      let j := rounded im.1 f mode (drawn mode g 1)
      elementLane op fmt mode a i x y z g =
        (r.1 + j.1 * h, r.2 ||| (if re.2 then flagINVALID else 0) ||| j.2 ||| (if im.2 then flagINVALID else 0), drawn mode g 2)
    let both (p q : Machine.Num × Bool) : Machine.Num × Bool :=
      if p.1 = .nan ∨ q.1 = .nan then (.nan, true) else exactSum p.1 q.1
    let minus (p : Machine.Num × Bool) : Machine.Num × Bool := (opposite p.1, p.2)
    xr ≠ .nan → xi ≠ .nan → yr ≠ .nan → yi ≠ .nan →
      gives .vadd (exactSum xr yr) (exactSum xi yi) ∧
      gives .vsub (exactSum xr (opposite yr)) (exactSum xi (opposite yi)) ∧
      gives .vmul (exactProduct xr yr) (exactProduct xi yr) ∧
      (if a.tag = 1 ∧ i % (2 * 2 ^ a.bsz.toNat) = 0 then gives .vcmul (exactProduct xr yr) (exactProduct xi yi)
       else gives .vcmul (both (exactProduct xr yr) (minus (exactProduct xi yi))) (both (exactProduct xr yi) (exactProduct xi yr)))

/-- RoundExact, RoundNearest, FloatLanes and ComplexLanes together: R125, R126, R130, R131, R133, R149, R150, R156. -/
def Obligations.RoundingExactAndNearest : Prop := Rules.RoundExact ∧ Rules.RoundNearest ∧ Rules.FloatLanes ∧ Rules.ComplexLanes

/-- R124, R149, R152: what an integer element becomes: the exact result clamped to the format, with SATD where it was clamped, for
sums, differences, products, absolute values and negations; the smaller, the larger, the positive part; the bitwise results and the
shifts by the count modulo the width. -/
def Rules.IntegerLanes : Prop :=
  ∀ (fmt : Fmt) (mode : Rnd) (a : Meta) (i x y z : Nat) (gen : BitVec 32), Fmt.isInt fmt = true → Fmt.realCompute fmt = true →
    x < 2 ^ Fmt.width fmt → y < 2 ^ Fmt.width fmt → z < 2 ^ Fmt.width fmt →
    let w := Fmt.width fmt
    let val (c : Nat) : Int := if fmt = .n8 then c else Int.bmod c (2 ^ w)
    let lo : Int := if fmt = .n8 then 0 else -2 ^ (w - 1)
    let hi : Int := if fmt = .n8 then 2 ^ w - 1 else 2 ^ (w - 1) - 1
    let lane (op : VOp) := elementLane op fmt mode a i x y z gen
    let clamps (op : VOp) (v : Int) : Prop := (lane op).1 < 2 ^ w ∧ val (lane op).1 = max lo (min v hi) ∧
      (lane op).2 = (if v < lo ∨ hi < v then flagSATD else 0, gen)
    clamps .vadd (val x + val y) ∧ clamps .vsub (val x - val y) ∧ clamps .vmul (val x * val y) ∧
    clamps .vfma (val z + val x * val y) ∧ clamps .vfnma (val z - val x * val y) ∧ clamps .vabs (val x).natAbs ∧ clamps .vneg (-val x) ∧
    lane .vmin = (if val x ≤ val y then x else y, 0, gen) ∧ lane .vmax = (if val x ≤ val y then y else x, 0, gen) ∧
    lane .vrelu = (if 0 < val x then x else 0, 0, gen) ∧
    lane .vand = (x &&& y, 0, gen) ∧ lane .vor = (x ||| y, 0, gen) ∧ lane .vxor = (x ^^^ y, 0, gen) ∧
    lane .vshl = (x * 2 ^ (y % w) % 2 ^ w, 0, gen) ∧ lane .vshr = (x / 2 ^ (y % w), 0, gen) ∧
    (lane .vsra).1 < 2 ^ w ∧ Int.bmod (lane .vsra).1 (2 ^ w) = Int.bmod x (2 ^ w) / 2 ^ (y % w)

/-- R140, R141, R145, R146, R149, R150: an elementwise instruction writes each element that its mask lets in with the operation on the
elements at that index, and leaves the others; it takes the generator's steps for each element in order, and sets the flags of the
elements it wrote. -/
def Rules.VectorElementwise : Prop :=
  ∀ (i : Instr) (f : VectorForm) (s v : State) (k : Srcs) (x : Option Meta), vectorForm i = some f → isElementwise f.op = true →
    VOp.accepts f.op f.fmt = true → s.me.getP f.g = true → VectorReady s v f k x →
    let n := Fmt.count f.fmt
    let lane (j : Nat) (g : BitVec 32) := elementLane f.op f.fmt f.mode (v.me.metaOf f.va) j (v.me.element f.fmt f.va j)
      (v.me.element f.fmt f.vb j) (v.me.element f.fmt f.vd j) g
    ∃ (t : State) (gens : Nat → BitVec 32) (fl : BitVec 8), exec i s = .next t ∧ gens 0 = v.me.genV ∧
      (∀ j, j < n → gens (j + 1) = (lane j (gens j)).2.2) ∧ t.me.genV = gens n ∧
      (∀ j, j < n → t.me.element f.fmt f.vd j =
        if v.me.masks f.m n j then (lane j (gens j)).1 % 2 ^ Fmt.width f.fmt else v.me.element f.fmt f.vd j) ∧
      (∀ b, b < 8 → fl.getLsbD b = (List.range n).any fun j => v.me.masks f.m n j && (lane j (gens j)).2.1.getLsbD b) ∧
      WritesVector v t f.vd x (vectorLatency f.op n) f.size fl

/-- R145, R147: every vector compute instruction of maps A and B completes once its checks pass, reductions and scans among them: it takes
one slot, and nothing changes but its destination, with the metadata, check bits and ready times, the generator and the time by which
its flags stand. -/
def Rules.VectorCompletes : Prop :=
  ∀ (i : Instr) (f : VectorForm) (s v : State) (k : Srcs) (x : Option Meta), vectorForm i = some f →
    VOp.accepts f.op f.fmt = true → s.me.getP f.g = true → VectorReady s v f k x → (f.op = .vext → f.vd.toNat < 28) →
    ∃ t, exec i s = .next t ∧ Passes v t f.size ∧ t.doms = v.doms ∧ v.now + vectorLatency f.op (Fmt.count f.fmt) ≤ t.me.flagsAt ∧
      KeepsAll v t { v.me.issued t.me with
        sreg := t.me.sreg, dfb := t.me.dfb, mask := t.me.mask, vreg := t.me.vreg, vmeta := t.me.vmeta, regErr := t.me.regErr,
        regPoison := t.me.regPoison, genV := t.me.genV, flagsAt := t.me.flagsAt, vecAt := t.me.vecAt }

/-- VectorElementwise, IntegerLanes and VectorCompletes together: R124, R140, R141, R145, R146, R147, R149, R150, R152. -/
def Obligations.VectorArithmetic : Prop := Rules.VectorElementwise ∧ Rules.IntegerLanes ∧ Rules.VectorCompletes

/-- R151 to R154: moves, selections and permutations, element by element: `vmov`, `vsplat`, `vins`, `vsel`, `vperm`, `vshuf`, `vrot`,
`vzip`, `vunzip` and `vbcl`. `vsel` takes va where the mask lets in and vb elsewhere; the others keep the elements their mask
shuts out. No flag is set. -/
def Rules.VectorMoves : Prop :=
  ∀ (i : Instr) (f : VectorForm) (s v : State) (k : Srcs) (x : Option Meta), vectorForm i = some f →
    f.op ∈ ([.vmov, .vsplat, .vins, .vsel, .vperm, .vshuf, .vrot, .vzip, .vunzip, .vbcl] : List VOp) →
    VOp.accepts f.op f.fmt = true → s.me.getP f.g = true → VectorReady s v f k x →
    let n := Fmt.count f.fmt
    let a (j : Nat) := v.me.element f.fmt f.va j
    let b (j : Nat) := v.me.element f.fmt f.vb j
    let d (j : Nat) := v.me.element f.fmt f.vd j
    let p := (k.get 0).toNat
    let new (j : Nat) : Nat := match f.op with
      | .vmov => a j
      | .vsplat => p % 2 ^ Fmt.width f.fmt
      | .vins => if j = (k.get 1).toNat % n then p % 2 ^ Fmt.width f.fmt else d j
      | .vperm => a (b j % n)
      | .vshuf => if b j % (2 * n) < n then a (b j % (2 * n)) else d (b j % (2 * n) - n)
      | .vrot => a ((j + p % n) % n)
      | .vzip => if j % 2 = 0 then a (j / 2) else b (j / 2)
      | .vunzip => if j < n / 2 then a (2 * j) else b (2 * (j - n / 2))
      | _ => a (p % n)
    ∃ t, exec i s = .next t ∧ t.me.genV = v.me.genV ∧ WritesVector v t f.vd x (vectorLatency f.op n) f.size 0 ∧
      ∀ j, j < n → t.me.element f.fmt f.vd j =
        if f.op = .vsel then (if v.me.masks f.m n j then a j else b j)
        else if v.me.masks f.m n j then new j else d j

/-- R151, R141: a compare leaves in its mask register, for each element, whether its mask lets it in and the condition holds; a NaN
makes only `vcne` hold; m0 takes nothing. -/
def Rules.VectorCompares : Prop :=
  ∀ (i : Instr) (f : VectorForm) (s v : State) (k : Srcs) (x : Option Meta), vectorForm i = some f →
    VOp.isCompare f.op = true → f.vd.toNat < 8 → VOp.accepts f.op f.fmt = true → s.me.getP f.g = true → VectorReady s v f k x →
    let n := Fmt.count f.fmt
    let num (r : BitVec 5) (j : Nat) := decodeElem (elemOf [] f.fmt) (v.me.element f.fmt r j)
    let holds (j : Nat) : Bool :=
      if (num f.va j).isNan || (num f.vb j).isNan then f.op == .vcne
      else match f.op with
        | .vceq => (num f.va j).cmp (num f.vb j) == 0
        | .vcne => (num f.va j).cmp (num f.vb j) != 0
        | .vclt => decide ((num f.va j).cmp (num f.vb j) < 0)
        | _ => decide ((num f.va j).cmp (num f.vb j) ≤ 0)
    ∃ t, exec i s = .next t ∧ Passes v t f.size ∧ t.doms = v.doms ∧
      (f.vd ≠ 0 → ∀ j, j < 256 → (SMap.get 0 t.me.mask f.vd.toNat).getLsbD j = (decide (j < n) && v.me.masks f.m n j && holds j)) ∧
      (∀ r, r ≠ f.vd.toNat → SMap.get 0 t.me.mask r = SMap.get 0 v.me.mask r) ∧
      (f.vd = 0 → t.me.mask = v.me.mask) ∧ (f.vd ≠ 0 → v.now + 2 ≤ t.me.readyAt (96 + f.vd.toNat)) ∧
      KeepsAll v t { v.me.issued t.me with
        mask := t.me.mask, regErr := t.me.regErr, regPoison := t.me.regPoison, flagsAt := t.me.flagsAt, vecAt := t.me.vecAt }

/-- R152: `vext` delivers the element that its scalar operand names, modulo the element count, sign-extended for signed formats, after 3
cycles. -/
def Rules.VectorExtract : Prop :=
  ∀ (i : Instr) (f : VectorForm) (s v : State) (k : Srcs) (x : Option Meta), vectorForm i = some f → f.op = .vext →
    VOp.accepts f.op f.fmt = true → s.me.getP f.g = true → VectorReady s v f k x →
    let e := v.me.element f.fmt f.va ((k.get 0).toNat % Fmt.count f.fmt)
    let r : Word := if f.fmt = .i8 ∨ f.fmt = .i16 ∨ f.fmt = .i32 then BitVec.ofInt 64 (Int.bmod e (2 ^ Fmt.width f.fmt)) else BitVec.ofNat 64 e
    (f.vd.toNat < 28 → ∃ t, exec i s = .next t ∧ Passes v t f.size ∧ t.doms = v.doms ∧
      (f.vd ≠ 0 → t.me.getS f.vd = r ∧ t.me.getD f.vd = false) ∧ v.now + 3 ≤ t.me.readyAt f.vd.toNat ∧
      (∀ q, q ≠ f.vd → t.me.getS q = v.me.getS q ∧ t.me.getD q = v.me.getD q) ∧ t.me.sticky = v.me.sticky ∧
      KeepsAll v t { v.me.issuedScalar t.me with flagsAt := t.me.flagsAt, vecAt := t.me.vecAt }) ∧
    (28 ≤ f.vd.toNat → exec i s = finish (writeDst v f.vd r none 3) fun y =>
      advance (y.modMe fun c => { c.setReady 129 (y.now + 1) with
        flagsAt := max c.flagsAt (y.now + 3), vecAt := max c.vecAt (y.now + 3) }) f.size 1)

/-- VectorMoves, VectorCompares and VectorExtract together: R141, R151, R152, R154. -/
def Obligations.VectorMoving : Prop := Rules.VectorMoves ∧ Rules.VectorCompares ∧ Rules.VectorExtract

/-- R135, R153: a reduction leaves its result in element 0 and zero in every other element. Over an integer format the result of
`vrsum` is the exact sum of the elements that the mask lets in, clamped; of `vrmax` and `vrmin` the largest or smallest of them, and
of the format's end where none is, and SATD is set exactly where the result is clamped; over floats it is the pairwise tree of R135, in
FP32 for the sum, rounded once, with the flags of the sums of the tree and of that rounding.
Which metadata a reduction under a mask needs is the model's reading (log 28). -/
def Rules.VectorReductions : Prop :=
  ∀ (i : Instr) (f : VectorForm) (s v : State) (k : Srcs) (x : Option Meta), vectorForm i = some f →
    f.op ∈ ([.vrsum, .vrmax, .vrmin, .vramax] : List VOp) → VOp.accepts f.op f.fmt = true → s.me.getP f.g = true →
    VectorReady s v f k x →
    let n := Fmt.count f.fmt
    let w := Fmt.width f.fmt
    let val (c : Nat) : Int := if f.fmt = .n8 then c else Int.bmod c (2 ^ w)
    let lo : Int := if f.fmt = .n8 then 0 else -2 ^ (w - 1)
    let hi : Int := if f.fmt = .n8 then 2 ^ w - 1 else 2 ^ (w - 1) - 1
    let ins := ((List.range n).filter fun j => v.me.masks f.m n j).map fun j => val (v.me.element f.fmt f.va j)
    ∃ t fl, exec i s = .next t ∧ WritesVector v t f.vd x (2 + Nat.log2 n) f.size fl ∧
      (∀ j, 0 < j → j < n → t.me.element f.fmt f.vd j = 0) ∧
      (Fmt.isInt f.fmt = true →
        let exact : Int := match f.op with
          | .vrsum => ins.sum
          | .vrmax => ins.foldl max lo
          | .vrmin => ins.foldl min hi
          | _ => (ins.map fun z => (z.natAbs : Int)).foldl max 0
        t.me.genV = v.me.genV ∧ val (t.me.element f.fmt f.vd 0) = max lo (min exact hi) ∧
          fl = if exact < lo ∨ hi < exact then flagSATD else 0) ∧
      (Fmt.isInt f.fmt = false →
        let value (j : Nat) : Machine.Num :=
          if v.me.masks f.m n j then
            (match decodeElem (elemOf [] f.fmt) (v.me.element f.fmt f.va j) with
              | .fin b m e y => .fin (b && f.op != .vramax) m e y
              | .inf b => .inf (b && f.op != .vramax)
              | .nan => .nan)
          else if f.op = .vrmax then .inf true else if f.op = .vrmin then .inf false else .fin false 0 0 false
        let node (x y : Machine.Num) : Machine.Num := if f.op = .vrsum then (sum32 x y).1 else extreme (f.op != .vrmin) x y
        let out := rounded (pairTree node (Nat.log2 n) value) (elemOf [] f.fmt) f.mode v.me.genV
        t.me.element f.fmt f.vd 0 = out.1 % 2 ^ w ∧ t.me.genV = drawn f.mode v.me.genV 1 ∧
          fl = (if f.op = .vrsum then pairTreeFlags (Nat.log2 n) value else 0) ||| out.2)

/-- R135, R153: over an integer format a scan leaves in each element that its mask lets in the clamped sum of the elements let in up to
it, itself included by `vscan` and not by `vscanx`, and sets SATD exactly where it clamps one; over a float format each element is the chain of R135 in FP32, rounded once, one
draw of the generator for each element, and the flags are those of the sums that the scan forms and of the elements written.
Element 0 of the inclusive scan is the model's reading (log 29). -/
def Rules.VectorScans : Prop :=
  ∀ (i : Instr) (f : VectorForm) (s v : State) (k : Srcs) (x : Option Meta), vectorForm i = some f →
    f.op ∈ ([.vscan, .vscanx] : List VOp) → VOp.accepts f.op f.fmt = true → s.me.getP f.g = true → VectorReady s v f k x →
    let n := Fmt.count f.fmt
    let w := Fmt.width f.fmt
    let val (c : Nat) : Int := if f.fmt = .n8 then c else Int.bmod c (2 ^ w)
    let lo : Int := if f.fmt = .n8 then 0 else -2 ^ (w - 1)
    let hi : Int := if f.fmt = .n8 then 2 ^ w - 1 else 2 ^ (w - 1) - 1
    ∃ t fl, exec i s = .next t ∧ WritesVector v t f.vd x (3 + Nat.log2 n) f.size fl ∧
      (∀ j, j < n → v.me.masks f.m n j = false → t.me.element f.fmt f.vd j = v.me.element f.fmt f.vd j) ∧
      (Fmt.isInt f.fmt = true →
        let exact (j : Nat) : Int := (((List.range (if f.op = .vscan then j + 1 else j)).filter fun q => v.me.masks f.m n q).map
          fun q => val (v.me.element f.fmt f.va q)).sum
        (∀ j, j < n → v.me.masks f.m n j = true → val (t.me.element f.fmt f.vd j) = max lo (min (exact j) hi)) ∧
          fl = if (List.range n).any fun j => v.me.masks f.m n j && (decide (exact j < lo) || decide (hi < exact j)) then flagSATD
            else 0) ∧
      (Fmt.isInt f.fmt = false →
        let value (j : Nat) : Machine.Num :=
          if v.me.masks f.m n j then decodeElem (elemOf [] f.fmt) (v.me.element f.fmt f.va j) else .fin false 0 0 false
        let incl := f.op == .vscan
        let chain (j : Nat) : Machine.Num := if incl then (List.range j).foldl (fun a q => (sum32 a (value (q + 1))).1) (value 0)
          else (List.range j).foldl (fun a q => (sum32 a (value q)).1) (.fin false 0 0 false)
        let out (j : Nat) := rounded (chain j) (elemOf [] f.fmt) f.mode (drawn f.mode v.me.genV j)
        (∀ j, j < n → v.me.masks f.m n j = true → t.me.element f.fmt f.vd j = (out j).1 % 2 ^ w) ∧
          t.me.genV = drawn f.mode v.me.genV n ∧
          ∀ b, b < 8 → fl.getLsbD b =
            (((List.range n).any fun j => v.me.masks f.m n j && (out j).2.getLsbD b) ||
              (List.range (n - 1)).any fun j => (sum32 (chain j) (value (if incl then j + 1 else j))).2.getLsbD b))

/-- VectorReductions and VectorScans together: R135, R153. -/
def Obligations.VectorFolds : Prop := Rules.VectorReductions ∧ Rules.VectorScans

/-- R142, R159: operands whose metadata the operation does not take raise DOMAIN with the instruction's words: a source of tag 11 in any
of them; sums, differences and selections of different tags, block sizes or offsets; a product by a register that is not spatial;
and, of the operations that read one register, all but `vmov` and the moves of a scalar on one that is not spatial.
What a masked selection or fold asks of its destination is the model's reading (log 28). -/
def Rules.VectorMetadata : Prop :=
  ∀ (i : Instr) (f : VectorForm) (s u v : State) (k : Srcs), vectorForm i = some f → s.me.getP f.g = true →
    readClean s (vScalars f.op f.va f.vb) = .ok k u →
    meetRegs u (vKeys (vSources f.op f.vd f.va f.vb) (if f.op = .vext then 0 else f.m)) = .ok () v →
    let a := v.me.metaOf f.va
    let b := v.me.metaOf f.vb
    (f.op ∈ ([.vadd, .vsub, .vmul, .vcmul, .vsel, .vmin, .vmax, .vand, .vor, .vxor, .vceq, .vcne, .vclt, .vcle, .vfma, .vfnma] : List VOp) ∧
        (a.tag = 3 ∨ b.tag = 3) ∨
      f.op ∈ ([.vadd, .vsub, .vsel] : List VOp) ∧ (a.tag ≠ b.tag ∨ a.bsz ≠ b.bsz ∨ a.eoff ≠ b.eoff) ∨
      f.op = .vmul ∧ b.tag ≠ 0 ∨
      f.op = .vcmul ∧ (a.tag ≠ b.tag ∨ a.bsz ≠ b.bsz) ∨
      f.op ∈ ([.vabs, .vneg, .vrelu, .vrcp, .vrsqrt, .vexp2, .vlog2, .vtanh, .vsigm, .vrsum, .vrmax, .vrmin, .vramax, .vscan, .vscanx,
        .vext, .vrot, .vbcl] : List VOp) ∧ a.tag ≠ 0) →
    exec i s = .next (takeTrap v .domain (BitVec.ofNat 64 ((encode i).getD 0 0 + (encode i).getD 1 0 * 2 ^ 32)))

/-- R129, R130, R133, R155 to R158: the conversions, in every rounding mode. `vcvt` converts the elements of one part of a register to the
other format's elements, of complex formats the real part and then the imaginary; `vdequant` multiplies by the blocks' scales, where
0xFF makes NaNs and sets INVALID; `vquant` makes blocks of 32 with one scale each, which follows the largest magnitude, and INVALID alone
for a block that holds a NaN or an infinity; `vamax` keeps in element 0 the largest magnitude seen as an FP32 pattern, and sets no flag.
Each writes under the checks of R145 and R20, takes the generator's steps in order, sets the flags of the elements that it rounds and
writes when it completes, and leaves every other element and register; the destination keeps va's offset, under the tag
00 with a block size of 0 (log 32). -/
def Obligations.VectorConversions : Prop :=
  ∀ (s v : State) (g : PReg) (vd va : VReg) (p : BitVec 3) (m : MReg) (fmt fmt2 : Fmt) (mode : Rnd) (x : Meta), s.me.getP g = true →
    (∀ i, i = .vcvt g vd va p m fmt mode fmt2 → i.wf = true → checkC (encode i) [fmt, fmt2] vd [va] va m s = .ok x v →
      let n := min (Fmt.count fmt) (Fmt.count fmt2)
      let shrinks := Fmt.count fmt2 < Fmt.count fmt
      let first := if shrinks then p.toNat * n else 0
      let from_ := if shrinks then 0 else p.toNat * n
      let parts := if Fmt.isComplex fmt then 2 else 1
      let part (j k : Nat) : Nat × BitVec 8 :=
        let c := v.me.element fmt2 va (from_ + j)
        (rounded (decodeElem (elemOf v.me.ffWords fmt2) (if parts = 1 then c else c / 2 ^ (k * (Fmt.width fmt2 / 2)) % 2 ^ (Fmt.width fmt2 / 2)))
          (elemOf v.me.ffWords fmt) mode (drawn mode v.me.genV (parts * j + k)))
      ∃ t fl, exec i s = .next t ∧ WritesVector v t vd (some x) 3 2 fl ∧ t.me.genV = drawn mode v.me.genV (parts * n) ∧
        x = { tag := 0, bsz := 0, eoff := (v.me.metaOf va).eoff, ty := false } ∧
        (∀ b, b < 8 → fl.getLsbD b = (List.range n).any fun j => v.me.masks m (Fmt.count fmt) (first + j) &&
          (List.range parts).any fun k => (part j k).2.getLsbD b) ∧
        ∀ j, j < Fmt.count fmt → t.me.element fmt vd j =
          if first ≤ j ∧ j < first + n ∧ v.me.masks m (Fmt.count fmt) j then
            (if parts = 1 then (part (j - first) 0).1 % 2 ^ Fmt.width fmt
             else (part (j - first) 0).1 % 2 ^ (Fmt.width fmt / 2) + (part (j - first) 1).1 % 2 ^ (Fmt.width fmt / 2) * 2 ^ (Fmt.width fmt / 2))
          else v.me.element fmt vd j) ∧
    (∀ i, i = .vdequant g vd va p fmt mode fmt2 → i.wf = true → checkC (encode i) [] vd [va, va + 1] va 0 s = .ok x v →
      let n := Fmt.count fmt
      let scale (j : Nat) := v.me.element .n8 (va + 1) ((p.toNat * n + j) / 32)
      let out (j : Nat) := rounded (if scale j = 255 then .nan else
          match decodeElem (elemOf [] fmt2) (v.me.element fmt2 va (p.toNat * n + j)) with
          | .fin b m e y => .fin b m (e + ((scale j : Int) - 127)) y
          | y => y) (elemOf [] fmt) mode (drawn mode v.me.genV j)
      ∃ t fl, exec i s = .next t ∧ WritesVector v t vd (some x) 3 2 fl ∧ t.me.genV = drawn mode v.me.genV n ∧
        x = { tag := 0, bsz := 0, eoff := (v.me.metaOf va).eoff, ty := false } ∧
        (∀ b, b < 8 → fl.getLsbD b = (List.range n).any fun j =>
          (out j).2.getLsbD b || (decide (scale j = 255) && flagINVALID.getLsbD b)) ∧
        ∀ j, j < n → t.me.element fmt vd j = (out j).1 % 2 ^ Fmt.width fmt) ∧
    (∀ i, i = .vquant g vd va p fmt mode fmt2 → i.wf = true → checkC (encode i) [] vd [va] va 0 s = .ok x v →
      let n := Fmt.count fmt2
      let val (j : Nat) := decodeElem (elemOf [] fmt2) (v.me.element fmt2 va j)
      let top (y : Machine.Num) : Int := match y with | .fin _ m e _ => if m = 0 then -100000 else (Nat.log2 m : Int) + e | _ => 100000
      let most (b : Nat) := (List.range 32).foldl (fun z j => max z (top (val (32 * b + j)))) (-100000)
      let bad (b : Nat) : Bool := (List.range 32).any fun j => match val (32 * b + j) with | .fin _ _ _ _ => false | _ => true
      let e (b : Nat) := max (-127) (min (most b - (if fmt = .mxfp8 then 8 else if fmt = .mxfp6 then 4 else 2)) 127)
      let out (b j : Nat) := rounded (match val (32 * b + j) with
          | .fin h m k y => .fin h m (if most b = -100000 then k else k - e b) y
          | y => y) (elemOf [] fmt) mode (drawn mode v.me.genV (32 * b + j))
      ∃ t fl, exec i s = .next t ∧ t.me.metaOf vd = x ∧ t.me.metaOf (vd + 1) = x ∧ t.doms = v.doms ∧ Passes v t 2 ∧
        x = { tag := 0, bsz := 0, eoff := (v.me.metaOf va).eoff, ty := false } ∧
        (fl ≠ 0 → Due t (v.now + 6) (.instructionCompletion v.cur fl)) ∧ t.me.genV = drawn mode v.me.genV n ∧
        v.now + 6 ≤ t.me.readyAt (64 + vd.toNat) ∧ v.now + 6 ≤ t.me.readyAt (64 + (vd + 1).toNat) ∧ v.now + 6 ≤ t.me.flagsAt ∧
        KeepsAll v t { v.me.issued t.me with
          vreg := t.me.vreg, vmeta := t.me.vmeta, regErr := t.me.regErr, regPoison := t.me.regPoison, genV := t.me.genV,
          flagsAt := t.me.flagsAt, vecAt := t.me.vecAt } ∧
        (∀ r, r ≠ vd → r ≠ vd + 1 → SMap.get 0 t.me.vreg r.toNat = SMap.get 0 v.me.vreg r.toNat ∧ t.me.metaOf r = v.me.metaOf r) ∧
        (∀ j, j < Fmt.count fmt → j < p.toNat * n ∨ p.toNat * n + n ≤ j → t.me.element fmt vd j = v.me.element fmt vd j) ∧
        (∀ j, j < 256 → j < p.toNat * n / 32 ∨ p.toNat * n / 32 + n / 32 ≤ j →
          t.me.element .n8 (vd + 1) j = v.me.element .n8 (vd + 1) j) ∧
        (∀ b, b < n / 32 →
          t.me.element .n8 (vd + 1) (p.toNat * n / 32 + b) =
            (if bad b then 0xFF else if most b = -100000 then 0x7F else (e b + 127).toNat) ∧
          ∀ j, j < 32 → t.me.element fmt vd (p.toNat * n + 32 * b + j) = if bad b then 0 else (out b j).1 % 2 ^ Fmt.width fmt) ∧
        ∀ q, q < 8 → fl.getLsbD q = (List.range (n / 32)).any fun b =>
          if bad b then flagINVALID.getLsbD q else (List.range 32).any fun j => (out b j).2.getLsbD q) ∧
    (∀ u i, i = .vamax g vd va m fmt mode → i.wf = true → meetRegs s (vKeys [va, vd] m) = .ok () u →
      (u.me.metaOf va).tag = 0 → (u.me.metaOf vd).tag ≠ 3 → (u.me.metaOf va).eoff = (u.me.metaOf vd).eoff →
      ∃ t, exec i s = .next t ∧ WritesVector u t vd none (2 + Nat.log2 (Fmt.count fmt)) 2 0 ∧
        (∀ j, 0 < j → j < 64 → t.me.element .fp32 vd j = u.me.element .fp32 vd j) ∧
        t.me.element .fp32 vd 0 = (round (largestAbs (decodeElem .fp32 (u.me.element .fp32 vd 0) ::
          (List.range (Fmt.count fmt)).map fun j => if u.me.masks m (Fmt.count fmt) j then
            (decodeElem (elemOf [] fmt) (u.me.element fmt va j)).abs else .zero false)) .fp32 .rne 0).1)

namespace Sys2Proof.Machine

/-- A vector access in its parts; `step` or `index` names the second register of the strided and indexed modes (R160). -/
structure VectorAccess where
  g : PReg
  store : Bool
  vd : VReg
  a : SReg
  step : Option SReg
  index : Option VReg
  tok : Nat
  m : MReg
  fmt : Fmt
  rt : Route
  imm : BitVec 15

/-- The six vector accesses. -/
def vectorAccess : Instr → Option VectorAccess
  | .vld g vd a _ m fmt rt imm => some ⟨g, false, vd, a, none, none, 0, m, fmt, rt, imm⟩
  | .vlds g vd a b _ m fmt rt imm => some ⟨g, false, vd, a, some b, none, 0, m, fmt, rt, imm⟩
  | .vldx g vd a vb _ m fmt rt imm => some ⟨g, false, vd, a, none, some vb, 0, m, fmt, rt, imm⟩
  | .vst g vd a tok m fmt rt imm => some ⟨g, true, vd, a, none, none, tok.toNat, m, fmt, rt, imm⟩
  | .vsts g vd a b tok m fmt rt imm => some ⟨g, true, vd, a, some b, none, tok.toNat, m, fmt, rt, imm⟩
  | .vstx g vd a vb tok m fmt rt imm => some ⟨g, true, vd, a, none, some vb, tok.toNat, m, fmt, rt, imm⟩
  | _ => none

/-- The effective address: the base plus eight times the signed offset (R160). -/
def VectorAccess.base (f : VectorAccess) (k : Srcs) : Word := k.get 0 + f.imm.signExtend 64 * 8

/-- The byte address of element j, in 64 bits: consecutive elements, a stride in bytes, or indices in elements (R160). -/
def VectorAccess.address (f : VectorAccess) (c : Cell) (k : Srcs) (j : Nat) : Nat :=
  (f.base k + BitVec.ofNat 64 (match f.step, f.index with
    | some _, _ => j * (k.get 1).toNat
    | none, some v => c.element f.fmt v j * (Fmt.width f.fmt / 8)
    | none, none => j * Fmt.width f.fmt / 8)).toNat

/-- The bit of that byte at which the element starts: zero but for elements of 4 and 6 bits. -/
def VectorAccess.bit (f : VectorAccess) (j : Nat) : Nat :=
  if f.step.isNone && f.index.isNone then j * Fmt.width f.fmt % 8 else 0

/-- Bytes that element j touches. -/
def VectorAccess.touched (f : VectorAccess) (j : Nat) : Nat := (f.bit j + Fmt.width f.fmt + 7) / 8

/-- Where the memory of the access ends: the carve-out or the share (R161). -/
def VectorAccess.limit (f : VectorAccess) (s : State) : Nat :=
  match f.rt.space with
  | .sp => s.me.limC
  | .cb => s.shareSize s.me.dom (clusterOf s.cur)

def VectorAccess.inside (f : VectorAccess) (s : State) (k : Srcs) (j : Nat) : Bool :=
  decide (f.address s.me k j + f.touched j ≤ f.limit s)

/-- The byte of the memory that an address names. -/
def VectorAccess.byteAt (f : VectorAccess) (s : State) (a : Nat) : Nat :=
  match f.rt.space with
  | .sp => a
  | .cb => s.shareByte s.me.dom (clusterOf s.cur) a

/-- The elements that the mask lets in. -/
def VectorAccess.letIn (f : VectorAccess) (s : State) (j : Nat) : Bool :=
  decide (j < Fmt.count f.fmt) && s.me.masks f.m (Fmt.count f.fmt) j

/-- R123, R140: the bits of an element that hold its code: of a free-form element the WID of the word it names. -/
def codeBitsOf (c : Cell) (fmt : Fmt) : Nat :=
  let x : Ctx := SMap.get {} c.ctxs c.ctx.toNat
  match fmt with
  | .ffa => x.fmta.toNat % 16
  | .ffb => x.fmtb.toNat % 16
  | .ffc => x.fmtc.toNat % 16
  | f => Fmt.width f

/-- Checks 1 to 4 of R161: sources read in state `v`, registers delivered, the free-form word a format, the metadata of vd. -/
def VectorAccess.ready (f : VectorAccess) (s v : State) (k : Srcs) : Prop :=
  ∃ u, readClean s (f.a :: f.step.toList) = .ok k u ∧
    meetRegs u (vKeys ((if f.store then [f.vd] else []) ++ f.index.toList) f.m) = .ok () v ∧ ffHolds v.me.ffWords f.fmt = true ∧
    (v.me.metaOf f.vd).tag ≠ 3 ∧ ((v.me.metaOf f.vd).tag = 0 ∨ Fmt.isComplex f.fmt = true)

/-- Checks 5 to 8 of R161: addresses aligned, of a slice access every element inside the share, and words that deliver. -/
def VectorAccess.passes (f : VectorAccess) (v : State) (k : Srcs) : Prop :=
  (f.step = none → f.index = none → (f.base k).toNat % 8 = 0) ∧
  (∀ j, f.letIn v j = true →
    ((f.step ≠ none ∨ f.index ≠ none) → f.address v.me k j % (Fmt.width f.fmt / 8) = 0) ∧
    (f.rt.space = .cb → f.inside v k j = true) ∧
    (f.inside v k j = true → ∀ b, b < f.touched j →
      Delivered v f.rt.stream.toNat f.rt.space (f.byteAt v (f.address v.me k j + b)) 1))

end Sys2Proof.Machine

/-- R140, R160, R162: a vector load puts into each element that its mask lets in the bits at that element's address, as its stream sees them
at the issue (log 30), of a free-form element only those of its code;
an element beyond the carve-out becomes zero, and sets OOR; the others stay. The register is ready after the latency and the port cycles,
one at the least where any element is let in. -/
def Rules.VectorLoads : Prop :=
  ∀ (i : Instr) (f : VectorAccess) (s v : State) (k : Srcs), vectorAccess i = some f → f.store = false → i.wf = true →
    s.me.getP f.g = true → f.ready s v k → f.passes v k →
    ∃ (t : State) (n : Nat), exec i s = .next t ∧ Passes v t 2 ∧ t.doms = v.doms ∧
      (∀ j, j < Fmt.count f.fmt → t.me.element f.fmt f.vd j =
        if f.letIn v j = false then v.me.element f.fmt f.vd j
        else if f.inside v k j = false then 0
        else ((List.range (f.touched j)).map fun b =>
          v.load f.rt.stream.toNat f.rt.space (f.byteAt v (f.address v.me k j + b)) 1 * 256 ^ b).sum / 2 ^ f.bit j % 2 ^ codeBitsOf v.me f.fmt) ∧
      (∀ r, r ≠ f.vd.toNat → SMap.get 0 t.me.vreg r = SMap.get 0 v.me.vreg r) ∧
      ((∃ j, f.letIn v j = true) → 1 ≤ n) ∧ v.now + spaceLatency f.rt.space + n ≤ t.me.readyAt (64 + f.vd.toNat) ∧
      (t.me.sticky = v.me.sticky ||| if (List.range (Fmt.count f.fmt)).any (fun j => f.letIn v j && !f.inside v k j) then flagOOR else 0) ∧
      KeepsAll v t { v.me.issued t.me with
        vreg := t.me.vreg, regErr := t.me.regErr, regPoison := t.me.regPoison, vloads := t.me.vloads, sticky := t.me.sticky,
        stickyNow := t.me.stickyNow, stickyAt := t.me.stickyAt, oor := t.me.oor, vecAt := t.me.vecAt }

/-- R140, R160, R162, R163, R95: a vector store puts in flight, port cycle by port cycle, the bits of each element that its mask lets in and that
lies inside the memory, of a free-form element those of its code under zeros, at that element's address and under a mask of its bits, and
nothing else; they are performed together, and not before an earlier write of the stream and space (log 30); no memory changes before. -/
def Rules.VectorStores : Prop :=
  ∀ (i : Instr) (f : VectorAccess) (s v : State) (k : Srcs), vectorAccess i = some f → f.store = true → i.wf = true →
    s.me.getP f.g = true → f.ready s v k → f.passes v k →
    ∃ (t : State) (new : List Access), exec i s = .next t ∧ Passes v t 2 ∧ t.doms = v.doms ∧
      t.me.sticky = (v.me.sticky ||| if (List.range (Fmt.count f.fmt)).any (fun j => f.letIn v j && !f.inside v k j) then flagOOR else 0) ∧
      KeepsAll v t { v.me.issued t.me with
        pend := v.me.pend ++ new, sticky := t.me.sticky, stickyNow := t.me.stickyNow, stickyAt := t.me.stickyAt, oor := t.me.oor,
        vecAt := t.me.vecAt } ∧
      (∀ x ∈ new, x.strm = f.rt.stream.toNat ∧ x.space = f.rt.space ∧ x.strong = f.rt.strong ∧ x.tok = f.tok ∧
        x.due = writeDue v.me f.rt.stream.toNat f.rt.space (v.now + spaceLatency f.rt.space - 1 + new.length) ∧ Due t x.due (.storePerformed v.cur x.id) ∧ ∃ bs, x.upd = .store bs) ∧
      (∀ w : Nat × Byte × Byte, (∃ x ∈ new, ∃ bs, x.upd = .store bs ∧ w ∈ bs) ↔
        ∃ j b, f.letIn v j = true ∧ f.inside v k j = true ∧ b < f.touched j ∧
          w = (f.byteAt v (f.address v.me k j + b),
            BitVec.ofNat 8 (v.me.element f.fmt f.vd j % 2 ^ codeBitsOf v.me f.fmt * 2 ^ f.bit j / 256 ^ b),
            BitVec.ofNat 8 ((2 ^ Fmt.width f.fmt - 1) * 2 ^ f.bit j / 256 ^ b)))

/-- VectorLoads and VectorStores together: R95, R140, R160, R162, R163. -/
def Obligations.VectorMemory : Prop := Rules.VectorLoads ∧ Rules.VectorStores

/-- R161: the checks of a vector access in their order: a free-form word that is no format raises FMT; metadata that does not allow the
access DOMAIN; an unaligned consecutive access ALIGN with its address, an unaligned element of the other modes ALIGN with the lowest
such address; an element outside the share XLATE with the lowest such offset. -/
def Rules.VectorAccessTraps : Prop :=
  ∀ (i : Instr) (f : VectorAccess) (s u v : State) (k : Srcs), vectorAccess i = some f → i.wf = true → s.me.getP f.g = true →
    readClean s (f.a :: f.step.toList) = .ok k u →
    meetRegs u (vKeys ((if f.store then [f.vd] else []) ++ f.index.toList) f.m) = .ok () v →
    let words : Word := BitVec.ofNat 64 ((encode i).getD 0 0 + (encode i).getD 1 0 * 2 ^ 32)
    let odd (j : Nat) : Bool := (f.step.isSome || f.index.isSome) && f.letIn v j && f.address v.me k j % (Fmt.width f.fmt / 8) != 0
    (ffHolds v.me.ffWords f.fmt = false → exec i s = .next (takeTrap v .fmt words)) ∧
    (ffHolds v.me.ffWords f.fmt = true →
      ((v.me.metaOf f.vd).tag = 3 ∨ (v.me.metaOf f.vd).tag ≠ 0 ∧ Fmt.isComplex f.fmt = false →
        exec i s = .next (takeTrap v .domain words)) ∧
      ((v.me.metaOf f.vd).tag ≠ 3 → (v.me.metaOf f.vd).tag = 0 ∨ Fmt.isComplex f.fmt = true →
        (f.step = none → f.index = none → (f.base k).toNat % 8 ≠ 0 → exec i s = .next (takeTrap v .align (f.base k))) ∧
        (∀ j, odd j = true → (∀ q, odd q = true → f.address v.me k j ≤ f.address v.me k q) →
          exec i s = .next (takeTrap v .align (BitVec.ofNat 64 (f.address v.me k j)))) ∧
        (∀ j, f.rt.space = .cb → (∀ q, odd q = false) → (f.step = none → f.index = none → (f.base k).toNat % 8 = 0) →
          f.letIn v j = true → f.inside v k j = false →
          (∀ q, f.letIn v q = true → f.inside v k q = false → f.address v.me k j ≤ f.address v.me k q) →
          exec i s = .next (takeTrap v .xlate (BitVec.ofNat 64 (2 ^ 63 + f.address v.me k j % 2 ^ 63))))))

/-- VectorMetadata and VectorAccessTraps together: R142, R159, R161. -/
def Obligations.VectorTraps : Prop := Rules.VectorMetadata ∧ Rules.VectorAccessTraps

/-! ### The array and the transform unit -/

namespace Sys2Proof.Machine

/-- The element of an accumulator tile at a row and a column (R164). -/
def Cell.acc (c : Cell) (tile row col : Nat) : BitVec 32 := SMap.get 0 (SMap.get {} c.tiles tile).words (64 * row + col)

/-- Metadata of a tile. -/
def Cell.accInfo (c : Cell) (tile : Nat) : Meta := (SMap.get {} c.tiles tile).info

/-- R173: quarter units of an array in `n` cycles from ramp position `p`, and the least number of cycles that gives `w` full ones. -/
def quarterUnits (p n : Nat) : Nat :=
  ((List.range n).map fun i => if p + i < 8 then 1 else if p + i < 16 then 2 else if p + i < 24 then 3 else 4).sum
def WorkCycles (p w n : Nat) : Prop := 4 * w ≤ quarterUnits p n ∧ ∀ m, m < n → quarterUnits p m < 4 * w

/-- R170: array cycles at full rate for a reduction length, a free-form format by the width in its word. -/
def arrayCycles (c : Cell) (f : Fmt) (k : Nat) : Nat :=
  if codeBitsOf c f ≤ 6 then (k + 1) / 2 else if codeBitsOf c f ≤ 8 then k else 2 * k

/-- How long an instruction works: a multiplying one its array cycles by the ramp and a table overhead, the others a number of cycles. -/
inductive Work where
  | multiplies (w overhead : Nat)
  | takes (n : Nat)

/-- The instruction stands last in the sequencer's hands, with its operation, its PC and its context as at issue; its work starts 4
cycles on, or with the ramp where that is later, and takes the cycles of R173 (R172); its tiles are ready when the work ends, and
nothing it computes has happened yet. -/
def HandedOver (u t : State) (op : MatOp) (acc k size : Nat) (tiles : List Nat) (work : Work) : Prop :=
  ∃ x : SeqOp, t.me.seqr = u.me.seqr ++ [x] ∧ x.op = op ∧ x.acc = acc ∧ x.pc = u.me.pc ∧ x.issued = u.now ∧
    x.ctx = SMap.get {} u.me.ctxs u.me.ctx.toNat ∧ x.k = k ∧ x.step = 0 ∧ x.done = 0 ∧ x.read = 0 ∧ x.part0 = {} ∧
    x.rows = [] ∧ x.oor = none ∧ x.flags = 0 ∧ x.big = 0 ∧ x.aCell = u.cur ∧ x.bCell = u.cur ∧ x.split = false ∧ x.apart = false ∧
    ((∃ w am f, op = .drain w am f) → x.ty = (u.me.accInfo acc).ty) ∧
    (match work with
      | .multiplies w o => x.ws = max (u.now + 4) x.ramp ∧ t.me.ramp = some x.ramp ∧ (∀ r, u.me.ramp = some r → x.ramp = r) ∧
          x.full = w ∧ o ≤ x.n ∧ WorkCycles (x.ws - x.ramp) w (x.n - o)
      | .takes n => x.ws = u.now + 4 ∧ x.n = n ∧ t.me.ramp = u.me.ramp) ∧
    (∀ n ∈ tiles, x.ws + x.n - 4 ≤ t.me.readyAt (160 + n)) ∧ x.ws + x.n - 4 ≤ t.me.readyAt 132 ∧
    Passes u t size ∧ MemoryKept u t ∧ t.doms = u.doms ∧ t.hub = u.hub ∧ (∀ c, c ≠ u.cur → t.cell c = u.cell c) ∧
    t.me = { u.me.issued t.me with seqr := t.me.seqr, seqBusy := t.me.seqBusy, ramp := t.me.ramp, tiles := t.me.tiles } ∧
    (∀ n i j, t.me.acc n i j = u.me.acc n i j) ∧
    (u.me.seqr = [] → u.me.seqBusy = false → u.me.seqHeld = none → Due t (x.ws + min 16 x.n - 1) (.matrixStepEnd u.cur))

/-- The fields of an operand word (R166): address, stride in bytes, and the count along k. -/
def opAddr (w : Word) : Nat := (w.setWidth 20).toNat
def opStride (w : Word) : Nat := (w.extractLsb' 20 16).toNat
def opK (w : Word) : Nat := (w.extractLsb' 36 12).toNat + 1

/-- An operand word of rows in their order, without a swizzle and inside the carve-out. -/
def PlainWord (c : Cell) (w : Word) (rows bytes : Nat) : Prop :=
  w.getLsbD 56 = false ∧ w.getLsbD 57 = false ∧ w.extractLsb' 48 8 = 0 ∧ opAddr w + rows * opStride w + bytes ≤ c.limC

/-- R167: the physical address of a byte that the array computes; the code of element e, wd bits wide, of the stored row at an address,
packed from its first byte (R123), and zero where a byte of it lies beyond the carve-out; the physical addresses of its bytes. -/
def physByte (w : Word) (x : Nat) : Nat := x ^^^ (x / 2 ^ (w.extractLsb' 48 4).toNat % 2 ^ (w.extractLsb' 52 4).toNat * 8)
def codePlaces (w : Word) (row e wd : Nat) : List Nat :=
  (List.range ((e * wd % 8 + wd + 7) / 8)).map fun i => physByte w (row + e * wd / 8 + i)
def storedCode (c : Cell) (w : Word) (row e wd : Nat) : Nat :=
  let bs := codePlaces w row e wd
  if bs.any (fun x => decide (c.limC ≤ x)) then 0
  else ((List.zip (List.range bs.length) bs).map fun x => (Mem.byte c.sp.bytes x.2).toNat * 256 ^ x.1).sum / 2 ^ (e * wd % 8) % 2 ^ wd

/-- The least member of a list, if it has any. -/
def Least (o : Option Nat) (l : List Nat) : Prop := (o = none ↔ l = []) ∧ ∀ a, o = some a → a ∈ l ∧ ∀ b ∈ l, a ≤ b

/-- R134: the exact sum S of a chunk of products, with whether it sets INVALID; for 16-bit formats each magnitude is cut 48 bit positions
below the leading bit of the largest. -/
def exactTotal (cut : Bool) (ps : List (Machine.Num × Bool)) : Machine.Num × Bool :=
  let vs := ps.map fun p => p.1
  if vs.contains (.inf false) && vs.contains (.inf true) then (.nan, true)
  else if vs.contains .nan then (.nan, ps.any fun p => p.2)
  else
    let tops := vs.filterMap fun v => match v with
      | .fin _ m e _ => if m = 0 then none else some ((Nat.log2 m : Int) + e)
      | _ => none
    let q := tops.foldl max (tops.headD 0) - 48
    let short (v : Machine.Num) : Machine.Num := match v with
      | .fin n m e x => if cut && decide (e < q) then .fin n (m / 2 ^ (q - e).toNat) q x else v
      | v => v
    let negative (v : Machine.Num) : Bool := match v with | .fin n _ _ _ => n | .inf n => n | .nan => false
    (vs.foldl (fun a v => (exactSum a (short v)).1) (.fin (!vs.isEmpty && vs.all negative) 0 0 false), false)

/-- R134: an accumulator word after a chunk of products, and the flags. -/
def accumulated (f : Fmt) (acc : BitVec 32) (ps : List (Machine.Num × Bool)) : BitVec 32 × BitVec 8 :=
  if Fmt.isInt f then
    let v := acc.toInt + (ps.map fun p => match p.1 with | .fin n m e _ => scaled n m e 0 | _ => 0).sum
    (BitVec.ofInt 32 (max (-2 ^ 31) (min v (2 ^ 31 - 1))), if v < -2 ^ 31 ∨ 2 ^ 31 - 1 < v then flagSATD else 0)
  else
    let s := exactTotal (decide (f ∈ ([.bf16, .fp16, .cbf16, .cfp16] : List Fmt))) ps
    let r := round s.1 .fp32 .rne 0
    let x := decodeElem .fp32 acc.toNat
    let y := decodeElem .fp32 r.1
    let z := if x = .nan ∨ y = .nan then (.nan, false) else exactSum x y
    let q := round z.1 .fp32 .rne 0
    (BitVec.ofNat 32 q.1, r.2 ||| q.2 ||| (if s.2 || z.2 then flagINVALID else 0))

/-- A product under way in one element of a tile: values of k done, the products of the chunk still open, the accumulator and the flags. -/
structure Running where
  done : Nat
  opened : List (Machine.Num × Bool)
  acc : BitVec 32
  flags : BitVec 8 := 0

/-- R134: one further value of k, of `k` in chunks of `size`; the products missing from a short last chunk are zero. -/
def Running.feed (f : Fmt) (size k : Nat) (products : Nat → List (Machine.Num × Bool)) (r : Running) (q : Nat) : Running :=
  let o := r.opened ++ products q
  if q + 1 = min k (r.done + size) then
    let a := accumulated f r.acc (if q + 1 - r.done < size then o ++ [(.fin false 0 0 false, false)] else o)
    { done := q + 1, opened := [], acc := a.1, flags := r.flags ||| a.2 }
  else { r with opened := o }

/-- The values of k from `lo` to below `hi`. -/
def Running.upTo (f : Fmt) (size k : Nat) (products : Nat → List (Machine.Num × Bool)) (r : Running) (lo hi : Nat) : Running :=
  (List.range (hi - lo)).foldl (fun r q => Running.feed f size k products r (lo + q)) r

/-- R167, R168: an operand's value in a line along k: a stored row holds the line for one orientation, and numbers k for the other; of an
MX format with the scale of its block, exactly. -/
def lineValue (c : Cell) (w : Word) (inRow : Bool) (ctx : Ctx) (f : Fmt) (k line q : Nat) : Machine.Num :=
  let v := decodeElem (elemOf [ctx.fmta] f)
    (if inRow then storedCode c w (opAddr w + line * opStride w) q (Fmt.width f) else storedCode c w (opAddr w + q * opStride w) line (Fmt.width f))
  if Fmt.isMx f then
    let x := storedCode c w (opAddr w + 64 * opStride w + line * (k / 32)) (q / 32) 8
    (exactProduct v (if x = 0xFF then .nan else .fin false 1 ((x : Int) - 127) false)).1
  else v

/-- R181: the positions of a group in the metadata of row i, if they strictly rise. A byte beyond the carve-out reads zero. -/
def groupPositions (c : Cell) (maddr : Nat) (p : Pat) (k i g : Nat) : Option (List Nat) :=
  let n := match p with | .p24 => 2 | .p14 => 1 | .p48 => 4
  let l := match p with | .p24 => 2 | .p14 => 2 | .p48 => 3
  let row := maddr + i * ((k / 2 ^ l * (n * l) + 63) / 64 * 8)
  let bit (b : Nat) : Nat := if c.limC ≤ row + b / 8 then 0 else if (Mem.byte c.sp.bytes (row + b / 8)).getLsbD (b % 8) then 1 else 0
  let ps := (List.range n).map fun t => ((List.range l).map fun b => bit (g * (n * l) + t * l + b) * 2 ^ b).sum
  if (List.range (n - 1)).all (fun t => decide (ps.getD t 0 < ps.getD (t + 1) 0)) then some ps else none

/-- The products of one element of the result at a value of k, or for `mma.sp` at a stored value (R178, R180, R181). -/
def realProducts (s : State) (m : SeqOp) (f : Fmt) (i j q : Nat) : List (Machine.Num × Bool) :=
  let a := s.cell m.aCell
  let b := s.cell m.bCell
  match m.op with
  | .mma _ wa wb _ | .coop wa wb _ =>
    [exactProduct (lineValue a wa (!wa.getLsbD 56) m.ctx f m.k i q) (lineValue b wb (wb.getLsbD 56) m.ctx f m.k j q)]
  | .gather wa wb _ rows =>
    [exactProduct (decodeElem (elemOf [m.ctx.fmta] f) (storedCode a wa ((opAddr wa + rows.getD i 0 * opStride wa) % 2 ^ 20) q (Fmt.width f)))
      (lineValue b wb (wb.getLsbD 56) m.ctx f m.k j q)]
  | .sparse wa wb maddr _ p =>
    let n := match p with | .p24 => 2 | .p14 => 1 | .p48 => 4
    let big := match p with | .p24 => 4 | .p14 => 4 | .p48 => 8
    match groupPositions a maddr.toNat p (opK wa) i (q / n) with
    | some ps => [exactProduct (decodeElem (elemOf [m.ctx.fmta] f) (storedCode a wa (opAddr wa + i * opStride wa) q (Fmt.width f)))
        (lineValue b wb (wb.getLsbD 56) m.ctx f m.k j (q / n * big + ps.getD (q % n) 0))]
    | none => []
  | _ => []

/-- The format of a real product in the sequencer, and whether it is `mma.ck`. -/
def realFormat : MatOp → Option (Fmt × Bool)
  | .mma ck _ _ f => some (f, ck)
  | .gather _ _ f _ | .sparse _ _ _ f _ | .coop _ _ f => some (f, false)
  | _ => none

/-- The operands read of the chunk still open: none, or lines of equal length, of `mma.sp` as many values in a row as its groups gave. -/
def OpenLines (m : SeqOp) : Prop :=
  m.done ≤ m.read ∧ (m.read < m.k → m.read < m.done + (match realFormat m.op with | some (f, _) => if f = .bf16 ∨ f = .fp16 then 8 else 64 | none => 0)) ∧
  m.read ≤ m.k ∧ m.k ≤ 4096 ∧ (m.read = m.k → m.done = m.k) ∧
  (m.read = m.done → m.part0 = {}) ∧
  (m.read ≠ m.done → m.part0.a.length = 64 ∧
    match m.op with
    | .sparse .. => m.part0.perRow.length = 64 ∧ m.part0.b = [] ∧ ∀ i, i < 64 → (m.part0.perRow.getD i []).length = 64 ∧
        ∀ l ∈ m.part0.perRow.getD i [], l.length = (m.part0.a.getD i []).length
    | _ => m.part0.perRow = [] ∧ m.part0.b.length = 64 ∧ ∀ l ∈ m.part0.a ++ m.part0.b, l.length = m.read - m.done)

/-- The products of the open chunk in one element. -/
def openProducts (m : SeqOp) (i j : Nat) : List (Machine.Num × Bool) :=
  List.zipWith exactProduct (m.part0.a.getD i []) (if m.part0.perRow = [] then m.part0.b.getD j [] else (m.part0.perRow.getD i []).getD j [])

/-- R174: the values of k that a multiplying instruction has read by the end of its step, in proportion to the quarter units (log 7). -/
def readBy (m : SeqOp) : Nat :=
  max m.read (min m.k (quarterUnits (m.ws - m.ramp) (min (16 * (m.step + 1)) m.n) * m.k / (4 * max m.full 1)))

/-- R168: the geometry of a product: operand A with `ka` stored values along k and B with `k` are packed in whole groups where a stored row
holds them, and an MX product has A in rows, B in columns, and whole blocks. -/
def Shaped (a b : Word) (f : Fmt) (ka k : Nat) : Prop :=
  let group := match Fmt.width f with | 4 => 2 | 6 => 4 | _ => 1
  (a.getLsbD 56 = false → ka % group = 0) ∧ (b.getLsbD 56 = true → k % group = 0) ∧
  (Fmt.isMx f = true → a.getLsbD 56 = false ∧ b.getLsbD 56 = true ∧ k % 32 = 0)

/-- R20: a free-form format is used while its control word holds a format. -/
def FormatHeld (c : Cell) (f : Fmt) : Prop :=
  let x := SMap.get {} c.ctxs c.ctx.toNat
  (f = .ffa → LegalFormat (x.fmta.zeroExtend 64)) ∧ (f = .ffb → LegalFormat (x.fmtb.zeroExtend 64)) ∧
  (f = .ffc → LegalFormat (x.fmtc.zeroExtend 64))

/-- R169, R171: the tile of a real product holds integers for an integer format and real numbers for another, untagged, and the tile after
it, for `mma.ck`, untagged real numbers. -/
def TileTyped (c : Cell) (f : Fmt) (acc : Nat) (ck : Bool) : Prop :=
  (c.accInfo acc).ty = Fmt.isInt f ∧ (ck = true → (c.accInfo (acc + 1)).ty = false)
def TileUntagged (c : Cell) (acc : Nat) (ck : Bool) : Prop :=
  (c.accInfo acc).tag = 0 ∧ (ck = true → (c.accInfo (acc + 1)).tag = 0)
def TileFits (c : Cell) (f : Fmt) (acc : Nat) (ck : Bool) : Prop := FormatHeld c f ∧ TileTyped c f acc ck ∧ TileUntagged c acc ck

/-- R198, R199: the descriptors and the two tiles of a complex product agree: a complex format, tiles of real numbers, all of one domain and
block size, and tiles whose exponent offset is the sum of the descriptors'. -/
def ComplexFits (c : Cell) (acc : Nat) (z : Bsz) : Prop :=
  let x := SMap.get {} c.ctxs c.ctx.toNat
  let e := (x.sda.extractLsb' 5 8).toInt + (x.sdb.extractLsb' 5 8).toInt
  let size : BitVec 3 := BitVec.ofNat 3 (Bsz.code z)
  x.sda.extractLsb' 13 8 ≠ 0 ∧ x.sda.extractLsb' 0 2 = 1 ∧ x.sdb.extractLsb' 0 2 = 1 ∧ x.sda.extractLsb' 2 3 = size ∧
  x.sdb.extractLsb' 2 3 = size ∧ ∀ n, n = acc ∨ n = acc + 1 →
    (c.accInfo n).ty = false ∧ (c.accInfo n).tag = 1 ∧ (c.accInfo n).bsz = size ∧ (c.accInfo n).eoff.toInt = e

/-- R177, R200: an untagged tile drains to a real format, with an amax word only if it holds real numbers; a tagged one, with the tile after
it that has the same metadata, to a complex format and without. -/
def DrainFits (c : Cell) (acc : Nat) (b : SReg) (f : Fmt) : Prop :=
  FormatHeld c f ∧ ((c.accInfo acc).tag = 0 → Fmt.isComplex f = false ∧ (b = 0 ∨ (c.accInfo acc).ty = false)) ∧
  ((c.accInfo acc).tag ≠ 0 → Fmt.isComplex f = true ∧ acc % 2 = 0 ∧ c.accInfo acc = c.accInfo (acc + 1) ∧ (c.accInfo acc).ty = false ∧ b = 0)

/-- The scratchpad of a cell has nothing to correct, its accumulators neither, and its tiles list their elements in order. -/
def CleanMemory (c : Cell) : Prop :=
  c.sp.err = [] ∧ c.sp.poison = [] ∧ c.accErr = [] ∧ c.accPoison = [] ∧
  ∀ n, SMap.risesFrom 0 (SMap.get {} c.tiles n).words = true

end Sys2Proof.Machine

/-- R169, R170, R172, R173, R175 to R181, R183, R198: a matrix instruction whose checks pass is handed to the sequencer, with the cycles of
its work: `mma`, `mma.ck`, `mma.co` on a cell alone, `mma.g` with the indices in its register, `mma.sp` and `mma.c` with their counts along
k; `mz` and `mld` with the type of their tile, `mst`, and `mdrain` with its format, alone or with an amax word in the share; an amax word
that the address checks refuse traps as they say. Metadata change at the issue (log 33).
In which order geometry, format and tile are checked is the model's reading where the rules give none (log 34). -/
def Rules.MatrixIssue : Prop :=
  ∀ (s u v : State) (g : PReg) (acc : BitVec 3) (a b c : SReg) (f : Fmt) (vi : VReg) (p : Pat) (z : Bsz) (i32 : Bool) (x : Srcs),
    s.me.getP g = true → acc.toNat < 6 →
    (readWords s [a, b] false false false = .ok x u → Shaped (x.get 0) (x.get 1) f (opK (x.get 0)) (opK (x.get 0)) →
      (∀ i, (i = .mma g acc a b f ∨ i = .mmaCo g acc a b f ∧ (∀ fr, s.myFiring = some fr → fr.logsz = 0)) →
        readWords s [a, b] (match i with | .mmaCo .. => true | _ => false) false false = .ok x u →
        TileFits u.me f acc.toNat false →
        ∃ t, exec i s = .next t ∧ HandedOver u t (.mma false (x.get 0) (x.get 1) f) acc.toNat (opK (x.get 0)) 1 [acc.toNat]
          (.multiplies (arrayCycles u.me f (opK (x.get 0))) 0)) ∧
      (acc.toNat % 2 = 0 → TileFits u.me f acc.toNat true →
        ∃ t, exec (.mmaCk g acc a b f) s = .next t ∧
          HandedOver u t (.mma true (x.get 0) (x.get 1) f) acc.toNat (opK (x.get 0)) 1 [acc.toNat, acc.toNat + 1]
            (.multiplies (arrayCycles u.me f (opK (x.get 0))) 8))) ∧
    (readWords s [a, b] false true false = .ok x u → Shaped (x.get 0) (x.get 1) f (opK (x.get 0)) (opK (x.get 0)) →
      (TileFits u.me f acc.toNat false → meetRegs u [64 + vi.toNat] = .ok () v →
        ∃ t, exec (.mmaG g acc a b f vi) s = .next t ∧
          HandedOver v t (.gather (x.get 0) (x.get 1) f ((List.range 64).map fun j => v.me.element .i32 vi j)) acc.toNat
            (opK (x.get 0)) 2 [acc.toNat] (.multiplies (arrayCycles v.me f (opK (x.get 0))) 16))) ∧
    (readWords s [a, b, c] false true false = .ok x u → (x.get 2).toNat % 8 = 0 → opK (x.get 0) % patM p = 0 →
      Shaped (x.get 0) (x.get 1) f (opK (x.get 0) * patN p / patM p) (opK (x.get 0)) →
      (TileFits u.me f acc.toNat false →
        ∃ t, exec (.mmaSp g acc a b f c p) s = .next t ∧
          HandedOver u t (.sparse (x.get 0) (x.get 1) (x.get 2) f p) acc.toNat (opK (x.get 0) * patN p / patM p) 2 [acc.toNat]
            (.multiplies (arrayCycles u.me f (opK (x.get 0) * patN p / patM p)) 0))) ∧
    (readWords s [a, b] false true true = .ok x u → acc.toNat % 2 = 0 →
      ComplexFits u.me acc.toNat z →
      ∃ t, exec (.mmaC g acc a b z) s = .next t ∧
        HandedOver u t (.complex (x.get 0) (x.get 1) z) acc.toNat (opK (x.get 0)) 1 [acc.toNat, acc.toNat + 1]
          (.multiplies ((if (SMap.get {} u.me.ctxs u.me.ctx.toNat).sda.extractLsb' 13 8 = 0x32 then 4 else 8) * opK (x.get 0)) 0)) ∧
    (∃ t, exec (.mz g acc i32) s = .next t ∧ HandedOver s t .zero acc.toNat 0 1 [acc.toNat] (.takes 4) ∧ t.me.accInfo acc.toNat = { ty := i32 }) ∧
    (readWord s [a] false = .ok x u →
      (∃ t, exec (.mld g acc a i32) s = .next t ∧ HandedOver u t (.load (x.get 0)) acc.toNat 0 1 [acc.toNat] (.takes 64) ∧
        t.me.accInfo acc.toNat = { ty := i32 }) ∧
      ((u.me.accInfo acc.toNat).ty = i32 → ∃ t, exec (.mst g acc a i32) s = .next t ∧
        HandedOver u t (.save (x.get 0)) acc.toNat 0 1 [] (.takes 64) ∧ ∀ n, t.me.accInfo n = u.me.accInfo n)) ∧
    (readWord s [a] true = .ok x u → b = 0 →
      DrainFits u.me acc.toNat b f →
      ∃ t, exec (.mdrain g acc a b f) s = .next t ∧ HandedOver u t (.drain (x.get 0) none f) acc.toNat 0 1 []
        (.takes (if Fmt.isComplex f then 128 else 64)) ∧ ∀ n, t.me.accInfo n = u.me.accInfo n) ∧
    (readWord s [a, b] true = .ok x u → b ≠ 0 →
      DrainFits u.me acc.toNat b f →
      (∀ sp m place, target u b .cb (x.get 1) 4 = .ok (.mem sp m place) v → (v.ramOf v.cur .cb).err = [] → (v.ramOf v.cur .cb).poison = [] →
        ∃ t, exec (.mdrain g acc a b f) s = .next t ∧ HandedOver v t (.drain (x.get 0) (some (m, place)) f) acc.toNat 0 1 [] (.takes 64) ∧
          ∀ n, t.me.accInfo n = u.me.accInfo n) ∧
      (∀ k w, target u b .cb (x.get 1) 4 = .trap k w v → exec (.mdrain g acc a b f) s = .next (takeTrap v k w)))

/-- R166, R168, R169, R171, R175 to R177, R182, R199, R200: a geometry that breaks R168, an empty free-form word and a tile of the other type
raise FMT with the instruction word, in this order, and a tagged tile DOMAIN; `mma.c` and `mdrain` check their descriptors and tiles; an
operand word with a reserved bit raises ILLEGAL with the word, an address or a stride that is no
multiple of 8 ALIGN with it; a store of a tile of the other type raises FMT; and `cfgsel` selects a context at once. -/
def Rules.MatrixChecks : Prop :=
  ∀ (s u : State) (g : PReg) (acc : BitVec 3) (a : SReg) (i32 : Bool) (x : Srcs) (n : BitVec 2), s.me.getP g = true →
    (readClean s [a] = .ok x u →
      let w := x.get 0
      (∀ i, (i = .mld g acc a i32 ∨ i = .mst g acc a i32) →
        (w.extractLsb' 60 4 ≠ 0 ∨ w.extractLsb' 36 12 ≠ 0 ∨ w.getLsbD 57 = true ∨ w.extractLsb' 58 2 ≠ 0 →
          exec i s = .next (takeTrap u .illegal w)) ∧
        (w.extractLsb' 60 4 = 0 → w.extractLsb' 36 12 = 0 → w.getLsbD 57 = false → w.extractLsb' 58 2 = 0 → w.extractLsb' 48 8 = 0 →
          (opAddr w % 8 ≠ 0 → exec i s = .next (takeTrap u .align (BitVec.ofNat 64 (opAddr w)))) ∧
          (opAddr w % 8 = 0 → opStride w % 8 ≠ 0 → exec i s = .next (takeTrap u .align (BitVec.ofNat 64 (opStride w)))) ∧
          (opAddr w % 8 = 0 → opStride w % 8 = 0 → i = .mst g acc a i32 → (u.me.accInfo acc.toNat).ty ≠ i32 →
            exec i s = .next (takeTrap u .fmt (BitVec.ofNat 64 ((encode i).getD 0 0))))))) ∧
    (∀ b f, acc.toNat < 6 → readWords s [a, b] false false false = .ok x u →
      let k := opK (x.get 0)
      let w : Word := BitVec.ofNat 64 ((encode (.mma g acc a b f)).getD 0 0)
      (¬ (Shaped (x.get 0) (x.get 1) f k k ∧ FormatHeld u.me f ∧ TileTyped u.me f acc.toNat false) →
        exec (.mma g acc a b f) s = .next (takeTrap u .fmt w)) ∧
      (Shaped (x.get 0) (x.get 1) f k k → FormatHeld u.me f → TileTyped u.me f acc.toNat false → ¬ TileUntagged u.me acc.toNat false →
        exec (.mma g acc a b f) s = .next (takeTrap u .domain w))) ∧
    (∀ b z, acc.toNat < 6 → acc.toNat % 2 = 0 → readWords s [a, b] false true true = .ok x u → ¬ ComplexFits u.me acc.toNat z →
      let w : Word := BitVec.ofNat 64 ((encode (.mmaC g acc a b z)).getD 0 0)
      let real := (u.me.accInfo acc.toNat).ty = false ∧ (u.me.accInfo (acc.toNat + 1)).ty = false
      let coded := (SMap.get {} u.me.ctxs u.me.ctx.toNat).sda.extractLsb' 13 8 ≠ 0
      exec (.mmaC g acc a b z) s = .next (takeTrap u (if coded ∧ real then .domain else .fmt) w)) ∧
    (∀ f, acc.toNat < 6 → readWord s [a] true = .ok x u → ¬ DrainFits u.me acc.toNat 0 f →
      let w : Word := BitVec.ofNat 64 ((encode (.mdrain g acc a 0 f)).getD 0 0)
      (¬ FormatHeld u.me f ∨ (u.me.accInfo acc.toNat).tag = 0 → exec (.mdrain g acc a 0 f) s = .next (takeTrap u .fmt w)) ∧
      (FormatHeld u.me f → (u.me.accInfo acc.toNat).tag ≠ 0 → exec (.mdrain g acc a 0 f) s = .next (takeTrap u .domain w))) ∧
    (∃ t, exec (.cfgsel g n) s = .next t ∧ Passes s t 1 ∧ t.doms = s.doms ∧ KeepsAll s t { s.me.issued t.me with ctx := n })

/-- MatrixIssue and MatrixChecks together: R166, R168, R169, R170, R171, R172, R173, R175, R177, R181, R182, R183, R198, R199, R200. -/
def Obligations.MatrixIssues : Prop := Rules.MatrixIssue ∧ Rules.MatrixChecks

/-- R174, R175, R176: the end of a step of `mz` leaves the tile zero; of `mld` the 16 rows it has read in their place, each word
little-endian from its stored row. Other tiles stay, and the sequencer goes on. -/
def Rules.TileSteps : Prop :=
  ∀ (s : State) (c : Nat) (m : SeqOp) (rest : List SeqOp), (s.cell c).seqr = m :: rest → (s.cell c).run ≠ .idle →
    (∀ b n x, (s.cell c).wait ≠ .tag b n x) →
    (s.cell c).inject.getLsbD 63 = false → CleanMemory (s.cell c) → m.rows = [] → m.split = false →
    (m.op = .zero → m.n = 4 → m.step = 0 → ∃ t, exec (.matrixStepEnd c) s = .next t ∧
      (∀ i j, (t.cell c).acc m.acc i j = if 64 * i + j < 4096 then 0 else (t.cell c).acc m.acc i j) ∧
      (∀ n, n ≠ m.acc → SMap.get {} (t.cell c).tiles n = SMap.get {} (s.cell c).tiles n) ∧
      (t.cell c).accInfo m.acc = (s.cell c).accInfo m.acc ∧ s.now + 1 ≤ (t.cell c).t ∧ MemoryKept s t) ∧
    (∀ w, m.op = .load w → m.n = 64 → m.step < 4 → m.done = 16 * m.step →
      ∃ t, exec (.matrixStepEnd c) s = .next t ∧
        (∀ i j, i < 64 → j < 64 → (t.cell c).acc m.acc i j =
          let l := if w.getLsbD 56 then j else i
          if m.done ≤ l ∧ l < m.done + 16 then
            BitVec.ofNat 32 (storedCode (s.cell c) w (opAddr w + l * opStride w) (if w.getLsbD 56 then i else j) 32)
          else (s.cell c).acc m.acc i j) ∧
        (m.step < 3 → ∃ m' r, (t.cell c).seqr = m' :: r ∧ Least m'.oor (m.oor.toList ++ ((List.range 16).flatMap fun l =>
          (List.range 64).flatMap fun j => codePlaces w (opAddr w + (m.done + l) * opStride w) j 32).filter fun x => decide ((s.cell c).limC ≤ x))) ∧
        (∀ n, n ≠ m.acc → SMap.get {} (t.cell c).tiles n = SMap.get {} (s.cell c).tiles n) ∧ MemoryKept s t)

/-- R123, R132, R133, R167, R172, R177, R200: a step of `mdrain` converts its lines, 16 of a real format and 8 of a complex one, rows or with
TR = 1 columns: each word by its type, the real part before the imaginary one from the next tile, rounded in the mode of the word and
under RST with the draw of its element in row-major order, whatever the orientation (log 33). The codes lie packed in their stored
rows, without the bytes beyond the carve-out; they come into memory when the work ends, and an amax word is then updated as a strong
atomic 24 cycles later with the largest magnitude. -/
def Rules.DrainSteps : Prop :=
  ∀ (s : State) (c : Nat) (m : SeqOp) (rest : List SeqOp) (w : Word) (am : Option (Nat × Nat)) (f : Fmt),
    (s.cell c).seqr = m :: rest → (s.cell c).run ≠ .idle → (s.cell c).inject.getLsbD 63 = false → CleanMemory (s.cell c) →
    (∀ x ∈ m.rows, x.2.2 = 0xFF) → m.split = false → m.op = .drain w am f → m.acc < 6 →
    let parts := if Fmt.isComplex f then 2 else 1
    let count := 16 / parts
    m.n = 64 * parts → m.step < 4 * parts → m.done = count * m.step →
    let tr := w.getLsbD 56
    let wd := Fmt.width f
    let mode : Rnd := match (w.extractLsb' 58 2).toNat with | 0 => .rne | 1 => .rtz | 2 => .rto | _ => .rst
    let g0 : BitVec 32 := if m.step = 0 then (s.cell c).genD else BitVec.ofNat 32 m.k
    let value (tile i j : Nat) : Machine.Num :=
      let v := (s.cell c).acc tile i j
      if m.ty then .fin (decide (v.toInt < 0)) v.toInt.natAbs 0 false else decodeElem .fp32 v.toNat
    let part (p l q : Nat) : Nat × BitVec 8 :=
      let i := if tr then q else l
      let j := if tr then l else q
      rounded (value (m.acc + p) i j) (elemOf [m.ctx.fmta] f) mode (drawn mode g0 (parts * (64 * i + j) + p))
    let code (l q : Nat) : Nat := (part 0 l q).1 + if parts = 2 then (part 1 l q).1 * 2 ^ (wd / 2) else 0
    let line (l : Nat) : Nat := ((List.range 64).map fun q => code l q * 2 ^ (wd * q)).sum
    let places (l : Nat) : List Nat := (List.range (8 * wd)).map fun b => physByte w (opAddr w + l * opStride w + b)
    let lines := (List.range count).map fun l => m.done + l
    let new := lines.flatMap fun l => (List.zip (List.range (8 * wd)) (places l)).filterMap fun x =>
      if (s.cell c).limC ≤ x.2 then none else some (x.2, BitVec.ofNat 8 (line l / 256 ^ x.1), (0xFF : Byte))
    let big := if am.isSome then (lines.flatMap fun l => (List.range 64).map fun q =>
      ((s.cell c).acc m.acc (if tr then q else l) (if tr then l else q)).toNat % 2 ^ 31).foldl max m.big else m.big
    let flag (b : Nat) : Bool := m.flags.getLsbD b || lines.any fun l => (List.range 64).any fun q =>
      (part 0 l q).2.getLsbD b || (decide (parts = 2) && (part 1 l q).2.getLsbD b)
    ∃ t, exec (.matrixStepEnd c) s = .next t ∧ (t.cell c).genD = drawn mode (s.cell c).genD (64 * parts * count) ∧
      (∀ n i j, (t.cell c).acc n i j = (s.cell c).acc n i j) ∧ OtherMemoryKept s t c .sp ∧
      (m.step + 1 < 4 * parts → MemoryKept s t ∧ ∃ m' r, (t.cell c).seqr = m' :: r ∧ m'.rows = m.rows ++ new ∧ m'.done = m.done + count ∧
        m'.step = m.step + 1 ∧ m'.big = big ∧ (∀ b, b < 8 → m'.flags.getLsbD b = flag b) ∧ (mode = .rst → m'.k = g0.toNat) ∧
        Least m'.oor (m.oor.toList ++ (lines.flatMap places).filter fun x => decide ((s.cell c).limC ≤ x))) ∧
      (m.step + 1 = 4 * parts → (t.cell c).seqr.length = rest.length ∧
        (∀ a, Mem.byte (t.cell c).sp.bytes a = match (m.rows ++ new).reverse.find? (fun x => x.1 == a) with
          | some x => x.2.1
          | none => Mem.byte (s.cell c).sp.bytes a) ∧
        (∀ b, b < 8 → flagOOR.getLsbD b = false → (t.cell c).sticky.getLsbD b = ((s.cell c).sticky.getLsbD b || flag b)) ∧
        ∀ x, am = some x → ∃ y ∈ (t.cell c).pend, y.due = m.ws + m.n + 24 ∧ y.strm = 8 ∧ y.space = .cb ∧ y.strong = true ∧ y.pc = m.pc ∧
          y.upd = .amo 7 x.1 false (BitVec.ofNat 64 big) 0 0 x.2 0 ∧ y.due ≤ (t.cell c).flagsAt)

/-- R134, R168, R174, R178: the integer product. Where one step of an `mma` over signed bytes completes its values of k, at most 64 of
them, each element of the tile becomes the old one plus the sum of products of the row of A and the column of B, clamped to 32 bits. Which
values of k a step completes is the model's reading (log 7). -/
def Rules.SignedProduct : Prop :=
  ∀ (s : State) (c : Nat) (m : SeqOp) (rest : List SeqOp) (a b : Word), (s.cell c).seqr = m :: rest → (s.cell c).run ≠ .idle →
    (s.cell c).inject.getLsbD 63 = false → CleanMemory (s.cell c) → m.rows = [] → m.split = false → m.op = .mma false a b .i8 →
    m.aCell = c → m.bCell = c → m.step = 0 → m.done = 0 → m.read = 0 → m.part0 = {} → m.apart = false → m.k = opK a → m.k ≤ 64 →
    m.oor = none → kAfter (m.ws - m.ramp) m.full m.k (min 16 m.n) = m.k → (∀ b n x, (s.cell c).wait ≠ .tag b n x) →
    PlainWord (s.cell c) a 64 64 → PlainWord (s.cell c) b m.k 64 →
    let byte (w : Word) (i j : Nat) : Int := (Mem.byte (s.cell c).sp.bytes (opAddr w + i * opStride w + j)).toInt
    ∃ t, exec (.matrixStepEnd c) s = .next t ∧
      (∀ i j, i < 64 → j < 64 → ((t.cell c).acc m.acc i j).toInt =
        max (-2 ^ 31) (min (((s.cell c).acc m.acc i j).toInt + ((List.range m.k).map fun q => byte a i q * byte b q j).sum) (2 ^ 31 - 1))) ∧
      (∀ n, n ≠ m.acc → SMap.get {} (t.cell c).tiles n = SMap.get {} (s.cell c).tiles n) ∧ MemoryKept s t

/-- R134, R167, R168, R174, R178, R180, R181, R183: a step of a real product: `mma`, `mma.ck`, `mma.co` (on its own tile), `mma.g` and
`mma.sp`, in every format. Each element of the tile takes the values of k that the step reads (log 7): chunks of 64, or 8 of 16-bit
floats, whose exact sum is rounded to FP32 and added, or for integers added and clamped, as each is complete; the products of the chunk
still open are kept. MX scales apply exactly, elements out of range are zero, groups of metadata that do not rise add nothing and set
SPMETA. A K split's partial stands apart from the tile of every member but the first.
INVALID of 0 × ∞ beside a NaN and the products that a short chunk lacks are the model's reading (logs 31 and 33). -/
def Rules.ProductSteps : Prop :=
  ∀ (s : State) (c : Nat) (m : SeqOp) (rest : List SeqOp) (f : Fmt) (ck : Bool), (s.cell c).seqr = m :: rest → (s.cell c).run ≠ .idle →
    (s.cell c).inject.getLsbD 63 = false → CleanMemory (s.cell c) → CleanMemory (s.cell m.aCell) → CleanMemory (s.cell m.bCell) →
    SMap.risesFrom 0 m.part = true → realFormat m.op = some (f, ck) → m.acc < 6 → OpenLines m →
    (m.split = true → 16 * (m.step + 1) < m.n) → (m.split = false → m.apart = false) →
    (∀ a b rows, m.op = .gather a b f rows → rows.length = 64) →
    (∀ a b w p, m.op = .sparse a b w f p → let big := match p with | .p24 => 4 | .p14 => 4 | .p48 => 8
      opK a % big = 0 ∧ m.k = opK a * (match p with | .p24 => 2 | .p14 => 1 | .p48 => 4) / big) →
    let size := if f = .bf16 ∨ f = .fp16 then 8 else 64
    let word (i j : Nat) : BitVec 32 := if m.apart then SMap.get 0 m.part (64 * i + j) else (s.cell c).acc m.acc i j
    let run (i j : Nat) : Running := Running.upTo f size m.k (realProducts s m f i j) ⟨m.done, openProducts m i j, word i j, 0⟩ m.read (readBy m)
    let bad : Bool := (List.range (readBy m - m.read)).any fun q => (List.range 64).any fun i => (realProducts s m f i 0 (m.read + q)).isEmpty
    let flag (b : Nat) : Bool := m.flags.getLsbD b || (bad && flagSPMETA.getLsbD b) ||
      (List.range 64).any fun i => (List.range 64).any fun j => (run i j).flags.getLsbD b
    ∃ t, exec (.matrixStepEnd c) s = .next t ∧ MemoryKept s t ∧ s.now + 1 ≤ (t.cell c).t ∧
      (m.apart = false → ∀ i j, i < 64 → j < 64 → (t.cell c).acc m.acc i j = (run i j).acc) ∧
      (∀ n i j, n ≠ m.acc ∨ m.apart = true → ¬ (ck = true ∧ n = m.acc + 1 ∧ i < 2) → i < 64 → j < 64 →
        (t.cell c).acc n i j = (s.cell c).acc n i j) ∧
      (∀ d n i j, d ≠ c → (t.cell d).acc n i j = (s.cell d).acc n i j) ∧
      (16 * (m.step + 1) < m.n → ∃ m' r, (t.cell c).seqr = m' :: r ∧ m'.step = m.step + 1 ∧ m'.read = readBy m ∧ OpenLines m' ∧
        (m.apart = true → ∀ i j, i < 64 → j < 64 → SMap.get 0 m'.part (64 * i + j) = (run i j).acc) ∧
        (∀ i j, i < 64 → j < 64 → m'.done = (run i j).done ∧ openProducts m' i j = (run i j).opened) ∧
        (ck = false → ∀ b, b < 8 → m'.flags.getLsbD b = flag b)) ∧
      (m.n ≤ 16 * (m.step + 1) → (t.cell c).seqr.length = rest.length ∧ (ck = false → ∀ b, b < 8 → flagOOR.getLsbD b = false →
        (t.cell c).sticky.getLsbD b = ((s.cell c).sticky.getLsbD b || flag b)))

/-- R134, R179: the checksums of `mma.ck`: rows 0 and 1 of the next tile take, in the chunks of the format, the products of the column sums
of A with the columns of B, and of the rows of A with the row sums of B, each sum over the 64 lines exact and rounded once to FP32, and
always accumulate as FP32. -/
def Rules.ChecksumRows : Prop :=
  ∀ (s : State) (c : Nat) (m : SeqOp) (rest : List SeqOp) (a b : Word) (f : Fmt), (s.cell c).seqr = m :: rest → (s.cell c).run ≠ .idle →
    (s.cell c).inject.getLsbD 63 = false → CleanMemory (s.cell c) → CleanMemory (s.cell m.aCell) → CleanMemory (s.cell m.bCell) →
    m.op = .mma true a b f → m.acc < 5 → OpenLines m → m.split = false → m.apart = false →
    let size := if f = .bf16 ∨ f = .fp16 then 8 else 64
    let valueA (i q : Nat) : Machine.Num := if q < m.read then (m.part0.a.getD i []).getD (q - m.done) .nan
      else lineValue (s.cell m.aCell) a (!a.getLsbD 56) m.ctx f m.k i q
    let valueB (j q : Nat) : Machine.Num := if q < m.read then (m.part0.b.getD j []).getD (q - m.done) .nan
      else lineValue (s.cell m.bCell) b (b.getLsbD 56) m.ctx f m.k j q
    let sum (x : Nat → Machine.Num) : Machine.Num := decodeElem .fp32 (round (exactTotal false ((List.range 64).map fun i => (x i, false))).1 .fp32 .rne 0).1
    let run (products : Nat → List (Machine.Num × Bool)) (w : BitVec 32) : Running :=
      Running.upTo .fp32 size m.k products ⟨m.done, [], w, 0⟩ m.done (readBy m)
    ∃ t, exec (.matrixStepEnd c) s = .next t ∧
      (∀ j, j < 64 → (t.cell c).acc (m.acc + 1) 0 j =
        (run (fun q => [exactProduct (sum fun i => valueA i q) (valueB j q)]) ((s.cell c).acc (m.acc + 1) 0 j)).acc) ∧
      (∀ i, i < 64 → (t.cell c).acc (m.acc + 1) 1 i =
        (run (fun q => [exactProduct (valueA i q) (sum fun j => valueB j q)]) ((s.cell c).acc (m.acc + 1) 1 i)).acc) ∧
      ∀ i j, 2 ≤ i → i < 64 → j < 64 → (t.cell c).acc (m.acc + 1) i j = (s.cell c).acc (m.acc + 1) i j

/-- R134, R174, R198: a step of `mma.c`: each column c holds slot F0 + c mod L of its vector, and takes for each value of k the complex
product with its weight, in slot 0 part by part, the real terms into one tile and the imaginary ones into the next, each part in its
own chunks. -/
def Rules.ComplexProductSteps : Prop :=
  ∀ (s : State) (c : Nat) (m : SeqOp) (rest : List SeqOp) (a b : Word) (z : Bsz), (s.cell c).seqr = m :: rest → (s.cell c).run ≠ .idle →
    (s.cell c).inject.getLsbD 63 = false → CleanMemory (s.cell c) → CleanMemory (s.cell m.aCell) → CleanMemory (s.cell m.bCell) →
    m.op = .complex a b z → m.acc < 5 → m.split = false → m.apart = false → m.k ≤ 4096 → m.done ≤ m.read → m.read ≤ m.k →
    (m.read = m.k → m.done = m.k) →
    let f : Fmt := if m.ctx.sda.extractLsb' 13 8 = 0x32 then .ce4m3 else if m.ctx.sda.extractLsb' 13 8 = 0x31 then .cfp16 else .cbf16
    let size := if f = .ce4m3 then 64 else 8
    let l := min (Bsz.size z / 2) 64
    let h := 2 ^ (Fmt.width f / 2)
    let f0 := if m.ctx.sdb.getLsbD 21 then 64 else 0
    m.read < m.done + size →
    (m.read = m.done → m.part0 = {}) →
    (m.read ≠ m.done → m.part0.perRow = [] ∧ m.part0.a.length = 64 ∧ m.part0.b.length = 64 ∧
      (∀ x ∈ m.part0.a, x.length = 2 * l * (m.read - m.done)) ∧ ∀ x ∈ m.part0.b, x.length = 2 * (m.read - m.done)) →
    let split (code : Nat) : Machine.Num × Machine.Num := (decodeElem (elemOf [] f) (code % h), decodeElem (elemOf [] f) (code / h))
    let weight (i t q : Nat) : Machine.Num × Machine.Num :=
      if q < m.read then ((m.part0.a.getD i []).getD (2 * ((q - m.done) * l + t)) .nan, (m.part0.a.getD i []).getD (2 * ((q - m.done) * l + t) + 1) .nan)
      else split (storedCode (s.cell m.aCell) a (opAddr a + i * opStride a) (q * l + t) (Fmt.width f))
    let input (col q : Nat) : Machine.Num × Machine.Num :=
      if q < m.read then ((m.part0.b.getD col []).getD (2 * (q - m.done)) .nan, (m.part0.b.getD col []).getD (2 * (q - m.done) + 1) .nan)
      else split (storedCode (s.cell m.bCell) b (opAddr b + q * opStride b) col (Fmt.width f))
    let re (i col q : Nat) : List (Machine.Num × Bool) :=
      let w := weight i (col % l) q
      let x := input col q
      if f0 + col % l = 0 then [exactProduct w.1 x.1] else [exactProduct w.1 x.1, exactProduct (opposite w.2) x.2]
    let im (i col q : Nat) : List (Machine.Num × Bool) :=
      let w := weight i (col % l) q
      let x := input col q
      if f0 + col % l = 0 then [exactProduct w.2 x.2] else [exactProduct w.1 x.2, exactProduct w.2 x.1]
    let run (products : Nat → List (Machine.Num × Bool)) (w : BitVec 32) : Running :=
      Running.upTo f size m.k products ⟨m.done, [], w, 0⟩ m.done (readBy m)
    ∃ t, exec (.matrixStepEnd c) s = .next t ∧ MemoryKept s t ∧
      (∀ i j, i < 64 → j < 64 → (t.cell c).acc m.acc i j = (run (re i j) ((s.cell c).acc m.acc i j)).acc ∧
        (t.cell c).acc (m.acc + 1) i j = (run (im i j) ((s.cell c).acc (m.acc + 1) i j)).acc) ∧
      (∀ n i j, n ≠ m.acc → n ≠ m.acc + 1 → i < 64 → j < 64 → (t.cell c).acc n i j = (s.cell c).acc n i j)

/-- R136, R183: at the end of the work of a K split the partials are added to that of the first member in ascending order, each sum rounded
to FP32, or for integers clamped, and every member's tile becomes the result. -/
def Rules.SplitJoined : Prop :=
  ∀ (s : State) (c : Nat) (m : SeqOp) (rest : List SeqOp) (a b : Word) (f : Fmt) (fr : Firing) (ops : Nat → SeqOp),
    (s.cell c).seqr = m :: rest → (s.cell c).run ≠ .idle → (s.cell c).inject.getLsbD 63 = false → CleanMemory (s.cell c) →
    m.op = .coop a b f → m.split = true → m.done = m.k → m.read = m.k → m.n ≤ 16 * (m.step + 1) → m.rows = [] → m.ws ≠ 0 → m.acc < 6 →
    SMap.risesFrom 0 m.part = true →
    (m.joined = true → ∃ t, exec (.matrixStepEnd c) s = .next t ∧ MemoryKept s t ∧
      ∀ i j, i < 64 → j < 64 → (t.cell c).acc m.acc i j = SMap.get 0 m.part (64 * i + j)) ∧
    (m.joined = false → (s.dom (s.cell c).dom).firing (s.cell c).firing = some fr → c ∈ fr.cells → fr.cells.Nodup →
      (∀ p ∈ fr.cells, ∃ r a b, (s.cell p).seqr = ops p :: r ∧ (ops p).op = .coop a b f ∧ (ops p).ordinal = m.ordinal ∧ (ops p).ws ≠ 0 ∧
        (ops p).split = true ∧ (ops p).joined = false ∧ (ops p).done = (ops p).k ∧ SMap.risesFrom 0 (ops p).part = true ∧
        SMap.risesFrom 0 (SMap.get {} (s.cell p).tiles (ops p).acc).words = true) →
      let partial_ (p i j : Nat) : BitVec 32 := if (ops p).apart then SMap.get 0 (ops p).part (64 * i + j) else (s.cell p).acc (ops p).acc i j
      let join (x y : BitVec 32) : BitVec 32 :=
        if Fmt.isInt f then BitVec.ofInt 32 (max (-2 ^ 31) (min (x.toInt + y.toInt) (2 ^ 31 - 1)))
        else
          let p := decodeElem .fp32 x.toNat
          let q := decodeElem .fp32 y.toNat
          BitVec.ofNat 32 (round (if p = .nan ∨ q = .nan then .nan else (exactSum p q).1) .fp32 .rne 0).1
      let total (i j : Nat) : BitVec 32 := match fr.cells with
        | [] => 0
        | p :: r => r.foldl (fun x q => join x (partial_ q i j)) (partial_ p i j)
      ∃ t, exec (.matrixStepEnd c) s = .next t ∧ MemoryKept s t ∧
        (∀ i j, i < 64 → j < 64 → (t.cell c).acc m.acc i j = total i j) ∧
        ∀ p ∈ fr.cells, p ≠ c → ∃ x r, (t.cell p).seqr = x :: r ∧ x.joined = true ∧
          ∀ i j, i < 64 → j < 64 → SMap.get 0 x.part (64 * i + j) = total i j)

/-- SignedProduct, ProductSteps, ChecksumRows, ComplexProductSteps and SplitJoined together: R134, R136, R167, R168, R174, R178, R179, R180, R181, R183, R198. -/
def Obligations.IntegerProduct : Prop := Rules.SignedProduct ∧ Rules.ProductSteps ∧ Rules.ChecksumRows ∧ Rules.ComplexProductSteps ∧ Rules.SplitJoined

/-- R172, R176, R177: the last step of `mst` stores the tile: row i at the word's address plus i strides, four bytes little-endian to each
element; no other byte of any memory changes. -/
def Rules.TileStored : Prop :=
  ∀ (s : State) (c : Nat) (m : SeqOp) (rest : List SeqOp) (w : Word), (s.cell c).seqr = m :: rest → (s.cell c).run ≠ .idle →
    (s.cell c).inject.getLsbD 63 = false → CleanMemory (s.cell c) → m.split = false → m.op = .save w → m.n = 64 → m.step = 3 →
    m.done = 48 → PlainWord (s.cell c) w 64 256 → 256 ≤ opStride w →
    (∀ x ∈ rest, ∀ a b f, x.op ≠ .coop a b f) → m.rows = ((List.range 48).map fun i => (List.range 64).flatMap fun j => (List.range 4).map fun b =>
      (opAddr w + i * opStride w + 4 * j + b, (((s.cell c).acc m.acc i j) >>> (8 * b)).setWidth 8, (0xFF : Byte))).flatten →
    ∃ t, exec (.matrixStepEnd c) s = .next t ∧ (t.cell c).seqr = rest ∧
      (∀ i j, i < 64 → j < 64 → Mem.readN (t.cell c).sp.bytes (opAddr w + i * opStride w + 4 * j) 4 = ((s.cell c).acc m.acc i j).toNat) ∧
      (∀ a, (∀ i, i < 64 → a < opAddr w + i * opStride w ∨ opAddr w + i * opStride w + 256 ≤ a) →
        Mem.byte (t.cell c).sp.bytes a = Mem.byte (s.cell c).sp.bytes a) ∧ OtherMemoryKept s t c .sp

/-- TileSteps, TileStored and DrainSteps together: R123, R132, R133, R167, R172, R174, R175, R176, R177, R200. -/
def Obligations.TileWork : Prop := Rules.TileSteps ∧ Rules.TileStored ∧ Rules.DrainSteps

/-- R110, R170, R173, R183: `mma.co` in a set waits in each member's sequencer until the last member has come; a member whose operand
field names a port raises ILLEGAL and pops nothing, one whose format differs from that of a partner that waits FMT. All then start
together: 8 cycles after the latest issue + 4, or with the latest ramp. KS of the first member's word decides: in space, a member takes A
from the first of its row and B from the first of its column, with the K of that word of A; with K split, each multiplies its own
operands, apart from the tile but for the first, and works 256 + 16 (S − 1) cycles longer, W from the largest K.
Which `mma.co` of the members meet, and when formats are compared, are the model's reading (log 34). -/
def Obligations.CooperatingProductsMeet : Prop :=
  (∀ (s u : State) (g : PReg) (acc : BitVec 3) (a b : SReg) (f : Fmt) (x : Srcs) (fr : Firing), s.me.getP g = true →
    s.myFiring = some fr → 0 < fr.logsz → acc.toNat < 6 →
    let w : Word := BitVec.ofNat 64 ((encode (.mmaCo g acc a b f)).getD 0 0)
    (28 ≤ a.toNat ∨ 28 ≤ b.toNat → exec (.mmaCo g acc a b f) s = .next (takeTrap s .illegal w)) ∧
    (a.toNat < 28 → b.toNat < 28 → readWords s [a, b] true false false = .ok x u →
      Shaped (x.get 0) (x.get 1) f (opK (x.get 0)) (opK (x.get 0)) → TileFits u.me f acc.toNat false →
      let waiting (c : Nat) (y : SeqOp) : Prop := y ∈ (u.cell c).seqr ∧ y.ordinal = u.me.coNo ∧ y.ws = 0 ∧ ∃ p q h, y.op = .coop p q h
      ((∃ c ∈ fr.cells, ∃ y p q h, waiting c y ∧ y.op = .coop p q h ∧ h ≠ f) →
        exec (.mmaCo g acc a b f) s = .next (takeTrap u .fmt w)) ∧
      ((∀ c ∈ fr.cells, ∀ y p q h, waiting c y → y.op = .coop p q h → h = f) →
        ∃ t y, exec (.mmaCo g acc a b f) s = .next t ∧ Passes u t 1 ∧ t.me.seqr = u.me.seqr ++ [y] ∧ y.op = .coop (x.get 0) (x.get 1) f ∧
          y.acc = acc.toNat ∧ y.ws = 0 ∧ y.ordinal = u.me.coNo ∧ t.me.coNo = u.me.coNo + 1 ∧ y.issued = u.now ∧ y.pc = u.me.pc ∧
          y.ctx = SMap.get {} u.me.ctxs u.me.ctx.toNat ∧ t.me.ramp = some y.ramp ∧ (∀ r, u.me.ramp = some r → y.ramp = r) ∧
          MemoryKept u t ∧ t.doms = u.doms ∧ (∀ c, c ≠ u.cur → t.cell c = u.cell c) ∧
          ((∀ i, i < 2 ^ fr.logsz → fr.base + i ≠ u.cur → ∃ y, waiting (fr.base + i) y) →
            Due t u.now (.mmaCoRendezvous fr.dom fr.id u.me.coNo))))) ∧
  (∀ (s : State) (d n k : Nat) (f : Firing) (ops : Nat → SeqOp) (a b : Nat → Word) (fm : Fmt), (s.dom d).firing n = some f →
    f.ended = false →
    let size := 2 ^ f.logsz
    (∀ i, i < size → coWaits s (f.base + i) k = some (ops i) ∧ (ops i).op = .coop (a i) (b i) fm ∧
      ∀ x ∈ (s.cell (f.base + i)).seqr, x.ws = 0 → x.ordinal = k → x = ops i) →
    ∃ (t : State) (start ramp : Nat), exec (.mmaCoRendezvous d n k) s = .next t ∧ t.doms = s.doms ∧ MemoryKept s t ∧
      (∀ i, i < size → (ops i).ramp ≤ ramp ∧ (ops i).issued + 12 ≤ start) ∧ (∃ i, i < size ∧ ramp = (ops i).ramp) ∧ ramp ≤ start ∧
      (start = ramp ∨ ∃ i, i < size ∧ start = (ops i).issued + 12) ∧
      ∀ i, i < size →
        let split := (a 0).getLsbD 57
        let row := if split then i else i / min size 4 * min size 4
        let col := if split then i else i % min size 4
        let wide := if Fmt.isFree fm then (ops i).ctx.fmta.toNat % 16 else Fmt.width fm
        ∃ x ∈ (t.cell (f.base + i)).seqr, x.op = .coop (a row) (b col) fm ∧ x.ordinal = k ∧ x.acc = (ops i).acc ∧ x.pc = (ops i).pc ∧
          x.ws = start ∧ x.ramp = ramp ∧ x.k = opK (a row) ∧ x.aCell = f.base + row ∧ x.bCell = f.base + col ∧ x.split = split ∧
          x.apart = (split && i != 0) ∧ x.read = (ops i).read ∧ x.done = (ops i).done ∧
          (let extra := if split then 256 + 16 * (size - 1) else 0
           extra ≤ x.n ∧ (∀ kk, (if split then (∀ j, j < size → opK (a j) ≤ kk) ∧ (∃ j, j < size ∧ kk = opK (a j)) else kk = x.k) →
             let w := if wide ≤ 6 then (kk + 1) / 2 else if wide ≤ 8 then kk else 2 * kk
             x.full = w ∧ WorkCycles (start - ramp) w (x.n - extra))) ∧
          (∀ r, (s.cell (f.base + i)).seqr = ops i :: r →
            start + x.n - 4 ≤ (t.cell (f.base + i)).readyAt 132 ∧ start + x.n - 4 ≤ (t.cell (f.base + i)).readyAt (160 + x.acc) ∧
            ((s.cell (f.base + i)).seqBusy = false → (s.cell (f.base + i)).seqHeld = none →
              Due t (start + min 16 x.n - 1) (.matrixStepEnd (f.base + i)))))

/-- R191, R194, R195: `xfm.pack` keeps of each block of a full spectrum the bins of its lower half, with that of half the sampling rate
beside that of zero; `xfm.unpack` writes the full block with the conjugates. Both take a group of registers of one tag, block size and
offset, and write one group with the new tag after their latency; every other register stays. A group whose registers differ, or of
another tag or block size, raises DOMAIN. -/
def Rules.TransformMoves : Prop :=
  ∀ (s v : State) (g : PReg) (z : Bsz) (vd va : VReg) (i : Instr) (pack : Bool), s.me.getP g = true → i.wf = true →
    (i = .xfmPack g z vd va ∧ pack = true ∨ i = .xfmUnpack g z vd va ∧ pack = false) →
    let r := Bsz.group z
    let b := Bsz.size z
    let src := if pack then 2 * r else r
    let dst := if pack then r else 2 * r
    let m := v.me.metaOf va
    let word (c : Cell) (reg : VReg) (w : Nat) : Nat := c.element .fp32 (reg + BitVec.ofNat 5 (w / 64)) (w % 64)
    let fits := (∀ q, q < src → v.me.metaOf (va + BitVec.ofNat 5 q) = m) ∧ m.tag = (if pack then 2 else 1) ∧ m.bsz.toNat = Bsz.code z
    meetRegs s ((List.range src).map fun q => 64 + (va + BitVec.ofNat 5 q).toNat) = .ok () v →
    (fits →
      ∃ t, exec i s = .next t ∧ Passes v t 1 ∧ t.doms = v.doms ∧
        (∀ q, q < dst → t.me.metaOf (vd + BitVec.ofNat 5 q) = { tag := if pack then 1 else 2, bsz := m.bsz, eoff := m.eoff } ∧
          v.now + 4 + 4 * r ≤ t.me.readyAt (64 + (vd + BitVec.ofNat 5 q).toNat)) ∧ v.now + 4 * r ≤ t.me.readyAt 131 ∧
        (∀ x : VReg, (∀ q, q < dst → x ≠ vd + BitVec.ofNat 5 q) →
          SMap.get 0 t.me.vreg x.toNat = SMap.get 0 v.me.vreg x.toNat ∧ t.me.metaOf x = v.me.metaOf x) ∧
        (pack = true → ∀ q p, p < b → q * b + p < 64 * r →
          word t.me vd (q * b + p) = word v.me va (q * (2 * b) + if p = 1 then b else p)) ∧
        (pack = false → ∀ q p, p < 2 * b → q * (2 * b) + p < 128 * r →
          word t.me vd (q * (2 * b) + p) =
            let slot := p / 2
            let im (x : Nat) : Nat := if 0x7F800000 < x % 2 ^ 31 then 0x7FC00000 else x ^^^ 2 ^ 31
            if slot = 0 ∨ slot = b / 2 then (if p % 2 = 1 then 0 else word v.me va (q * b + if slot = 0 then 0 else 1))
            else if slot < b / 2 then word v.me va (q * b + p)
            else if p % 2 = 0 then word v.me va (q * b + 2 * (b - slot)) else im (word v.me va (q * b + 2 * (b - slot) + 1))) ∧
        KeepsAll v t { v.me.issued t.me with
          vreg := t.me.vreg, vmeta := t.me.vmeta, regErr := t.me.regErr, regPoison := t.me.regPoison, flagsAt := t.me.flagsAt, vecAt := t.me.vecAt }) ∧
    (¬ fits → exec i s = .next (takeTrap v .domain (BitVec.ofNat 64 ((encode i).getD 0 0))))

/-- R188: of a sum of values times cosines of multiples of 2π/b, the coefficient of cos(2πk/b) for k below b/4, with
cos(π − x) = −cos x. -/
def cosineCoef (b k : Nat) (terms : List (Nat × Int)) : Int :=
  (terms.map fun x =>
    let j := x.1 % b
    if j = k ∨ j + k = b then x.2 else if j + k = b / 2 ∨ j = b / 2 + k then -x.2 else 0).sum

/-- R188, R190, R192 to R195: the transforms of blocks of b values. A part of a bin, or of the inverse a value, is the sum of the inputs
times cosines, a sine being the cosine a quarter turn on; where the sum is rational, the coefficients of the other cosines all zero,
it is exact, scaled by a power of two and rounded once: the bins of zero and of half the sampling rate always are, as every bin and
value that a multiple of a quarter of the block numbers. A block that holds a NaN or an infinity becomes NaNs, and INVALID is set for a
block with an infinity and no NaN, and for nothing else. Both directions write one group with the offset moved by the scale, and no other
register; a group that differs in its metadata, another tag or block size, or an offset out of range raises DOMAIN.
That the cosines are taken with enough places is log 35. -/
def Rules.Transforms : Prop :=
  ∀ (s v : State) (g : PReg) (z : Bsz) (vd va : VReg) (i : Instr) (fwd : Bool), s.me.getP g = true → i.wf = true →
    (i = .xfmFwd g z vd va ∧ fwd = true ∨ i = .xfmInv g z vd va ∧ fwd = false) →
    let r := Bsz.group z
    let b := Bsz.size z
    let m := v.me.metaOf va
    let sh : Int := (Nat.log2 b + 1) / 2
    let e : Int := m.eoff.toInt + if fwd then sh else -sh
    let word (c : Cell) (reg : VReg) (w : Nat) : Nat := c.element .fp32 (reg + BitVec.ofNat 5 (w / 64)) (w % 64)
    let fits := (∀ q, q < r → v.me.metaOf (va + BitVec.ofNat 5 q) = m) ∧ m.tag = (if fwd then 0 else 1) ∧
      (fwd = false → m.bsz.toNat = Bsz.code z) ∧ -128 ≤ e ∧ e ≤ 127
    let block (q : Nat) : List Machine.Num := (List.range b).map fun p => decodeElem .fp32 (word v.me va (q * b + p))
    let plain (x : Machine.Num) : Bool := match x with | .fin .. => true | _ => false
    meetRegs s ((List.range r).map fun q => 64 + (va + BitVec.ofNat 5 q).toNat) = .ok () v →
    (fits →
      ∃ (t : State) (fl : BitVec 8), exec i s = .next t ∧ Passes v t 1 ∧ t.doms = v.doms ∧
        (fl ≠ 0 → Due t (v.now + 8 + 2 * r + Nat.log2 b) (.instructionCompletion v.cur fl)) ∧
        (∀ q, q < r → t.me.metaOf (vd + BitVec.ofNat 5 q) =
            ({ tag := if fwd then 1 else 0, bsz := if fwd then BitVec.ofNat 3 (Bsz.code z) else 0, eoff := BitVec.ofInt 8 e } : Meta) ∧
          v.now + 8 + 2 * r + Nat.log2 b ≤ t.me.readyAt (64 + (vd + BitVec.ofNat 5 q).toNat)) ∧ v.now + 2 * r ≤ t.me.readyAt 131 ∧
        (∀ x : VReg, (∀ q, q < r → x ≠ vd + BitVec.ofNat 5 q) →
          SMap.get 0 t.me.vreg x.toNat = SMap.get 0 v.me.vreg x.toNat ∧ t.me.metaOf x = v.me.metaOf x) ∧
        (∀ k, k < 8 → flagINVALID.getLsbD k = true → (fl.getLsbD k = true ↔ ∃ q, q * b < 64 * r ∧
          (block q).all (fun x => decide (x ≠ .nan)) = true ∧ (block q).any (fun x => !plain x) = true)) ∧
        (∀ q, q * b < 64 * r →
          ((block q).any (fun x => !plain x) = true → ∀ p, p < b → word t.me vd (q * b + p) = 0x7FC00000) ∧
          ((block q).all plain = true → ∀ u : Int, (∀ x ∈ block q, ∀ n k e' d, x = .fin n k e' d → u ≤ e') →
            let val (p : Nat) : Int := match (block q).getD p .nan with | .fin n k e' _ => scaled n k e' u | _ => 0
            let terms (p : Nat) : List (Nat × Int) :=
              if fwd then
                (List.range b).map fun n => (if p = 1 then b / 2 * n else p / 2 * n + if p % 2 = 1 then b / 4 else 0, val n)
              else
                (List.range b).flatMap fun f =>
                  let h := b / 2
                  let re := if f = 0 then val 0 else if f = h then val 1 else val (2 * if f < h then f else b - f)
                  let im := if f = 0 ∨ f = h then 0 else if f < h then val (2 * f + 1) else -val (2 * (b - f) + 1)
                  [(f * p, re), (f * p + b / 4, im)]
            let scale : Int := if fwd then sh else Nat.log2 b - sh
            let part (w : Int) : Nat × BitVec 8 := if w = 0 then (0, 0) else round (.fin (decide (w < 0)) w.natAbs (u - scale) false) .fp32 .rne 0
            ∀ p, p < b → (∀ k, 0 < k → k < b / 4 → cosineCoef b k (terms p) = 0) →
              word t.me vd (q * b + p) = (part (cosineCoef b 0 (terms p))).1 ∧
              fl &&& (part (cosineCoef b 0 (terms p))).2 = (part (cosineCoef b 0 (terms p))).2)) ∧
        KeepsAll v t { v.me.issued t.me with
          vreg := t.me.vreg, vmeta := t.me.vmeta, regErr := t.me.regErr, regPoison := t.me.regPoison, flagsAt := t.me.flagsAt, vecAt := t.me.vecAt }) ∧
    (¬ fits → exec i s = .next (takeTrap v .domain (BitVec.ofNat 64 ((encode i).getD 0 0))))

/-- TransformMoves and Transforms together: R188, R190, R191, R192, R194, R195. -/
def Obligations.SpectralTransforms : Prop := Rules.TransformMoves ∧ Rules.Transforms

/-- R196, R197: `dtag` writes the tag, the block size and the exponent offset of a vector register, a tile or a spectral operand
description, of A with its complex format, of B at b256 with its half. In the order of R197: a word that breaks the table, names a tile
beyond 5 or a reserved target, or has a bit in a field its target does not use raises ILLEGAL with the word; the reserved tag DOMAIN; a
description of A without a complex format, and a tag on a tile of INT32, FMT. With a word from a port, the target is known then: a
register or a tile holds the next issue until earlier writes to it are done (log 33). -/
def Obligations.MetadataWritten : Prop :=
  ∀ (s u : State) (g : PReg) (z : Bsz) (a : SReg) (tag : BitVec 2) (x : Srcs), s.me.getP g = true →
    readClean s [a] = .ok x u →
    let w := x.get 0
    let target := (w.extractLsb' 5 3).toNat
    let n := (w.setWidth 5).toNat
    let bsz : BitVec 3 := if tag = 0 then 0 else BitVec.ofNat 3 (Bsz.code z)
    let eoff := w.extractLsb' 8 8
    let cxf := w.extractLsb' 16 8
    let ins : Word := BitVec.ofNat 64 ((encode (.dtag g z a tag)).getD 0 0)
    let legal := w.extractLsb' 25 39 = 0 ∧
      (target = 0 ∧ cxf = 0 ∧ w.getLsbD 24 = false ∨ target = 1 ∧ n < 6 ∧ cxf = 0 ∧ w.getLsbD 24 = false ∨
       target = 2 ∧ n = 0 ∧ w.getLsbD 24 = false ∨ target = 3 ∧ n = 0 ∧ cxf = 0 ∧ (w.getLsbD 24 = true → z = .b256))
    let does (f : Cell → Cell) : Prop := ∃ t, exec (.dtag g z a tag) s = .next t ∧ Passes u t 1 ∧ t.doms = u.doms ∧
      KeepsAll u t (f (u.me.issued t.me))
    (¬ legal → exec (.dtag g z a tag) s = .next (takeTrap u .illegal w)) ∧
    (legal → tag = 3 → exec (.dtag g z a tag) s = .next (takeTrap u .domain ins)) ∧
    (legal → tag ≠ 3 →
      (target = 2 → cxf ∉ ([0x30, 0x31, 0x32] : List (BitVec 8)) → exec (.dtag g z a tag) s = .next (takeTrap u .fmt ins)) ∧
      (target = 1 → tag ≠ 0 → (u.me.accInfo n).ty = true → exec (.dtag g z a tag) s = .next (takeTrap u .fmt ins)) ∧
      (target = 0 → a.toNat < 28 →
        does fun c => { c with vmeta := SMap.set {} u.me.vmeta n { tag := tag, bsz := bsz, eoff := eoff } }) ∧
      (target = 1 → a.toNat < 28 → (tag = 0 ∨ (u.me.accInfo n).ty = false) →
        does fun c => { c with
          tiles := SMap.set {} u.me.tiles n { SMap.get {} u.me.tiles n with info := { tag := tag, bsz := bsz, eoff := eoff, ty := (u.me.accInfo n).ty } } }) ∧
      (target = 2 → cxf ∈ ([0x30, 0x31, 0x32] : List (BitVec 8)) →
        does fun c => { c with
          ctxs := SMap.set {} u.me.ctxs u.me.ctx.toNat { SMap.get {} u.me.ctxs u.me.ctx.toNat with sda := cxf ++ (eoff ++ (bsz ++ tag)) } }) ∧
      (target = 3 →
        does fun c => { c with
          ctxs := SMap.set {} u.me.ctxs u.me.ctx.toNat { SMap.get {} u.me.ctxs u.me.ctx.toNat with sdb := w.extractLsb' 24 1 ++ ((0 : BitVec 8) ++ (eoff ++ (bsz ++ tag))) } }) ∧
      (28 ≤ a.toNat → (target = 0 ∨ target = 1 ∧ (tag = 0 ∨ (u.me.accInfo n).ty = false)) →
        ∃ t, exec (.dtag g z a tag) s = .next t ∧ PcPasses u t 1 ∧ t.doms = u.doms ∧
          let k := if target = 1 then 160 + n else 64 + n
          let free := u.me.readyAt k ≤ u.now ∧ ∀ m ∈ u.me.seqr, m.ws = 0 → m.acc ≠ n
          (free → t.me.wait = .none ∧ u.now + 1 ≤ t.me.t ∧
            (target = 0 → t.me.metaOf (BitVec.ofNat 5 n) = { tag := tag, bsz := bsz, eoff := eoff }) ∧
            (target = 1 → t.me.accInfo n = { tag := tag, bsz := bsz, eoff := eoff, ty := (u.me.accInfo n).ty })) ∧
          (u.now < u.me.readyAt k → (∀ m ∈ u.me.seqr, m.ws ≠ 0) →
            t.me.wait = .tag (target == 1) n { tag := tag, bsz := bsz, eoff := eoff } ∧
            Due t (u.me.readyAt k) (.instructionCompletion u.cur 0) ∧ t.me.vmeta = u.me.vmeta ∧ t.me.tiles = u.me.tiles)))

/-! ### The end of a firing, and channel ports -/

namespace Sys2Proof.Machine

/-- A port of a firing has had fewer operations than its declared count, or in a fallback after a late record fewer than that and the
records held at its release (R118, R319). -/
def portShort (d : Domain) (f : Firing) (port : Nat) : Prop :=
  ∃ n c, portChan d f port = some (n, c) ∧
    if port < 30 then f.pops port < (if f.fb = true ∧ n ∈ f.late then min c.pop (if port = 28 then f.held0 else f.held1) else c.pop)
    else (f.pushes port).length < c.push

/-- R269, R316: what the commit of one port leaves of channel n: pops leave its head; pushes enter at its tail as far as it holds them,
what exceeds it counted as dropped, or on a channel whose records cross wait in the staging area. -/
def portCommits (d : Domain) (f : Firing) (n : Nat) (x : ChanState) (p : Nat) : ChanState :=
  match portChan d f p with
  | none => x
  | some (m, c) =>
    let counts := max 1 c.cap * (2 ^ 32 / max 1 c.cap)
    if m ≠ n then x
    else if p < 30 then
      { x with queue := x.queue.drop (f.pops p), head := (x.head + min (f.pops p) x.queue.length) % counts }
    else if c.crosses = true then
      let vs := (f.pushes p).take (c.cap - (x.ptail + counts - x.phead) % counts)
      { x with staged := x.staged ++ (List.zip (List.range vs.length) vs).map (fun y => { uid := x.serial + y.1, ofs := y.2.toNat, k := f.entry.k }),
               serial := x.serial + vs.length, commits := x.commits ++ [f.entry.k], ptail := (x.ptail + vs.length) % counts,
               pdrop := x.pdrop + ((f.pushes p).length - vs.length) }
    else
      let vs := (f.pushes p).take (c.cap - x.queue.length)
      { x with queue := x.queue ++ vs, tail := (x.tail + vs.length) % counts, drop := x.drop + ((f.pushes p).length - vs.length) }

/-- A cell past its `done` (R115, R118). -/
def Cell.over (c : Cell) : Cell := { c with run := .finished, wait := .none, ramp := none, rep := 0, repPend := none }

/-- Every cell's scratchpad, every die's LP6 and the host's memory read as before; a cluster's slice may take headers (R268). -/
def SlicesApart (s t : State) : Prop :=
  (∀ a, (∀ c, Mem.byte (t.cell c).sp.bytes a = Mem.byte (s.cell c).sp.bytes a) ∧
    (∀ d, Mem.byte (t.die d).lp6.bytes a = Mem.byte (s.die d).lp6.bytes a) ∧ Mem.byte t.host a = Mem.byte s.host a) ∧
  t.hub = s.hub ∧ t.now = s.now ∧ t.cur = s.cur

end Sys2Proof.Machine

/-- R97, R110, R118, R119, R269, R294, R316: `done` ends a cell's part of a firing, and the last member's ends the firing. With too few
operations on a port that last one raises RATECOUNT with the first such port's encoding; otherwise, where the entry commits at `done` and
no trap of this cycle stops the set, the ports commit in their order, also two of one channel: tentative pops leave their channels, pushes
enter them as far as these hold them or wait to cross, and a mode request goes on its way. `tickw` waits for a cycle of the firing, which
its expiry ends; and `qcnt` counts the records a port offers or the places it has left.
That a `done` in the cycle of a trap of its set does not end the firing, and which ports a fallback may leave short, are the model's
reading (logs 40 and 41). -/
def Obligations.FiringsEnd : Prop :=
  ∀ (s : State) (g : PReg), s.me.getP g = true →
    (s.me.underRep = false → s.cur < 256 →
      (s.myFiring = none → ∃ t, exec (.done g) s = .next t ∧ t.me.pc = s.me.pc ∧ t.doms = s.doms ∧
        KeepsAll s t (Cell.over (s.me.issued t.me))) ∧
      (∀ f, s.myFiring = some f → f.dom = s.me.dom →
        let by_ := (s.cur % 2 ^ f.logsz) :: f.doneBy
        let last := by_.length = 2 ^ f.logsz
        let ends (t : State) : Prop := exec (.done g) s = .next t ∧ t.me = Cell.over (s.me.issued t.me) ∧ t.me.pc = s.me.pc ∧
          t.hub = s.hub ∧ t.now = s.now ∧ (∀ c, c ≠ s.cur → t.cell c = s.cell c) ∧ (∀ d, d ≠ f.dom → t.dom d = s.dom d)
        (¬ last → ∃ t, ends t ∧ MemoryKept s t ∧ t.clusters = s.clusters ∧ (t.dom f.dom).chans = s.me'.chans ∧
          (t.dom f.dom).firings = s.me'.firings.map fun x => if x.id = f.id then { x with doneBy := by_ } else x) ∧
        (last → ∀ p, 28 ≤ p → p < 32 → portShort s.me' f p → (∀ q, 28 ≤ q → q < p → ¬ portShort s.me' f q) →
          exec (.done g) s = .next (takeTrap s .ratecount (BitVec.ofNat 64 p))) ∧
        (last → (∀ p, 28 ≤ p → p < 32 → ¬ portShort s.me' f p) →
          let whole := f.trapped = [] ∧ f.causes = []
          (f.entry.cad = false ∨ ¬ whole → ∃ t, ends t ∧ MemoryKept s t ∧ t.clusters = s.clusters ∧
            (t.dom f.dom).chans = s.me'.chans ∧ (t.dom f.dom).firings = s.me'.firings.map fun x =>
              if x.id = f.id then { x with doneBy := by_, ended := f.trapped.isEmpty && f.causes.isEmpty } else x) ∧
          (f.entry.cad = true → whole → ∃ t, ends t ∧ SlicesApart s t ∧
            (t.dom f.dom).firings = s.me'.firings.map (fun x => if x.id = f.id then
              { x with doneBy := by_, ended := true, pop0 := 0, pop1 := 0, push2 := [], push3 := [], request := none } else x) ∧
            (∀ n, (t.dom f.dom).chan n = ([28, 29, 30, 31].foldl (portCommits s.me' f n) (s.me'.chan n))) ∧
            (∀ mode c, f.request = some (mode, c) → c < 256 →
              Due t (s.now + 64) (.modeRequestPending f.dom mode (c / 64) (c / 16) (c % 16) false)))))) ∧
    (s.me.underRep = false → ∀ (a : SReg) (x : Srcs) (u : State), readClean s [a] = .ok x u →
      (u.myFiring = none → ∃ t, exec (.tickw g a) s = .next t ∧ Passes u t 1 ∧ t.doms = u.doms ∧ KeepsAll u t (u.me.issued t.me)) ∧
      (∀ f, u.myFiring = some f → f.dom = u.me.dom → u.me'.frozen = none →
        ((x.get 0).toNat ≤ u.now - f.release + 1 →
          ∃ t, exec (.tickw g a) s = .next t ∧ Passes u t 1 ∧ t.doms = u.doms ∧ KeepsAll u t (u.me.issued t.me)) ∧
        (u.now - f.release + 1 < (x.get 0).toNat →
          ∃ t, exec (.tickw g a) s = .next t ∧ Passes u t 1 ∧ t.doms = u.doms ∧ KeepsAll u t { u.me.issued t.me with wait := .tickw } ∧
            (f.release + (x.get 0).toNat < f.deadline → Due t (f.release + (x.get 0).toNat) (.tickwExpiry u.cur))))) ∧
    (∀ c, (s.cell c).wait = .tickw → ∃ t, exec (.tickwExpiry c) s = .next t ∧
      CellBecomes s t c { s.cell c with wait := .none, t := max (s.cell c).t s.now }) ∧
    (∀ (d : SReg) (p : BitVec 2),
      ((∀ f, s.myFiring = some f → portChan s.me' f (28 + p.toNat) = none) → Delivers s s (.qcnt g d p) d 0 none 1 1) ∧
      (∀ f n c, s.myFiring = some f → portChan s.me' f (28 + p.toNat) = some (n, c) → (2 ≤ p.toNat → c.crosses = false) →
        Delivers s s (.qcnt g d p) d (BitVec.ofNat 64 (if p.toNat < 2 then (s.me'.chan n).queue.length - f.pops (28 + p.toNat)
          else c.cap - (s.me'.chan n).queue.length - (f.pushes (28 + p.toNat)).length)) none 1 1))

/-- R320, R321: `str.send` pushes on an output port whose records cross, and sets QMIS on any other; `str.recv` pops an input port, sets
QMIS and delivers zero on one that is not bound so, raises STREAMLATE with the channel where a record is owed, and waits otherwise;
a waiting one is looked at again where records may have come, and goes on in the next cycle.
STREAMLATE of a channel with an end at the host is the model's reading (log 18). -/
def Obligations.StreamPorts : Prop :=
  ∀ (s : State) (g : PReg) (p : BitVec 1), s.me.getP g = true →
    (∀ (b : SReg) (x : Srcs) (u : State), readClean s [b] = .ok x u →
      ((∀ f n c, u.myFiring = some f → portChan u.me' f (30 + p.toNat) = some (n, c) → c.kind ≠ 3) →
        ∃ t, exec (.strSend g p b) s = .next t ∧ Passes u t 1 ∧ t.doms = u.doms ∧ KeepsAll u t { u.me.issued t.me with
          sticky := u.me.sticky ||| flagQMIS, stickyNow := t.me.stickyNow, stickyAt := t.me.stickyAt }) ∧
      (∀ f n c, u.myFiring = some f → portChan u.me' f (30 + p.toNat) = some (n, c) → c.kind = 3 →
        (c.push ≤ (f.pushes (30 + p.toNat)).length →
          exec (.strSend g p b) s = .next (takeTrap u .ratecount (BitVec.ofNat 64 (30 + p.toNat)))) ∧
        ((f.pushes (30 + p.toNat)).length < c.push → ∃ t, exec (.strSend g p b) s = .next t ∧ Passes u t 1 ∧
          t.me = u.me.issued t.me ∧ MemoryKept u t ∧ t.hub = u.hub ∧ (∀ e, e ≠ u.me.dom → t.dom e = u.dom e) ∧
          { t.me' with firings := u.me'.firings } = u.me' ∧ t.me'.firings =
            u.me'.firings.map fun y => if y.id = f.id then y.addPush (30 + p.toNat) (x.get 0) else y))) ∧
    (∀ d : SReg,
      ((∀ f n c, s.myFiring = some f → portChan s.me' f (28 + p.toNat) = some (n, c) → c.kind ≠ 3) →
        Delivers s (s.flagged flagQMIS) (.strRecv g d p) d 0 none 1 1) ∧
      (∀ f n c, s.myFiring = some f → portChan s.me' f (28 + p.toNat) = some (n, c) → c.kind = 3 →
        let q := (s.me'.chan n).queue.length
        (f.pops (28 + p.toNat) < c.pop → f.pops (28 + p.toNat) < q → ∃ y u, readSrcs s [BitVec.ofNat 5 (28 + p.toNat)] [] = .ok y u ∧
          Delivers s u (.strRecv g d p) d (y.get 0) none 1 1) ∧
        (f.pops (28 + p.toNat) < c.pop → q ≤ f.pops (28 + p.toNat) → 0 < (s.me'.chan n).owed →
          exec (.strRecv g d p) s = .next (takeTrap s .streamlate (BitVec.ofNat 64 n))) ∧
        (f.pops (28 + p.toNat) < c.pop → q ≤ f.pops (28 + p.toNat) → (s.me'.chan n).owed = 0 →
          ∃ t, exec (.strRecv g d p) s = .next t ∧ Passes s t 1 ∧ t.doms = s.doms ∧
            KeepsAll s t { s.me.issued t.me with wait := .recv d (28 + p.toNat) s.me.pc }))) ∧
    (∀ (k : Nat) (d : SReg) (pc n : Nat) (f : Firing) (c : Chan), k = s.cur → (s.cell k).wait = .recv d (28 + p.toNat) pc →
      s.myFiring = some f → portChan s.me' f (28 + p.toNat) = some (n, c) → c.kind = 3 → f.pops (28 + p.toNat) < c.pop → d.toNat < 28 →
      (f.pops (28 + p.toNat) < (s.me'.chan n).queue.length → ∃ y u t, readSrcs s [BitVec.ofNat 5 (28 + p.toNat)] [] = .ok y u ∧
        exec (.strRecvPass k) s = .next t ∧ (t.cell k).wait = .none ∧ (t.cell k).t = max (s.cell k).t (s.now + 1) ∧
        (d ≠ 0 → (t.cell k).getS d = y.get 0 ∧ (t.cell k).getD d = false) ∧ t.doms = u.doms ∧ MemoryKept s t ∧
        ∀ q, q ≠ d → (t.cell k).getS q = (s.cell k).getS q ∧ (t.cell k).getD q = (s.cell k).getD q) ∧
      ((s.me'.chan n).queue.length ≤ f.pops (28 + p.toNat) → (s.me'.chan n).owed = 0 → exec (.strRecvPass k) s = .next s))

/-! ### Copy engines and LP6 -/

namespace Sys2Proof.Machine

/-- A copy instruction in its parts (R239). -/
structure CopyForm where
  g : PReg
  op : Nat
  e : Bool
  a : SReg
  b : Option SReg
  tok : Tok
  rnd : Rnd

/-- The six copy instructions. -/
def copyForm : Instr → Option CopyForm
  | .cpNd g e a tok => some ⟨g, 0, e, a, none, tok, .rne⟩
  | .cpCvt g e a tok rnd => some ⟨g, 1, e, a, none, tok, rnd⟩
  | .cpCrc g e a b tok => some ⟨g, 2, e, a, some b, tok, .rne⟩
  | .cpFill g e a b tok => some ⟨g, 3, e, a, some b, tok, .rne⟩
  | .cpAlias g e a tok => some ⟨g, 4, e, a, none, tok, .rne⟩
  | .cpRtn g e a b tok => some ⟨g, 5, e, a, some b, tok, .rne⟩
  | _ => none

/-- The only copy command of a cell. -/
def OnlyCommand (s : State) (e c : Nat) (m : Cmd) : Prop := c < 256 ∧ (s.cell c).queue = [m] ∧ m.eng = e ∧ c / 16 = e / 2

/-- R245: CRC-32C of a further byte, reflected. -/
def crcOf (x : BitVec 32) (b : Byte) : BitVec 32 :=
  (List.range 8).foldl (fun x _ => if x.getLsbD 0 then (x >>> 1) ^^^ 0x82F63B78 else x >>> 1) (x ^^^ b.zeroExtend 32)

/-- The bytes of elements of w bits, packed from the first bit (R123), and the element codes of bytes. -/
def packedBytes (w : Nat) (vs : List Nat) : List Byte :=
  let v := ((List.zip (List.range vs.length) vs).map fun x => x.2 % 2 ^ w * 2 ^ (w * x.1)).sum
  (List.range (vs.length * w / 8)).map fun k => BitVec.ofNat 8 (v / 256 ^ k)
def codesOf (w n : Nat) (bs : List Byte) : List Nat :=
  let v := ((List.zip (List.range bs.length) bs).map fun x => x.2.toNat * 256 ^ x.1).sum
  (List.range n).map fun i => v / 2 ^ (w * i) % 2 ^ w

/-- The command's only beat is moved: its bytes are on their way to the cell's scratchpad, performed 32 cycles after the step's start,
when the command completes; no memory changes before, and no other cell. -/
def BeatMoved (s t : State) (e c q : Nat) (m m' : Cmd) (bytes : List Byte) : Prop :=
  MemoryKept s t ∧ t.doms = s.doms ∧ (∀ k, k ≠ c → k < 256 → t.cell k = s.cell k) ∧
  (∃ id, (t.engine e).writes = (s.engine e).writes ++ [⟨id, 0, c, s.now + 32,
      (List.range bytes.length).map fun k => (q / 8 + k, bytes.getD k 0, 0xFF), []⟩] ∧ Due t (s.now + 32) (.storePerformed (256 + e) id)) ∧
  Due t (s.now + 32) (.commandCompletion e c) ∧ (t.cell c).queue = [m'] ∧ m'.id = m.id ∧ m'.beats = [] ∧ m'.finishing = some (s.now + 32)

/-- The cause stands with the firing of a cell, which ends at the end of the cycle (R294). -/
def Raised (s t : State) (c pc : Nat) (k : Cause) (v : Word) : Prop :=
  ∀ f, (s.dom (s.cell c).dom).firing (s.cell c).firing = some f → f.ended = false →
    ∃ g ∈ (t.dom (s.cell c).dom).firings, g.id = f.id ∧ g.causes = f.causes ++ [(c, pc, k, v)]

/-- Two dies are one, or both ends of the link between them carry traffic (R313, R326): of two neighbours, the one port's to the next die
and that die's to the one before. -/
def LinkCarries (s : State) (a b : Nat) : Prop :=
  a = b ∨ if (a + 1) % 4 = b then (s.port (2 * a + 1)).st = 0 ∧ (s.port (2 * ((a + 1) % 4))).st = 0
    else (s.port (2 * a)).st = 0 ∧ (s.port (2 * ((a + 3) % 4) + 1)).st = 0

end Sys2Proof.Machine

/-- R237, R239, R242: a copy instruction reads its registers and its descriptor and takes 5 slots; its checks come 4 cycles after its
issue. There a deferred fault raises MEMERR, a descriptor address that is no multiple of 8 ALIGN, a reserved code of NDM, SK, DK, SFF or
DFF ILLEGAL, each with the address or the register; a command that passes joins its cell's queue, and starts once the earlier ones of its
stream are done and the stores of g0 performed; a start lays out every element of the traversal in beats. That the descriptor is read at the
issue and checked 4 cycles later is the model's reading (log 17). -/
def Obligations.CopyCommands : Prop :=
  (∀ (i : Instr) (f : CopyForm) (s u : State) (x : Srcs), copyForm i = some f → s.me.getP f.g = true →
    readSrcs s (f.a :: f.b.toList) [] = .ok x u → x.dfr = none → (x.get 0).toNat % 8 = 0 → (x.get 0).toNat + 128 ≤ u.me.limC →
    Delivered u 0 .sp (x.get 0).toNat 128 →
    ∃ t y, exec i s = .next t ∧ PcPasses u t 1 ∧ t.me.t = max u.me.t (u.now + 5) ∧ t.doms = u.doms ∧
      KeepsAll u t { u.me.issued t.me with wait := .copy y } ∧ y.eng = 2 * clusterOf u.cur + f.e.toNat ∧ y.op = f.op ∧
      y.due = u.now + 4 ∧ y.pc = u.me.pc ∧ y.dfr = none ∧ y.a = x.get 0 ∧ y.b = x.get 1 ∧ y.tok = f.tok.toNat ∧ y.rnd = f.rnd ∧
      y.desc = ((List.range 16).map fun k => BitVec.ofNat 64 (u.load 0 .sp ((x.get 0).toNat + 8 * k) 8)) ∧
      Due t (u.now + 4) (.commandStart y.eng u.cur)) ∧
  (∀ (s : State) (c : Nat) (x : CopyAsk), c < 256 → (s.cell c).wait = .copy x → x.due = s.now →
    let traps (k : Cause) (v : Word) : Prop :=
      exec (.commandStart x.eng c) s = .next (trapAt (s.modCell c fun y => { y with wait := .none }) c x.pc k v)
    let w := x.desc.getD 0 0
    let joins (t : State) (m : Cmd) : Prop := exec (.commandStart x.eng c) s = .next t ∧ t.nextId = s.nextId + 1 ∧ t.doms = s.doms ∧
      t.cell c = { s.cell c with wait := .none, queue := (s.cell c).queue ++ [m] } ∧ (∀ k, k ≠ c → t.cell k = s.cell k) ∧
      MemoryKept s t ∧ m.id = s.nextId ∧ m.eng = x.eng ∧ m.op = x.op ∧ m.desc = x.desc ∧ m.b = x.b ∧ m.tok = x.tok ∧ m.started = false
    (∀ r, x.dfr = some r → traps .memerr (r.zeroExtend 64)) ∧
    (x.dfr = none → x.a.toNat % 8 ≠ 0 → traps .align x.a) ∧
    (x.dfr = none → x.a.toNat % 8 = 0 → (6 ≤ (w.setWidth 3).toNat ∨ w.getLsbD 5 = true ∨ w.getLsbD 8 = true ∨
      w.extractLsb' 25 2 = 3 ∨ w.extractLsb' 27 2 = 3) → traps .illegal x.a) ∧
    (copyTrap s c x = none →
      (∀ m0, (s.cell c).queue.find? (fun y => y.eng == x.eng) = some m0 → m0.started = true → ∃ t m, joins t m ∧ t.agenda = s.agenda) ∧
      ((∀ y ∈ (s.cell c).queue, y.eng ≠ x.eng) → (∃ a ∈ (s.cell c).pend, a.strm = 0 ∧ s.now < a.due) →
        ∃ t m, joins t m ∧ Due t m.h (.commandStart x.eng c) ∧ ∀ a ∈ (s.cell c).pend, a.strm = 0 → a.due ≤ m.h))) ∧
  (∀ (s : State) (e c : Nat) (m : Cmd), OnlyCommand s e c m → (s.cell c).wait = .none → m.started = false → m.h ≤ s.now → m.op = 0 →
    m.walking = none → dKind m.desc false ≠ 2 → dKind m.desc true ≠ 2 →
    ∃ t m', exec (.commandStart e c) s = .next t ∧ (t.cell c).queue = [m'] ∧ m'.id = m.id ∧ m'.desc = m.desc ∧ m'.started = true ∧
      (m'.beats.map fun b => b.n).sum = (dExts m.desc).foldl (· * ·) 1 ∧ m'.tiles = [] ∧ MemoryKept s t ∧ t.doms = s.doms ∧
      ((s.engine e).busy = false → ∃ n, s.now ≤ n ∧ Due t n (.engineStep e)))

/-- R123, R131 to R133, R225, R238, R243 to R248: what the step of an engine moves that takes the last beat of a command into a scratchpad:
`cp.nd` the bytes read; `cp.cvt` each element rounded to the destination's format, under RST with the engine's next draws, its flags kept
for the completion; `cp.crc` the bytes, taken into the running CRC; `cp.fill` the low bits of the pattern; `cp.alias` the elements of the
line that the aperture has gathered; `cp.rtn` its input into SB0, after which the routine starts, and its output out of SB1.
When a step reads and its writes are performed is the model's reading (log 37). -/
def Rules.EngineSteps : Prop :=
  ∀ (s : State) (e c q : Nat) (m : Cmd) (b : Beat), OnlyCommand s e c m → m.op < 6 →
    (s.engine e).owner = (if m.op = 5 then some c else none) →
    (∀ k, k / 16 = e / 2 → k ≠ c → ∀ y ∈ (s.cell k).queue, y.eng ≠ e) → (s.cell c).sp.err = [] → (s.cell c).sp.poison = [] →
    m.started = true → m.finishing = none → m.lpWrites = 0 → m.heldAt = none → m.beats = [b] →
    let ws := dBits m.desc false
    let wd := dBits m.desc true
    let source (p : Nat) : Prop := b.src = .mem p ∧ dKind m.desc false = 0 ∧ dSww m.desc false = 0 ∧ p % 8 = 0 ∧ b.n * ws % 8 = 0
    let read (p : Nat) : List Byte := (List.range (b.n * ws / 8)).map fun k => Mem.byte (s.cell c).sp.bytes (p / 8 + k)
    let target := b.dst = .mem q ∧ dKind m.desc true = 0 ∧ dSww m.desc true = 0 ∧ q % 8 = 0 ∧ b.n * wd % 8 = 0 ∧ 0 < b.n * wd
    let stepped (m' : Cmd → Prop) (gen : BitVec 32) (bytes : List Byte) : Prop :=
      ∃ t x, exec (.engineStep e) s = .next t ∧ BeatMoved s t e c q m x bytes ∧ (t.engine e).genC = gen ∧ m' x
    (m.op = 0 → ∀ p, source p → target → ws = wd → stepped (fun x => x.crc = m.crc ∧ x.flags = m.flags) (s.engine e).genC (read p)) ∧
    (m.op = 1 → ∀ p f g, source p → target → dFmt m.desc false = some f → dFmt m.desc true = some g → Fmt.isComplex f = Fmt.isComplex g →
      Fmt.isMx f = false → Fmt.isMx g = false →
      let parts := if Fmt.isComplex f then 2 else 1
      let value (v : Nat) (k : Nat) : Machine.Num := decodeElem (elemOf m.ff f) (if parts = 1 then v else v / 2 ^ (ws / 2 * k) % 2 ^ (ws / 2))
      let part (v j k : Nat) : Nat × BitVec 8 := rounded (value v k) (elemOf m.ff g) m.rnd (drawn m.rnd (s.engine e).genC (parts * j + k))
      let codes := codesOf ws b.n (read p)
      let new := (List.zip (List.range b.n) codes).map fun x =>
        (part x.2 x.1 0).1 + if parts = 2 then (part x.2 x.1 1).1 * 2 ^ (wd / 2) else 0
      stepped (fun x => ∀ k, k < 8 → x.flags.getLsbD k = (m.flags.getLsbD k || (List.zip (List.range b.n) codes).any fun y =>
          (part y.2 y.1 0).2.getLsbD k || (decide (parts = 2) && (part y.2 y.1 1).2.getLsbD k)))
        (drawn m.rnd (s.engine e).genC (parts * b.n)) (packedBytes wd new)) ∧
    (m.op = 2 → ∀ p, source p → target → ws = wd → m.crcBits = (0, 0) →
      stepped (fun x => x.crc = (read p).foldl crcOf m.crc ∧ x.crcBits = (0, 0)) (s.engine e).genC (read p)) ∧
    (m.op = 3 → b.src = .out → target → stepped (fun x => x.oor = m.oor) (s.engine e).genC (packedBytes wd (List.replicate b.n m.b.toNat))) ∧
    (m.op = 4 → ∀ (d : BitVec 512) (u p : Nat) (l : Line), b.src = .tile u p → sideTensor s c m false = some d → tHome d = 0 → target → ws = wd →
      dKind m.desc false = 2 → p % 8 = 0 → p / 8 % 64 + b.n * ws / 8 ≤ 64 → m.tiles = [] → m.lines = [l] → l.tile = u → l.idx = p / 512 →
      l.bytes.length = 64 → l.poison = [] → (s.engine e).cache = [] →
      stepped (fun x => x.lines = []) (s.engine e).genC ((l.bytes.drop (p / 8 % 64)).take (b.n * ws / 8))) ∧
    (m.op = 5 → m.phase = 0 → ∀ p, source p → m.sbPos % 8 = 0 → ∃ t x, exec (.engineStep e) s = .next t ∧ MemoryKept s t ∧ t.doms = s.doms ∧
      (t.cell c).queue = [x] ∧ x.id = m.id ∧ x.phase = 1 ∧ x.sbPos = m.sbPos + b.n * ws ∧ Due t (s.now + 32) (.routineStart e) ∧
      (∀ k, k < b.n * ws / 8 → Mem.byte (t.engine e).core.sp.bytes (m.sbPos / 8 + k) = (read p).getD k 0) ∧
      ∀ a, a < m.sbPos / 8 ∨ m.sbPos / 8 + b.n * ws / 8 ≤ a → Mem.byte (t.engine e).core.sp.bytes a = Mem.byte (s.engine e).core.sp.bytes a) ∧
    (m.op = 5 → m.phase = 2 → b.src = .out → target → m.sbPos % 8 = 0 →
      stepped (fun x => x.phase = 2) (s.engine e).genC ((List.range (b.n * wd / 8)).map fun k =>
        let a := m.sbPos / 8 + k
        if a < m.outLen ∧ a < 65536 then Mem.byte (s.engine e).core.sp.bytes (65536 + a) else 0))

/-- R220 to R223, R245, R251, R256: a completion frees the queue entry, writes the CRC of `cp.crc`, adds 1 to the semaphore and writes the
completion word that the descriptor asks for, with the flags of the conversions and the comparison of the CRC. A walk puts a valid entry
into the translation cache, most recently used, and the translation goes on; an entry that is not valid raises XLATE.
The times of walks and the key of a cache entry are the model's reading (log 36). -/
def Rules.CompletionsAndWalks : Prop :=
  (∀ (s : State) (e c : Nat) (m : Cmd), OnlyCommand s e c m → (s.cell c).wait = .none → m.finishing = some s.now → m.op < 5 →
    m.crcBits = (0, 0) → dBarv m.desc = false → Fmt.isMx ((dFmt m.desc true).getD .n8) = false →
    Fmt.isMx ((dFmt m.desc false).getD .n8) = false →
    let k := c / 16
    let share := s.shareSize (s.cell c).dom k
    let bytes := ((dExts m.desc).foldl (· * ·) 1 * dBits m.desc true + 7) / 8
    let slice := (s.cluster k).slice.bytes
    let slice' (t : State) := (t.cluster k).slice.bytes
    let at_ (o : Nat) := s.shareByte (s.cell c).dom k o
    let flag (f : BitVec 8) (v : Nat) : Nat := if m.flags &&& f ≠ 0 then v else 0
    let check := m.op = 2 ∧ (m.desc.getD 12 0).getLsbD 24 = true
    let crc := m.op = 2 ∧ dCrcofs m.desc + 4 ≤ share
    let word := dCmpv m.desc = true ∧ dCmpofs m.desc + 8 ≤ share
    ∃ t, exec (.commandCompletion e c) s = .next t ∧ t.cell c = { s.cell c with queue := [] } ∧
      (∀ j, j ≠ c → t.cell j = s.cell j) ∧ t.doms = s.doms ∧ t.host = s.host ∧ t.dies = s.dies ∧
      (∀ n, (SMap.get 0 (t.cluster k).sems n).toNat = if dSemv m.desc = true ∧ n = dSem m.desc then
        min ((SMap.get 0 (s.cluster k).sems n).toNat + 1) (2 ^ 32 - 1) else (SMap.get 0 (s.cluster k).sems n).toNat) ∧
      (word → Mem.readN (slice' t) (at_ (dCmpofs m.desc)) 8 =
        1 + m.oor.toNat * 2 + flag flagINVALID 4 + flag flagOVERFLOW 8 + flag flagUNDERFLOW 16 + flag flagSATD 32 +
          (if check then 64 + if ~~~m.crc = (m.desc.getD 12 0).extractLsb' 32 32 then 128 else 0 else 0) +
          m.poisoned.toNat * 256 + m.short.toNat * 512 + min bytes (2 ^ 32 - 1) * 2 ^ 32) ∧
      (crc → (word → at_ (dCmpofs m.desc) + 8 ≤ at_ (dCrcofs m.desc) ∨ at_ (dCrcofs m.desc) + 4 ≤ at_ (dCmpofs m.desc)) →
        Mem.readN (slice' t) (at_ (dCrcofs m.desc)) 4 = (~~~m.crc).toNat) ∧
      (∀ x, (word → x < at_ (dCmpofs m.desc) ∨ at_ (dCmpofs m.desc) + 8 ≤ x) →
        (crc → x < at_ (dCrcofs m.desc) ∨ at_ (dCrcofs m.desc) + 4 ≤ x) → Mem.byte (slice' t) x = Mem.byte slice x)) ∧
  (∀ (s : State) (e c tile : Nat) (m : Cmd) (d : BitVec 512) (v : Word), OnlyCommand s e c m → m.walking = some (some s.now) →
    m.tiles = [(true, tile)] → sideTensor s c m true = some d → tHome d = 0 →
    (¬ LinkCarries s (c / 64) (tDie d) → exec (.tileWalk e c) s = .next s) ∧
    (LinkCarries s (c / 64) (tDie d) →
    let tid := dTid m.desc true
    let a := tileTable s (s.cell c).dom tid m.dstVer d + 8 * tile
    let die := s.die (tDie d)
    SMap.get 0 die.lineErr (a / 64) = 0 → die.lp6.err = [] → die.lp6.poison = [] → Mem.readN die.lp6.bytes a 8 = v.toNat →
    ((List.range 64).countP fun i => v.getLsbD i) % 2 = 0 →
    (v.getLsbD 0 = true → v.getLsbD 1 = true → v.getLsbD 2 = false → v.extractLsb' 3 2 ≠ 3 → v.extractLsb' 5 7 = 0 →
      v.extractLsb' 48 15 = 0 →
      (let size := if v.extractLsb' 3 2 = 0 then 2 ^ 12 else if v.extractLsb' 3 2 = 1 then 2 ^ 16 else 2 ^ 21
       (v.extractLsb' 12 36).toNat * 4096 % size = 0 ∧ tBytes d ≤ size) →
      ∃ t m', exec (.tileWalk e c) s = .next t ∧ MemoryKept s t ∧
        (t.engine e).cache.head? = some ((((s.cell c).dom * 2 ^ 16 + tid) * 2 ^ 32 + (tile + 2 ^ 31 * m.dstVer), v)) ∧
        (t.cell c).queue = [m'] ∧ m'.id = m.id ∧ m'.tiles = [] ∧ m'.walking = none ∧
        ((s.engine e).busy = false → ∃ n, Due t n (.engineStep e))) ∧
    (v.getLsbD 0 = false → ∃ t, exec (.tileWalk e c) s = .next t ∧
      Raised s t c m.pc .xlate (BitVec.ofNat 64 (tid * 2 ^ 32 + tile % 2 ^ 31)))))

/-- EngineSteps and CompletionsAndWalks together: R123, R131, R133, R220, R223, R225, R238, R243, R245, R248, R251, R256. -/
def Obligations.EngineWork : Prop := Rules.EngineSteps ∧ Rules.CompletionsAndWalks

/-- R248, R249: a routine starts on the engine's core with its state clear but for s1, the command's argument, and s2, the number of bytes
read, and its two buffers (log 23); it may run for its RWCET, and one that has not ended by then is stopped: the core runs no more, and the
firing that issued the command has OVERRUN. -/
def Obligations.RoutineStartsAndOverruns : Prop :=
  ∀ (s : State) (e c : Nat) (m : Cmd), OnlyCommand s e c m → (s.engine e).owner = some c → m.op = 5 →
    (m.phase = 1 → (s.engine e).core.run ≠ .running →
      ∃ t, exec (.routineStart e) s = .next t ∧
        let k := (t.engine e).core
        k.run = .running ∧ k.pc = 0 ∧ k.t = s.now ∧ k.getS 1 = m.b ∧ k.getS 2 = BitVec.ofNat 64 (m.sbPos / 8) ∧
        (∀ r : SReg, r ≠ 1 → r ≠ 2 → k.getS r = 0) ∧ k.vreg = [] ∧ k.mask = [] ∧ k.pred = [] ∧ k.sticky = 0 ∧
        k.sp = (s.engine e).core.sp ∧ k.limC = 2 ^ 17 ∧ k.dom = (s.cell c).dom ∧
        SMap.get [] k.code k.block = ((s.engine e).routine (s.cell c).dom (dRid m.desc)).2 ∧
        Due t (s.now + ((s.engine e).routine (s.cell c).dom (dRid m.desc)).1) (.routineOverrun e) ∧
        (∀ j, j < 256 → t.cell j = s.cell j) ∧ t.doms = s.doms ∧ MemoryKept s t) ∧
    ((s.engine e).core.run = .running → ∃ t, exec (.routineOverrun e) s = .next t ∧ (t.engine e).core.run = .idle ∧
      Raised s t c m.pc .overrun (BitVec.ofNat 64 (2 ^ 62 + dRid m.desc)) ∧ MemoryKept s t) ∧
    ((s.engine e).core.run ≠ .running → exec (.routineOverrun e) s = .next s)

/-- R213 to R215, R223, R225: a slot of an LP6 channel serves the requests that are ready, in the order in which they became so, up to three
lines or one walk alone: its owner's where it has any, otherwise those of best-effort commands and of the supervisor; a service slot those
of the supervisor, of tensors in the host's memory and of best-effort commands (log 24). A read is delivered 112 cycles after the slot's
start, with the line as it stands then, one through the aperture 64 later with the elements of the transposed tile; a write is performed
then, under its masks; a walk ends 40 cycles after it. A refresh slot carries nothing. -/
def Obligations.Lp6SlotsServed : Prop :=
  ∀ (s : State) (d ch : Nat),
    let slot := s.tcyc / 8
    ((∀ r ∈ (s.die d).reqs, r.addr / 64 % 8 = ch ∧ r.ready ≤ s.now ∧ r.cell < 256 ∧ r.cell / 64 = d ∧ r.host = false ∧
        (∃ m ∈ (s.cell r.cell).queue, m.id = r.cmd) ∧ (r.op = .read ∨ (∃ w, r.op = .gather w) ∨ r.op = .walk)) →
      ((s.die d).reqs.map fun r => r.id).Nodup → ((s.die d).reqs.Pairwise fun x y => x.ready ≤ y.ready) →
      (slotOwners s d ch slot).length ≤ 1 → slot % 32 ≠ 31 →
      let rs := (s.die d).reqs
      let own := rs.filter fun r => (slotOwners s d ch slot).contains r.dom && r.cls == .owned
      let others := rs.filter fun r => r.cls == .best || (r.cls == .owned && r.dom == 8)
      let service := rs.filter fun r => r.cls != .owned || r.dom == 8
      let pick := if slot % 32 = 15 then service else if own = [] then others else own
      let lines := (pick.takeWhile fun r => r.op != .walk).take 3
      let served := if lines = [] then pick.take 1 else lines
      ∃ t, exec (.lp6Slot d ch) s = .next t ∧ MemoryKept s t ∧ t.doms = s.doms ∧ (∀ j, j ≠ d → t.die j = s.die j) ∧
        (t.die d).reqs = rs.filter (fun r => !served.contains r) ∧
        (t.die d).inFlight = (s.die d).inFlight ++ served.filter (fun r => r.op != .walk) ∧
        ∀ r ∈ served, if r.op = .walk then Due t (s.now + 40) (.tileWalk r.eng r.cell) ∧
          (∀ m, (s.cell r.cell).queue = [m] → (t.cell r.cell).queue = [{ m with walking := some (some (s.now + 40)) }])
          else Due t (s.now + 112 + r.extra) (.lp6Delivery d ch r.id)) ∧
    (∃ t, exec (.lp6Refresh d ch) s = .next t ∧ (t.die d).reqs = (s.die d).reqs ∧ (t.die d).inFlight = (s.die d).inFlight ∧
      (t.die d).lp6 = (s.die d).lp6 ∧ (∀ j, j ≠ d → t.die j = s.die j) ∧ t = { s with dies := t.dies, agenda := t.agenda } ∧
      ((∃ r ∈ (s.die d).reqs, r.addr / 64 % 8 = ch) → ∃ n, s.now < n ∧ n ≤ s.now + 8 ∧
        (Due t n (.lp6Slot d ch) ∨ Due t n (.lp6Refresh d ch)))) ∧
    (∀ (id : Nat) (r : LpReq) (m : Cmd), (s.die d).inFlight.find? (fun y => y.id == id) = some r → r.host = false → r.cell < 256 →
      r.cell / 64 = d → (s.cell r.cell).queue = [m] → m.id = r.cmd →
      (r.op = .read → SMap.get 0 (s.die d).lineErr (r.addr / 64) = 0 →
        ∃ t, exec (.lp6Delivery d ch id) s = .next t ∧ MemoryKept s t ∧ t.doms = s.doms ∧
        (t.cell r.cell).queue = [{ m with lines := m.lines ++ [⟨r.tile, r.idx, Mem.bytesAt (s.die d).lp6.bytes (64 * (r.addr / 64)) 64,
          (List.range 8).filter fun w => SMap.get false (s.die d).lp6.poison (8 * (r.addr / 64) + w)⟩] }] ∧
        (t.die d).inFlight = (s.die d).inFlight.filter fun y => y.id != id) ∧
      (∀ w, r.op = .gather w → (w = 8 ∨ w = 16) → (s.die d).lineErr = [] → (s.die d).lp6.poison = [] →
        ∃ t, exec (.lp6Delivery d ch id) s = .next t ∧ MemoryKept s t ∧ t.doms = s.doms ∧
        (t.cell r.cell).queue = [{ m with lines := m.lines ++ [⟨r.tile, r.idx, (List.range 64).map fun j =>
          let frame := r.addr - 64 * r.idx
          let element := (64 * r.idx + j) / (w / 8)
          Mem.byte (s.die d).lp6.bytes (frame + (64 * (element % 64) + element / 64) * (w / 8) + j % (w / 8)), []⟩] }]) ∧
      (∀ bs ps, r.op = .write bs ps → SMap.get 0 (s.die d).lineErr (r.addr / 64) = 0 → (bs.map fun w => w.1).Nodup →
        ∃ t m', exec (.lp6Delivery d ch id) s = .next t ∧
        (∀ w ∈ bs, Mem.byte (t.die d).lp6.bytes w.1 = (Mem.byte (s.die d).lp6.bytes w.1 &&& ~~~w.2.2) ||| (w.2.1 &&& w.2.2)) ∧
        (∀ a, (∀ w ∈ bs, w.1 ≠ a) → Mem.byte (t.die d).lp6.bytes a = Mem.byte (s.die d).lp6.bytes a) ∧
        (∀ j, j ≠ d → t.die j = s.die j) ∧ t.clusters = s.clusters ∧ t.host = s.host ∧ t.doms = s.doms ∧
        (t.cell r.cell).queue = [m'] ∧ m'.id = m.id ∧ m'.lpWrites = m.lpWrites - 1))

/-! ### Links and power -/

namespace Sys2Proof.Machine

/-- A supervisor's instruction that only takes its slot. -/
def OnlySlot (i : Instr) (s u : State) : Prop :=
  ∃ t, exec i s = .next t ∧ Passes u t 1 ∧ t.doms = u.doms ∧ KeepsAll u t (u.me.issued t.me)

/-- Nothing changes but the hub's ports and the agenda. -/
def PortsOnly (s t : State) : Prop := t = { s with hub := { s.hub with ports := t.hub.ports }, agenda := t.agenda }

/-- An instruction of the supervisor took its slot, and but for its cell nothing changed outside the hub's ports, the count of free
values and the agenda. -/
def LinkSlotTaken (u t : State) : Prop :=
  Passes u t 1 ∧ t.me = u.me.issued t.me ∧ (∀ c, c ≠ u.cur → t.cell c = u.cell c) ∧ MemoryKept u t ∧ t.doms = u.doms ∧
  t.clusters = u.clusters ∧ t.dies = u.dies ∧ t.hub = { u.hub with ports := t.hub.ports }

/-- R331: a binding in an active or standby bank uses a cell of the cluster, which holds a column or a carve-out of it, or has placed a
tensor in its share. -/
def ClusterInUse (s : State) (k : Nat) : Prop :=
  ∃ d, d < 9 ∧ ∃ b ∈ (s.dom d).boundBanks, (∃ y ∈ b.limits, y.1 / 16 = k) ∨ (∃ t ∈ b.tables, ∃ y ∈ t.columns, y.1 / 16 = k) ∨
    ∃ y ∈ b.tensors, tHome y.2 = 1 ∧ tCluster y.2 = k

/-- The first cycle after `n` in which a slot starts (R315). -/
def SlotStart (s : State) (n m : Nat) : Prop := n < m ∧ m ≤ n + 8 ∧ (m + s.hub.clockOfs) % 8 = 0

/-- R351: an expander delivers `n` bytes beside a cell whose CW.XINJ becomes that of `y`. Where the word is armed for the port they are
counted, and the one with the number it holds is flipped and disarms it. -/
def ExpanderFlips (x y : Cell) (here : Prop) (n : Nat) (flipped : Nat → Nat → Prop) (kept : Prop) : Prop :=
  let k := (x.xinj.extractLsb' 8 24).toNat
  let armed := x.xinj.getLsbD 63 = true ∧ here
  (¬ armed → y = x ∧ kept) ∧
  (armed → ¬ (x.xinjCount ≤ k ∧ k < x.xinjCount + n) → y = { x with xinjCount := x.xinjCount + n } ∧ kept) ∧
  (armed → x.xinjCount ≤ k → k < x.xinjCount + n →
    y = { x with xinj := x.xinj &&& 0x7FFFFFFFFFFFFFFF, xinjCount := x.xinjCount + n } ∧
    flipped (k - x.xinjCount) (x.xinj.extractLsb' 2 3).toNat)

end Sys2Proof.Machine

/-- R325, R326, R327 and R329: `lnk.stat` reads a port's status word or the die's power word, and raises ILLEGAL on a code of 6 or more;
the supervisor's link instructions raise ILLEGAL with the register that names no port they serve, leave a port in another state than
they accept unchanged, and otherwise pause the port at the end of its slot, map a lane to a spare, start the training of the modules
named, or bring the link up at the first tick boundary 64 cycles on. Each of these takes its effect when its time has come: the pause and
the resume clear and set the state, the training leaves the modules that trained, and a failed lane takes a spare while there is one,
then its module runs at x32, a span port at x4 and at x2, then not at all, and a port with no module left is down (log 76). Which modules
train is a free value (log 4). -/
def Rules.LinkControl : Prop :=
  (∀ (s u : State) (g : PReg) (d a : SReg) (x : Srcs), s.me.getP g = true → readClean s [a] = .ok x u → u.cur < 288 →
    let n := (x.get 0).toNat
    let die := dieOf u.cur
    let p := u.port (match n with | 0 => 2 * die | 1 => 2 * die + 1 | 2 => 8 + die | n => 8 + n)
    let e := u.die die
    (6 ≤ n → exec (.lnkStat g d a) s = .next (takeTrap u .illegal (x.get 0))) ∧
    (n = 3 → Delivers s u (.lnkStat g d a) d ((0 : BitVec 6) ++ e.last ++ BitVec.ofInt 11 e.loanR ++ BitVec.ofInt 11 e.loanL ++
      BitVec.ofNat 11 (diePeak u die) ++ BitVec.ofInt 12 e.pend ++ e.bud) none 1 1) ∧
    (n < 6 → n ≠ 3 → p.st = 4 → Delivers s u (.lnkStat g d a) d 4 none 1 1) ∧
    (n < 2 → p.st ≠ 4 → Delivers s u (.lnkStat g d a) d
      (p.late ++ p.spare ++ p.crce ++ p.retry ++ (0 : BitVec 4) ++ p.modhalf ++ p.modon ++ BitVec.ofBool p.alert ++ p.st) none 1 1) ∧
    (n = 2 → p.st ≠ 4 → Delivers s u (.lnkStat g d a) d ((0 : BitVec 8) ++ p.spare ++ (0 : BitVec 36) ++ (p.modhalf &&& 1) ++
      (p.modon &&& 1) ++ (0 : BitVec 1) ++ p.st) none 1 1) ∧
    (n = 4 ∨ n = 5 → p.st ≠ 4 → Delivers s u (.lnkStat g d a) d (p.late ++ p.spare ++ p.crce ++ p.retry ++ (0 : BitVec 4) ++
      (p.modhalf &&& 3) ++ (p.modon &&& 1) ++ BitVec.ofBool p.alert ++ p.st) none 1 1)) ∧
  (∀ (s u : State) (g : PReg) (a b : SReg) (x : Srcs) (i : Instr), s.me.getP g = true → s.me.dom = 8 → u.cur < 256 →
    ((i = .lnkPause g a ∨ i = .lnkResume g a) ∧ readClean s [a] = .ok x u ∨
      (i = .lnkRemap g a b ∨ i = .lnkTrain g a b) ∧ readClean s [a, b] = .ok x u) →
    let n := (x.get 0).toNat
    let v := x.get 1
    let die := dieOf u.cur
    let k := if n < 2 then 2 * die + n else 8 + n
    let p := u.port k
    let bad := (i = .lnkRemap g a b ∧ (2 ^ 9 ≤ v.toNat ∨ 4 ≤ n ∧ (v.setWidth 2 ≠ 0 ∨ 8 ≤ (v.extractLsb' 2 6).toNat))) ∨
      (i = .lnkTrain g a b ∧ (2 ^ 8 ≤ v.toNat ∨ 4 ≤ n ∧ (v.extractLsb' 1 3 ≠ 0 ∨ v.extractLsb' 6 2 ≠ 0)))
    (n ∉ [0, 1, 4, 5] → exec i s = .next (takeTrap u .illegal (x.get 0))) ∧
    (n ∈ [0, 1, 4, 5] → bad → exec i s = .next (takeTrap u .illegal v)) ∧
    (n ∈ [0, 1, 4, 5] → ¬ bad → (i = .lnkPause g a → p.st ≠ 0) → (i ≠ .lnkPause g a → p.st ≠ 1) → OnlySlot i s u) ∧
    (n ∈ [0, 1, 4, 5] → i = .lnkPause g a → p.st = 0 → ∃ t m, exec i s = .next t ∧ LinkSlotTaken u t ∧ t.hub = u.hub ∧
      SlotStart u u.now m ∧ Due t m (.linkPauseEffect k) ∧
      ∀ q, peerPort k = some q → Due t (max m (u.now + 64)) (.linkPauseEffect q)) ∧
    (n ∈ [0, 1, 4, 5] → i = .lnkResume g a → p.st = 1 → ∃ t m, exec i s = .next t ∧ LinkSlotTaken u t ∧ t.hub = u.hub ∧
      u.now + 64 ≤ m ∧ m < u.now + 64 + 4096 ∧ (m + u.hub.clockOfs) % 4096 = 0 ∧ Due t m (.linkResumeEffect k)) ∧
    (n ∈ [0, 1, 4, 5] → ¬ bad → i = .lnkTrain g a b → p.st = 1 → ∃ t m y h l, exec i s = .next t ∧ LinkSlotTaken u t ∧
      t.port k = { p with st := 2 } ∧ (∀ q, peerPort k = some q → q ≠ k → (t.port q).st = 2) ∧ m ≤ u.now + 16 * 4096 ∧
      Due t m (.linkTrainDone k y h l) ∧ y &&& (if n < 2 then (v.setWidth 4).toNat else (v.setWidth 1).toNat) = y) ∧
    (n < 2 → die < 4 → ¬ bad → i = .lnkRemap g a b → p.st = 1 →
      let w := 2 * (v.setWidth 2).toNat + (v.extractLsb' 8 1).toNat
      (4 ≤ SMap.get 0 p.used w → OnlySlot i s u) ∧
      (SMap.get 0 p.used w < 4 → ∃ t, exec i s = .next t ∧ LinkSlotTaken u t ∧ (t.port k).spare = satAdd8 p.spare 1 ∧
        SMap.get 0 (t.port k).used w = SMap.get 0 p.used w + 1 ∧ (t.port k).st = 1 ∧
        ∀ q, q ≠ k → peerPort k ≠ some q → t.port q = u.port q)) ∧
    (n = 4 ∨ n = 5 → ¬ bad → i = .lnkRemap g a b → p.st = 1 → OnlySlot i s u)) ∧
  (∀ (s : State) (k : Nat),
    ((s.port k).st ≠ 0 → exec (.linkPauseEffect k) s = .next s) ∧
    ((s.port k).st = 0 → ∃ t, exec (.linkPauseEffect k) s = .next t ∧ t.port k = { s.port k with st := 1 } ∧
      (∀ q, q ≠ k → t.port q = s.port q) ∧ MemoryKept s t ∧ ∀ c, t.cell c = s.cell c) ∧
    ((s.port k).st ≠ 1 → exec (.linkResumeEffect k) s = .next s) ∧
    ((s.port k).st = 1 → ∃ t, exec (.linkResumeEffect k) s = .next t ∧ PortsOnly s t ∧
      t.port k = { s.port k with st := 0, retry := 0, crce := 0, late := 0, alert := false }) ∧
    (k < 8 → ∀ run half lat, (s.port k).st = 2 → ∃ t, exec (.linkTrainDone k run half lat) s = .next t ∧ PortsOnly s t ∧
      t.port k = { s.port k with
        st := if run % 16 = 0 then 3 else 1, modon := BitVec.ofNat 4 run, modhalf := BitVec.ofNat 4 half &&& BitVec.ofNat 4 run }) ∧
    (∀ m lane rx, (s.port k).st = 4 → exec (.laneFailure k m lane rx) s = .next s) ∧
    (∀ m lane rx, (if k < 8 then 4 else 1) ≤ m → exec (.laneFailure k m lane rx) s = .next s) ∧
    (k < 14 → ∀ m lane rx, m < (if k < 8 then 4 else 1) → (s.port k).st ≠ 4 → ∃ t, exec (.laneFailure k m lane rx) s = .next t ∧
      MemoryKept s t ∧ (∀ q, q ≠ k → peerPort k ≠ some q → t.port q = s.port q) ∧
      (let p := s.port k
       let w := 2 * m + Bool.toNat rx
       let bit (n : Nat) : BitVec 4 := BitVec.ofNat 4 (2 ^ n)
       let down (x : Port) : Port := if x.modon = 0 then { x with st := 3 } else x
       if k < 12 ∧ SMap.get 0 p.used w < 4 then PortsOnly s t ∧ t.port k = { p with spare := satAdd8 p.spare 1, used := (t.port k).used } ∧
         SMap.get 0 (t.port k).used w = SMap.get 0 p.used w + 1
       else if k < 12 ∧ p.modhalf.getLsbD m = true ∨ 12 ≤ k ∧ p.modhalf.getLsbD 0 = true ∧ p.modhalf.getLsbD 1 = true then
         t.port k = down { p with modon := p.modon &&& ~~~(bit m) }
       else t.port k = down { p with modhalf := p.modhalf ||| (if 12 ≤ k ∧ p.modhalf.getLsbD 0 = true then 2 else bit m) })))

/-- R316 to R319, R324, R343, R351: in a slot that the binding assigned to a firing, the committed records that fit leave, read from their
staging places, and at the slot's end the producer's HEAD grows by them and late records are counted; at the firing's last slot, the
records that no commit has made are late. The other end delivers the bytes 48 cycles after the slot's end. At the firing's cycle A the
records that have left are at the consumer, and those that are missing are owed; a late record, or one from another device, lowers what is
owed or counts ahead. A replayed flit counts in RETRY and CRCE, with ALERT at 256. Which link slot belongs to a firing, and the slots'
numbers on the agenda, are the model's form (logs 56, 57). -/
def Rules.LinkTraffic : Prop :=
  (∀ (s : State) (p d n slot : Nat) (c : Chan) (e : Entry) (i m : Nat) (xs : List Staged), slot < 512 → d < 9 →
    slotEntry s d (sendDir p) = some (e, i, m) → slotTaken s d (sendDir p) slot = false → carrying s p = true →
    (s.port p).replayAt ≠ s.now → (∀ k, flipWaits s p k = false) → (sentBy s d p).filter (fun y => y.2.fstg == e.stage) = [(n, c)] →
    ((s.dom d).chan n).staged = xs → (∀ x ∈ xs, x.k = e.k ∧ x.late = false ∧ x.sent = []) → 0 < c.size →
    xs.length * c.size ≤ payloadNow p (s.port p) → c.spanOut = false →
    let v := (s.dom d).chan n
    let last := i + 1 = m
    ∃ t, exec (.linkSlot p (512 * (d + 1) + slot)) s = .next t ∧ MemoryKept s t ∧
      (t.dom d).chan n = { v with
        staged := [], leaving := v.leaving + xs.length, commits := if last then v.commits.filter (fun k => k != e.k) else v.commits,
        inFlight := v.inFlight ++ xs.map fun x => { x with sent := stagedBytes s d c.phome x.ofs c.size } } ∧
      (t.port p).lateNow = (s.port p).lateNow + (if last ∧ e.k ∉ v.commits then c.push else 0) ∧
      Due t (s.now + 8) (.linkSlot p (slot + 5120)) ∧
      (p < 8 → xs ≠ [] → (t.port p).segs = (s.port p).segs ++ xs.map (fun x => ⟨s.now + 56, d, n, x.uid, 0, c.size⟩) ∧
        Due t (s.now + 56) (.linkSlot p (slot + 10240)))) ∧
  (∀ (s : State) (p slot : Nat), 5120 ≤ slot → slot < 10240 → ∃ t, exec (.linkSlot p slot) s = .next t ∧
    t.port p = { s.port p with late := satAdd8 (s.port p).late (s.port p).lateNow, lateNow := 0 } ∧
    (∀ q, q ≠ p → t.port q = s.port q) ∧ SlicesApart s { t with hub := s.hub }) ∧
  (∀ (s : State) (p slot : Nat), 10240 ≤ slot → p < 8 → (∀ c, (s.cell c).xinj.getLsbD 63 = false) →
    ∃ t, exec (.linkSlot p slot) s = .next t ∧ PortsOnly s t ∧ (∀ q, q ≠ p → t.port q = s.port q) ∧
      t.port p = { s.port p with segs := (s.port p).segs.filter fun g => decide (s.now < g.due) }) ∧
  (∀ (s : State) (p slot c : Nat) (g : Seg), 10240 ≤ slot → p < 8 → c < 256 → (s.cells.map fun y => y.1).Nodup →
    (∀ k, k ≠ c → (s.cell k).xinj.getLsbD 63 = false) → (s.port p).segs = [g] → g.due ≤ s.now →
    ∃ t, exec (.linkSlot p slot) s = .next t ∧ (t.port p).segs = [] ∧ (∀ k, k ≠ c → t.cell k = s.cell k) ∧
      ExpanderFlips (s.cell c) (t.cell c) (if p % 2 = 0 then (p / 2 + 3) % 4 = c / 64 ∧ (s.cell c).xinj.setWidth 2 = (1 : BitVec 2)
        else (p / 2 + 1) % 4 = c / 64 ∧ (s.cell c).xinj.setWidth 2 = (0 : BitVec 2)) g.count
        (fun i b => ((t.dom g.dom).chan g.chan).inFlight = ((s.dom g.dom).chan g.chan).inFlight.map fun y =>
          if y.uid = g.uid then { y with sent := y.sent.modify (g.first + i) fun z => (z.1 ^^^ BitVec.ofNat 8 (2 ^ b), z.2) } else y)
        (t.doms = s.doms)) ∧
  (∀ (s : State) (d n : Nat) (b : Binding) (tab : Table) (c : Chan), (s.dom d).active = some b → (s.dom d).table = some tab →
    tab.chans[n]? = some c → c.spanOut = false →
    let v := (s.dom d).chan n
    (∀ count k,
      let h := (v.inFlight.filter fun x => x.k == k).length
      v.queue.length + h ≤ c.cap → ∃ t, exec (.streamArrival d n count k) s = .next t ∧
        (let w := (t.dom d).chan n
         w.queue.length = v.queue.length + h ∧ w.queue.take v.queue.length = v.queue ∧ w.owed = v.owed + (count - h - v.got) ∧
         w.got = v.got - (count - h) ∧ w.inFlight = v.inFlight.filter (fun x => x.k != k) ∧ w.drop = v.drop)) ∧
    (∀ x r, v.lateFlight = x :: r → v.queue.length < c.cap → ∃ t, exec (.lateRecordArrival d n) s = .next t ∧
      (let w := (t.dom d).chan n
       w.lateFlight = r ∧ w.queue.length = v.queue.length + 1 ∧ w.queue.take v.queue.length = v.queue ∧ w.owed = v.owed - 1 ∧
       w.got = if v.owed = 0 then v.got + 1 else v.got)) ∧
    (c.fstg = 0xFFFE → (s.dom d).running = true → ∀ bytes count, v.queue.length + count ≤ c.cap →
      ∃ t, exec (.spanArrival d n bytes count) s = .next t ∧
        (∀ k, (s.cells.map fun y => y.1).Nodup → (∀ j, j ≠ k → (s.cell j).xinj.getLsbD 63 = false) →
          ExpanderFlips (s.cell k) { s.cell k with xinj := (t.cell k).xinj, xinjCount := (t.cell k).xinjCount }
            ((s.cell k).xinj.setWidth 2 = (2 : BitVec 2)) bytes.length (fun _ _ => True) True) ∧
        (let w := (t.dom d).chan n
         ((∀ j, (s.cell j).xinj.getLsbD 63 = false) → w.part = (v.part ++ bytes.map fun z => (z, false)).drop (count * c.size)) ∧
         w.queue.length = v.queue.length + count ∧ w.queue.take v.queue.length = v.queue ∧ w.owed = v.owed - count ∧
         w.got = v.got + (count - v.owed)))) ∧
  (∀ (s : State) (p : Nat),
    ((s.port p).st = 4 → exec (.flitReplay p) s = .next s) ∧
    ((s.port p).st ≠ 4 → ∃ t, exec (.flitReplay p) s = .next t ∧ PortsOnly s t ∧ (∀ q, q ≠ p → t.port q = s.port q) ∧
      (t.port p).retry = satAdd16 (s.port p).retry 1 ∧ (t.port p).crce = satAdd16 (s.port p).crce 1 ∧
      (t.port p).alert = ((s.port p).alert || decide (255 ≤ (s.port p).retry.toNat)) ∧ (t.port p).st = (s.port p).st))

/-- LinkControl and LinkTraffic together: R316, R319, R324, R325, R326, R327, R329, R343, R351. -/
def Obligations.LinkPortsAndTraffic : Prop := Rules.LinkControl ∧ Rules.LinkTraffic

/-- R329 to R331: `pwr.borrow` and `pwr.repay` raise ILLEGAL with the operand outside its range, are refused at once where a transfer is
pending, the neighbour is not usable or more is repaid than is owed, and otherwise go to the giver's check, which holds while its budget keeps its peak
and 120 MU beyond the units it has already promised; 128 cycles after the issue both changes are pending, so that no unit is lost or made (log 73), the loans change and LAST says
so. A pending change enters the budget unless it waits for the report of a giver, and is reported to a neighbour that waits (log 58). `pwr.gate` gates an unused cluster in 256 cycles; a wake ends 4,096 cycles
on, and releases no block for 2,048 more.
Which clusters are woken together is the model's reading (log 71). -/
def Obligations.PowerTransfersAndGates : Prop :=
  (∀ (s u : State) (g : PReg) (a b : SReg) (x : Srcs) (i : Instr) (repay : Bool), s.me.getP g = true → s.me.dom = 8 →
    readClean s [a, b] = .ok x u → (i = .pwrBorrow g a b ∧ repay = false ∨ i = .pwrRepay g a b ∧ repay = true) →
    let v := x.get 0
    let n := (x.get 1).toNat
    let d := dieOf u.cur
    let o := if v = 1 then (d + 1) % 4 else (d + 3) % 4
    let usable := u.hub.dieMap.getLsbD o = true ∧ u.hub.dieMap.getLsbD (4 + o) = false
    let loan : Int := if v = 1 then (u.die d).loanR else (u.die d).loanL
    let refused := (u.die d).last = 3 ∨ ¬ usable ∨ repay = true ∧ loan < n
    let gives : Prop := ((max (diePeak u d) 120 : Nat) : Int) ≤ (u.die d).bud.toNat + (u.die d).pend - (u.die d).promised - n
    let does (last : BitVec 2) (m : Nat) (ev : Instr) : Prop := ∃ t, exec i s = .next t ∧ Passes u t 1 ∧
      t.me = u.me.issued t.me ∧ t.doms = u.doms ∧ t.hub = u.hub ∧ MemoryKept u t ∧ Due t m ev ∧ (t.die d).last = last ∧
      (t.die d).bud = (u.die d).bud ∧ (t.die d).pend = (u.die d).pend ∧ (t.die d).loanL = (u.die d).loanL ∧
      (t.die d).loanR = (u.die d).loanR ∧
      (t.die d).promised = (u.die d).promised + (if repay = true ∧ gives then n else 0) ∧ ∀ e, e ≠ d → (t.die e).bud = (u.die e).bud ∧ (t.die e).pend = (u.die e).pend ∧
        (t.die e).promised = (u.die e).promised
    (2 ≤ v.toNat → exec i s = .next (takeTrap u .illegal v)) ∧
    (v.toNat < 2 → n = 0 ∨ 1020 < n → exec i s = .next (takeTrap u .illegal (x.get 1))) ∧
    (v.toNat < 2 → 0 < n → n ≤ 1020 → d < 4 →
      (refused → ∃ t, exec i s = .next t ∧ Passes u t 1 ∧ t.me = u.me.issued t.me ∧ MemoryKept u t ∧
        t.die d = { u.die d with last := 2 } ∧ ∀ e, e ≠ d → t.die e = u.die e) ∧
      (¬ refused → repay = false → does 3 (u.now + 64) (.powerGiverCheck d (v == 1) n)) ∧
      (¬ refused → repay = true → gives → does 3 (u.now + 128) (.powerTransferDone d (v == 1) n true true)) ∧
      (¬ refused → repay = true → ¬ gives → does 3 (u.now + 1) (.powerTransferDone d (v == 1) n true false)))) ∧
  (∀ (s : State) (d n : Nat) (r : Bool), d < 4 →
    let o := if r then (d + 1) % 4 else (d + 3) % 4
    let keeps : Prop := ((max (diePeak s o) 120 : Nat) : Int) ≤ (s.die o).bud.toNat + (s.die o).pend - (s.die o).promised - n
    (∃ t, exec (.powerGiverCheck d r n) s = .next t ∧ MemoryKept s t ∧ t.doms = s.doms ∧
      Due t (s.now + 64) (.powerTransferDone d r n false (decide keeps)) ∧ (¬ keeps → t.dies = s.dies) ∧
      (keeps → t.die o = { s.die o with promised := (s.die o).promised + n } ∧ ∀ e, e ≠ o → t.die e = s.die e)) ∧
    (∀ repay, ∃ t, exec (.powerTransferDone d r n repay false) s = .next t ∧ t.die d = { s.die d with last := 2 } ∧
      ∀ e, e ≠ d → t.die e = s.die e) ∧
    (∀ repay, ∃ t, exec (.powerTransferDone d r n repay true) s = .next t ∧ MemoryKept s t ∧
      (let v : Int := if repay then -(n : Int) else n
       (t.die d).last = 1 ∧ (t.die d).bud = (s.die d).bud ∧ (t.die o).bud = (s.die o).bud ∧
       (t.die d).pend = (s.die d).pend + (if repay then -(n : Int) else n) ∧
       (t.die o).pend = (s.die o).pend + (if repay then (n : Int) else -n) ∧
       (t.die d).promised = (s.die d).promised - (if repay then n else 0) ∧
       (t.die o).promised = (s.die o).promised - (if repay then 0 else n) ∧
       (t.die d).givers = (if repay then (s.die d).givers else (s.die d).givers ++ [(r, none)]) ∧
       (t.die o).givers = (if repay then (s.die o).givers ++ [(!r, none)] else (s.die o).givers) ∧
       (∀ e, e ≠ d → e ≠ o → t.die e = s.die e) ∧
       (t.die d).loanL = (s.die d).loanL + (if r then 0 else v) ∧ (t.die d).loanR = (s.die d).loanR + (if r then v else 0) ∧
       (t.die o).loanL = (s.die o).loanL - (if r then v else 0) ∧ (t.die o).loanR = (s.die o).loanR - (if r then 0 else v)))) ∧
  (∀ (s : State) (d : Nat),
    let x := s.die d
    let waits := 0 < x.pend ∧ ∃ g ∈ x.givers, ∀ m, g.2 = some m → s.now < m
    (waits → exec (.budgetUpdate d) s = .next s) ∧
    (¬ waits → d < 4 → 0 ≤ x.bud.toNat + x.pend → x.bud.toNat + x.pend < 2 ^ 11 →
      ∃ t, exec (.budgetUpdate d) s = .next t ∧ ((t.die d).bud.toNat : Int) = x.bud.toNat + x.pend ∧
        (t.die d).pend = 0 ∧ (t.die d).givers = (if 0 < x.pend then [] else x.givers) ∧ MemoryKept s t ∧
        ∀ e, e ≠ d → t.die e =
          (if e = (d + 1) % 4 ∨ e = (d + 3) % 4 then
            { s.die e with givers := (s.die e).givers.map fun g => if g.1 = decide (e = (d + 3) % 4) ∧ g.2 = none then (g.1, some (s.now + 64)) else g }
           else s.die e))) ∧
  (∀ (s u : State) (g : PReg) (a : SReg) (x : Srcs), s.me.getP g = true → s.me.dom = 8 → readClean s [a] = .ok x u →
    let n := (x.get 0).toNat
    let k := 4 * dieOf u.cur + n
    (4 ≤ n → exec (.pwrGate g a) s = .next (takeTrap u .illegal (x.get 0))) ∧
    (n < 4 → (u.cluster k).gate ≠ 0 ∨ ClusterInUse u k → OnlySlot (.pwrGate g a) s u) ∧
    (n < 4 → (u.cluster k).gate = 0 → ¬ ClusterInUse u k → ∃ t, exec (.pwrGate g a) s = .next t ∧ Passes u t 1 ∧
      t.me = u.me.issued t.me ∧ MemoryKept u t ∧ t.cluster k = { u.cluster k with gate := 1 } ∧
      (∀ j, j ≠ k → t.cluster j = u.cluster j) ∧ Due t (u.now + 256) (.gateComplete k))) ∧
  (∀ (s : State) (k : Nat),
    (∃ t, exec (.gateComplete k) s = .next t ∧ t.cluster k = { s.cluster k with gate := 2 } ∧
      (∀ j, j ≠ k → t.cluster j = s.cluster j) ∧ t = { s with clusters := t.clusters }) ∧
    ((s.cluster k).gate = 2 → ∃ t, exec (.wake k) s = .next t ∧ t.cluster k = { s.cluster k with gate := 3 } ∧
      (∀ j, j ≠ k → t.cluster j = s.cluster j) ∧ Due t (s.now + 4096) (.wakeComplete k)) ∧
    ((s.cluster k).gate ≠ 2 → exec (.wake k) s = .next s) ∧
    (∃ (t : State) (m : Nat), exec (.wakeComplete k) s = .next t ∧
      t.cluster k = { s.cluster k with gate := 0, allowed := m, wokenAt := some s.now } ∧
      (let others := (List.range k).filter fun j => (s.cluster j).wokenAt == some s.now
       m = (others.map fun j => (s.cluster j).allowed + 2048).foldl max (s.now + 2048)) ∧
      (∀ j, j ≠ k → t.cluster j = s.cluster j) ∧ t = { s with clusters := t.clusters }))

/-! ### The escapement and the modes -/

namespace Sys2Proof.Machine

/-- A set may be released: the start rule, the wake rule and the clearing of the members are past (R116, R23), and no work of an earlier
firing stands in their arrays. -/
def MayRelease (s : State) (c n : Nat) : Prop :=
  (s.cluster (c / 16)).allowed ≤ s.now ∧ (∀ f, s.hub.firstTable = some f → f + 2048 * (c / 16) ≤ s.now) ∧
  ∀ m, c ≤ m → m < c + n → (s.cell m).clearUntil ≤ s.now ∧ (s.cell m).seqr = []

/-- An entry of a cell's column that is sound in every member's and finds none of them held idle by an earlier one (R109, R110), of a
domain whose phase goes on. -/
def SoundEntry (x : Domain) (now c n : Nat) (e : Entry) : Prop :=
  x.entry c n = some e ∧ e.corrupt = false ∧ c < 256 ∧ c % 2 ^ e.logsz = 0 ∧ x.frozen = none ∧
  ∀ m, c ≤ m → m < c + 2 ^ e.logsz → SMap.get 0 x.heldTo m ≤ now ∧ ∃ y, x.twin m e = some y ∧ y.corrupt = false

/-- What R23 leaves of a cell at the release of a firing; the rest is as the block before left it. -/
def Cell.released (c : Cell) (f : Firing) (now ix : Nat) : Cell :=
  { c with pc := 0, loops := [], rep := 0, repPend := none, cellix := BitVec.ofNat 7 ix, block := f.blk, fb := f.fb,
           spovf := BitVec.ofNat 23 (c.limOB + c.limSOV), run := .running, wait := .none, t := now, firing := f.id,
           pend := c.pend.map fun x => { x with tok := 0 }, images := c.tiles, stepNo := 0, coNo := 0, ramp := none,
           hreq := false, sstep := false }

/-- A firing of a domain comes into being with nothing done, and its set runs its block from this cycle; nothing else changes. -/
def Released (s t : State) (f : Firing) : Prop :=
  (∃ (u v r : Nat) (k : Cause), f = {
      id := s.nextId, dom := f.dom, base := f.base, logsz := f.logsz, entry := f.entry, blk := f.blk, fb := f.fb, start := f.start,
      deadline := f.deadline, release := s.now, fsel := f.fsel, held0 := u, held1 := v, late := f.late, cause := k, reqAt := r }) ∧
  (∀ d, d ≠ f.dom → t.dom d = s.dom d) ∧ t.dom f.dom = { s.dom f.dom with firings := (s.dom f.dom).firings ++ [f] } ∧
  (∀ m, f.base ≤ m → m < f.base + 2 ^ f.logsz →
    t.cell m = (s.cell m).released f s.now (m % 2 ^ f.logsz + 16 * f.logsz)) ∧
  (∀ m, m < f.base ∨ f.base + 2 ^ f.logsz ≤ m → t.cell m = s.cell m) ∧
  MemoryKept s t ∧ t.hub = s.hub ∧ t.clusters = s.clusters ∧ t.engines = s.engines ∧ t.dies = s.dies ∧ t.now = s.now ∧
  Due t f.deadline (if f.fb then .doubleOverrun f.dom f.id else .detentStop f.dom f.id) ∧
  (f.entry.cad = false → Due t f.deadline (.deadlineCommit f.dom f.id))

end Sys2Proof.Machine

/-- R23, R111, R112, R114, R115 and R116: an entry's block is released on its whole set in the cycle of its start, a fork's 64 cycles later
as bit 0 of the fork word of its cycle of the start says; the cells keep what R23 says, and the firing is watched to its deadline and
commits there unless the entry says otherwise. A cluster that may not release yet does so at its allowed cycle, or not at all where that
is the deadline or later, and the fallback comes then. A word that cannot be read releases the fallback alone, with the trap words, CW.TPC naming word 0
of the fallback (log 42). -/
def Rules.Releases : Prop :=
  ∀ (s : State) (c n j : Nat) (e : Entry), SoundEntry (s.dom (s.cell c).dom) s.now c n e →
    let d := (s.cell c).dom
    let x := s.dom d
    let z := x.t0 + j * x.periodCycles
    (e.kind = 0 → s.now = z + e.start →
      (MayRelease s c (2 ^ e.logsz) → ∃ t f, exec (.blockRelease c n) s = .next t ∧ f.dom = d ∧ f.base = c ∧ f.logsz = e.logsz ∧
        f.entry = e ∧ f.blk = e.blk ∧ f.fb = false ∧ f.start = s.now ∧ f.deadline = z + e.deadline ∧ f.fsel = 0 ∧ f.late = [] ∧
        Released s t f ∧ (e.ramp = true → ∀ m, c ≤ m → m < c + 2 ^ e.logsz → Due t s.now (.rampStart m))) ∧
      (∀ a, s.now < a → (s.cluster (c / 16)).allowed = a → MayRelease { s with now := a } c (2 ^ e.logsz) →
        ∃ t, exec (.blockRelease c n) s = .next t ∧ (∀ m, t.cell m = s.cell m) ∧ MemoryKept s t ∧ t.hub = s.hub ∧
          (a < z + e.deadline → Due t a (.blockRelease c n) ∧ t.doms = s.doms) ∧
          (z + e.deadline ≤ a → ∃ f, (t.dom d).firings = x.firings ++ [f] ∧ f.base = c ∧ f.logsz = e.logsz ∧ f.stopped = true ∧
            f.entry = e ∧ Due t (max (z + e.deadline + 64) a) (.fallbackRelease d f.id)))) ∧
    (e.kind = 1 → s.now = z + e.start →
      8 * e.fix + 8 ≤ s.shareSize d (c / 16) → (s.cluster (c / 16)).slice.err = [] → (s.cluster (c / 16)).slice.poison = [] →
      ∃ t, exec (.forkRead c n) s = .next t ∧ MemoryKept s t ∧ t.doms = s.doms ∧ t.hub = s.hub ∧
        Due t (s.now + 64) (.forkRelease c) ∧ (∀ m, m ≠ c → t.cell m = s.cell m) ∧ t.cell c = { s.cell c with
          fork := some (e, (Mem.byte (s.cluster (c / 16)).slice.bytes (s.shareByte d (c / 16) (8 * e.fix))).toNat % 2, []) }) ∧
    (e.kind = 1 → s.now = z + e.start → 8 * e.fix + 8 ≤ s.shareSize d (c / 16) → s.shareByte d (c / 16) (8 * e.fix) % 8 = 0 →
      Ram.bad (s.cluster (c / 16)).slice (s.shareByte d (c / 16) (8 * e.fix) / 8) = true →
      ∃ t, exec (.forkRead c n) s = .next t ∧ MemoryKept s t ∧ t.doms = s.doms ∧ Due t (s.now + 64) (.forkRelease c) ∧
        (t.cell c).fork = some (e, 2, []) ∧ ∀ m, m ≠ c → t.cell m = s.cell m) ∧
    (e.kind = 1 → s.now = z + e.start + 64 → MayRelease s c (2 ^ e.logsz) →
      (∀ ch, ch < 2 → (s.cell c).fork = some (e, ch, []) → ∃ t f, exec (.forkRelease c) s = .next t ∧ f.dom = d ∧ f.base = c ∧
        f.logsz = e.logsz ∧ f.entry = e ∧ f.blk = (if ch = 1 then e.alt else e.blk) ∧ f.fb = false ∧ f.start = z + e.start ∧
        f.deadline = z + e.deadline ∧ f.fsel = BitVec.ofNat 64 (ch + 2 + 4 * e.fix) ∧ f.late = [] ∧ Released s t f ∧
        (e.ramp = true → ∀ m, c ≤ m → m < c + 2 ^ e.logsz → Due t s.now (.rampStart m))) ∧
      ((s.cell c).fork = some (e, 2, []) →
        (e.fbk = 0 → exec (.forkRelease c) s = .next s) ∧
        (e.fbk ≠ 0 → ∃ t f, exec (.forkRelease c) s = .next t ∧ (t.dom d).firings = x.firings ++ [f] ∧ f.blk = e.fbk ∧ f.fb = true ∧
          f.deadline = z + e.deadline + 64 + x.wcet e.fbk ∧ f.fsel = BitVec.ofNat 64 (2 + 4 * e.fix) ∧ MemoryKept s t ∧
          Due t f.deadline (.doubleOverrun d f.id) ∧
          ∀ m, c ≤ m → m < c + 2 ^ e.logsz → (t.cell m).tcause = .memerr ∧ (t.cell m).tdbg = false ∧ (t.cell m).pc = 0 ∧
            (t.cell m).tval = BitVec.ofNat 64 (2 * 2 ^ 60 + 8 * e.fix) ∧ (t.cell m).tpc = 0 ∧ (t.cell m).block = e.fbk ∧ (t.cell m).fb = true ∧
            (t.cell m).run = .running ∧ (t.cell m).sreg = (s.cell m).sreg)))

/-- R109: an entry that only a fault of the table store can make releases nothing, is recorded on the partition's fault ring, and holds
its cell idle to its D + R; an entry that meets a held lone cell before that releases nothing either. Which period's D + R that is, and that D is told from the entry as it reads, are the model's reading (log 42). -/
def Rules.CorruptEntries : Prop :=
  ∀ (s : State) (c n : Nat) (e : Entry), let d := (s.cell c).dom
    let x := s.dom d
    c < 256 → x.frozen = none → x.entry c n = some e →
    (∀ j, e.corrupt = true → 0 < x.periodCycles → s.now = x.t0 + j * x.periodCycles + e.start % x.periodCycles →
      ∃ t, exec (.blockRelease c n) s = .next t ∧ (∀ m, t.cell m = s.cell m) ∧ t.clusters = s.clusters ∧ t.dies = s.dies ∧
        t.engines = s.engines ∧ (t.dom d).firings = x.firings ∧ (∀ o, o ≠ d → t.dom o = s.dom o) ∧
        SMap.get 0 (t.dom d).heldTo c = max (SMap.get 0 x.heldTo c)
          (x.t0 + j * x.periodCycles + e.deadline + 64 + x.wcet e.fbk + if e.cad then 0 else 1) ∧
        (∀ m, m ≠ c → SMap.get 0 (t.dom d).heldTo m = SMap.get 0 x.heldTo m) ∧
        ((t.dom d).fltTail = x.fltTail + 1 ∨
          (t.dom d).fltTail = x.fltTail ∧ (t.dom d).fltLost.toNat = min (x.fltLost.toNat + 1) (2 ^ 32 - 1))) ∧
    (e.corrupt = false → e.logsz = 0 → s.now < SMap.get 0 x.heldTo c → exec (.blockRelease c n) s = .next s)

/-- R115, R116: a ramp that an entry starts at its release is fixed at that cycle; a cell whose array has left idle starts none.
Which starts count as fixed is the model's reading (log 70). -/
def Rules.RampStarts : Prop :=
  ∀ (s : State) (c : Nat), c < 256 →
    ((s.cell c).ramp ≠ none → exec (.rampStart c) s = .next s) ∧
    ((s.cell c).ramp = none → ∃ t, exec (.rampStart c) s = .next t ∧ t.cell c = { s.cell c with ramp := some s.now } ∧
      (∀ m, m ≠ c → t.cell m = s.cell m) ∧ s.now ∈ (t.cluster (c / 16)).ramps ∧ MemoryKept s t ∧ t.doms = s.doms ∧ t.hub = s.hub)

/-- Block releases and ramp starts: R23, R111 to R116. -/
def Obligations.BlockReleases : Prop := Rules.Releases ∧ Rules.CorruptEntries ∧ Rules.RampStarts

/-- R113, R117, R296 to R298: at the deadline the detent stops a firing that has not ended, with OVERRUN and the length of its window in
every member, and the fallback's release stands 64 cycles later; one that has ended is over. The fallback runs on the same set to its own
deadline; a firing that has ended by `done` commits at its deadline, a stopped one never. A fallback still running at the end is stopped
with DOUBLE_OVERRUN, and the safe mode comes at the first tick boundary 192 cycles on. A commit moves the channels of every port of the set
in order, also two of one channel and those that cross (R269, R316; log 15). -/
def Obligations.DeadlinesAndFallbacks : Prop :=
  ∀ (s : State) (d : Nat) (f : Firing), (s.dom d).firing f.id = some f → f.dom = d → (s.dom d).frozen = none →
    f.base % 2 ^ f.logsz = 0 → f.base < 256 → f.logsz < 5 → f.out = [] →
    (let stops (i : Instr) (cause : Cause) (t : State) : Prop := exec i s = .next t ∧ MemoryKept s t ∧
        (∀ c, f.base ≤ c → c < f.base + 2 ^ f.logsz → (t.cell c).run = .idle ∧ (t.cell c).wait = .none ∧ (t.cell c).queue = [] ∧
          (t.cell c).ramp = none ∧ (t.cell c).tcause = cause ∧ (t.cell c).tdbg = false ∧
          (t.cell c).tval = BitVec.ofNat 64 (f.deadline - f.start) ∧ (t.cell c).tpc = BitVec.ofNat 16 (s.cell c).pc ∧
          (t.cell c).sreg = (s.cell c).sreg ∧ (t.cell c).pred = (s.cell c).pred ∧ (t.cell c).sticky = (s.cell c).sticky ∧
          (t.cell c).dfb = (s.cell c).dfb ∧ ((s.cell c).seqr = [] → (t.cell c).tiles = (s.cell c).images)) ∧
        (∀ c, c < f.base ∨ f.base + 2 ^ f.logsz ≤ c → c < 256 → t.cell c = s.cell c) ∧ (t.dom d).chans = (s.dom d).chans ∧
        (∀ b, b ∈ f.bars → SMap.get 0 (t.cluster (f.base / 16)).bars b = 0) ∧
        ∃ g, (t.dom d).firing f.id = some g ∧ g.stopped = true ∧ g.ended = true ∧ g.cause = cause ∧ g.pop0 = 0 ∧ g.pop1 = 0 ∧
          g.push2 = [] ∧ g.push3 = [] ∧ g.request = none
     f.ended = false → f.trapped = [] → f.causes = [] →
      (f.fb = false → (∀ c, f.base ≤ c → c < f.base + 2 ^ f.logsz → (s.cell c).seqr = []) → ∃ t,
        stops (.detentStop d f.id) .overrun t ∧ Due t (f.deadline + 64) (.fallbackRelease d f.id)) ∧
      (f.fb = true → (∀ c, f.base ≤ c → c < f.base + 2 ^ f.logsz → (s.cell c).seqr = []) → ∃ t m,
        stops (.doubleOverrun d f.id) .doubleOverrun t ∧ s.now + 192 ≤ m ∧ m < s.now + 192 + 4096 ∧ (m + s.hub.clockOfs) % 4096 = 0 ∧
        ∃ y ∈ t.agenda, y.ev = .safeModeSwitch d ∧ y.due ≤ m)) ∧
    (f.ended = true → f.stopped = false → f.deadline ≤ s.now → f.fb = false → ∃ t, exec (.detentStop d f.id) s = .next t ∧
      DomBecomes s t d { s.dom d with firings := (s.dom d).firings.filter fun y => y.id != f.id } ∧ t.agenda = s.agenda) ∧
    (f.ended = true → ∃ t, exec (.doubleOverrun d f.id) s = .next t ∧
      DomBecomes s t d { s.dom d with firings := (s.dom d).firings.filter fun y => y.id != f.id } ∧ t.agenda = s.agenda) ∧
    (let e := f.entry
     let stop := f.deadline + 64 + (s.dom d).wcet e.fbk
     (e.fbk = 0 → ∃ t, exec (.fallbackRelease d f.id) s = .next t ∧ (t.dom d).firings = (s.dom d).firings.filter (fun y => y.id != f.id) ∧
       (∀ c, t.cell c = s.cell c) ∧ (f.bars = [] → t.agenda = s.agenda) ∧ MemoryKept s t) ∧
     (e.fbk ≠ 0 → s.now < stop → MayRelease s f.base (2 ^ f.logsz) → ∃ t g, exec (.fallbackRelease d f.id) s = .next t ∧
       Released { s with
         clusters := t.clusters
         doms := SMap.put s.doms d { s.dom d with firings := (s.dom d).firings.filter fun y => y.id != f.id } } t g ∧ g.dom = d ∧ g.base = f.base ∧ g.logsz = f.logsz ∧ g.entry = e ∧ g.blk = e.fbk ∧
       g.fb = true ∧ g.start = s.now ∧ g.deadline = stop ∧ g.fsel = f.fsel ∧ g.late = f.late ∧ MemoryKept s t)) ∧
    ((f.ended = false ∨ f.stopped = true) → exec (.deadlineCommit d f.id) s = .next s) ∧
    (f.ended = true → f.stopped = false → ∃ t, exec (.deadlineCommit d f.id) s = .next t ∧ SlicesApart s t ∧
      (∀ c, t.cell c = s.cell c) ∧
      (∀ n, (t.dom d).chan n = [28, 29, 30, 31].foldl (portCommits (s.dom d) f n) ((s.dom d).chan n)) ∧
      (∀ mode c, f.request = some (mode, c) → c < 256 →
        Due t (s.now + 64) (.modeRequestPending d mode (c / 64) (c / 16) (c % 16) false)))

/-! ### Modes, bindings and partition reset -/

namespace Sys2Proof.Machine

/-- An entry stands on completion ring `q` of a domain where the ring is enabled and has room, and is lost otherwise (R334, R335, R337): dword 0,
the value, and the 32 bytes of a status record. -/
def Posted (s t : State) (d q lo value : Nat) (r : List Byte) : Prop :=
  let reg := SMap.get 0 (s.dom d).cplReg q
  let tail := SMap.get 0 (s.dom d).cplTail q
  let n := (reg.setWidth 5).toNat
  let a := (reg.extractLsb' 12 52).toNat * 4096 + 64 * (tail.toNat % 2 ^ n)
  let room : Prop := (∃ i, i < 8 ∧ i % 2 = q ∧ (s.dom d).ren.getLsbD i = true) ∧ 4 ≤ n ∧ n ≤ 16 ∧ (tail - SMap.get 0 (s.dom d).cplHead q).toNat < 2 ^ n
  (room → SMap.get 0 (t.dom d).cplTail q = tail + 1 ∧ Mem.readN t.host a 8 = lo ∧ Mem.readN t.host (a + 8) 8 = value ∧
    Mem.bytesAt t.host (a + 16) 32 = (r ++ List.replicate 32 0).take 32 ∧
    ∀ b, b < a ∨ a + 64 ≤ b → Mem.byte t.host b = Mem.byte s.host b) ∧
  (¬ room → SMap.get 0 (t.dom d).cplTail q = tail ∧ t.host = s.host)

/-- A command of ring `i` completes with a status, a value and a record, and the ring goes on (R336, R337). -/
def Completed (s t : State) (d i tag status value : Nat) (r : List Byte) : Prop :=
  Posted s t d (i % 2) (status % 256 + tag % 2 ^ 16 * 2 ^ 16 + i % 256 * 2 ^ 32) value r ∧
  ((t.dom d).ring i).busy = false

/-- Nothing changes but the domain's completion rings and messages, and the command rings' own state; for the rest the domain is `x`. -/
def OnlyPosts (s t : State) (d : Nat) (x : Domain) : Prop :=
  t = { s with doms := t.doms, host := t.host, hub := { s.hub with msix := t.hub.msix }, agenda := t.agenda, free := t.free } ∧
  (∀ e, e ≠ d → t.dom e = s.dom e) ∧
  t.dom d = { x with cplTail := (t.dom d).cplTail, unsigC := (t.dom d).unsigC, winC := (t.dom d).winC, rings := (t.dom d).rings,
                     reading := (t.dom d).reading, turn := (t.dom d).turn }

/-- A command completes, and from `u` on nothing else changes. -/
def Answers (s u : State) (e : Instr) (d i tag status value : Nat) (r : List Byte) (p : State → Prop) : Prop :=
  ∃ t, exec e s = .next t ∧ OnlyPosts u t d (u.dom d) ∧ Completed u t d i tag status value r ∧ p t

/-- A cell of a domain's grant. -/
def Owns (s : State) (d c : Nat) : Prop := (s.dom d).grant.cells.getLsbD c = true

/-- The seed of a unit's generator (R133). -/
def unitSeed (seed : BitVec 32) (die cl cx kind : Nat) : BitVec 32 :=
  let v := seed ^^^ BitVec.ofNat 32 ((die * 1024 + cl * 256 + cx * 16 + kind) * 0x9E3779B9)
  if v = 0 then 1 else v

/-- An entry of a period that starts in this cycle is met at its start; one that cannot be read is met within the period, whatever start
it shows (R109, R111, R112). -/
def PeriodHolds (s t : State) (tb : Table) (c n : Nat) (e : Entry) : Prop :=
  (e.corrupt = false → e.kind ≠ 1 → Due t (s.now + e.start) (.blockRelease c n)) ∧
  (e.corrupt = false → e.kind = 1 → Due t (s.now + e.start) (.forkRead c n)) ∧
  (e.corrupt = true → ∃ k, s.now ≤ k ∧ (0 < tb.period → k < s.now + tb.period * 4096) ∧ Due t k (.blockRelease c n))

/-- From this cycle on a mode's table is that of a domain: its entries are due, its points and latches are set, no request is latched, the
generators are seeded, the granted semaphores and barriers are zero, and the translation caches hold nothing of the domain (R133, R223,
R255, R284, R300, R301). -/
def TableStarts (s t : State) (d mode : Nat) (tb : Table) (seed : BitVec 32) : Prop :=
  let x := s.dom d
  let y := t.dom d
  y.mode = mode ∧ y.t0 = s.now ∧ y.running = true ∧ y.state = 2 ∧ y.firings = [] ∧ y.latched = [] ∧ y.pointNo = 1 ∧ y.seed = seed ∧
  (∀ c col n e, (c, col) ∈ tb.columns → col[n]? = some e → PeriodHolds s t tb c n e) ∧
  (0 < tb.period → Due t (s.now + tb.period * 4096) (.modeChangePoint d 0) ∧
    ∃ k, 8192 ≤ k * (tb.period * 4096) ∧ k * (tb.period * 4096) < 8192 + tb.period * 4096 ∧ y.latchNo = k ∧
      Due t (s.now + k * (tb.period * 4096) - 8192) (.modeRequestLatch d)) ∧
  (∀ c, c < 256 → Owns s d c → (t.cell c).genV = unitSeed seed (c / 64) (c / 16 % 4) (c % 16) 0 ∧
    (t.cell c).genD = unitSeed seed (c / 64) (c / 16 % 4) (c % 16) 1 ∧
    (t.cell c).genX = unitSeed seed (c / 64) (c / 16 % 4) (c % 16) 2) ∧
  (∀ k, (∃ c, c < 256 ∧ c / 16 = k ∧ Owns s d c) →
    (∀ e, e < 2 → (t.engine (2 * k + e)).genC = unitSeed seed (k / 4) (k % 4) 0 (8 + e) ∧
      (t.engine (2 * k + e)).core.genV = unitSeed seed (k / 4) (k % 4) 0 (10 + e)) ∧
    (∀ n, x.grant.semBase ≤ n → n < x.grant.semBase + x.grant.semCnt → SMap.get 0 (t.cluster k).sems n = 0) ∧
    ∀ n, x.grant.barBase ≤ n → n < x.grant.barBase + x.grant.barCnt → SMap.get 0 (t.cluster k).bars n = 0) ∧
  (∀ e, ∀ z ∈ (t.engine e).cache, z.1 / 2 ^ 48 ≠ d) ∧ (∀ p, p ≠ d → t.dom p = s.dom p)

/-- R283: stages of two tables correspond where both run the same block with the same alternate, and have the same rank among the stages of
their table that run it; the host and a span correspond to themselves. -/
def Corresponds (a b : Binding) (ta tb : Table) (m n : Nat) : Prop :=
  let rank (t : Table) (k blk : Nat) := ((t.stages.take k).filter fun z => z.blk == blk).length
  let same (k : Nat) := k = 0 ∨ (SMap.get {} a.blocks k).code = (SMap.get {} b.blocks k).code
  (0xFFFE ≤ m ∧ m = n) ∨ (m < 0xFFFE ∧ n < 0xFFFE ∧ ∃ p q, ta.stages[m]? = some p ∧ tb.stages[n]? = some q ∧ p.blk = q.blk ∧ p.alt = q.alt ∧
    rank ta m p.blk = rank tb n q.blk ∧ same p.blk ∧ same p.alt)

/-- R283: channel `q` of the old table carries over into channel `c` of the new one. -/
def CarriesOver (a b : Binding) (ta tb : Table) (q c : Chan) : Prop :=
  q.carry = true ∧ c.carry = true ∧ q.fmt = c.fmt ∧ q.size = c.size ∧ q.init = c.init ∧ q.fport = c.fport ∧ q.tport = c.tport ∧
  (∀ f, fmtOfCode c.fmt = some f → f.isComplex = false) ∧ Corresponds a b ta tb q.fstg c.fstg ∧ Corresponds a b ta tb q.tstg c.tstg

/-- The number of the old table's channel that carries over into channel `c`. -/
def CarriedBy (old : Option (Binding × Table)) (b : Binding) (tb : Table) (c : Chan) (m : Nat) (q : Chan) : Prop :=
  ∃ a ta, old = some (a, ta) ∧ ta.chans[m]? = some q ∧ CarriesOver a b ta tb q c ∧
    ∀ k z, k < m → ta.chans[k]? = some z → ¬ CarriesOver a b ta tb z c

/-- No record of a domain is on its way when its table ends. -/
def NothingInFlight (s : State) (d : Nat) : Prop :=
  (∀ p, p < 8 → ∀ g ∈ (s.port p).segs, g.dom ≠ d) ∧ ∀ y ∈ (s.dom d).chans, y.2.inFlight = [] ∧ y.2.leaving = 0

/-- R283, R298: a carried channel keeps its values from the head up to the new capacity, each that is the handle of its place becoming the
handle of its new place, and what lies beyond counts in DROP. -/
def KeepsValues (v y : ChanState) (q c : Chan) : Prop :=
  y.queue.length = min v.queue.length c.cap ∧ y.head = v.head % countMod c.cap ∧
  y.tail = (y.head + y.queue.length) % countMod c.cap ∧ y.drop = v.drop + (v.queue.length - c.cap) ∧
  ∀ i w, i < c.cap → v.queue[i]? = some w →
    y.queue[i]? = some (if w = q.handle ((v.head + i) % q.cap) then c.handle ((y.head + i) % c.cap) else w)

/-- R281, R283, R316: a channel that is not carried holds its own initial records alone: the handles of the places from 0 onwards; a channel
of the host the records themselves; one that leads to a span counts them at its producer. -/
def HoldsInitial (b : Binding) (y : ChanState) (c : Chan) : Prop :=
  let outer : Prop := c.fstg = 0xFFFF ∨ c.tstg = 0xFFFF
  let m := c.init % countMod c.cap
  y.head = 0 ∧ y.tail = m ∧ y.drop = 0 ∧ y.staged = [] ∧ y.lateFlight = [] ∧ y.owed = 0 ∧ (¬ outer → y.phead = m ∧ y.ptail = m) ∧
  (¬ outer → c.tstg = 0xFFFE → y.queue = []) ∧
  (¬ outer → c.tstg ≠ 0xFFFE → y.queue = (List.range c.init).map c.handle) ∧
  (outer → y.queue.length = c.init ∧ ∀ p w, y.queue[p]? = some w →
    ∀ i, i < c.size → i < 8 → (w.toNat / 2 ^ (8 * i)) % 256 = (b.data.getD (c.dataOfs + p * c.size + i) 0).toNat)

/-- R268: a channel's header, where a cluster's share holds one: BASE, KIND, DROP, CAP and SIZE8, then HEAD and TAIL. -/
def HeaderReads (t : State) (d k n : Nat) (c : Chan) (base drop head tail : Nat) : Prop :=
  t.readShare d k (0x200 + 16 * n) 8 =
    (base % 2 ^ 23 + c.kind * 2 ^ 23 + min drop 127 * 2 ^ 25 + c.cap * 2 ^ 32 + (c.size / 8 - 1) * 2 ^ 48) % 2 ^ 64 ∧
  t.readShare d k (0x208 + 16 * n) 8 = (head + tail * 2 ^ 32) % 2 ^ 64

/-- The channels of a table that takes effect (R268, R281, R283, R298, R300): those carried over from the table before, every other
emptied and filled with its initial records, and the headers of both sides in the shares of their stages. -/
def ChannelsStart (s t : State) (d : Nat) (old : Option (Binding × Table)) (b : Binding) (tb : Table) : Prop :=
  NothingInFlight s d → ∀ n c, tb.chans[n]? = some c →
    let y := (t.dom d).chan n
    (∀ m q, CarriedBy old b tb c m q → KeepsValues ((s.dom d).chan m) y q c) ∧
    ((∀ m q, ¬ CarriedBy old b tb c m q) → HoldsInitial b y c) ∧
    (n < 224 → ∀ k z, (tb.stages[c.tstg]?).bind (fun z => z.at0) = some z → z / 16 = k → SMap.get [] (s.dom d).grant.granules k ≠ [] →
      (c.scope < 3 ∨ ∀ p, (tb.stages[c.fstg]?).bind (fun z => z.at0) = some p → p / 16 ≠ k) →
      HeaderReads t d k n c c.base y.drop y.head y.tail) ∧
    (n < 224 → ∀ k z, (tb.stages[c.fstg]?).bind (fun z => z.at0) = some z → z / 16 = k → SMap.get [] (s.dom d).grant.granules k ≠ [] →
      (c.scope < 3 → HeaderReads t d k n c c.base y.drop y.head y.tail) ∧
      ((c.scope = 3 ∨ c.scope = 4) → c.fstg ≠ 0xFFFF → c.tstg ≠ 0xFFFF → HeaderReads t d k n c c.pbase y.pdrop y.phead y.ptail))

/-- Every channel of a table keeps its records in a share (KIND 1), above the headers and apart from the others. -/
def RecordsInShares (s : State) (d : Nat) (tb : Table) : Prop :=
  tb.chans.length ≤ 224 ∧ (∀ k, (SMap.get [] (s.dom d).grant.granules k).Nodup) ∧
  ∀ (n : Nat) (c : Chan), tb.chans[n]? = some c → c.kind = 1 ∧ c.scope < 3 ∧ c.fstg < 0xFFFE ∧ c.tstg < 0xFFFE ∧ 0x1000 ≤ c.base ∧ 0 < c.cap ∧ 0 < c.size ∧
    c.init ≤ c.cap ∧ c.base + c.cap * c.size ≤ 65536 * (SMap.get [] (s.dom d).grant.granules c.home).length ∧
    ∀ (m : Nat) (e : Chan), tb.chans[m]? = some e → m ≠ n → e.home = c.home → e.base + e.cap * e.size ≤ c.base ∨ c.base + c.cap * c.size ≤ e.base

/-- R281, R283: the record bytes of such channels: those of a carried channel as they were, at their new places, and the initial records
of every other. -/
def RecordsStart (s t : State) (d : Nat) (old : Option (Binding × Table)) (b : Binding) (tb : Table) : Prop :=
  NothingInFlight s d → RecordsInShares s d tb → (∀ a ta, old = some (a, ta) → RecordsInShares s d ta) → ∀ (n : Nat) (c : Chan), tb.chans[n]? = some c →
    (∀ (m : Nat) (q : Chan), CarriedBy old b tb c m q → let v := (s.dom d).chan m
      ∀ i j, i < v.queue.length → i < c.cap → i < q.cap → j < c.size →
        t.readShare d c.home (c.base + (v.head % countMod c.cap + i) % c.cap * c.size + j) 1 =
          s.readShare d q.home (q.base + (v.head + i) % q.cap * q.size + j) 1) ∧
    ((∀ m q, ¬ CarriedBy old b tb c m q) → ∀ p j, p < c.init → j < c.size →
      t.readShare d c.home (c.base + p * c.size + j) 1 = (b.data.getD (c.dataOfs + p * c.size + j) 0).toNat)

/-- The request latched for a domain's next point, and the mode that the table's opening entry names (R299). -/
def latchedFor (x : Domain) : Option Nat := (x.latched.find? fun y => y.1 == x.pointNo).map fun y => y.2
def namedBy (tb : Table) : Option Nat :=
  (tb.columns.findSome? fun y => y.2.head?).bind fun e => if e.alt < 16 then some e.alt else none

/-- The mode to which a point of a table switches with no rebinding: the latched request's where the binding in being holds it, else the
one that the table names where it holds that (R299, R300, log 81). -/
def SwitchesTo (x : Domain) (b : Binding) (tb : Table) (m : Nat) : Prop :=
  b.table m ≠ none ∧ (latchedFor x = some m ∨ (∀ k, latchedFor x = some k → b.table k = none) ∧ namedBy tb = some m)

/-- No fallback of a domain has reached the end of its reserve. -/
def NoReserveEnds (s : State) (x : Domain) : Prop := ∀ f ∈ x.firings, f.fb = true → s.now < f.deadline

/-- A binding places a block on a cell: as the block of a stage whose set holds the cell, as its alternate, or as its fallback (R112, R281). -/
def Binding.Places (b : Binding) (c k : Nat) : Prop :=
  ∃ tb ∈ b.tables, ∃ y ∈ tb.stages, ∃ a, y.at0 = some a ∧ a ≤ c ∧ c < a + 2 ^ (SMap.get {} b.blocks y.blk).logsz ∧
    (k = y.blk ∨ k = y.alt ∨ k = (SMap.get {} b.blocks y.blk).fbk)

end Sys2Proof.Machine

/-- R290, R299 to R301, R336: a request becomes pending in place of an earlier one, a cell's only while the tables of its domain run, the
host's (log 43) at any time; a point's latch takes it 8,192 cycles before the point, together with a rebinding whose status was written
before; a point with no order for a mode that the binding holds passes at no cost and its period is walked again; one with a latched request
or a scheduled target switches to that mode's table in its cycle, the request first, the records of its channels with it (R283), and the
marked frames stay (R222). A fallback whose reserve ends in the cycle of the point stops before it. -/
def Rules.ModeRequests : Prop :=
  (∀ (s : State) (d mode die cl cx : Nat) (h : Bool), let x := s.dom d
    (x.running = false → h = false → ∃ t, exec (.modeRequestPending d mode die cl cx h) s = .next t ∧ DomBecomes s t d x ∧
      t.agenda = s.agenda) ∧
    (x.running = true ∨ h = true → x.degraded = none → ∃ t, exec (.modeRequestPending d mode die cl cx h) s = .next t ∧
      DomBecomes s t d { x with pending := some mode, pendingAt := s.now } ∧ t.agenda = s.agenda) ∧
    (x.running = true ∨ h = true → x.degraded ≠ none → ∃ t, exec (.modeRequestPending d mode die cl cx h) s = .next t ∧
      DomBecomes s t d { x with apart := some mode } ∧ t.agenda = s.agenda)) ∧
  (∀ (s : State) (d : Nat), let x := s.dom d
    x.running = true → x.frozen = none → x.degraded = none → ∃ t, exec (.modeRequestLatch d) s = .next t ∧
      Due t (s.now + x.periodCycles) (.modeRequestLatch d) ∧
      ((x.standby = none ∨ x.fresh = false ∨ x.bindReady ≠ none ∨ (∃ b, x.standby = some b ∧ s.now ≤ b.writtenAt)) → DomBecomes s t d
        { x with latchNo := x.latchNo + 1, latched := x.latched ++ (x.pending.map fun m => (x.latchNo, m)).toList, pending := none }) ∧
      (∀ b, x.standby = some b → x.fresh = true → x.bindReady = none → b.writtenAt < s.now → DomBecomes s t d
        { x with latchNo := x.latchNo + 1, latched := x.latched ++ (x.pending.map fun m => (x.latchNo, m)).toList, pending := none,
                 bindReady := some x.latchNo })) ∧
  (∀ (s : State) (d n : Nat) (b : Binding) (tb : Table), let x := s.dom d
    x.running = true → x.active = some b → b.table x.mode = some tb → x.frozen = none → x.degraded = none → x.fresh = false →
    NoReserveEnds s x →
    ((∀ m, ¬ SwitchesTo x b tb m) → ∃ t, exec (.modeChangePoint d n) s = .next t ∧
      t.dom d = { x with pointNo := x.pointNo + 1, latched := x.latched.filter fun y => y.1 != x.pointNo } ∧
      (∀ p, p ≠ d → t.dom p = s.dom p) ∧ (∀ c, c < 256 → t.cell c = s.cell c) ∧ MemoryKept s t ∧ t.hub = s.hub ∧
      Due t (s.now + tb.period * 4096) (.modeChangePoint d 0) ∧
      ∀ c col k e, (c, col) ∈ tb.columns → col[k]? = some e → PeriodHolds s t tb c k e) ∧
    (∀ m ub, SwitchesTo x b tb m → b.table m = some ub →
      ∃ t, exec (.modeChangePoint d n) s = .next t ∧ TableStarts s t d m ub x.seed ∧ (t.dom d).active = some b ∧
        (t.dom d).pending = x.pending ∧ (t.dom d).grant = x.grant ∧ (t.dom d).marks = x.marks ∧
        ChannelsStart s t d (some (b, tb)) b ub ∧ (x.firings = [] → RecordsStart s t d (some (b, tb)) b ub) ∧
        (∀ p, t.port p = { s.port p with segs := (t.port p).segs }) ∧ t.now = s.now ∧
        ∀ c, c < 256 → (t.cell c).sreg = (s.cell c).sreg ∧ (t.cell c).vreg = (s.cell c).vreg ∧ (t.cell c).code = (s.cell c).code ∧
          (t.cell c).run = (s.cell c).run)) ∧
  (∀ (s : State) (d n : Nat) (f : Firing) (b : Binding) (tb : Table), let x := s.dom d
    x.running = true → x.active = some b → b.table x.mode = some tb → x.frozen = none → x.degraded = none → x.firings = [f] →
    f.dom = d → f.fb = true → f.deadline ≤ s.now → f.ended = false → f.trapped = [] → f.causes = [] → f.out = [] → f.base < 256 →
    f.logsz < 5 → f.base % 2 ^ f.logsz = 0 → (∀ c, f.base ≤ c → c < f.base + 2 ^ f.logsz → (s.cell c).seqr = []) →
    ∃ t k, exec (.modeChangePoint d n) s = .next t ∧ s.now + 192 ≤ k ∧ k < s.now + 192 + 4096 ∧ (k + s.hub.clockOfs) % 4096 = 0 ∧
      (x.standby = none → (∀ m, ¬ SwitchesTo x b tb m) → ∃ y ∈ t.agenda, y.ev = .safeModeSwitch d ∧ y.due ≤ k) ∧
      ∀ c, f.base ≤ c → c < f.base + 2 ^ f.logsz → (t.cell c).run = .idle ∧ (t.cell c).tcause = .doubleOverrun ∧
        (t.cell c).tval = BitVec.ofNat 64 (f.deadline - f.start))

/-- R282, R299, R300: at a point that a rebinding's latch has reached, its bank becomes the active one and the old bank the standby, code
stores and limits with them; the mode is the latched or the scheduled one where the new binding holds it, else the mode in being where it
holds that, else its lowest. -/
def Rules.Rebinding : Prop :=
  ∀ (s : State) (d n j : Nat) (a b : Binding) (tb : Table), let x := s.dom d
    x.running = true → x.active = some a → a.table x.mode = some tb → x.standby = some b → x.fresh = true → x.bindReady = some j →
    j ≤ x.pointNo → x.frozen = none → x.degraded = none → NoReserveEnds s x → b.tables ≠ [] → (∀ y ∈ b.tables, y.id < 16) →
    ∃ t m ub b', exec (.modeChangePoint d n) s = .next t ∧ b.table m = some ub ∧ TableStarts s t d m ub x.seed ∧
      ChannelsStart s t d (some (a, tb)) b ub ∧ (t.dom d).active = some b' ∧ b'.tables = b.tables ∧ b'.blocks = b.blocks ∧ b'.tensors = b.tensors ∧
      (t.dom d).standby = some a ∧ (t.dom d).fresh = false ∧
      (∀ c, c < 256 → Owns s d c → (t.cell c).code = (s.cell c).codeStandby ∧ (t.cell c).codeStandby = (s.cell c).code ∧
        (t.cell c).dom = d ∧ (t.cell c).limL = (SMap.get (0, 0, 0, 0) b.limits c).1 ∧
        (t.cell c).limC = (SMap.get (0, 0, 0, 0) b.limits c).2.1) ∧
      (let held (q : Option Nat) : Prop := ∃ m, q = some m ∧ (b.table m).isSome
       (held (latchedFor x) → latchedFor x = some m) ∧
       (¬ held (latchedFor x) → held (namedBy tb) → namedBy tb = some m) ∧
       (¬ held (latchedFor x) → ¬ held (namedBy tb) → (b.table x.mode).isSome → m = x.mode) ∧
       (¬ held (latchedFor x) → ¬ held (namedBy tb) → b.table x.mode = none → ∀ k, (b.table k).isSome → m ≤ k))

/-- R268, R281, R283, R298, R300, R336, R337: a launched table takes effect with its seed, its channels hold their initial records, and its
command completes OK; the first table of the device starts the clusters' first releases (a binding with no tensor in host memory). A switch
to the safe mode stops every firing with KILL, clears every request and order and starts the safe mode's table, with the values of a carried
channel up to its new capacity and the rest counted in DROP; a partition without one, or in it, is reset instead and the host has a notice.
At every switch the channels that are not carried are emptied and hold their initial records, and the headers follow. -/
def Rules.TablesStart : Prop :=
  (∀ (s : State) (d i tag mode start : Nat) (seed : BitVec 32) (b : Binding) (tb : Table), let x := s.dom d
    x.launching = some (i, tag, mode, start, seed) → (if x.fresh then x.standby else x.active) = some b → x.frozen = none →
    b.table mode = some tb → (∀ y ∈ b.tensors, tHome y.2 ≠ 2) →
    ∃ t, exec (.launchEffect d) s = .next t ∧ TableStarts s t d mode tb seed ∧ ChannelsStart s t d none b tb ∧
      (t.dom d).launching = none ∧ (t.dom d).fresh = false ∧ t.hub.anyTable = true ∧
      t.hub.firstTable = (match s.hub.firstTable with | some f => some f | none => some s.now) ∧ Completed s t d i tag 0 0 []) ∧
  (∀ (s : State) (d : Nat), let x := s.dom d
    (x.running = false → exec (.safeModeSwitch d) s = .next s) ∧
    (∀ b m ub, x.running = true → x.active = some b → (b.tables.find? fun y => y.safe).map (fun y => y.id) = some m → m ≠ x.mode →
      b.table m = some ub → x.frozen = none → ∃ t, exec (.safeModeSwitch d) s = .next t ∧ TableStarts s t d m ub x.seed ∧
        (∀ tb, b.table x.mode = some tb → ChannelsStart s t d (some (b, tb)) b ub) ∧
        (t.dom d).pending = none ∧ (t.dom d).apart = none ∧ (t.dom d).degraded = none ∧
        ∀ f, x.firing f.id = some f → f.ended = false → f.out = [] → f.base < 256 → f.logsz < 5 → f.base % 2 ^ f.logsz = 0 →
          ∀ c, f.base ≤ c → c < f.base + 2 ^ f.logsz →
            (t.cell c).run = .idle ∧ (t.cell c).tcause = .kill ∧ (t.cell c).tval = BitVec.ofNat 64 (2 ^ 61)) ∧
    (x.running = true → (∀ b, x.active = some b → (b.tables.find? fun y => y.safe).map (fun y => y.id) ≠ some x.mode →
        ∀ y ∈ b.tables, y.safe = false) → ∃ t, exec (.safeModeSwitch d) s = .next t ∧ OnlyPosts s t d x ∧
      Due t s.now (.partitionReset d) ∧ Posted s t d 0 (0x25 + 0xFFFF * 2 ^ 16) 0 []))

/-- Mode changes: R282, R298 to R301, R336. What comes first in a cycle, where a partition without a safe mode is reset, and what a table
finds when it takes effect, are the model's reading (logs 43, 45, 55). -/
def Obligations.ModeChanges : Prop := Rules.ModeRequests ∧ Rules.Rebinding ∧ Rules.TablesStart

/-- R306, R307: a partition with no cells is not affected. In cycle r every firing is stopped with KILL and zero, nothing is released any
more, requests, freezes and holds end, and a launch not in effect is void; 64 cycles on the channels are emptied, semaphores and barriers
are zero, generators, caches and the fault set are cleared, and the cells are cleared but for their code and limits, for two ticks; 8,256
cycles on the reset is complete, and its command completes; a BIND in progress completes with ABANDONED in cycle r. The generators of a
cluster's engines stay as they are where another running partition holds cells of it, whose results a reset never changes (R308). That a
void launch completes with ABANDONED is the model's reading (log 46). -/
def Obligations.PartitionReset : Prop :=
  ∀ (s : State) (d : Nat), let x := s.dom d
    (x.grant.cells = 0 → exec (.partitionReset d) s = .next s) ∧
    (x.grant.cells ≠ 0 → ∃ t, exec (.partitionReset d) s = .next t ∧
      (let y := t.dom d
       y.state = 3 ∧ y.running = false ∧ y.firings = [] ∧ y.frozen = none ∧ y.heldEvents = [] ∧ y.pending = none ∧ y.latched = [] ∧
       y.apart = none ∧ y.degraded = none ∧ y.resetAt = some s.now ∧ y.launching = none ∧ y.binding = none ∧ y.active = x.active ∧
       y.standby = x.standby ∧ y.grant = x.grant) ∧ (∀ p, p ≠ d → t.dom p = s.dom p) ∧
      (d < 8 → t.hub.tfreeze.getLsbD d = false) ∧ (∀ p, p < 8 → p ≠ d → t.hub.tfreeze.getLsbD p = s.hub.tfreeze.getLsbD p) ∧
      Due t (s.now + 64) (.partitionResetClear d) ∧ Due t (s.now + 8256) (.partitionResetComplete d) ∧
      (∀ y ∈ t.agenda, (∀ id, y.ev ≠ .fallbackRelease d id ∧ y.ev ≠ .detentStop d id ∧ y.ev ≠ .deadlineCommit d id) ∧
        ∀ c n, (s.cell c).dom = d → y.ev ≠ .blockRelease c n ∧ y.ev ≠ .forkRead c n ∧ y.ev ≠ .forkRelease c) ∧
      (∀ f, x.firing f.id = some f → f.ended = false → f.out = [] → f.base < 256 → f.logsz < 5 → f.base % 2 ^ f.logsz = 0 →
        ∀ c, f.base ≤ c → c < f.base + 2 ^ f.logsz →
          (t.cell c).run = .idle ∧ (t.cell c).tcause = .kill ∧ (t.cell c).tval = 0 ∧ (t.cell c).queue = []) ∧
      (∀ c, c < 256 → Owns s d c → (t.cell c).run ≠ .held) ∧
      (∀ i tag r, x.binding = some (i, tag, r) → x.launching = none →
        (∃ q, q.length = 32 ∧ q.take 1 = [0x0C] ∧ Completed s t d i tag 0x0C 0 q) ∧ ∀ y ∈ t.agenda, y.ev ≠ .bindingComplete d i tag) ∧
      (x.binding = none → ∀ i tag m st sd, x.launching = some (i, tag, m, st, sd) → Completed s t d i tag 0x0C 0 [])) ∧
    (x.resetAt ≠ some (s.now - 64) ∨ s.now < 64 → exec (.partitionResetClear d) s = .next s) ∧
    (∀ r, x.resetAt = some r → s.now = r + 64 → ∃ t, exec (.partitionResetClear d) s = .next t ∧
      (∀ n, (t.dom d).chan n = {}) ∧ (t.dom d).faults = [] ∧ (∀ p, p ≠ d → t.dom p = s.dom p) ∧ t.dies = s.dies ∧ t.host = s.host ∧
      (∀ c, c < 256 → Owns s d c → t.cell c = {
        dom := d, code := (s.cell c).code, codeStandby := (s.cell c).codeStandby, codeErr := (s.cell c).codeErr,
        codePoison := (s.cell c).codePoison, limL := (s.cell c).limL, limC := (s.cell c).limC, limOB := (s.cell c).limOB,
        limSOV := (s.cell c).limSOV, clearUntil := s.now + 8192 }) ∧
      (∀ c, c < 256 → ¬ Owns s d c → t.cell c = s.cell c) ∧
      (∀ k, (∃ c, c < 256 ∧ c / 16 = k ∧ Owns s d c) →
        (let shared : Prop := ∃ p, p < 9 ∧ p ≠ d ∧ (s.dom p).running = true ∧ ∃ c, c < 256 ∧ c / 16 = k ∧ Owns s p c
         ∀ e, e < 2 → (¬ shared → (t.engine (2 * k + e)).genC = 0 ∧ (t.engine (2 * k + e)).core.genV = 0) ∧
           (shared → (t.engine (2 * k + e)).genC = (s.engine (2 * k + e)).genC ∧
             (t.engine (2 * k + e)).core.genV = (s.engine (2 * k + e)).core.genV)) ∧
        (∀ n, x.grant.semBase ≤ n → n < x.grant.semBase + x.grant.semCnt → SMap.get 0 (t.cluster k).sems n = 0) ∧
        ∀ n, x.grant.barBase ≤ n → n < x.grant.barBase + x.grant.barCnt → SMap.get 0 (t.cluster k).bars n = 0) ∧
      (∀ e, ∀ z ∈ (t.engine e).cache, z.1 / 2 ^ 48 ≠ d)) ∧
    (∀ r, x.resetAt = some r → s.now = r + 8256 →
      let y := { x with state := if x.active.isSome ∨ x.fresh then 1 else 0, resetAt := none, chans := [] }
      (x.resetWaits = [] → ∃ t, exec (.partitionResetComplete d) s = .next t ∧ DomBecomes s t d y ∧ t.agenda = s.agenda) ∧
      (∀ i tag, x.resetWaits = [(i, tag, s.now)] → ∃ t, exec (.partitionResetComplete d) s = .next t ∧
        OnlyPosts s t d { y with resetWaits := [] } ∧ Completed s t d i tag 0 0 []))

/-- R272, R273, R281, R306, R336, R337 and R347: a binding request loads the image and goes on for a time within the bound of R273, with
nothing changed meanwhile; one while a binding is in progress or waits to take effect completes with BUSY. A binding that succeeds is in the
standby bank with its code in the cells' standby stores, and its record is the completion's; one that fails leaves both banks. A launch with
a mode the next binding does not hold, or less than 8,192 cycles ahead, or of a domain in another state, completes with BADARG; an accepted
one clears the cells that pass to the domain and takes effect at its tick. A reset command has r 64 cycles on.
That a launch of a mode which the next binding lacks completes with BADARG is the model's reading (log 47). -/
def Obligations.BindingCommands : Prop :=
  (∀ (s : State) (d i tag image len aff arr : Nat), let x := s.dom d
    (x.binding ≠ none ∨ x.fresh = true → ∃ r, r.length = 32 ∧ r.take 1 = [0x0B] ∧
      Answers s s (.bind d i tag image len aff arr) d i tag 0x0B 0 r fun _ => True) ∧
    (x.binding = none → x.fresh = false → ∃ t r m, exec (.bind d i tag image len aff arr) s = .next t ∧
      DomBecomes { s with free := t.free } t d { x with binding := some (i, tag, r) } ∧ s.now ≤ m ∧
      m ≤ s.now + bindBound (loadImage s image len) ∧ Due t m (.bindingComplete d i tag) ∧
      (∀ c, loadImage s image len = .error c → r.status = c ∧ r.tables = none ∧ m ≤ s.now + 14000000))) ∧
  (∀ (s : State) (d i tag j tg : Nat) (r : BindResult), (s.dom d).binding = some (j, tg, r) → let x := s.dom d
    (r.tables = none → Answers s { s with doms := SMap.put s.doms d { x with binding := none } } (.bindingComplete d i tag) d i tag
      r.status 0 r.record fun _ => True) ∧
    (∀ b, r.tables = some b → (∀ y ∈ b.tensors, tHome y.2 ≠ 2) → ∃ t, exec (.bindingComplete d i tag) s = .next t ∧ Completed s t d i tag r.status 0 r.record ∧
      (t.dom d).standby = some { b with writtenAt := s.now } ∧ (t.dom d).fresh = true ∧ (t.dom d).binding = none ∧
      (t.dom d).active = x.active ∧ (t.dom d).mode = x.mode ∧ (t.dom d).running = x.running ∧ (t.dom d).chans = x.chans ∧
      (t.dom d).state = (if x.state = 0 then 1 else x.state) ∧ (∀ p, p ≠ d → t.dom p = s.dom p) ∧
      (∀ c, c < 256 → t.cell c = { s.cell c with codeStandby := (t.cell c).codeStandby, sp := (t.cell c).sp }) ∧
      (∀ c, c < 256 → ¬ Owns s d c → (t.cell c).codeStandby = (s.cell c).codeStandby) ∧
      (∀ c k, c < 256 → Owns s d c → (b.Places c k → SMap.get [] (t.cell c).codeStandby k = (SMap.get {} b.blocks k).code) ∧
        (¬ b.Places c k → SMap.get [] (t.cell c).codeStandby k = [])))) ∧
  (∀ (s : State) (d i tag mode start : Nat) (seed : BitVec 32), start < 2 ^ 48 → let x := s.dom d
    let b := if x.fresh then x.standby else x.active
    (x.state ≠ 1 ∨ b = none ∨ (∃ y, b = some y ∧ y.table mode = none) ∨ start * 4096 < s.clock + 8192 ∨ x.launching ≠ none →
      Answers s s (.launch d i tag mode start seed) d i tag 0x21 0 [] fun _ => True) ∧
    (∀ y, x.state = 1 → b = some y → (y.table mode).isSome → s.clock + 8192 ≤ start * 4096 → x.launching = none →
      (y.usesSpan = true → s.hub.rstate ≠ 2 → Answers s s (.launch d i tag mode start seed) d i tag 0x26 0 [] fun _ => True) ∧
      (y.usesSpan = false ∨ s.hub.rstate = 2 → ∃ t m, exec (.launch d i tag mode start seed) s = .next t ∧
        t.dom d = { x with launching := some (i, tag, mode, start, seed) } ∧ (∀ p, p ≠ d → t.dom p = s.dom p) ∧
        t = { s with doms := t.doms, cells := t.cells, agenda := t.agenda } ∧
        (∀ c, c < 256 → (¬ Owns s d c ∨ (s.cell c).dom = d) → t.cell c = s.cell c) ∧
        (∀ c, c < 256 → Owns s d c → (s.cell c).dom ≠ d → t.cell c = {
          dom := d, code := (s.cell c).code, codeStandby := (s.cell c).codeStandby, codeErr := (s.cell c).codeErr,
          codePoison := (s.cell c).codePoison, limL := (s.cell c).limL, limC := (s.cell c).limC, limOB := (s.cell c).limOB,
          limSOV := (s.cell c).limSOV, clearUntil := s.now + 8192 }) ∧
        s.now ≤ m ∧ (m + s.hub.clockOfs) % 2 ^ 60 = start * 4096 ∧ m < s.now + 2 ^ 60 ∧ Due t m (.launchEffect d)))) ∧
  (∀ (s : State) (d i tag : Nat), ∃ t, exec (.reset d i tag) s = .next t ∧ Due t (s.now + 64) (.partitionReset d) ∧
    Due t (s.now + 8320) (.partitionResetComplete d) ∧
    DomBecomes s t d { s.dom d with resetWaits := (s.dom d).resetWaits ++ [(i, tag, s.now + 8320)] })

/-! ### The host -/

namespace Sys2Proof.Machine

/-- The dwords of a command entry in host memory; the rest of it is zero (R336). -/
def EntryWords (s : State) (a : Nat) (l : List Nat) : Prop := ∀ k, k < 8 → Mem.readN s.host (a + 8 * k) 8 = l.getD k 0

/-- Dwords of a command entry that its operation uses, dword 0 among them; none for an unassigned one (R336). -/
def entryLength (op : Nat) : Nat := [0, 5, 4, 1, 3, 2, 3, 2, 8, 3].getD op 0

/-- An entry with an unassigned operation or a nonzero unused bit: of dword 0, of an operand beyond its width, of a dword that the
operation does not use (R336). -/
def BadEntry (w : Nat → Nat) : Prop :=
  let op := w 0 % 2 ^ 8
  w 0 / 2 ^ 8 % 2 ^ 8 ≠ 0 ∨ 2 ^ 32 ≤ w 0 ∨ op = 0 ∨ 9 < op ∨ (∃ k, entryLength op ≤ k ∧ k < 8 ∧ w k ≠ 0) ∨ op = 1 ∧ 2 ^ 4 ≤ w 3 ∨
    op = 2 ∧ (2 ^ 48 ≤ w 2 ∨ 2 ^ 32 ≤ w 3) ∨ op = 4 ∧ (2 ^ 16 ≤ w 1 ∨ 2 ≤ w 2)

/-- A ring becomes `r`, and nothing else changes but the agenda and the count of free values. -/
def RingBecomes (s t : State) (d i : Nat) (r : Ring) : Prop :=
  (t.dom d).ring i = r ∧ (∀ j, j ≠ i → (t.dom d).ring j = (s.dom d).ring j) ∧ (∀ p, p ≠ d → t.dom p = s.dom p) ∧
  t.dom d = { s.dom d with rings := (t.dom d).rings, reading := (t.dom d).reading, turn := (t.dom d).turn } ∧
  t = { s with doms := t.doms, agenda := t.agenda, free := t.free }

/-- A ring, completion or fault ring register takes BASE and LOGN; its RSV bits stay zero (R335). -/
def ringWord (v : Word) : Word := v.extractLsb' 12 52 ++ (0 : BitVec 7) ++ v.extractLsb' 0 5

/-- A running domain's channel that has an end at the host (R336). -/
def HostChannel (s : State) (d n : Nat) (tb : Table) (c : Chan) : Prop :=
  (s.dom d).state = 2 ∧ (s.dom d).table = some tb ∧ tb.chans[n]? = some c ∧ (c.fstg = 0xFFFF ∨ c.tstg = 0xFFFF)

/-- A command ring is enabled and mapped, has not stopped, is not at work, and has an entry to read (R334, R337, R338). -/
def HasCommand (x : Domain) (i : Nat) : Prop :=
  let r := x.ring i
  x.ren.getLsbD i = true ∧ 4 ≤ (r.reg.setWidth 5).toNat ∧ (r.reg.setWidth 5).toNat ≤ 16 ∧ r.slot ≠ none ∧ r.stopped = false ∧ r.busy = false ∧
  r.head ≠ r.tail

/-- The hub serves the rings of a domain round robin (R337): where it is not about to read an entry, it turns to the first ring from the one
whose turn it is on that has a command, and reads it at a time that is not promised (log 4); a doorbell of number 8 and the ring's
stands for that read. -/
def TurnsTo (s t : State) (d : Nat) : Prop :=
  let x := s.dom d
  (x.reading ≠ none → (t.dom d).reading = x.reading) ∧
  (x.reading = none → (∀ k, k < 8 → ¬ HasCommand x k) → (t.dom d).reading = none) ∧
  (x.reading = none → ∀ k, k < 8 → HasCommand x ((x.turn + k) % 8) → (∀ j, j < k → ¬ HasCommand x ((x.turn + j) % 8)) →
    (t.dom d).reading = some ((x.turn + k) % 8) ∧ (t.dom d).turn = (x.turn + k + 1) % 8 ∧
    Due t (s.now + Config.hostCycles s.free) (.doorbell d (8 + (x.turn + k) % 8) 0))

/-- A domain's ring as `r`. -/
def State.withRing (s : State) (d i : Nat) (r : Ring) : State :=
  { s with doms := SMap.put s.doms d { s.dom d with rings := SMap.put (s.dom d).rings i r } }

/-- A write of the host numbered below `n` has not been performed. -/
def HostWriteWaits (s : State) (n : Nat) : Prop :=
  ∃ x ∈ s.dies, ∃ r ∈ x.2.reqs ++ x.2.inFlight, r.id < n ∧ ∃ v, r.op = .hostWrite v

/-- A cell of a domain lies in a cluster. -/
def InCluster (s : State) (d k : Nat) : Prop := ∃ c, c < 256 ∧ c / 16 = k ∧ Owns s d c

/-- A grant of a domain whose semaphores or barriers overlap another domain's in a cluster both use (R335). -/
def ObjectsOverlap (s : State) (d : Nat) (g : Grant) : Prop :=
  ∃ p k, p < 9 ∧ p ≠ d ∧ InCluster s p k ∧ (∃ c, c < 256 ∧ c / 16 = k ∧ g.cells.getLsbD c = true) ∧
    let o := (s.dom p).grant
    ((∃ n, o.semBase ≤ n ∧ n < o.semBase + o.semCnt ∧ g.semBase ≤ n ∧ n < g.semBase + g.semCnt) ∨
      ∃ n, o.barBase ≤ n ∧ n < o.barBase + o.barCnt ∧ g.barBase ≤ n ∧ n < g.barBase + g.barCnt)

/-- Granules of a slice that no other domain's grant holds, ascending (R333). -/
def granulesFree (s : State) (d k : Nat) : List Nat :=
  (List.range 128).filter fun n => (List.range 9).all fun p => p == d || !(SMap.get [] (s.dom p).grant.granules k).contains n

end Sys2Proof.Machine

/-- R229, R249, R301, R336, R337 and R349: what each host command does, and the status with which it completes; a `ttsync` waits for the
host's writes that came before it. That a mode bound in the standby bank counts as bound is the model's reading (logs 43, 81), as are when a
routine that is loaded takes effect (log 39), what a command entry's unused bits do (log 47) and the order of what an attestation holds
(log 44). -/
def Obligations.HostCommands : Prop :=
  ∀ (s : State) (d i tag : Nat), let x := s.dom d
    Answers s s (.badop d i tag) d i tag 0x20 0 [] (fun _ => True) ∧
    (∀ mode b, x.active = some b ∨ x.fresh = true ∧ x.standby = some b → (b.table mode).isSome →
      Answers s s (.modereq d i tag mode) d i tag 0x00 0 [] fun t => Due t s.now (.modeRequestPending d mode 0 0 0 true)) ∧
    (∀ mode, (∀ b, x.active = some b ∨ x.fresh = true ∧ x.standby = some b → b.table mode = none) →
      Answers s s (.modereq d i tag mode) d i tag 0x21 0 [] fun _ => True) ∧
    (∀ tid all m, (x.ring i).syncing = none ∧ m = s.nextId ∨ (x.ring i).syncing = some (m + 1) →
      (¬ HostWriteWaits s m → ∃ t, exec (.hostTtsync d i tag tid all) s = .next t ∧
        Due t (s.now + 96) (.hostTtsync d i tag tid all) ∧ (t.dom d).ring i = { x.ring i with syncing := some 0 } ∧ MemoryKept s t ∧
        (∀ e, ∀ y ∈ (t.engine e).cache, y ∈ (s.engine e).cache ∧ ¬ (y.1 / 2 ^ 48 = d ∧ (all = true ∨ y.1 / 2 ^ 32 % 2 ^ 16 = tid)))) ∧
      (HostWriteWaits s m → ∃ t k, exec (.hostTtsync d i tag tid all) s = .next t ∧ s.now < k ∧ k ≤ s.now + 8 ∧
        Due t k (.hostTtsync d i tag tid all) ∧ DomBecomes s t d
          { x with rings := SMap.put x.rings i { x.ring i with syncing := some (m + 1) } })) ∧
    (∀ tid all, (x.ring i).syncing = some 0 → Answers s (s.withRing d i { x.ring i with syncing := none })
      (.hostTtsync d i tag tid all) d i tag 0x00 0 [] fun _ => True) ∧
    (∀ n v, (x.state ≠ 2 ∨ (∀ tb, x.table = some tb → tb.chans[n]? = none) →
        Answers s s (.chpush d i tag n v) d i tag 0x21 0 [] (fun _ => True) ∧
        Answers s s (.chpop d i tag n) d i tag 0x21 0 [] fun _ => True) ∧
      (∀ tb c, x.state = 2 → x.table = some tb → tb.chans[n]? = some c → c.fstg ≠ 0xFFFF → c.tstg ≠ 0xFFFF →
        Answers s s (.chpush d i tag n v) d i tag 0x22 0 [] (fun _ => True) ∧
        Answers s s (.chpop d i tag n) d i tag 0x22 0 [] fun _ => True) ∧
      (∀ tb c, HostChannel s d n tb c → tb.stages.length ≤ 0xFFFF → let q := x.chan n
        (c.fstg = 0xFFFF → c.cap ≤ q.queue.length → Answers s s (.chpush d i tag n v) d i tag 0x24 0 [] fun _ => True) ∧
        (c.fstg = 0xFFFF → q.queue.length < c.cap → ∃ t, exec (.chpush d i tag n v) s = .next t ∧ Completed s t d i tag 0x00 0 [] ∧
          (t.dom d).chan n = { q with queue := q.queue ++ [v], tail := (q.tail + 1) % countMod c.cap } ∧
          (∀ m, m ≠ n → (t.dom d).chan m = x.chan m) ∧ (∀ p, p ≠ d → t.dom p = s.dom p) ∧ (∀ k, t.cell k = s.cell k) ∧ t.dies = s.dies ∧
          ∀ k, stageCluster tb c.tstg = some k → 0x210 + 16 * n ≤ s.shareSize d k → q.head < 2 ^ 32 → q.tail + 1 < countMod c.cap →
            Mem.readN (t.cluster k).slice.bytes (s.shareByte d k (0x208 + 16 * n)) 8 = q.head + (q.tail + 1) * 2 ^ 32) ∧
        (c.tstg = 0xFFFF → q.queue = [] → Answers s s (.chpop d i tag n) d i tag 0x23 0 [] fun _ => True) ∧
        (∀ w r, c.tstg = 0xFFFF → q.queue = w :: r → ∃ t, exec (.chpop d i tag n) s = .next t ∧
          Completed s t d i tag 0x00 w.toNat [] ∧ (t.dom d).chan n = { q with queue := r, head := (q.head + 1) % countMod c.cap } ∧
          (∀ m, m ≠ n → (t.dom d).chan m = x.chan m) ∧ (∀ p, p ≠ d → t.dom p = s.dom p) ∧ (∀ k, t.cell k = s.cell k) ∧
          t.dies = s.dies))) ∧
    (∀ die cl e rid rwcet code len, let k := 4 * die + cl
      let ws := (List.range (len / 4)).map fun j => BitVec.ofNat 32 (Mem.readN s.host (code + 4 * j) 4)
      let g := 2 * k + e
      (d ≠ 8 ∨ 4 ≤ die ∨ 4 ≤ cl ∨ 2 ≤ e ∨ 64 ≤ rid ∨ rwcet = 0 ∨ 2 ^ 20 < rwcet ∨ 2 ^ 14 < len ∨ len % 4 ≠ 0 ∨
          clusterUsable s k = false ∨ 2 ^ 14 < (s.engine g).storeBytes rid + len →
        Answers s s (.rtnload d i tag die cl e rid rwcet code len) d i tag 0x21 0 [] fun _ => True) ∧
      (d = 8 → die < 4 → cl < 4 → e < 2 → rid < 64 → 0 < rwcet → rwcet ≤ 2 ^ 20 → len % 4 = 0 → clusterUsable s k = true →
        (s.engine g).storeBytes rid + len ≤ 2 ^ 14 →
        ((∀ p, p < 8 → (s.dom p).running = true → ¬ InCluster s p k) → Answers s
          (s.modEngine g fun y => { y with
            routines := SMap.put y.routines rid (rwcet, ws), routinesNext := SMap.del y.routinesNext rid })
          (.rtnload d i tag die cl e rid rwcet code len) d i tag 0x00 0 [] fun _ => True) ∧
        ((∃ p, p < 8 ∧ (s.dom p).running = true ∧ InCluster s p k) →
          ∃ l, (∀ p, p ∈ l ↔ p < 8 ∧ (s.dom p).running = true ∧ InCluster s p k) ∧ Answers s
            (s.modEngine g fun y => { y with routinesNext := SMap.put y.routinesNext rid (rwcet, ws, l) })
            (.rtnload d i tag die cl e rid rwcet code len) d i tag 0x00 0 [] fun _ => True))) ∧
    (∀ nonce response, ∃ body sg : List Byte, sg.length = 17088 ∧ sg <+: Config.sign s.hub.identity.2 body ++ List.replicate 17088 0 ∧
      (∃ u v w, body = u ++ Config.sha256 s.hub.firmware ++ v ++ Config.sha256 s.hub.config ++ w ++
        leBytes 8 s.hub.dieMap.toNat ++ Mem.bytesAt s.host nonce 32) ∧
      (∀ f ∈ s.hub.dieFirmware, ∃ u v, body = u ++ Config.sha256 f ++ v) ∧
      (∀ p, p < 9 → ∀ b, (s.dom p).active = some b ∨ (s.dom p).fresh = true ∧ (s.dom p).standby = some b →
        ∃ u v, body = u ++ leBytes 8 p ++ Config.sha256 b.image ++ v) ∧
      Answers s { s with host := Mem.writeBytes s.host response (body ++ sg) } (.attest d i tag nonce response) d i tag 0x00 0 []
        fun _ => True)

/-- R335 to R339: a doorbell sets the tail of a mapped ring, and one too far ahead stops the ring with a notice that names it; it sets the
shadow of another, which the firmware maps within 1 ms; the rings of a domain are served round robin, and the entry at the head is read as
the command its dwords name, a reserved operation or a nonzero reserved bit as BADOP; a map takes the shadow's tail, or the saved one, and
an unmap saves the tail. When an entry is read is not promised (log 4); which slot a map takes is the firmware's choice, of which slot 64 stands
for the model's (log 77). See logs 47 and 48. -/
def Obligations.CommandRings : Prop :=
  (∀ (s : State) (d i : Nat) (tail : BitVec 32), d < 9 → i < 8 → let x := s.dom d
    let r := x.ring i
    let n := (r.reg.setWidth 5).toNat
    (s.hub.stage ≠ 6 → exec (.doorbell d i tail) s = .next s) ∧
    (s.hub.stage = 6 →
      (r.slot = none → ∃ t, exec (.doorbell d i tail) s = .next t ∧ RingBecomes s t d i { r with shadow := some tail } ∧
        ((∀ y ∈ s.agenda, y.ev ≠ .ringMap d i 64) → ∃ m, s.now ≤ m ∧ m ≤ s.now + 1400000 ∧ Due t m (.ringMap d i 64))) ∧
      (r.slot ≠ none → r.stopped = false → ¬ (4 ≤ n ∧ n ≤ 16 ∧ 2 ^ n < (tail - r.head).toNat) →
        ∃ t, exec (.doorbell d i tail) s = .next t ∧ RingBecomes s t d i { r with tail := tail } ∧
          TurnsTo (s.withRing d i { r with tail := tail }) t d) ∧
      (r.slot ≠ none → r.stopped = true → ∃ t, exec (.doorbell d i tail) s = .next t ∧ RingBecomes s t d i { r with tail := tail } ∧
        t.agenda = s.agenda) ∧
      (r.slot ≠ none → r.stopped = false → 4 ≤ n → n ≤ 16 → 2 ^ n < (tail - r.head).toNat →
        ∃ t, exec (.doorbell d i tail) s = .next t ∧ (t.dom d).ring i = { r with tail := tail, stopped := true } ∧
          Posted s t d (i % 2) (0x21 + 0xFFFF * 2 ^ 16 + i * 2 ^ 32) 0 []))) ∧
  (∀ (s : State) (d i : Nat) (tail : BitVec 32), d < 9 → i < 8 → s.hub.stage = 6 → let x := s.dom d
    let r := x.ring i
    let n := (r.reg.setWidth 5).toNat
    let a := (r.reg.extractLsb' 12 52).toNat * 4096 + 64 * (r.head.toNat % 2 ^ n)
    (x.reading ≠ some i → exec (.doorbell d (8 + i) tail) s = .next s) ∧
    (x.reading = some i → ¬ HasCommand x i → ∃ t, exec (.doorbell d (8 + i) tail) s = .next t ∧ RingBecomes s t d i r ∧
      TurnsTo { s with doms := SMap.put s.doms d { x with reading := none } } t d) ∧
    (x.reading = some i → HasCommand x i → ∃ t, exec (.doorbell d (8 + i) tail) s = .next t ∧
      RingBecomes s t d i { r with busy := true, head := r.head + 1 } ∧
      (let u := { x with reading := none, rings := SMap.put x.rings i { r with busy := true, head := r.head + 1 } }
       TurnsTo { s with doms := SMap.put s.doms d u } t d) ∧
      (∀ tag ev, tag < 2 ^ 16 → let is (op : Nat) (l : List Nat) : Prop := EntryWords s a ((op + tag * 2 ^ 16) :: l)
        ((∃ im len aff arr, aff < 16 ∧ is 1 [im, len, aff, arr] ∧ ev = .bind d i tag im len aff arr) ∨
         (∃ m st sd, st < 2 ^ 48 ∧ sd < 2 ^ 32 ∧ is 2 [m, st, sd] ∧ ev = .launch d i tag m st (BitVec.ofNat 32 sd)) ∨
         (is 3 [] ∧ ev = .reset d i tag) ∨
         (∃ tid, tid < 2 ^ 16 ∧ is 4 [tid, 0] ∧ ev = .hostTtsync d i tag tid false) ∨
         (∃ tid, tid < 2 ^ 16 ∧ is 4 [tid, 1] ∧ ev = .hostTtsync d i tag tid true) ∨
         (∃ m, is 5 [m] ∧ ev = .modereq d i tag m) ∨
         (∃ m v, v < 2 ^ 64 ∧ is 6 [m, v] ∧ ev = .chpush d i tag m (BitVec.ofNat 64 v)) ∨
         (∃ m, is 7 [m] ∧ ev = .chpop d i tag m) ∨
         (∃ die cl e rid rw co len, is 8 [die, cl, e, rid, rw, co, len] ∧ ev = .rtnload d i tag die cl e rid rw co len) ∨
         (∃ no re, is 9 [no, re] ∧ ev = .attest d i tag no re) ∨
         ((∃ w : Nat → Nat, (∀ k, k < 8 → Mem.readN s.host (a + 8 * k) 8 = w k) ∧ w 0 / 2 ^ 16 % 2 ^ 16 = tag ∧ BadEntry w) ∧
           ev = .badop d i tag)) → Due t s.now ev))) ∧
  (∀ (s : State) (d i k : Nat), d < 9 → i < 8 → s.hub.stage = 6 → let r := (s.dom d).ring i
    let maps (j : Nat) (t : State) : Prop := exec (.ringMap d i k) s = .next t ∧
      SMap.get (9, 9) t.hub.slots j = (d, i) ∧ ((t.dom d).ring i).slot = some j ∧ ((t.dom d).ring i).shadow = none ∧
      ((t.dom d).ring i).tail = r.shadow.getD r.saved ∧ (∀ c, t.cell c = s.cell c)
    let free (j : Nat) : Prop := ∀ y ∈ s.hub.slots, y.1 ≠ j
    (k < 64 → r.slot = none → free k → ∃ t, maps k t ∧ ∀ p, p ≠ d → t.dom p = s.dom p) ∧
    (∀ j, k = 64 → r.slot = none → free 64 → j < 64 → free j → (∀ m, m < j → ¬ free m) → ∃ t, maps j t ∧ ∀ p, p ≠ d → t.dom p = s.dom p) ∧
    (k = 64 → r.slot = none → free 64 → (∀ m, m < 64 → ¬ free m) →
      (∀ m, m < 64 → let y := SMap.get (9, 9) s.hub.slots m; y.1 < 9 ∧ y.2 < 8 ∧ ((s.dom y.1).ring y.2).slot = some m) →
      ∃ t j, j < 64 ∧ maps j t ∧ let y := SMap.get (9, 9) s.hub.slots j
        ((t.dom y.1).ring y.2).slot = none ∧ ((t.dom y.1).ring y.2).saved = ((s.dom y.1).ring y.2).tail) ∧
    (r.slot ≠ none → exec (.ringMap d i k) s = .next s) ∧
    (r.slot = none → exec (.ringUnmap d i) s = .next s) ∧
    (r.slot = some k → ∃ t, exec (.ringUnmap d i) s = .next t ∧ t.hub = { s.hub with slots := SMap.del s.hub.slots k } ∧
      (t.dom d).ring i = { r with slot := none, saved := r.tail, shadow := none } ∧
      (∀ j, j ≠ i → (t.dom d).ring j = (s.dom d).ring j) ∧ t = { s with doms := t.doms, hub := t.hub }))

/-- R328, R332 to R335, R340 and R341: each grant register takes a write while STATE is 0 and the cases of R335 do not refuse it,
and one refused leaves it and sets GERR; each other
register of a domain's block takes its writable fields, and read-only ones and places without a register ignore a write; a window of LP6
is served in service slots, and one of a die that is not usable drops writes and refuses reads; the debug port reads and writes a held
cell alone. A message is sent at the end of the window of the first entry not signalled. Reads give every field but
the WO and RSV ones, which are zero as are places with no register (R5). That HEAD "beyond" TAIL is a signed comparison is the model's
reading (log 48), as is how grants are checked (log 49) and what the windows and the debug port reach (log 50). -/
def Obligations.HostRegisters : Prop :=
  (∀ (s : State) (d o : Nat) (v : Word), s.hub.stage = 6 → d < 9 → let x := s.dom d
    let refuses : Prop := ∃ t, exec (.grantWrite d o v) s = .next t ∧ DomBecomes s t d { x with gerr := true } ∧ t.agenda = s.agenda
    let takes (g : Grant) : Prop := ∃ t, exec (.grantWrite d o v) s = .next t ∧ DomBecomes s t d { x with grant := g } ∧ t.agenda = s.agenda
    let usable (j : Nat) : Prop := s.hub.dieMap.getLsbD j = true ∧ s.hub.dieMap.getLsbD (4 + j) = false
    let sum (f : Grant → SMap Nat) (j : Nat) : Nat := (((List.range 9).filter (· ≠ d)).map fun p => SMap.get 0 (f (s.dom p).grant) j).sum
    (8 ≤ o → o < 0xA0 → x.state ≠ 0 → refuses) ∧
    (∀ j c, j < 4 → o = 8 + 8 * j → c < 64 → v.getLsbD c = true → (∃ p, p < 9 ∧ p ≠ d ∧ Owns s p (64 * j + c)) → refuses) ∧
    (∀ j c, j < 4 → o = 8 + 8 * j → c < 64 → v.getLsbD c = true →
      (s.hub.dieMap.getLsbD j = false ∨ s.hub.dieMap.getLsbD (4 + j) = true ∨ s.hub.dieMap.getLsbD (24 + (64 * j + c) / 16) = true) →
      refuses) ∧
    (∀ j (g : BitVec 256), j < 4 → o = 8 + 8 * j → x.state = 0 → (∀ c, c < 64 → v.getLsbD c = true →
        (∀ p, p < 9 → p ≠ d → ¬ Owns s p (64 * j + c)) ∧ usable j ∧ s.hub.dieMap.getLsbD (24 + (64 * j + c) / 16) = false) →
      (∀ c, c < 256 → g.getLsbD c = if c / 64 = j then v.getLsbD (c % 64) else x.grant.cells.getLsbD c) →
      (¬ ObjectsOverlap s d { x.grant with cells := g } → takes { x.grant with cells := g }) ∧
      (ObjectsOverlap s d { x.grant with cells := g } → refuses)) ∧
    (∀ j, j < 2 → o = 0x28 + 8 * j → x.state = 0 → let n (i : Nat) : Nat := (v.extractLsb' (8 * i) 8).toNat
      let bad (i : Nat) : Prop := 128 < n i ∨ (granulesFree s d (8 * j + i)).length < n i ∨
        n i ≠ 0 ∧ (¬ usable ((8 * j + i) / 4) ∨ s.hub.dieMap.getLsbD (24 + 8 * j + i) = true)
      ((∃ i, i < 8 ∧ bad i) → refuses) ∧
      ((∀ i, i < 8 → ¬ bad i) → ∃ m q, takes { x.grant with ggran := m, granules := q } ∧
        ∀ k, SMap.get 0 m k = (if k / 8 = j then n (k % 8) else SMap.get 0 x.grant.ggran k) ∧
          SMap.get [] q k = if k / 8 = j then (granulesFree s d k).take (n (k % 8)) else SMap.get [] x.grant.granules k)) ∧
    (o = 0x38 → x.state = 0 →
      let g : Grant := { x.grant with semBase := (v.extractLsb' 0 9).toNat, semCnt := (v.extractLsb' 9 9).toNat,
                                      barBase := (v.extractLsb' 18 6).toNat, barCnt := (v.extractLsb' 24 7).toNat }
      let bad : Prop := 256 < g.semBase + g.semCnt ∨ 64 < g.barBase + g.barCnt ∨ ObjectsOverlap s d g
      (bad → refuses) ∧ (¬ bad → takes g)) ∧
    (∀ j, j < 8 → o = 0x48 + 8 * j → x.state = 0 → let n (i : Nat) : Nat := (v.extractLsb' (16 * i) 16).toNat
      let bad (i : Nat) : Prop := 480 < n i ∨ n i ≠ 0 ∧ (480 < sum Grant.lp6 (4 * j + i) + n i ∨ ¬ usable (j / 2))
      ((∃ i, i < 4 ∧ bad i) → refuses) ∧
      ((∀ i, i < 4 → ¬ bad i) → ∃ m, takes { x.grant with lp6 := m } ∧
        ∀ i, SMap.get 0 m i = if i / 4 = j then n (i % 4) else SMap.get 0 x.grant.lp6 i)) ∧
    (o = 0x98 → x.state = 0 → let n (i : Nat) : Nat := (v.extractLsb' (16 * i) 16).toNat
      let bad (i : Nat) : Prop := 512 < n i ∨ n i ≠ 0 ∧ 512 < sum Grant.span i + n i
      ((∃ i, i < 4 ∧ bad i) → refuses) ∧
      ((∀ i, i < 4 → ¬ bad i) → ∃ m, takes { x.grant with span := m } ∧
        ∀ i, SMap.get 0 m i = if i < 4 then n i else SMap.get 0 x.grant.span i)) ∧
    (o = 0x40 → x.state = 0 → ((v.setWidth 9).toNat ≤ 256 → takes { x.grant with carve := (v.setWidth 9).toNat }) ∧
      (256 < (v.setWidth 9).toNat → refuses)) ∧
    (∀ j, j < 2 → o = 0x88 + 8 * j → x.state = 0 → let n (i : Nat) : Nat := (v.extractLsb' (16 * i) 16).toNat
      ((∃ i, i < 4 ∧ (512 < n i ∨ n i ≠ 0 ∧ 512 < sum Grant.link (4 * j + i) + n i)) → refuses) ∧
      ((∀ i, i < 4 → n i ≤ 512 ∧ (n i = 0 ∨ sum Grant.link (4 * j + i) + n i ≤ 512)) → ∃ m, takes { x.grant with link := m } ∧
        ∀ i, SMap.get 0 m i = if i / 4 = j then n (i % 4) else SMap.get 0 x.grant.link i))) ∧
  (∀ (s : State) (d : Nat) (v : Word), s.hub.stage = 6 → d < 9 → let x := s.dom d
    (∀ head : BitVec 32, head = x.fltTail ∨ 2 ^ 31 ≤ (head - x.fltTail).toNat →
      ∃ t, exec (.fltTail d head) s = .next t ∧ DomBecomes s t d { x with fltHead := head } ∧ t.agenda = s.agenda) ∧
    (∀ head : BitVec 32, head ≠ x.fltTail → (head - x.fltTail).toNat < 2 ^ 31 → exec (.fltTail d head) s = .next s) ∧
    (let sets (o : Nat) (y : Domain) : Prop := ∃ t, exec (Instr.registerWrite (0x10000 + 0x400 * d + o) (some v)) s = .next t ∧
       DomBecomes s t d y ∧ t.agenda = s.agenda
     (∀ i, i < 2 → sets (0x110 + 0x20 * i) { x with cplReg := SMap.set 0 x.cplReg i (ringWord v) }) ∧
     sets 0x200 { x with fltReg := ringWord v } ∧ sets 0x210 { x with fltLost := v.setWidth 32 } ∧
     sets 0x218 { x with cplHead := SMap.set 0 (SMap.set 0 x.cplHead 0 (v.setWidth 32)) 1 (v.extractLsb' 32 32) } ∧
     (v.extractLsb' 16 16 ≠ (0 : BitVec 16) → sets 0x220 { x with coal := v.setWidth 32 }) ∧
     (v.extractLsb' 16 16 = (0 : BitVec 16) → sets 0x220 { x with coal := 0x10000 ||| (v.setWidth 16).setWidth 32 }) ∧
     (∀ i, i < 8 → (x.ring i).slot = none → ∃ t, exec (Instr.registerWrite (0x10000 + 0x400 * d + (0x100 + 0x20 * i)) (some v)) s = .next t ∧
       RingBecomes s t d i { x.ring i with reg := ringWord v }) ∧
     (∀ i, i < 8 → let r := x.ring i
       r.slot ≠ none → r.stopped = false → 4 ≤ (v.setWidth 5).toNat → (v.setWidth 5).toNat ≤ 16 →
       2 ^ (v.setWidth 5).toNat < (r.tail - r.head).toNat →
       ∃ t, exec (Instr.registerWrite (0x10000 + 0x400 * d + (0x100 + 0x20 * i)) (some v)) s = .next t ∧
         (t.dom d).ring i = { r with reg := ringWord v, stopped := true } ∧
         Posted s t d (i % 2) (0x21 + 0xFFFF * 2 ^ 16 + i * 2 ^ 32) 0 []) ∧
     (∃ t, exec (Instr.registerWrite (0x10000 + 0x400 * d) (some v)) s = .next t ∧
       let y := { x with gerr := x.gerr && !v.getLsbD 2, ren := v.extractLsb' 8 8 }
       DomBecomes { s with free := t.free } t d { y with reading := (t.dom d).reading, turn := (t.dom d).turn } ∧
       TurnsTo { s with doms := SMap.put s.doms d y } t d)) ∧
    (∀ o, o ∈ [0x108, 0x118, 0x150, 0x228] → exec (Instr.registerWrite (0x10000 + 0x400 * d + o) (some v)) s = .next s) ∧
    (∀ o, o ∈ [0, 8, 0x1010, 0x2000, 0x3000, 0x3008] → exec (.registerWrite o (some v)) s = .next s)) ∧
  (∀ (s : State) (o : Nat) (v : Option Word), s.hub.stage ≠ 6 → exec (.registerWrite o v) s = .next s) ∧
  (∀ (s : State) (d : Nat), s.hub.stage = 6 → d < 9 → let x := s.dom d
    let h := s.hub
    let flag (b : Bool) (k : Nat) : Nat := if b then 2 ^ k else 0
    let reads (o : Nat) (w : Nat) : Prop := ∀ k, k < 8 → exec (.registerWrite (o + k) none) s =
      .next { s with hub := { h with readVal := BitVec.ofNat 2048 w, readUr := false } }
    let own (o : Nat) (w : Nat) : Prop := reads (0x10000 + 0x400 * d + o) w
    let port (p : Nat) : Nat := let q := s.port p
      if q.st.toNat = 4 then 4
      else q.st.toNat + flag q.alert 3 + q.modon.toNat % 2 * 2 ^ 4 + q.modhalf.toNat % 4 * 2 ^ 8 + q.retry.toNat * 2 ^ 16 +
        q.crce.toNat * 2 ^ 32 + q.spare.toNat * 2 ^ 48 + q.late.toNat * 2 ^ 56
    reads 0 0x5A390001 ∧ reads 8 (h.stage.toNat + h.berr.toNat * 2 ^ 4) ∧
    reads 0x1000 (h.src.toNat + flag h.en 2 + h.holdth.toNat * 2 ^ 16) ∧ reads 0x1008 h.epoch.toNat ∧
    reads 0x1010 (h.rstate.toNat + flag h.cset 2 + h.pherr.toNat * 2 ^ 4 + h.fofs.toNat * 2 ^ 24 + h.age.toNat * 2 ^ 48) ∧
    reads 0x2000 h.dieMap.toNat ∧ reads 0x3000 (port 12) ∧ reads 0x3008 (port 13) ∧
    (∀ i, i < 8 → reads (0x100000 + 0x1000 * (8 * d + i)) (let r := x.ring i
      if r.slot = none then (r.shadow.getD r.saved).toNat else r.tail.toNat)) ∧
    own 0 (x.state.toNat + flag x.gerr 2 + x.ren.toNat * 2 ^ 8) ∧ (∀ j, j < 4 → own (8 + 8 * j) (x.grant.cells.extractLsb' (64 * j) 64).toNat) ∧
    own 0x38 (x.grant.semBase + x.grant.semCnt * 2 ^ 9 + x.grant.barBase * 2 ^ 18 + x.grant.barCnt * 2 ^ 24) ∧ own 0x40 x.grant.carve ∧
    (∀ j, j < 8 → ∃ w, own (0x48 + 8 * j) w ∧ w < 2 ^ 64 ∧ ∀ i, i < 4 → w / 2 ^ (16 * i) % 2 ^ 16 = SMap.get 0 x.grant.lp6 (4 * j + i) % 2 ^ 16) ∧
    (∀ j, j < 2 → ∃ w, own (0x88 + 8 * j) w ∧ w < 2 ^ 64 ∧ ∀ i, i < 4 → w / 2 ^ (16 * i) % 2 ^ 16 = SMap.get 0 x.grant.link (4 * j + i) % 2 ^ 16) ∧
    (∃ w, own 0x98 w ∧ w < 2 ^ 64 ∧ ∀ i, i < 4 → w / 2 ^ (16 * i) % 2 ^ 16 = SMap.get 0 x.grant.span i % 2 ^ 16) ∧
    (∀ j, j < 2 → ∃ w, own (0x28 + 8 * j) w ∧ w < 2 ^ 64 ∧ ∀ k, k < 8 → w / 2 ^ (8 * k) % 2 ^ 8 = SMap.get 0 x.grant.ggran (8 * j + k) % 2 ^ 8) ∧
    (∀ i, i < 8 → own (0x100 + 0x20 * i) (x.ring i).reg.toNat ∧ own (0x108 + 0x20 * i) (x.ring i).head.toNat) ∧
    (∀ i, i < 2 → own (0x110 + 0x20 * i) (SMap.get 0 x.cplReg i).toNat ∧ own (0x118 + 0x20 * i) (SMap.get 0 x.cplTail i).toNat) ∧
    own 0x200 x.fltReg.toNat ∧ own 0x208 (x.fltTail.toNat + x.fltHead.toNat * 2 ^ 32) ∧ own 0x210 x.fltLost.toNat ∧
    own 0x218 ((SMap.get 0 x.cplHead 0).toNat + (SMap.get 0 x.cplHead 1).toNat * 2 ^ 32) ∧ own 0x220 x.coal.toNat ∧
    own 0x150 0 ∧ own 0x228 0 ∧ own 0xA0 0) ∧
  (∀ (s : State) (die addr : Nat) (w : Bool) (v : Word), s.hub.stage = 6 → die < 4 →
    let usable := s.hub.dieMap.getLsbD die = true ∧ s.hub.dieMap.getLsbD (4 + die) = false
    (¬ usable → w = true → exec (.hostMemoryAccess die addr w v) s = .next s) ∧
    (¬ usable → w = false → exec (.hostMemoryAccess die addr w v) s =
      .next { s with hub := { s.hub with readVal := 0, readUr := true } }) ∧
    (usable → addr / 8 * 8 < s.hub.lp6Gb.getD die 0 * 2 ^ 30 → ∃ t r, exec (.hostMemoryAccess die addr w v) s = .next t ∧
      (t.die die).reqs = (s.die die).reqs ++ [r] ∧ r.addr = addr / 8 * 8 ∧ r.cls = .best ∧ r.ready = s.now ∧
      r.op = (if w then .hostWrite v else .hostRead) ∧ (t.die die).lp6 = (s.die die).lp6 ∧ (∀ e, e ≠ die → t.die e = s.die e) ∧
      t = { s with dies := t.dies, agenda := t.agenda, nextId := t.nextId } ∧
      (SMap.get false (s.die die).slotting (addr / 64 % 8) = false → ∃ n, s.now ≤ n ∧ n < s.now + 8 ∧
        (Due t n (.lp6Slot die (addr / 64 % 8)) ∨ Due t n (.lp6Refresh die (addr / 64 % 8)))))) ∧
  (∀ (s : State) (c r : Nat) (p : DbgAt) (w : Bool) (v : BitVec 2048), s.hub.stage = 6 → c < 256 →
    ((s.cell c).run ≠ .held → w = true → exec (.debugPortAccess c p w v) s = .next s) ∧
    ((s.cell c).run ≠ .held → w = false → (∀ k, (s.cell k).injStarted = false) →
      exec (.debugPortAccess c p w v) s = .next { s with hub := { s.hub with readVal := 0, readUr := false } }) ∧
    ((s.cell c).run = .held → r < 32 → (∀ k, (s.cell k).injStarted = false) →
      (exec (.debugPortAccess c (.sreg r) false v) s = .next { s with hub := { s.hub with
        readVal := ((s.cell c).getS (BitVec.ofNat 5 r)).zeroExtend 2048, readUr := false } }) ∧
      (r ≠ 0 → ∃ t, exec (.debugPortAccess c (.sreg r) true v) s = .next t ∧ (t.cell c).getS (BitVec.ofNat 5 r) = v.setWidth 64 ∧
        (∀ q : SReg, q ≠ BitVec.ofNat 5 r → (t.cell c).getS q = (s.cell c).getS q) ∧ (∀ k, k ≠ c → t.cell k = s.cell k) ∧
        MemoryKept s t ∧ t.doms = s.doms ∧ t.hub = s.hub) ∧
      (r ≠ 0 → ∃ t, exec (.debugPortAccess c (.dfb r) true v) s = .next t ∧ (t.cell c).getD (BitVec.ofNat 5 r) = v.getLsbD 0 ∧
        (∀ q : SReg, (t.cell c).getS q = (s.cell c).getS q ∧ (q ≠ BitVec.ofNat 5 r → (t.cell c).getD q = (s.cell c).getD q)) ∧
        (∀ k, k ≠ c → t.cell k = s.cell k) ∧ MemoryKept s t ∧ t.doms = s.doms ∧ t.hub = s.hub) ∧
      (∃ t, exec (.debugPortAccess c .current true v) s = .next t ∧ (t.cell c).ctx.toNat = v.toNat % 4 ∧
        (∀ k, k ≠ c → t.cell k = s.cell k) ∧ MemoryKept s t) ∧
      (∃ t, exec (.debugPortAccess c .pc true v) s = .next t ∧ (t.cell c).pc = v.toNat % 2 ^ 16 / 4 * 4 ∧
        (∀ k, k ≠ c → t.cell k = s.cell k) ∧ MemoryKept s t))) ∧
  (∀ (s : State) (d : Nat), let x := s.dom d
    (x.winC = some s.now → ∃ t, exec (.coalesceWindowExpiry d false) s = .next t ∧ DomBecomes { s with hub := t.hub } t d
      { x with unsigC := 0, winC := none } ∧ SMap.get 0 t.hub.msix (2 * d) = SMap.get 0 s.hub.msix (2 * d) + 1) ∧
    (x.winF = some s.now → ∃ t, exec (.coalesceWindowExpiry d true) s = .next t ∧ DomBecomes { s with hub := t.hub } t d
      { x with unsigF := 0, winF := none } ∧ SMap.get 0 t.hub.msix (2 * d + 1) = SMap.get 0 s.hub.msix (2 * d + 1) + 1) ∧
    (x.winC ≠ some s.now → exec (.coalesceWindowExpiry d false) s = .next s) ∧
    (x.winF ≠ some s.now → exec (.coalesceWindowExpiry d true) s = .next s))

/-! ### Time, boot and errors -/

/-- R99 to R102, R104 and R105: a tick ages the last sample and, where discipline is on, steers by at most 215 units within 200 ppm; 256
ticks in a row within 64 cycles lock, a larger error unlocks, and HOLDTH ticks without a sample bring holdover, which keeps the steering.
The first valid sample sets the clock once while no table has run, and later ones only measure. REG_CTL takes its fields but for a reserved
SRC, and REG_EPOCH is ignored after the coarse set. Where the steering goes within its bounds is a free value (log 4); what stands for an
error beyond its field and for a sample before the epoch is the model's reading (logs 12, 13). -/
def Obligations.RegulatorSteersAndMeasures : Prop :=
  (∀ s : State, let h := s.hub
    ∃ t, exec .tick s = .next t ∧ Due t (s.now + 4096) .tick ∧ MemoryKept s t ∧ t.doms = s.doms ∧ (∀ c, t.cell c = s.cell c) ∧
      (t.hub.age.toNat = min 65535 (h.age.toNat + 1)) ∧
      t.hub = { h with age := t.hub.age, within := t.hub.within, rstate := t.hub.rstate, fofs := t.hub.fofs } ∧
      (h.rstate = 0 ∨ h.rstate = 3 → t.hub.fofs = h.fofs ∧ t.hub.rstate = h.rstate) ∧
      (h.rstate = 1 ∨ h.rstate = 2 → -858993 ≤ h.fofs.toInt → h.fofs.toInt ≤ 858993 →
        -858993 ≤ t.hub.fofs.toInt ∧ t.hub.fofs.toInt ≤ 858993 ∧ t.hub.fofs.toInt - h.fofs.toInt ≤ 215 ∧
        h.fofs.toInt - t.hub.fofs.toInt ≤ 215) ∧
      (h.rstate = 1 ∨ h.rstate = 2 → h.sampled = true → -1024 ≤ h.pherr.toInt → h.pherr.toInt ≤ 1024 →
        t.hub.within = min 256 (h.within + 1) ∧ t.hub.rstate = if 256 ≤ h.within + 1 then 2 else h.rstate) ∧
      (h.rstate = 1 ∨ h.rstate = 2 → h.sampled = false ∨ h.pherr.toInt < -1024 ∨ 1024 < h.pherr.toInt → t.hub.within = 0 ∧ t.hub.rstate = 1) ∧
      (h.en = true → h.rstate ≠ 3 → h.holdth.toNat ≤ t.hub.age.toNat → Due t s.now .holdover)) ∧
  (∀ s : State, (s.hub.en = false → exec .holdover s = .next s) ∧
    (s.hub.en = true → exec .holdover s = .next { s with hub := { s.hub with rstate := 3, within := 0 } })) ∧
  (∀ (s : State) (ns : Nat), let h := s.hub
    (h.en = false → exec (.timeSample ns) s = .next s) ∧
    (h.en = true → h.epoch.toNat ≤ ns → (ns - h.epoch.toNat) * 7 / 5 < 2 ^ 59 → ∃ t, exec (.timeSample ns) s = .next t ∧
      t.now = s.now ∧ t.doms = s.doms ∧ (∀ c, t.cell c = s.cell c) ∧ MemoryKept s t ∧ t.hub.age = 0 ∧ t.hub.sampled = true ∧ t.hub.fofs = h.fofs ∧
      t.hub.pherr = BitVec.ofInt 20 (max (-524288) (min 524287
        ((t.clock : Int) * 16 - ((ns : Int) - (h.epoch.toNat : Int)) * 112 / 5))) ∧
      (h.cset = true ∨ h.anyTable = true → t.clock = s.clock ∧ t.hub.cset = h.cset ∧ t.agenda = s.agenda) ∧
      (h.cset = false → h.anyTable = false → t.clock = (ns - h.epoch.toNat) * 7 / 5 ∧ t.hub.cset = true ∧
        ∃ m, s.now < m ∧ m ≤ s.now + 4096 ∧ (m + t.hub.clockOfs) % 4096 = 0 ∧ Due t m .tick) ∧
      (h.rstate = 3 ∨ t.hub.pherr.toInt < -1024 ∨ 1024 < t.hub.pherr.toInt → t.hub.rstate = 1 ∧ t.hub.within = 0) ∧
      (h.rstate ≠ 3 → -1024 ≤ t.hub.pherr.toInt → t.hub.pherr.toInt ≤ 1024 → t.hub.rstate = h.rstate ∧ t.hub.within = h.within))) ∧
  (∀ (s : State) (v : Word), s.hub.stage ≠ 6 → exec (.regCtl v) s = .next s ∧ exec (.regEpoch v) s = .next s) ∧
  (∀ (s : State) (v : Word), s.hub.stage = 6 →
    (v.setWidth 2 = (3 : BitVec 2) → exec (.regCtl v) s = .next s) ∧
    (v.setWidth 2 ≠ (3 : BitVec 2) → exec (.regCtl v) s = .next { s with hub := { s.hub with
      src := v.setWidth 2, en := v.getLsbD 2, holdth := if v.extractLsb' 16 16 = 0 then 1 else v.extractLsb' 16 16,
      rstate := if v.getLsbD 2 = false then 0 else if s.hub.en then s.hub.rstate else 1,
      within := if v.getLsbD 2 = true ∧ s.hub.en = true then s.hub.within else 0 } }) ∧
    (s.hub.cset = true → exec (.regEpoch v) s = .next s) ∧
    (s.hub.cset = false → exec (.regEpoch v) s = .next { s with hub := { s.hub with epoch := v } }))

/-- R117, R328, R341 and R345 to R348: a device reset leaves nothing of what ran and starts the clock at zero; firmware, configuration record,
identity key and PCIe that fail end the boot with their stage and error, and a boot that ends well has the die map that its checks give, with
the reason of each die that fails, the span's fields, and one message on vector 18 for each fenced die and one for its end. Loss of the link clock and a thermal shutdown stop every
clock. Which error stands for which failure of the configuration record, and the order of a die's reasons, are the model's reading (log 51);
so are what reset leaves where the manual gives no value, what stops with the clocks, and vector 18 (logs 1, 9, 50), and where the hub's
key is enrolled (log 80). A die and the hub each derive a key pair, sign the other's nonce and verify the other's signature under the enrolled key. -/
def Obligations.BootAndClockLoss : Prop :=
  (∀ (s : State) (f : BootFind), ∃ t, exec (.deviceReset f) s = .next t ∧
    t.cells = [] ∧ t.clusters = [] ∧ t.engines = [] ∧ (∀ d, t.die d = { identity := (t.die d).identity }) ∧ t.doms = [] ∧ t.host = s.host ∧ t.now = s.now ∧ t.clock = 0 ∧
    t.hub.up = true ∧ t.hub.en = false ∧ t.hub.rstate = 0 ∧ t.hub.cset = false ∧ t.hub.anyTable = false ∧ t.hub.firstTable = none ∧
    t.hub.dbgen = 0 ∧ t.hub.tfreeze = 0 ∧ (∀ y ∈ t.agenda, y.ev = .tick ∧ y.due = s.now + 4096) ∧ Due t (s.now + 4096) .tick ∧
    (let rom := Config.romKeyHash f.rootKey = true ∧ Config.sigVerifies f.rootKey f.firmware f.firmwareSig = true
     let cfg := Config.sigVerifies f.rootKey f.config f.configSig = true
     (¬ rom → t.hub.stage = 0 ∧ t.hub.berr = 1 ∧ t.hub.dieMap = 0) ∧
     (rom → f.config = [] → t.hub.stage = 1 ∧ t.hub.berr = 2 ∧ t.hub.dieMap = 0) ∧
     (rom → f.config ≠ [] → ¬ cfg → t.hub.stage = 1 ∧ t.hub.berr = 3 ∧ t.hub.dieMap = 0) ∧
     (rom → f.config ≠ [] → cfg → f.pufOk = false → t.hub.stage = 2 ∧ t.hub.berr = 4 ∧ t.hub.dieMap = 0) ∧
     (rom → f.config ≠ [] → cfg → f.pufOk = true → f.dies.length = 4 →
       (f.pcieOk = false → t.hub.stage = 5 ∧ t.hub.berr = 5) ∧ (f.pcieOk = true → t.hub.stage = 6 ∧ t.hub.berr = 0) ∧
       t.hub.config = f.config ∧ t.hub.firmware = f.firmware ∧ t.hub.spanNumber = f.spanNumber ∧ t.hub.spanCount = f.spanCount ∧
       t.hub.lp6Gb = f.lp6Gb ∧ t.hub.signature = f.signature ∧ t.hub.imageKeys = f.imageKeys.take 4 ∧
       t.hub.dieKeys = f.dieKeys.take 4 ∧ t.hub.hubKey = f.hubKey ∧ t.hub.identity = Config.identityPair f.hubPuf ∧
       t.hub.dieFirmware = (f.dies.map fun x => x.firmware) ∧
       (∀ c, c < 16 → t.hub.dieMap.getLsbD (24 + c) = f.harvest.getLsbD c) ∧
       (∀ d x, f.dies[d]? = some x →
         let rsn := t.hub.dieMap.extractLsb' (8 + 4 * d) 4
         let own := Config.identityPair x.puf
         let authentic := Config.sigVerifies (f.dieKeys.getD d []) x.hubNonce (Config.sign own.2 x.hubNonce) = true ∧
           Config.sigVerifies f.hubKey x.dieNonce (Config.sign (Config.identityPair f.hubPuf).2 x.dieNonce) = true
         let good := x.inPackage = true ∧ x.harvested = false ∧ x.trains = true ∧ x.derives = true ∧ authentic ∧ x.memoryOk = true
         (x.inPackage = true → x.harvested = false → x.derives = true → (t.die d).identity = own) ∧
         (x.inPackage = true → x.harvested = false → x.trains = true → x.derives = false → rsn = 4) ∧
         (x.inPackage = true → x.harvested = false → x.trains = true → x.derives = true → ¬ authentic → rsn = 3) ∧
         (t.hub.dieMap.getLsbD d = true ↔ good) ∧ (rsn = 0 ↔ good) ∧ (t.hub.dieMap.getLsbD (4 + d) = true ↔ 3 ≤ rsn.toNat) ∧
         (x.inPackage = false → rsn = 1) ∧ (x.inPackage = true → x.harvested = true → rsn = 2) ∧
         (x.inPackage = true → x.harvested = false → x.trains = false → rsn = 5) ∧
         (x.inPackage = true → x.harvested = false → x.trains = true → x.derives = true → authentic → x.memoryOk = false → rsn = 6) ∧
         (x.inPackage = true → x.harvested = false → ¬ good → 3 ≤ rsn.toNat ∧ rsn.toNat ≤ 6) ∧
         (¬ good → (t.port (2 * d)).st = 4 ∧ (t.port (2 * d + 1)).st = 4 ∧ (t.port (8 + d)).st = 4 ∧
           (t.port (2 * ((d + 1) % 4))).st = 4 ∧ (t.port (2 * ((d + 3) % 4) + 1)).st = 4)) ∧
       (f.pcieOk = true → SMap.get 0 t.hub.msix 18 =
         1 + ((List.range 4).filter fun d => t.hub.dieMap.getLsbD (4 + d)).length)))) ∧
  (∀ s : State, exec .linkClockLoss s = .next { s with hub := { s.hub with up := false } } ∧
    exec .thermalShutdown s = .next { s with hub := { s.hub with up := false } } ∧
    step { s with hub := { s.hub with up := false } } = .fault .clocksStopped)

/-- R74, R109 and R309: a soft error flips bits of one stored word and leaves its check bits, so that no byte that the word was written with
changes and nothing else does; a table entry's parity tells an odd number of them, and a slot map owns what it then reads (log 57). Words that are no instruction raise ILLEGAL with
themselves. How the codes tell errors, and which words a truncated form shows, are the model's reading (logs 24, 61, 62). -/
def Rules.SoftErrors : Prop :=
  (∀ (s : State) (c k b w e r m : Nat), c < 256 → r < 32 → m < 8 → w < 32 →
    let x := SMap.get 0
    let v := BitVec.ofNat 64 b
    let cell (p : ErrAt) (y : Cell → Prop) : Prop := ∃ t, exec (.softError p b) s = .next t ∧ y (t.cell c) ∧
      (∀ j, j ≠ c → t.cell j = s.cell j) ∧ t = { s with cells := t.cells } ∧ MemoryKept s t
    let flips (p q : SMap Word) (n : Nat) : Prop := x q n = x p n ^^^ v ∧ ∀ j, j ≠ n → x q j = x p j
    let z := s.cell c
    cell (.scratchpad c w) (fun y => y = { z with sp := { z.sp with err := y.sp.err } } ∧ flips z.sp.err y.sp.err w) ∧
    cell (.accumulator c e) (fun y => y = { z with accErr := y.accErr } ∧ flips z.accErr y.accErr (e / 2)) ∧
    cell (.code c k w) (fun y => y = { z with codeErr := y.codeErr } ∧ flips z.codeErr y.codeErr (k * 2 ^ 14 + w / 2)) ∧
    cell (.sreg c r) (fun y => y = { z with regErr := y.regErr } ∧ flips z.regErr y.regErr r) ∧
    cell (.vreg c r w) (fun y => y = { z with regErr := y.regErr } ∧ flips z.regErr y.regErr (64 + r + 256 * w)) ∧
    cell (.mask c m (w % 4)) (fun y => y = { z with regErr := y.regErr } ∧ flips z.regErr y.regErr (128 + m + 256 * (w % 4))) ∧
    (∃ t, exec (.softError (.slice k w) b) s = .next t ∧ MemoryKept s t ∧ t = { s with clusters := t.clusters } ∧
      (∀ j, j ≠ k → t.cluster j = s.cluster j) ∧ flips (s.cluster k).slice.err (t.cluster k).slice.err w) ∧
    (∃ t, exec (.softError (.lp6 k e) b) s = .next t ∧ MemoryKept s t ∧ t = { s with dies := t.dies } ∧
      (∀ j, j ≠ k → t.die j = s.die j) ∧
      SMap.get 0 (t.die k).lineErr e = SMap.get 0 (s.die k).lineErr e ^^^ BitVec.ofNat 512 b) ∧
    (∀ bd tb y, (s.dom k).active = some bd → bd.table (s.dom k).mode = some tb → (s.dom k).entry c e = some y → b < 2 ^ 128 →
      (tb.columns.map fun z => z.1).Nodup →
      ∃ t y', exec (.softError (.table k c e) b) s = .next t ∧ MemoryKept s t ∧ (∀ j, j ≠ k → t.dom j = s.dom j) ∧
        (t.dom k).entry c e = some y' ∧ y'.word = y.word ^^^ BitVec.ofNat 128 b ∧
        (y.bad = false → (y'.bad = true ↔ ((List.range 128).countP fun i => (BitVec.ofNat 128 b).getLsbD i) % 2 = 1))) ∧
    (∀ bd tb key word, (s.dom k).active = some bd → bd.table (s.dom k).mode = some tb → word < 8 →
      let struck (p q : SMap (BitVec 512)) : Prop := SMap.get 0 q key = SMap.get 0 p key ^^^ (v.setWidth 512 <<< (64 * word)) ∧
        ∀ j, j ≠ key → SMap.get 0 q j = SMap.get 0 p j
      let only (t : State) : Prop := MemoryKept s t ∧ (∀ j, j ≠ k → t.dom j = s.dom j) ∧ t.cells = s.cells ∧ t.clusters = s.clusters ∧
        t.hub = s.hub
      (∀ die ch, ch < 8 → key = 8 * die + ch → ∃ t y, exec (.softError (.lp6Map k die ch word) b) s = .next t ∧ only t ∧
        (t.dom k).table = some y ∧ struck tb.lp6Own y.lp6Own ∧ y = { tb with lp6Own := y.lp6Own }) ∧
      (∃ t y, exec (.softError (.linkMap k key word) b) s = .next t ∧ only t ∧ (t.dom k).table = some y ∧
        struck tb.linkOwn y.linkOwn ∧ y = { tb with linkOwn := y.linkOwn }))) ∧
  (∀ (s : State) (w0 w1 : BitVec 32) (l : Bool),
    exec (.unassignedEncoding w0 w1 l) s = .next (takeTrap s .illegal ((if l then w1 else 0) ++ w0)))

/-- Injection and SoftErrors together: R74, R109, R309, R311, R312, R324. -/
def Obligations.FlipsAndIllegalWords : Prop := Rules.Injection ∧ Rules.SoftErrors

/-! ### Reset, decoding and the step -/

/-- R2, R18, R101, R104, R117, R302, R329, R333, R334 and R345: right after reset the clock reads zero and runs free, the control words of the
hub, every domain's block and every die's power word hold their reset values, no cell runs, no trap is recorded, and every memory is in its
canonical form. That registers and memories with no reset value in the manual read zero is the model's choice (logs 1 and 2). -/
def Obligations.ResetState : Prop :=
  let s := State.reset
  s.clock = 0 ∧ s.hub.src = 0 ∧ s.hub.en = false ∧ s.hub.holdth = 1024 ∧ s.hub.epoch = 0 ∧ s.hub.rstate = 0 ∧ s.hub.cset = false ∧
  s.hub.pherr = 0 ∧ s.hub.fofs = 0 ∧ s.hub.age = 0 ∧ s.hub.dbgen = 0 ∧ s.hub.tfreeze = 0 ∧ s.hub.stage = 0 ∧ s.hub.berr = 0 ∧
  s.hub.dieMap = 0 ∧
  (∀ d, (s.die d).bud = 340 ∧ (s.die d).pend = 0 ∧ (s.die d).loanL = 0 ∧ (s.die d).loanR = 0 ∧ (s.die d).last = 0 ∧
    (s.die d).dbgctl = 0 ∧ (s.die d).lpc = 0) ∧
  (∀ p, (s.dom p).state = 0 ∧ (s.dom p).gerr = false ∧ (s.dom p).ren = 0 ∧ (s.dom p).grant = {} ∧ (s.dom p).table = none) ∧
  (∀ c, (s.cell c).run = .idle ∧ (s.cell c).tcause = .none ∧ (s.cell c).tval = 0 ∧ (s.cell c).sticky = 0 ∧ (s.cell c).pc = 0 ∧
    (∀ r, (s.cell c).getS r = 0 ∧ (s.cell c).getD r = false) ∧ (s.cell c).getP 0 = true) ∧
  (∀ k, (s.cluster k).gate = 0) ∧ memoriesWf s = true ∧ ∃ t, step s = .next t ∧ t.now = 4096

/-- R52 to R71, and the tables of worked encodings: words of the manual, one or more of each family, and what they decode to. -/
def Obligations.DecodeKnownWords : Prop :=
  decodeWords 0x010C2200 none = .ok (.add 2 3 1 2 .w64 false false) ∧
  decodeWords 0x00142205 none = .ok (.add 0 5 1 2 .w32 false true) ∧
  decodeWords 0x08188514 none = .ok (.divn 0 6 4 5 .w32) ∧
  decodeWords 0x0C790010 none = .ok (.or 0 30 8 0 .w64) ∧
  decodeWords 0x100C2202 none = .ok (.sel 0 3 1 2 .w64 2) ∧
  decodeWords 0x10102223 none = .ok (.ix 0 4 1 2 3) ∧
  decodeWords 0x20043FFF none = .ok (.addImm 0 1 1 0x1FFF) ∧
  decodeWords 0xE4142007 (some 0x00000010) = .ok (.wideImmediate 0 5 1 7 (.sub .w64 false false)) ∧
  decodeWords 0x40140883 none = .ok (.cmp 0 1 2 .set .lt 4 3) ∧
  decodeWords 0x51FFFFFA none = .ok (.br 3 0x7FFFFA) ∧
  decodeWords 0x58000001 none = .ok (.done 0) ∧
  decodeWords 0x5C240005 none = .ok (.chk 0 9 5) ∧
  decodeWords 0xE8008002 (some 0x10) = .ok (.loop 0 1 2 16) ∧
  decodeWords 0x60200008 none = .ok (.ldD 0 8 0 0 8) ∧
  decodeWords 0xE214C5FE (some 0x0B800000) = .ok (.ld 4 5 6 2 0x1FE .w true ⟨true, .cb, 0⟩) ∧
  decodeWords 0xE01D0000 (some 0x3D048000) = .ok (.amoAdd 0 7 8 0 0 true .sp 0 9) ∧
  decodeWords 0x70004110 none = .ok (.cwput 0 2 0x10) ∧
  decodeWords 0x74100603 none = .ok (.sbar 0 0x603) ∧
  decodeWords 0x78004301 none = .ok (.semWait 0 2 3) ∧
  decodeWords 0x7820E006 none = .ok (.hres 0 8 7) ∧
  decodeWords 0x7C00A000 none = .ok (.trap 0 5) ∧
  decodeWords 0x8410A643 none = .ok (.vfma 1 0 4 5 6 2) ∧
  decodeWords 0xEC102100 (some 0x11204000) = .ok (.vcvt 0 4 1 1 0 .bf16 .rne .fp32) ∧
  decodeWords 0xF0188527 (some 0x11520000) = .ok (.vsts 0 6 4 5 2 3 .bf16 ⟨false, .cb, 1⟩ 0) ∧
  decodeWords 0xB1321482 none = .ok (.mmaCo 2 3 4 5 .e4m3) ∧
  decodeWords 0xF4108889 (some 0x18000000) = .ok (.mmaSp 0 1 1 2 .e2m1 3 .p24) ∧
  decodeWords 0xBC021900 none = .ok (.xfmPack 0 .b4 4 6) ∧
  decodeWords 0xC0208900 none = .ok (.mmaC 0 2 1 2 .b16) ∧
  decodeWords 0xC8490018 none = .ok (.cpCvt 0 true 4 0 .rst) ∧
  decodeWords 0xCC138001 none = .ok (.strRecv 0 4 0) ∧
  decodeWords 0xD0004303 none = .ok (.lnkTrain 0 2 3) ∧
  decodeWords 0xD4004300 none = .ok (.pwrBorrow 0 2 3) ∧
  decodeWords 0x0 none = .ok (.add 0 0 0 0 .w64 false false) ∧
  decodeWords 0xFC000000 none = .error .unassignedMajor ∧
  decodeWords 0xE8008002 none = .error .truncated

/-- R52 to R74: an encoding drops no bit. Every well-formed instruction that has words decodes from them, with every operand at every value;
and a word that decodes is the one that its instruction encodes to, so that no two words stand for one instruction. -/
def Obligations.DecodeEncode : Prop :=
  (∀ i : Instr, i.isProgram = true → i.wf = true → decodeList (encode i) = .ok i) ∧
  (∀ (w x : Nat) (i : Instr), w < 2 ^ 32 → x < 2 ^ 32 → decodeWords w (some x) = .ok i →
    i.wf = true ∧ encode i = if isLong w then [w, x] else [w])

/-- R13, R25, R74, R248 and R309: the turn that comes first is taken. In an issue, the instruction that the words at the program counter
decode to acts, in the cycle and on the cell of the turn; words that are no instruction, or that a routine core does not execute, act as
such, a code-store word that cannot be delivered raises MEMERR, and an event acts in its cycle and leaves the agenda. Nothing steps once
every clock has stopped. The order of what falls in one cycle is the model's choice (log 3); what stops with the clocks, what a routine core
refuses and the words that a truncated form shows are its reading (logs 9, 23, 61). -/
def Obligations.StepRunsDecoded : Prop :=
  ∀ s : State,
    (s.hub.up = false → step s = .fault .clocksStopped) ∧
    (s.hub.up = true → nextTurn s = none → step s = .fault .nothingDue) ∧
    (∀ e, s.hub.up = true → nextTurn s = some (.event e) →
      step s = exec e.ev { s with now := max s.now e.due, agenda := s.agenda.tail }) ∧
    (∀ c t, s.hub.up = true → nextTurn s = some (.halt c t) → step s = exec (.debugHalt c 0x90) { s with now := t, cur := c }) ∧
    (∀ c t, s.hub.up = true → nextTurn s = some (.issue c t) →
      let x := s.cell c
      let u := { s with now := t, cur := c }
      let code := SMap.get [] x.code x.block
      let n := x.pc / 4
      let second := (code[n + 1]?).map BitVec.toNat
      (x.codeClean (x.codeKeys n) = true → ∀ w, code[n]? = some w →
        (∀ i, decodeWords w.toNat second = .ok i → c < 256 ∨ routineOk i = true → step s = exec i u) ∧
        (∀ i, decodeWords w.toNat second = .ok i → 256 ≤ c → routineOk i = false →
          step s = exec (.unassignedEncoding w (if isLong w.toNat then code.getD (n + 1) 0 else 0) (isLong w.toNat)) u) ∧
        (∀ e, c < 256 → decodeWords w.toNat second = .error e →
          step s = exec (.unassignedEncoding w (if isLong w.toNat then code.getD (n + 1) 0 else 0) (isLong w.toNat)) u)) ∧
      (x.codeClean (x.codeKeys n) = true → code.length ≤ n → c < 256 → step s = exec (.unassignedEncoding 0 0 false) u) ∧
      ((∃ k ∈ x.codeKeys n, x.codeBad k = true) →
        ∃ y, step s = .next (takeTrap (u.setMe y) .memerr (BitVec.ofNat 64 (4 * 2 ^ 60 + x.pc))) ∧ y.pc = x.pc ∧ y.sreg = x.sreg)) ∧
    (∀ x, nextTurn s = some x →
      (∀ y, s.agenda.head? = some y → x.cycle < y.due ∨ x.cycle = y.due ∧ x.place ≤ y.prio) ∧
      ∀ c ∈ threads s, ∀ y, turnOf s c = some y → x.cycle < y.cycle ∨ x.cycle = y.cycle ∧ x.place ≤ y.place)

/-- Every step keeps every memory of the device in its canonical form: addresses strictly rising, none listed that reads as an unlisted
one does, so that equal memories are equal data. -/
def Obligations.MemoriesStayCanonical : Prop :=
  ∀ s t : State, memoriesWf s = true → step s = .next t → memoriesWf t = true

/-- R6, R100 and R101: the clock never steps, never skips and never goes back. No instruction and no event moves time, nor, once the coarse
set has happened or a table has run, the clock's place in it, but for a device reset; and a step takes time on to the cycle of its turn. -/
def Obligations.ClockNeverSteps : Prop :=
  (∀ (i : Instr) (s t : State), (∀ f, i ≠ .deviceReset f) → exec i s = .next t →
    t.now = s.now ∧ (s.hub.cset = true ∨ s.hub.anyTable = true → t.hub.clockOfs = s.hub.clockOfs)) ∧
  (∀ s t : State, step s = .next t → s.now ≤ t.now ∧ ∃ x, nextTurn s = some x ∧ t.now = max s.now x.cycle)
end

