-- ==== Sys2Proof/Laws/Mem.lean ====
section
/-! SUPPORT. The sparse tables and the memories: what is read after a write, and that every operation keeps the canonical form. -/

namespace Sys2Proof.Machine

/-! Reads after writes of a table. -/

@[simp] theorem SMap.get_nil {α : Type} (d : α) (k : Nat) : SMap.get d [] k = d := rfl

@[simp] theorem SMap.get_put_same {α : Type} (d : α) (m : SMap α) (k : Nat) (v : α) : SMap.get d (SMap.put m k v) k = v := by
  induction m with
  | nil => simp [SMap.put, SMap.get]
  | cons x r ih =>
    obtain ⟨j, w⟩ := x
    simp only [SMap.put]
    split
    · simp [SMap.get]
    · split
      · simp [SMap.get]
      · simp [SMap.get, *]

theorem SMap.get_put_ne {α : Type} (d : α) (m : SMap α) {k j : Nat} (v : α) (h : j ≠ k) :
    SMap.get d (SMap.put m k v) j = SMap.get d m j := by
  induction m with
  | nil => simp [SMap.put, SMap.get, Ne.symm h]
  | cons x r ih =>
    obtain ⟨i, w⟩ := x
    simp only [SMap.put]
    split
    · simp [SMap.get, Ne.symm h]
    · split
      · subst i; simp [SMap.get, Ne.symm h]
      · simp only [SMap.get, ih]

theorem SMap.get_put {α : Type} (d : α) (m : SMap α) (k j : Nat) (v : α) :
    SMap.get d (SMap.put m k v) j = if j = k then v else SMap.get d m j := by
  split
  · subst j; simp
  · exact SMap.get_put_ne d m v ‹_›

@[simp] theorem SMap.get_del_same {α : Type} (d : α) (m : SMap α) (k : Nat) : SMap.get d (SMap.del m k) k = d := by
  induction m with
  | nil => rfl
  | cons x r ih =>
    obtain ⟨j, w⟩ := x
    simp only [SMap.del]
    split
    · exact ih
    · simp [SMap.get, *]

theorem SMap.get_del_ne {α : Type} (d : α) (m : SMap α) {k j : Nat} (h : j ≠ k) :
    SMap.get d (SMap.del m k) j = SMap.get d m j := by
  induction m with
  | nil => rfl
  | cons x r ih =>
    obtain ⟨i, w⟩ := x
    simp only [SMap.del]
    split
    · subst i; simp [SMap.get, ih, Ne.symm h]
    · simp only [SMap.get, ih]

theorem SMap.get_set {α : Type} [DecidableEq α] (d : α) (m : SMap α) (k j : Nat) (v : α) :
    SMap.get d (SMap.set d m k v) j = if j = k then v else SMap.get d m j := by
  unfold SMap.set
  split
  · split
    · subst j; simp [*]
    · exact SMap.get_del_ne d m ‹_›
  · exact SMap.get_put d m k j v

@[simp] theorem SMap.get_set_same {α : Type} [DecidableEq α] (d : α) (m : SMap α) (k : Nat) (v : α) :
    SMap.get d (SMap.set d m k v) k = v := by simp [SMap.get_set]

theorem SMap.get_set_ne {α : Type} [DecidableEq α] (d : α) (m : SMap α) {k j : Nat} (v : α) (h : j ≠ k) :
    SMap.get d (SMap.set d m k v) j = SMap.get d m j := by simp [SMap.get_set, h]

/-! The canonical form. -/

theorem SMap.risesFrom_mono {α : Type} {m : SMap α} {a b : Nat} (h : a ≤ b) (hm : SMap.risesFrom b m = true) :
    SMap.risesFrom a m = true := by
  cases m with
  | nil => rfl
  | cons x r =>
    obtain ⟨k, w⟩ := x
    simp only [SMap.risesFrom, Bool.and_eq_true, decide_eq_true_eq] at hm ⊢
    exact ⟨Nat.le_trans h hm.1, hm.2⟩

theorem SMap.risesFrom_put {α : Type} (m : SMap α) (b k : Nat) (v : α) (hb : b ≤ k) (hm : SMap.risesFrom b m = true) :
    SMap.risesFrom b (SMap.put m k v) = true := by
  induction m generalizing b with
  | nil => simp [SMap.put, SMap.risesFrom, hb]
  | cons x r ih =>
    obtain ⟨j, w⟩ := x
    simp only [SMap.risesFrom, Bool.and_eq_true, decide_eq_true_eq] at hm
    simp only [SMap.put]
    split
    · simp only [SMap.risesFrom, Bool.and_eq_true, decide_eq_true_eq]
      exact ⟨hb, by omega, hm.2⟩
    · split
      · subst j; simp [SMap.risesFrom, hb, hm.2]
      · simp only [SMap.risesFrom, Bool.and_eq_true, decide_eq_true_eq]
        exact ⟨hm.1, ih (j + 1) (by omega) hm.2⟩

theorem SMap.risesFrom_del {α : Type} (m : SMap α) (b k : Nat) (hm : SMap.risesFrom b m = true) :
    SMap.risesFrom b (SMap.del m k) = true := by
  induction m generalizing b with
  | nil => rfl
  | cons x r ih =>
    obtain ⟨j, w⟩ := x
    simp only [SMap.risesFrom, Bool.and_eq_true, decide_eq_true_eq] at hm
    simp only [SMap.del]
    split
    · exact ih b (SMap.risesFrom_mono (by omega) hm.2)
    · simp only [SMap.risesFrom, Bool.and_eq_true, decide_eq_true_eq]
      exact ⟨hm.1, ih (j + 1) hm.2⟩

theorem SMap.mem_put {α : Type} {m : SMap α} {k : Nat} {v : α} {x : Nat × α} (h : x ∈ SMap.put m k v) : x = (k, v) ∨ x ∈ m := by
  induction m with
  | nil => simpa [SMap.put] using h
  | cons y r ih =>
    obtain ⟨j, w⟩ := y
    simp only [SMap.put] at h
    split at h
    · simpa using h
    · split at h
      · rcases List.mem_cons.1 h with h | h
        · exact .inl h
        · exact .inr (List.mem_cons_of_mem _ h)
      · rcases List.mem_cons.1 h with h | h
        · exact .inr (h ▸ List.mem_cons_self)
        · exact (ih h).imp id (List.mem_cons_of_mem _)

theorem SMap.mem_del {α : Type} {m : SMap α} {k : Nat} {x : Nat × α} (h : x ∈ SMap.del m k) : x ∈ m := by
  induction m with
  | nil => exact h
  | cons y r ih =>
    obtain ⟨j, w⟩ := y
    simp only [SMap.del] at h
    split at h
    · exact List.mem_cons_of_mem _ (ih h)
    · rcases List.mem_cons.1 h with h | h
      · exact h ▸ List.mem_cons_self
      · exact List.mem_cons_of_mem _ (ih h)

/-- A value read from a table is a listed one or the default. -/
theorem SMap.get_mem {α : Type} (d : α) (m : SMap α) (k : Nat) : SMap.get d m k = d ∨ ∃ x ∈ m, x.2 = SMap.get d m k := by
  induction m with
  | nil => exact .inl rfl
  | cons y r ih =>
    obtain ⟨j, w⟩ := y
    simp only [SMap.get]
    split
    · exact .inr ⟨(j, w), List.mem_cons_self, rfl⟩
    · exact ih.imp id fun ⟨x, hx, e⟩ => ⟨x, List.mem_cons_of_mem _ hx, e⟩

theorem SMap.canon_iff {α : Type} [DecidableEq α] (d : α) (m : SMap α) :
    SMap.canon d m = true ↔ SMap.risesFrom 0 m = true ∧ ∀ x ∈ m, x.2 ≠ d := by
  simp [SMap.canon]

@[simp] theorem SMap.canon_nil {α : Type} [DecidableEq α] (d : α) : SMap.canon d ([] : SMap α) = true := rfl

theorem SMap.canon_set {α : Type} [DecidableEq α] (d : α) {m : SMap α} (k : Nat) (v : α) (h : SMap.canon d m = true) :
    SMap.canon d (SMap.set d m k v) = true := by
  rw [SMap.canon_iff] at h ⊢
  unfold SMap.set
  split
  · exact ⟨SMap.risesFrom_del m 0 k h.1, fun x hx => h.2 x (SMap.mem_del hx)⟩
  · refine ⟨SMap.risesFrom_put m 0 k v (Nat.zero_le _) h.1, fun x hx => ?_⟩
    rcases SMap.mem_put hx with e | hx
    · subst e; assumption
    · exact h.2 x hx

/-! Bytes. -/

theorem Mem.byte_setByte (m : Mem) (a b : Nat) (v : Byte) :
    Mem.byte (Mem.setByte m a v) b = if b = a then v else Mem.byte m b := SMap.get_set emptyByte m a b v

theorem Mem.byte_mergeByte (m : Mem) (a b : Nat) (v k : Byte) :
    Mem.byte (Mem.mergeByte m a v k) b = if b = a then (Mem.byte m a &&& ~~~k) ||| (v &&& k) else Mem.byte m b :=
  Mem.byte_setByte m a b _

/-- Masked writes leave every address they do not name. -/
theorem Mem.byte_mergeAll_ne (m : Mem) (ws : List (Nat × Byte × Byte)) (b : Nat) (h : ∀ w ∈ ws, w.1 ≠ b) :
    Mem.byte (Mem.mergeAll m ws) b = Mem.byte m b := by
  induction ws generalizing m with
  | nil => rfl
  | cons w r ih =>
    obtain ⟨a, v, k⟩ := w
    simp only [Mem.mergeAll]
    rw [ih _ fun w hw => h w (List.mem_cons_of_mem _ hw), Mem.byte_mergeByte]
    have := h (a, v, k) List.mem_cons_self
    simp [Ne.symm this]

/-- A written run of bytes leaves every address outside it. -/
theorem Mem.byte_writeBytes_ne (m : Mem) (a : Nat) (bs : List Byte) (b : Nat) (h : b < a ∨ a + bs.length ≤ b) :
    Mem.byte (Mem.writeBytes m a bs) b = Mem.byte m b := by
  induction bs generalizing m a with
  | nil => rfl
  | cons x r ih =>
    simp only [List.length_cons] at h
    simp only [Mem.writeBytes]
    rw [ih _ _ (by omega), Mem.byte_setByte, if_neg (by omega)]

theorem Mem.byte_writeBytes (m : Mem) (a : Nat) (bs : List Byte) (i : Nat) (h : i < bs.length) :
    Mem.byte (Mem.writeBytes m a bs) (a + i) = bs[i] := by
  induction bs generalizing m a i with
  | nil => simp at h
  | cons x r ih =>
    simp only [Mem.writeBytes]
    cases i with
    | zero => rw [Mem.byte_writeBytes_ne _ _ _ _ (by omega), Mem.byte_setByte]; simp
    | succ i =>
      have := ih (Mem.setByte m a x) (a + 1) i (by simpa using h)
      rw [show a + (i + 1) = a + 1 + i by omega, this]; simp

theorem Mem.bytesAt_writeBytes (m : Mem) (a : Nat) (bs : List Byte) :
    Mem.bytesAt (Mem.writeBytes m a bs) a bs.length = bs := by
  induction bs generalizing m a with
  | nil => rfl
  | cons x r ih =>
    simp only [Mem.writeBytes, List.length_cons, Mem.bytesAt, ih]
    rw [Mem.byte_writeBytes_ne _ _ _ _ (by omega), Mem.byte_setByte]; simp

@[simp] theorem leBytes_length (n v : Nat) : (leBytes n v).length = n := by
  induction n generalizing v with
  | zero => rfl
  | succ n ih => simp [leBytes, ih]

theorem leNat_leBytes (n v : Nat) : leNat (leBytes n v) = v % 256 ^ n := by
  induction n generalizing v with
  | zero => simp [leBytes, leNat, Nat.mod_one]
  | succ n ih =>
    have : (BitVec.ofNat 8 v).toNat = v % 256 := by simp
    rw [leBytes, leNat, ih, this, Nat.pow_succ', Nat.mod_mul]

/-- What is written is read back (R4). -/
theorem Mem.readN_writeN (m : Mem) (a n v : Nat) : Mem.readN (Mem.writeN m a n v) a n = v % 256 ^ n := by
  have h := Mem.bytesAt_writeBytes m a (leBytes n v)
  rw [leBytes_length] at h
  rw [Mem.readN, Mem.writeN, h, leNat_leBytes]

/-! Every memory operation keeps the canonical form. -/

@[simp] theorem Mem.wf_nil : Mem.wf [] = true := rfl

theorem Mem.wf_setByte {m : Mem} (a : Nat) (b : Byte) (h : Mem.wf m = true) : Mem.wf (Mem.setByte m a b) = true :=
  SMap.canon_set emptyByte a b h

theorem Mem.wf_writeBytes {m : Mem} (a : Nat) (bs : List Byte) (h : Mem.wf m = true) : Mem.wf (Mem.writeBytes m a bs) = true := by
  induction bs generalizing m a with
  | nil => exact h
  | cons b r ih => exact ih (a + 1) (Mem.wf_setByte a b h)

theorem Mem.wf_writeN {m : Mem} (a n v : Nat) (h : Mem.wf m = true) : Mem.wf (Mem.writeN m a n v) = true :=
  Mem.wf_writeBytes a _ h

theorem Mem.wf_mergeByte {m : Mem} (a : Nat) (b k : Byte) (h : Mem.wf m = true) : Mem.wf (Mem.mergeByte m a b k) = true :=
  Mem.wf_setByte a _ h

theorem Mem.wf_mergeAll {m : Mem} (ws : List (Nat × Byte × Byte)) (h : Mem.wf m = true) : Mem.wf (Mem.mergeAll m ws) = true := by
  induction ws generalizing m with
  | nil => exact h
  | cons w r ih =>
    obtain ⟨a, b, k⟩ := w
    exact ih (Mem.wf_mergeByte a b k h)

/-! Memories with check bits: which of their parts an operation changes. -/

@[simp] theorem Ram.scrub_bytes (r : Ram) (ws : List Nat) : (Ram.scrub r ws).bytes = r.bytes := by
  induction ws generalizing r with
  | nil => rfl
  | cons w l ih => simp only [Ram.scrub, ih]

@[simp] theorem Ram.mark_bytes (r : Ram) (ws : List Nat) : (Ram.mark r ws).bytes = r.bytes := by
  induction ws generalizing r with
  | nil => rfl
  | cons w l ih => simp only [Ram.mark, ih]

@[simp] theorem Ram.fresh_bytes (r : Ram) (ws : List Nat) : (Ram.fresh r ws).bytes = r.bytes := by
  induction ws generalizing r with
  | nil => rfl
  | cons w l ih => simp only [Ram.fresh, ih]

@[simp] theorem Ram.merge_bytes (r : Ram) (ws : List (Nat × Byte × Byte)) : (Ram.merge r ws).bytes = Mem.mergeAll r.bytes ws := by
  simp [Ram.merge]

@[simp] theorem Ram.writeN_bytes (r : Ram) (a n v : Nat) : (Ram.writeN r a n v).bytes = Mem.writeN r.bytes a n v := by
  simp [Ram.writeN]

@[simp] theorem Ram.setByte_bytes (r : Ram) (a : Nat) (b : Byte) : (Ram.setByte r a b).bytes = Mem.setByte r.bytes a b := rfl

end Sys2Proof.Machine
end

