-- ==== Sys2Proof/Laws/State.lean ====
section
/-! SUPPORT. Every part of the state after every update of it, one lemma each, and the parts of a cell after the updates that all
instructions share. -/

namespace Sys2Proof.Machine

/-! What an update of one part leaves of the others. -/

section
variable (s : State) (e : Nat) (x : Engine)
@[simp] theorem State.setEngine_now : (s.setEngine e x).now = s.now := rfl
@[simp] theorem State.setEngine_cur : (s.setEngine e x).cur = s.cur := rfl
@[simp] theorem State.setEngine_agenda : (s.setEngine e x).agenda = s.agenda := rfl
@[simp] theorem State.setEngine_cells : (s.setEngine e x).cells = s.cells := rfl
@[simp] theorem State.setEngine_clusters : (s.setEngine e x).clusters = s.clusters := rfl
@[simp] theorem State.setEngine_dies : (s.setEngine e x).dies = s.dies := rfl
@[simp] theorem State.setEngine_doms : (s.setEngine e x).doms = s.doms := rfl
@[simp] theorem State.setEngine_hub : (s.setEngine e x).hub = s.hub := rfl
@[simp] theorem State.setEngine_host : (s.setEngine e x).host = s.host := rfl
@[simp] theorem State.setEngine_nextId : (s.setEngine e x).nextId = s.nextId := rfl
@[simp] theorem State.setEngine_free : (s.setEngine e x).free = s.free := rfl
end

section
variable (s : State) (e : Nat) (f : Engine → Engine)
@[simp] theorem State.modEngine_now : (s.modEngine e f).now = s.now := rfl
@[simp] theorem State.modEngine_cur : (s.modEngine e f).cur = s.cur := rfl
@[simp] theorem State.modEngine_agenda : (s.modEngine e f).agenda = s.agenda := rfl
@[simp] theorem State.modEngine_cells : (s.modEngine e f).cells = s.cells := rfl
@[simp] theorem State.modEngine_clusters : (s.modEngine e f).clusters = s.clusters := rfl
@[simp] theorem State.modEngine_dies : (s.modEngine e f).dies = s.dies := rfl
@[simp] theorem State.modEngine_doms : (s.modEngine e f).doms = s.doms := rfl
@[simp] theorem State.modEngine_hub : (s.modEngine e f).hub = s.hub := rfl
@[simp] theorem State.modEngine_host : (s.modEngine e f).host = s.host := rfl
@[simp] theorem State.modEngine_nextId : (s.modEngine e f).nextId = s.nextId := rfl
@[simp] theorem State.modEngine_free : (s.modEngine e f).free = s.free := rfl
end

section
variable (s : State) (c : Nat) (x : Cell)
@[simp] theorem State.setCell_now : (s.setCell c x).now = s.now := by unfold State.setCell; split <;> rfl
@[simp] theorem State.setCell_cur : (s.setCell c x).cur = s.cur := by unfold State.setCell; split <;> rfl
@[simp] theorem State.setCell_agenda : (s.setCell c x).agenda = s.agenda := by unfold State.setCell; split <;> rfl
@[simp] theorem State.setCell_clusters : (s.setCell c x).clusters = s.clusters := by unfold State.setCell; split <;> rfl
@[simp] theorem State.setCell_dies : (s.setCell c x).dies = s.dies := by unfold State.setCell; split <;> rfl
@[simp] theorem State.setCell_doms : (s.setCell c x).doms = s.doms := by unfold State.setCell; split <;> rfl
@[simp] theorem State.setCell_hub : (s.setCell c x).hub = s.hub := by unfold State.setCell; split <;> rfl
@[simp] theorem State.setCell_host : (s.setCell c x).host = s.host := by unfold State.setCell; split <;> rfl
@[simp] theorem State.setCell_nextId : (s.setCell c x).nextId = s.nextId := by unfold State.setCell; split <;> rfl
@[simp] theorem State.setCell_free : (s.setCell c x).free = s.free := by unfold State.setCell; split <;> rfl
end

section
variable (s : State) (c : Nat) (f : Cell → Cell)
@[simp] theorem State.modCell_now : (s.modCell c f).now = s.now := State.setCell_now _ _ _
@[simp] theorem State.modCell_cur : (s.modCell c f).cur = s.cur := State.setCell_cur _ _ _
@[simp] theorem State.modCell_agenda : (s.modCell c f).agenda = s.agenda := State.setCell_agenda _ _ _
@[simp] theorem State.modCell_clusters : (s.modCell c f).clusters = s.clusters := State.setCell_clusters _ _ _
@[simp] theorem State.modCell_dies : (s.modCell c f).dies = s.dies := State.setCell_dies _ _ _
@[simp] theorem State.modCell_doms : (s.modCell c f).doms = s.doms := State.setCell_doms _ _ _
@[simp] theorem State.modCell_hub : (s.modCell c f).hub = s.hub := State.setCell_hub _ _ _
@[simp] theorem State.modCell_host : (s.modCell c f).host = s.host := State.setCell_host _ _ _
@[simp] theorem State.modCell_nextId : (s.modCell c f).nextId = s.nextId := State.setCell_nextId _ _ _
@[simp] theorem State.modCell_free : (s.modCell c f).free = s.free := State.setCell_free _ _ _
end

section
variable (s : State) (f : Cell → Cell)
@[simp] theorem State.modMe_now : (s.modMe f).now = s.now := State.setCell_now _ _ _
@[simp] theorem State.modMe_cur : (s.modMe f).cur = s.cur := State.setCell_cur _ _ _
@[simp] theorem State.modMe_agenda : (s.modMe f).agenda = s.agenda := State.setCell_agenda _ _ _
@[simp] theorem State.modMe_clusters : (s.modMe f).clusters = s.clusters := State.setCell_clusters _ _ _
@[simp] theorem State.modMe_dies : (s.modMe f).dies = s.dies := State.setCell_dies _ _ _
@[simp] theorem State.modMe_doms : (s.modMe f).doms = s.doms := State.setCell_doms _ _ _
@[simp] theorem State.modMe_hub : (s.modMe f).hub = s.hub := State.setCell_hub _ _ _
@[simp] theorem State.modMe_host : (s.modMe f).host = s.host := State.setCell_host _ _ _
@[simp] theorem State.modMe_nextId : (s.modMe f).nextId = s.nextId := State.setCell_nextId _ _ _
@[simp] theorem State.modMe_free : (s.modMe f).free = s.free := State.setCell_free _ _ _
end

section
variable (s : State) (k : Nat) (f : Cluster → Cluster)
@[simp] theorem State.modCluster_now : (s.modCluster k f).now = s.now := rfl
@[simp] theorem State.modCluster_cur : (s.modCluster k f).cur = s.cur := rfl
@[simp] theorem State.modCluster_agenda : (s.modCluster k f).agenda = s.agenda := rfl
@[simp] theorem State.modCluster_cells : (s.modCluster k f).cells = s.cells := rfl
@[simp] theorem State.modCluster_engines : (s.modCluster k f).engines = s.engines := rfl
@[simp] theorem State.modCluster_dies : (s.modCluster k f).dies = s.dies := rfl
@[simp] theorem State.modCluster_doms : (s.modCluster k f).doms = s.doms := rfl
@[simp] theorem State.modCluster_hub : (s.modCluster k f).hub = s.hub := rfl
@[simp] theorem State.modCluster_host : (s.modCluster k f).host = s.host := rfl
@[simp] theorem State.modCluster_nextId : (s.modCluster k f).nextId = s.nextId := rfl
@[simp] theorem State.modCluster_free : (s.modCluster k f).free = s.free := rfl
end

section
variable (s : State) (d : Nat) (f : Die → Die)
@[simp] theorem State.modDie_now : (s.modDie d f).now = s.now := rfl
@[simp] theorem State.modDie_cur : (s.modDie d f).cur = s.cur := rfl
@[simp] theorem State.modDie_agenda : (s.modDie d f).agenda = s.agenda := rfl
@[simp] theorem State.modDie_cells : (s.modDie d f).cells = s.cells := rfl
@[simp] theorem State.modDie_clusters : (s.modDie d f).clusters = s.clusters := rfl
@[simp] theorem State.modDie_engines : (s.modDie d f).engines = s.engines := rfl
@[simp] theorem State.modDie_doms : (s.modDie d f).doms = s.doms := rfl
@[simp] theorem State.modDie_hub : (s.modDie d f).hub = s.hub := rfl
@[simp] theorem State.modDie_host : (s.modDie d f).host = s.host := rfl
@[simp] theorem State.modDie_nextId : (s.modDie d f).nextId = s.nextId := rfl
@[simp] theorem State.modDie_free : (s.modDie d f).free = s.free := rfl
end

section
variable (s : State) (d : Nat) (f : Domain → Domain)
@[simp] theorem State.modDom_now : (s.modDom d f).now = s.now := rfl
@[simp] theorem State.modDom_cur : (s.modDom d f).cur = s.cur := rfl
@[simp] theorem State.modDom_agenda : (s.modDom d f).agenda = s.agenda := rfl
@[simp] theorem State.modDom_cells : (s.modDom d f).cells = s.cells := rfl
@[simp] theorem State.modDom_clusters : (s.modDom d f).clusters = s.clusters := rfl
@[simp] theorem State.modDom_engines : (s.modDom d f).engines = s.engines := rfl
@[simp] theorem State.modDom_dies : (s.modDom d f).dies = s.dies := rfl
@[simp] theorem State.modDom_hub : (s.modDom d f).hub = s.hub := rfl
@[simp] theorem State.modDom_host : (s.modDom d f).host = s.host := rfl
@[simp] theorem State.modDom_nextId : (s.modDom d f).nextId = s.nextId := rfl
@[simp] theorem State.modDom_free : (s.modDom d f).free = s.free := rfl
end

section
variable (s : State) (d i : Nat) (f : Firing → Firing)
@[simp] theorem State.modFiring_now : (s.modFiring d i f).now = s.now := rfl
@[simp] theorem State.modFiring_cur : (s.modFiring d i f).cur = s.cur := rfl
@[simp] theorem State.modFiring_agenda : (s.modFiring d i f).agenda = s.agenda := rfl
@[simp] theorem State.modFiring_cells : (s.modFiring d i f).cells = s.cells := rfl
@[simp] theorem State.modFiring_clusters : (s.modFiring d i f).clusters = s.clusters := rfl
@[simp] theorem State.modFiring_engines : (s.modFiring d i f).engines = s.engines := rfl
@[simp] theorem State.modFiring_dies : (s.modFiring d i f).dies = s.dies := rfl
@[simp] theorem State.modFiring_hub : (s.modFiring d i f).hub = s.hub := rfl
@[simp] theorem State.modFiring_host : (s.modFiring d i f).host = s.host := rfl
@[simp] theorem State.modFiring_nextId : (s.modFiring d i f).nextId = s.nextId := rfl
@[simp] theorem State.modFiring_free : (s.modFiring d i f).free = s.free := rfl
end

section
variable (s : State) (f : Hub → Hub)
@[simp] theorem State.modHub_now : (s.modHub f).now = s.now := rfl
@[simp] theorem State.modHub_cur : (s.modHub f).cur = s.cur := rfl
@[simp] theorem State.modHub_agenda : (s.modHub f).agenda = s.agenda := rfl
@[simp] theorem State.modHub_cells : (s.modHub f).cells = s.cells := rfl
@[simp] theorem State.modHub_clusters : (s.modHub f).clusters = s.clusters := rfl
@[simp] theorem State.modHub_engines : (s.modHub f).engines = s.engines := rfl
@[simp] theorem State.modHub_dies : (s.modHub f).dies = s.dies := rfl
@[simp] theorem State.modHub_doms : (s.modHub f).doms = s.doms := rfl
@[simp] theorem State.modHub_host : (s.modHub f).host = s.host := rfl
@[simp] theorem State.modHub_nextId : (s.modHub f).nextId = s.nextId := rfl
@[simp] theorem State.modHub_free : (s.modHub f).free = s.free := rfl
end

section
variable (s : State) (t : Nat) (i : Instr)
@[simp] theorem State.sched_now : (s.sched t i).now = s.now := rfl
@[simp] theorem State.sched_cur : (s.sched t i).cur = s.cur := rfl
@[simp] theorem State.sched_cells : (s.sched t i).cells = s.cells := rfl
@[simp] theorem State.sched_clusters : (s.sched t i).clusters = s.clusters := rfl
@[simp] theorem State.sched_engines : (s.sched t i).engines = s.engines := rfl
@[simp] theorem State.sched_dies : (s.sched t i).dies = s.dies := rfl
@[simp] theorem State.sched_doms : (s.sched t i).doms = s.doms := rfl
@[simp] theorem State.sched_hub : (s.sched t i).hub = s.hub := rfl
@[simp] theorem State.sched_host : (s.sched t i).host = s.host := rfl
@[simp] theorem State.sched_nextId : (s.sched t i).nextId = s.nextId := rfl
@[simp] theorem State.sched_free : (s.sched t i).free = s.free := rfl
end

section
variable (s : State) (i : Instr)
@[simp] theorem State.unsched_now : (s.unsched i).now = s.now := rfl
@[simp] theorem State.unsched_cur : (s.unsched i).cur = s.cur := rfl
@[simp] theorem State.unsched_cells : (s.unsched i).cells = s.cells := rfl
@[simp] theorem State.unsched_clusters : (s.unsched i).clusters = s.clusters := rfl
@[simp] theorem State.unsched_engines : (s.unsched i).engines = s.engines := rfl
@[simp] theorem State.unsched_dies : (s.unsched i).dies = s.dies := rfl
@[simp] theorem State.unsched_doms : (s.unsched i).doms = s.doms := rfl
@[simp] theorem State.unsched_hub : (s.unsched i).hub = s.hub := rfl
@[simp] theorem State.unsched_host : (s.unsched i).host = s.host := rfl
@[simp] theorem State.unsched_nextId : (s.unsched i).nextId = s.nextId := rfl
@[simp] theorem State.unsched_free : (s.unsched i).free = s.free := rfl
end

/-! Reads of a part after an update of another. -/

@[simp] theorem State.setEngine_cluster (s : State) (e : Nat) (x : Engine) (k' : Nat) : (s.setEngine e x).cluster k' = s.cluster k' := rfl
@[simp] theorem State.setEngine_die (s : State) (e : Nat) (x : Engine) (d' : Nat) : (s.setEngine e x).die d' = s.die d' := rfl
@[simp] theorem State.setEngine_dom (s : State) (e : Nat) (x : Engine) (d' : Nat) : (s.setEngine e x).dom d' = s.dom d' := rfl
@[simp] theorem State.modEngine_cluster (s : State) (e : Nat) (f : Engine → Engine) (k' : Nat) : (s.modEngine e f).cluster k' = s.cluster k' := rfl
@[simp] theorem State.modEngine_die (s : State) (e : Nat) (f : Engine → Engine) (d' : Nat) : (s.modEngine e f).die d' = s.die d' := rfl
@[simp] theorem State.modEngine_dom (s : State) (e : Nat) (f : Engine → Engine) (d' : Nat) : (s.modEngine e f).dom d' = s.dom d' := rfl
@[simp] theorem State.setCell_cluster (s : State) (c : Nat) (x : Cell) (k' : Nat) : (s.setCell c x).cluster k' = s.cluster k' := by simp [State.cluster]
@[simp] theorem State.setCell_die (s : State) (c : Nat) (x : Cell) (d' : Nat) : (s.setCell c x).die d' = s.die d' := by simp [State.die]
@[simp] theorem State.setCell_dom (s : State) (c : Nat) (x : Cell) (d' : Nat) : (s.setCell c x).dom d' = s.dom d' := by simp [State.dom]
@[simp] theorem State.modCell_cluster (s : State) (c : Nat) (f : Cell → Cell) (k' : Nat) : (s.modCell c f).cluster k' = s.cluster k' := by simp [State.cluster]
@[simp] theorem State.modCell_die (s : State) (c : Nat) (f : Cell → Cell) (d' : Nat) : (s.modCell c f).die d' = s.die d' := by simp [State.die]
@[simp] theorem State.modCell_dom (s : State) (c : Nat) (f : Cell → Cell) (d' : Nat) : (s.modCell c f).dom d' = s.dom d' := by simp [State.dom]
@[simp] theorem State.modMe_cluster (s : State) (f : Cell → Cell) (k' : Nat) : (s.modMe f).cluster k' = s.cluster k' := by simp [State.cluster]
@[simp] theorem State.modMe_die (s : State) (f : Cell → Cell) (d' : Nat) : (s.modMe f).die d' = s.die d' := by simp [State.die]
@[simp] theorem State.modMe_dom (s : State) (f : Cell → Cell) (d' : Nat) : (s.modMe f).dom d' = s.dom d' := by simp [State.dom]
@[simp] theorem State.modCluster_cell (s : State) (k : Nat) (f : Cluster → Cluster) (c' : Nat) : (s.modCluster k f).cell c' = s.cell c' := rfl
@[simp] theorem State.modCluster_engine (s : State) (k : Nat) (f : Cluster → Cluster) (e' : Nat) : (s.modCluster k f).engine e' = s.engine e' := rfl
@[simp] theorem State.modCluster_die (s : State) (k : Nat) (f : Cluster → Cluster) (d' : Nat) : (s.modCluster k f).die d' = s.die d' := rfl
@[simp] theorem State.modCluster_dom (s : State) (k : Nat) (f : Cluster → Cluster) (d' : Nat) : (s.modCluster k f).dom d' = s.dom d' := rfl
@[simp] theorem State.modCluster_me (s : State) (k : Nat) (f : Cluster → Cluster)  : (s.modCluster k f).me = s.me := rfl
@[simp] theorem State.modDie_cell (s : State) (d : Nat) (f : Die → Die) (c' : Nat) : (s.modDie d f).cell c' = s.cell c' := rfl
@[simp] theorem State.modDie_cluster (s : State) (d : Nat) (f : Die → Die) (k' : Nat) : (s.modDie d f).cluster k' = s.cluster k' := rfl
@[simp] theorem State.modDie_engine (s : State) (d : Nat) (f : Die → Die) (e' : Nat) : (s.modDie d f).engine e' = s.engine e' := rfl
@[simp] theorem State.modDie_dom (s : State) (d : Nat) (f : Die → Die) (d' : Nat) : (s.modDie d f).dom d' = s.dom d' := rfl
@[simp] theorem State.modDie_me (s : State) (d : Nat) (f : Die → Die)  : (s.modDie d f).me = s.me := rfl
@[simp] theorem State.modDom_cell (s : State) (d : Nat) (f : Domain → Domain) (c' : Nat) : (s.modDom d f).cell c' = s.cell c' := rfl
@[simp] theorem State.modDom_cluster (s : State) (d : Nat) (f : Domain → Domain) (k' : Nat) : (s.modDom d f).cluster k' = s.cluster k' := rfl
@[simp] theorem State.modDom_engine (s : State) (d : Nat) (f : Domain → Domain) (e' : Nat) : (s.modDom d f).engine e' = s.engine e' := rfl
@[simp] theorem State.modDom_die (s : State) (d : Nat) (f : Domain → Domain) (d' : Nat) : (s.modDom d f).die d' = s.die d' := rfl
@[simp] theorem State.modDom_me (s : State) (d : Nat) (f : Domain → Domain)  : (s.modDom d f).me = s.me := rfl
@[simp] theorem State.modFiring_cell (s : State) (d i : Nat) (f : Firing → Firing) (c' : Nat) : (s.modFiring d i f).cell c' = s.cell c' := rfl
@[simp] theorem State.modFiring_cluster (s : State) (d i : Nat) (f : Firing → Firing) (k' : Nat) : (s.modFiring d i f).cluster k' = s.cluster k' := rfl
@[simp] theorem State.modFiring_engine (s : State) (d i : Nat) (f : Firing → Firing) (e' : Nat) : (s.modFiring d i f).engine e' = s.engine e' := rfl
@[simp] theorem State.modFiring_die (s : State) (d i : Nat) (f : Firing → Firing) (d' : Nat) : (s.modFiring d i f).die d' = s.die d' := rfl
@[simp] theorem State.modFiring_me (s : State) (d i : Nat) (f : Firing → Firing)  : (s.modFiring d i f).me = s.me := rfl
@[simp] theorem State.modHub_cell (s : State) (f : Hub → Hub) (c' : Nat) : (s.modHub f).cell c' = s.cell c' := rfl
@[simp] theorem State.modHub_cluster (s : State) (f : Hub → Hub) (k' : Nat) : (s.modHub f).cluster k' = s.cluster k' := rfl
@[simp] theorem State.modHub_engine (s : State) (f : Hub → Hub) (e' : Nat) : (s.modHub f).engine e' = s.engine e' := rfl
@[simp] theorem State.modHub_die (s : State) (f : Hub → Hub) (d' : Nat) : (s.modHub f).die d' = s.die d' := rfl
@[simp] theorem State.modHub_dom (s : State) (f : Hub → Hub) (d' : Nat) : (s.modHub f).dom d' = s.dom d' := rfl
@[simp] theorem State.modHub_me (s : State) (f : Hub → Hub)  : (s.modHub f).me = s.me := rfl
@[simp] theorem State.sched_cell (s : State) (t : Nat) (i : Instr) (c' : Nat) : (s.sched t i).cell c' = s.cell c' := rfl
@[simp] theorem State.sched_cluster (s : State) (t : Nat) (i : Instr) (k' : Nat) : (s.sched t i).cluster k' = s.cluster k' := rfl
@[simp] theorem State.sched_engine (s : State) (t : Nat) (i : Instr) (e' : Nat) : (s.sched t i).engine e' = s.engine e' := rfl
@[simp] theorem State.sched_die (s : State) (t : Nat) (i : Instr) (d' : Nat) : (s.sched t i).die d' = s.die d' := rfl
@[simp] theorem State.sched_dom (s : State) (t : Nat) (i : Instr) (d' : Nat) : (s.sched t i).dom d' = s.dom d' := rfl
@[simp] theorem State.sched_me (s : State) (t : Nat) (i : Instr)  : (s.sched t i).me = s.me := rfl
@[simp] theorem State.unsched_cell (s : State) (i : Instr) (c' : Nat) : (s.unsched i).cell c' = s.cell c' := rfl
@[simp] theorem State.unsched_cluster (s : State) (i : Instr) (k' : Nat) : (s.unsched i).cluster k' = s.cluster k' := rfl
@[simp] theorem State.unsched_engine (s : State) (i : Instr) (e' : Nat) : (s.unsched i).engine e' = s.engine e' := rfl
@[simp] theorem State.unsched_die (s : State) (i : Instr) (d' : Nat) : (s.unsched i).die d' = s.die d' := rfl
@[simp] theorem State.unsched_dom (s : State) (i : Instr) (d' : Nat) : (s.unsched i).dom d' = s.dom d' := rfl
@[simp] theorem State.unsched_me (s : State) (i : Instr)  : (s.unsched i).me = s.me := rfl

end Sys2Proof.Machine
end

