-- ==== Sys2Proof/Laws/Cell.lean ====
section
/-! SUPPORT. A part of the state read after it is written, and the fields of a cell after the updates that instructions share: one
lemma each. -/

namespace Sys2Proof.Machine

/-! Reads after writes. -/

@[simp] theorem State.engine_setEngine (s : State) (e : Nat) (x : Engine) : (s.setEngine e x).engine e = x := by
  simp [State.setEngine, State.engine]

theorem State.engine_setEngine_ne (s : State) {e e' : Nat} (x : Engine) (h : e' ≠ e) :
    (s.setEngine e x).engine e' = s.engine e' := by simp [State.setEngine, State.engine, SMap.get_put_ne _ _ _ h]

@[simp] theorem State.engine_modEngine (s : State) (e : Nat) (f : Engine → Engine) : (s.modEngine e f).engine e = f (s.engine e) :=
  State.engine_setEngine s e _

theorem State.engine_modEngine_ne (s : State) {e e' : Nat} (f : Engine → Engine) (h : e' ≠ e) :
    (s.modEngine e f).engine e' = s.engine e' := State.engine_setEngine_ne s _ h

@[simp] theorem State.cell_setCell (s : State) (c : Nat) (x : Cell) : (s.setCell c x).cell c = x := by
  unfold State.setCell State.cell
  by_cases h : c < 256 <;> simp [h]

theorem State.cell_setCell_ne (s : State) {c c' : Nat} (x : Cell) (h : c' ≠ c) : (s.setCell c x).cell c' = s.cell c' := by
  unfold State.setCell State.cell
  by_cases hc : c < 256 <;> by_cases hc' : c' < 256 <;> simp only [hc, hc', if_true, if_false]
  · exact SMap.get_put_ne _ _ _ h
  · rfl
  · rfl
  · by_cases he : c' - 256 = c - 256
    · omega
    · rw [State.engine_setEngine_ne _ _ he]

@[simp] theorem State.cell_modCell (s : State) (c : Nat) (f : Cell → Cell) : (s.modCell c f).cell c = f (s.cell c) :=
  State.cell_setCell s c _

theorem State.cell_modCell_ne (s : State) {c c' : Nat} (f : Cell → Cell) (h : c' ≠ c) : (s.modCell c f).cell c' = s.cell c' :=
  State.cell_setCell_ne s _ h

@[simp] theorem State.me_setMe (s : State) (x : Cell) : (s.setMe x).me = x := by simp [State.me, State.setMe]

@[simp] theorem State.me_modMe (s : State) (f : Cell → Cell) : (s.modMe f).me = f s.me := by simp [State.modMe]

theorem State.cell_modMe_ne (s : State) {c : Nat} (f : Cell → Cell) (h : c ≠ s.cur) : (s.modMe f).cell c = s.cell c :=
  State.cell_setCell_ne s _ h

@[simp] theorem State.cluster_modCluster (s : State) (k : Nat) (f : Cluster → Cluster) :
    (s.modCluster k f).cluster k = f (s.cluster k) := by simp [State.modCluster, State.cluster]

theorem State.cluster_modCluster_ne (s : State) {k k' : Nat} (f : Cluster → Cluster) (h : k' ≠ k) :
    (s.modCluster k f).cluster k' = s.cluster k' := by simp [State.modCluster, State.cluster, SMap.get_put_ne _ _ _ h]

@[simp] theorem State.die_modDie (s : State) (d : Nat) (f : Die → Die) : (s.modDie d f).die d = f (s.die d) := by
  simp [State.modDie, State.die]

theorem State.die_modDie_ne (s : State) {d d' : Nat} (f : Die → Die) (h : d' ≠ d) : (s.modDie d f).die d' = s.die d' := by
  simp [State.modDie, State.die, SMap.get_put_ne _ _ _ h]

@[simp] theorem State.dom_modDom (s : State) (d : Nat) (f : Domain → Domain) : (s.modDom d f).dom d = f (s.dom d) := by
  simp [State.modDom, State.dom]

theorem State.dom_modDom_ne (s : State) {d d' : Nat} (f : Domain → Domain) (h : d' ≠ d) :
    (s.modDom d f).dom d' = s.dom d' := by simp [State.modDom, State.dom, SMap.get_put_ne _ _ _ h]

@[simp] theorem State.hub_modHub (s : State) (f : Hub → Hub) : (s.modHub f).hub = f s.hub := rfl

/-! Registers. -/

theorem Cell.getS_setS (c : Cell) (r q : SReg) (v : Word) (d : Bool) :
    (c.setS r v d).getS q = if q = r ∧ r ≠ 0 then v else c.getS q := by
  unfold Cell.setS Cell.getS
  by_cases hr : r = 0
  · simp only [hr, if_true, ne_eq, not_true_eq_false, and_false, if_false]
  · by_cases hq : q = r
    · subst hq; simp only [hr, if_false, SMap.get_set_same, ne_eq, not_false_eq_true, and_self, if_true]
    · have : q.toNat ≠ r.toNat := fun h => hq (BitVec.eq_of_toNat_eq h)
      simp only [hr, hq, if_false, false_and, SMap.get_set_ne _ _ _ this]

theorem Cell.getD_setS (c : Cell) (r q : SReg) (v : Word) (d : Bool) :
    (c.setS r v d).getD q = if q = r ∧ r ≠ 0 then d else c.getD q := by
  unfold Cell.setS Cell.getD
  by_cases hr : r = 0
  · simp only [hr, if_true, ne_eq, not_true_eq_false, and_false, if_false]
  · by_cases hq : q = r
    · subst hq; simp only [hr, if_false, SMap.get_set_same, ne_eq, not_false_eq_true, and_self, if_true]
    · have : q.toNat ≠ r.toNat := fun h => hq (BitVec.eq_of_toNat_eq h)
      simp only [hr, hq, if_false, false_and, SMap.get_set_ne _ _ _ this]

theorem Cell.getP_setP (c : Cell) (p q : PReg) (v : Bool) : (c.setP p v).getP q = if q = p ∧ p ≠ 0 then v else c.getP q := by
  unfold Cell.setP Cell.getP
  by_cases hr : p = 0
  · simp only [hr, if_true, ne_eq, not_true_eq_false, and_false, if_false]
  · by_cases hq : q = p
    · subst hq; simp only [hr, if_false, SMap.get_set_same, ne_eq, not_false_eq_true, and_self, if_true]
    · have : q.toNat ≠ p.toNat := fun h => hq (BitVec.eq_of_toNat_eq h)
      simp only [hr, hq, if_false, false_and, SMap.get_set_ne _ _ _ this]

/-- Only the program counter, the loops and the repeat counter change when an instruction passes (R87, R88). -/
theorem nextPcFrom_eq (c : Cell) (k x next : Nat) : (nextPcFrom c k x next).1 = { c with loops := (nextPcFrom c k x next).1.loops } := by
  induction k generalizing c with
  | zero => rfl
  | succ k ih =>
    unfold nextPcFrom
    simp only
    split
    · split
      · rfl
      · rw [ih]; rfl
    · rfl

theorem Cell.pass_eq (c : Cell) (x n : Nat) : c.pass x n = { c with pc := (c.pass x n).pc, loops := (c.pass x n).loops } :=
  congrArg (fun d : Cell => { d with pc := 4 * (nextPcFrom c c.depth x (x + n)).2 }) (nextPcFrom_eq c c.depth x (x + n))

theorem Cell.stepPc_eq (c : Cell) (n : Nat) : c.stepPc n =
    { c with pc := (c.stepPc n).pc, loops := (c.stepPc n).loops, rep := (c.stepPc n).rep, repPend := (c.stepPc n).repPend } := by
  unfold Cell.stepPc
  split
  · split
    · rfl
    · rw [Cell.pass_eq]
  · split
    · rfl
    · rw [Cell.pass_eq]

section
variable (c : Cell) (k v : Nat)
@[simp] theorem Cell.setReady_dom : (c.setReady k v).dom = c.dom := rfl
@[simp] theorem Cell.setReady_sreg : (c.setReady k v).sreg = c.sreg := rfl
@[simp] theorem Cell.setReady_dfb : (c.setReady k v).dfb = c.dfb := rfl
@[simp] theorem Cell.setReady_pred : (c.setReady k v).pred = c.pred := rfl
@[simp] theorem Cell.setReady_pc : (c.setReady k v).pc = c.pc := rfl
@[simp] theorem Cell.setReady_loops : (c.setReady k v).loops = c.loops := rfl
@[simp] theorem Cell.setReady_rep : (c.setReady k v).rep = c.rep := rfl
@[simp] theorem Cell.setReady_repPend : (c.setReady k v).repPend = c.repPend := rfl
@[simp] theorem Cell.setReady_cellix : (c.setReady k v).cellix = c.cellix := rfl
@[simp] theorem Cell.setReady_block : (c.setReady k v).block = c.block := rfl
@[simp] theorem Cell.setReady_fb : (c.setReady k v).fb = c.fb := rfl
@[simp] theorem Cell.setReady_sticky : (c.setReady k v).sticky = c.sticky := rfl
@[simp] theorem Cell.setReady_stickyNow : (c.setReady k v).stickyNow = c.stickyNow := rfl
@[simp] theorem Cell.setReady_stickyAt : (c.setReady k v).stickyAt = c.stickyAt := rfl
@[simp] theorem Cell.setReady_oor : (c.setReady k v).oor = c.oor := rfl
@[simp] theorem Cell.setReady_dfc : (c.setReady k v).dfc = c.dfc := rfl
@[simp] theorem Cell.setReady_tcause : (c.setReady k v).tcause = c.tcause := rfl
@[simp] theorem Cell.setReady_tdbg : (c.setReady k v).tdbg = c.tdbg := rfl
@[simp] theorem Cell.setReady_tval : (c.setReady k v).tval = c.tval := rfl
@[simp] theorem Cell.setReady_tpc : (c.setReady k v).tpc = c.tpc := rfl
@[simp] theorem Cell.setReady_tblk : (c.setReady k v).tblk = c.tblk := rfl
@[simp] theorem Cell.setReady_spovf : (c.setReady k v).spovf = c.spovf := rfl
@[simp] theorem Cell.setReady_inject : (c.setReady k v).inject = c.inject := rfl
@[simp] theorem Cell.setReady_injStarted : (c.setReady k v).injStarted = c.injStarted := rfl
@[simp] theorem Cell.setReady_injFlits : (c.setReady k v).injFlits = c.injFlits := rfl
@[simp] theorem Cell.setReady_xinj : (c.setReady k v).xinj = c.xinj := rfl
@[simp] theorem Cell.setReady_xinjCount : (c.setReady k v).xinjCount = c.xinjCount := rfl
@[simp] theorem Cell.setReady_spc : (c.setReady k v).spc = c.spc := rfl
@[simp] theorem Cell.setReady_uec : (c.setReady k v).uec = c.uec := rfl
@[simp] theorem Cell.setReady_ctxs : (c.setReady k v).ctxs = c.ctxs := rfl
@[simp] theorem Cell.setReady_ctx : (c.setReady k v).ctx = c.ctx := rfl
@[simp] theorem Cell.setReady_vreg : (c.setReady k v).vreg = c.vreg := rfl
@[simp] theorem Cell.setReady_vmeta : (c.setReady k v).vmeta = c.vmeta := rfl
@[simp] theorem Cell.setReady_mask : (c.setReady k v).mask = c.mask := rfl
@[simp] theorem Cell.setReady_tiles : (c.setReady k v).tiles = c.tiles := rfl
@[simp] theorem Cell.setReady_images : (c.setReady k v).images = c.images := rfl
@[simp] theorem Cell.setReady_accErr : (c.setReady k v).accErr = c.accErr := rfl
@[simp] theorem Cell.setReady_accPoison : (c.setReady k v).accPoison = c.accPoison := rfl
@[simp] theorem Cell.setReady_regErr : (c.setReady k v).regErr = c.regErr := rfl
@[simp] theorem Cell.setReady_regPoison : (c.setReady k v).regPoison = c.regPoison := rfl
@[simp] theorem Cell.setReady_sp : (c.setReady k v).sp = c.sp := rfl
@[simp] theorem Cell.setReady_genV : (c.setReady k v).genV = c.genV := rfl
@[simp] theorem Cell.setReady_genD : (c.setReady k v).genD = c.genD := rfl
@[simp] theorem Cell.setReady_genX : (c.setReady k v).genX = c.genX := rfl
@[simp] theorem Cell.setReady_code : (c.setReady k v).code = c.code := rfl
@[simp] theorem Cell.setReady_codeStandby : (c.setReady k v).codeStandby = c.codeStandby := rfl
@[simp] theorem Cell.setReady_codeErr : (c.setReady k v).codeErr = c.codeErr := rfl
@[simp] theorem Cell.setReady_codePoison : (c.setReady k v).codePoison = c.codePoison := rfl
@[simp] theorem Cell.setReady_limL : (c.setReady k v).limL = c.limL := rfl
@[simp] theorem Cell.setReady_limC : (c.setReady k v).limC = c.limC := rfl
@[simp] theorem Cell.setReady_limOB : (c.setReady k v).limOB = c.limOB := rfl
@[simp] theorem Cell.setReady_limSOV : (c.setReady k v).limSOV = c.limSOV := rfl
@[simp] theorem Cell.setReady_run : (c.setReady k v).run = c.run := rfl
@[simp] theorem Cell.setReady_wait : (c.setReady k v).wait = c.wait := rfl
@[simp] theorem Cell.setReady_firing : (c.setReady k v).firing = c.firing := rfl
@[simp] theorem Cell.setReady_t : (c.setReady k v).t = c.t := rfl
@[simp] theorem Cell.setReady_pend : (c.setReady k v).pend = c.pend := rfl
@[simp] theorem Cell.setReady_seqr : (c.setReady k v).seqr = c.seqr := rfl
@[simp] theorem Cell.setReady_seqBusy : (c.setReady k v).seqBusy = c.seqBusy := rfl
@[simp] theorem Cell.setReady_seqHeld : (c.setReady k v).seqHeld = c.seqHeld := rfl
@[simp] theorem Cell.setReady_stepNo : (c.setReady k v).stepNo = c.stepNo := rfl
@[simp] theorem Cell.setReady_coNo : (c.setReady k v).coNo = c.coNo := rfl
@[simp] theorem Cell.setReady_ramp : (c.setReady k v).ramp = c.ramp := rfl
@[simp] theorem Cell.setReady_queue : (c.setReady k v).queue = c.queue := rfl
@[simp] theorem Cell.setReady_vloads : (c.setReady k v).vloads = c.vloads := rfl
@[simp] theorem Cell.setReady_flagsAt : (c.setReady k v).flagsAt = c.flagsAt := rfl
@[simp] theorem Cell.setReady_vecAt : (c.setReady k v).vecAt = c.vecAt := rfl
@[simp] theorem Cell.setReady_ldspAt : (c.setReady k v).ldspAt = c.ldspAt := rfl
@[simp] theorem Cell.setReady_hreq : (c.setReady k v).hreq = c.hreq := rfl
@[simp] theorem Cell.setReady_haltAt : (c.setReady k v).haltAt = c.haltAt := rfl
@[simp] theorem Cell.setReady_sstep : (c.setReady k v).sstep = c.sstep := rfl
@[simp] theorem Cell.setReady_clearUntil : (c.setReady k v).clearUntil = c.clearUntil := rfl
@[simp] theorem Cell.setReady_fork : (c.setReady k v).fork = c.fork := rfl
end

section
variable (c : Cell) (now k : Nat)
@[simp] theorem Cell.spend_dom : (c.spend now k).dom = c.dom := rfl
@[simp] theorem Cell.spend_sreg : (c.spend now k).sreg = c.sreg := rfl
@[simp] theorem Cell.spend_dfb : (c.spend now k).dfb = c.dfb := rfl
@[simp] theorem Cell.spend_pred : (c.spend now k).pred = c.pred := rfl
@[simp] theorem Cell.spend_pc : (c.spend now k).pc = c.pc := rfl
@[simp] theorem Cell.spend_loops : (c.spend now k).loops = c.loops := rfl
@[simp] theorem Cell.spend_rep : (c.spend now k).rep = c.rep := rfl
@[simp] theorem Cell.spend_repPend : (c.spend now k).repPend = c.repPend := rfl
@[simp] theorem Cell.spend_cellix : (c.spend now k).cellix = c.cellix := rfl
@[simp] theorem Cell.spend_block : (c.spend now k).block = c.block := rfl
@[simp] theorem Cell.spend_fb : (c.spend now k).fb = c.fb := rfl
@[simp] theorem Cell.spend_sticky : (c.spend now k).sticky = c.sticky := rfl
@[simp] theorem Cell.spend_stickyNow : (c.spend now k).stickyNow = c.stickyNow := rfl
@[simp] theorem Cell.spend_stickyAt : (c.spend now k).stickyAt = c.stickyAt := rfl
@[simp] theorem Cell.spend_oor : (c.spend now k).oor = c.oor := rfl
@[simp] theorem Cell.spend_dfc : (c.spend now k).dfc = c.dfc := rfl
@[simp] theorem Cell.spend_tcause : (c.spend now k).tcause = c.tcause := rfl
@[simp] theorem Cell.spend_tdbg : (c.spend now k).tdbg = c.tdbg := rfl
@[simp] theorem Cell.spend_tval : (c.spend now k).tval = c.tval := rfl
@[simp] theorem Cell.spend_tpc : (c.spend now k).tpc = c.tpc := rfl
@[simp] theorem Cell.spend_tblk : (c.spend now k).tblk = c.tblk := rfl
@[simp] theorem Cell.spend_spovf : (c.spend now k).spovf = c.spovf := rfl
@[simp] theorem Cell.spend_inject : (c.spend now k).inject = c.inject := rfl
@[simp] theorem Cell.spend_injStarted : (c.spend now k).injStarted = c.injStarted := rfl
@[simp] theorem Cell.spend_injFlits : (c.spend now k).injFlits = c.injFlits := rfl
@[simp] theorem Cell.spend_xinj : (c.spend now k).xinj = c.xinj := rfl
@[simp] theorem Cell.spend_xinjCount : (c.spend now k).xinjCount = c.xinjCount := rfl
@[simp] theorem Cell.spend_spc : (c.spend now k).spc = c.spc := rfl
@[simp] theorem Cell.spend_uec : (c.spend now k).uec = c.uec := rfl
@[simp] theorem Cell.spend_ctxs : (c.spend now k).ctxs = c.ctxs := rfl
@[simp] theorem Cell.spend_ctx : (c.spend now k).ctx = c.ctx := rfl
@[simp] theorem Cell.spend_vreg : (c.spend now k).vreg = c.vreg := rfl
@[simp] theorem Cell.spend_vmeta : (c.spend now k).vmeta = c.vmeta := rfl
@[simp] theorem Cell.spend_mask : (c.spend now k).mask = c.mask := rfl
@[simp] theorem Cell.spend_tiles : (c.spend now k).tiles = c.tiles := rfl
@[simp] theorem Cell.spend_images : (c.spend now k).images = c.images := rfl
@[simp] theorem Cell.spend_accErr : (c.spend now k).accErr = c.accErr := rfl
@[simp] theorem Cell.spend_accPoison : (c.spend now k).accPoison = c.accPoison := rfl
@[simp] theorem Cell.spend_regErr : (c.spend now k).regErr = c.regErr := rfl
@[simp] theorem Cell.spend_regPoison : (c.spend now k).regPoison = c.regPoison := rfl
@[simp] theorem Cell.spend_sp : (c.spend now k).sp = c.sp := rfl
@[simp] theorem Cell.spend_genV : (c.spend now k).genV = c.genV := rfl
@[simp] theorem Cell.spend_genD : (c.spend now k).genD = c.genD := rfl
@[simp] theorem Cell.spend_genX : (c.spend now k).genX = c.genX := rfl
@[simp] theorem Cell.spend_code : (c.spend now k).code = c.code := rfl
@[simp] theorem Cell.spend_codeStandby : (c.spend now k).codeStandby = c.codeStandby := rfl
@[simp] theorem Cell.spend_codeErr : (c.spend now k).codeErr = c.codeErr := rfl
@[simp] theorem Cell.spend_codePoison : (c.spend now k).codePoison = c.codePoison := rfl
@[simp] theorem Cell.spend_limL : (c.spend now k).limL = c.limL := rfl
@[simp] theorem Cell.spend_limC : (c.spend now k).limC = c.limC := rfl
@[simp] theorem Cell.spend_limOB : (c.spend now k).limOB = c.limOB := rfl
@[simp] theorem Cell.spend_limSOV : (c.spend now k).limSOV = c.limSOV := rfl
@[simp] theorem Cell.spend_run : (c.spend now k).run = c.run := rfl
@[simp] theorem Cell.spend_wait : (c.spend now k).wait = c.wait := rfl
@[simp] theorem Cell.spend_firing : (c.spend now k).firing = c.firing := rfl
@[simp] theorem Cell.spend_ready : (c.spend now k).ready = c.ready := rfl
@[simp] theorem Cell.spend_pend : (c.spend now k).pend = c.pend := rfl
@[simp] theorem Cell.spend_seqr : (c.spend now k).seqr = c.seqr := rfl
@[simp] theorem Cell.spend_seqBusy : (c.spend now k).seqBusy = c.seqBusy := rfl
@[simp] theorem Cell.spend_seqHeld : (c.spend now k).seqHeld = c.seqHeld := rfl
@[simp] theorem Cell.spend_stepNo : (c.spend now k).stepNo = c.stepNo := rfl
@[simp] theorem Cell.spend_coNo : (c.spend now k).coNo = c.coNo := rfl
@[simp] theorem Cell.spend_ramp : (c.spend now k).ramp = c.ramp := rfl
@[simp] theorem Cell.spend_queue : (c.spend now k).queue = c.queue := rfl
@[simp] theorem Cell.spend_vloads : (c.spend now k).vloads = c.vloads := rfl
@[simp] theorem Cell.spend_flagsAt : (c.spend now k).flagsAt = c.flagsAt := rfl
@[simp] theorem Cell.spend_vecAt : (c.spend now k).vecAt = c.vecAt := rfl
@[simp] theorem Cell.spend_ldspAt : (c.spend now k).ldspAt = c.ldspAt := rfl
@[simp] theorem Cell.spend_hreq : (c.spend now k).hreq = c.hreq := rfl
@[simp] theorem Cell.spend_haltAt : (c.spend now k).haltAt = c.haltAt := rfl
@[simp] theorem Cell.spend_sstep : (c.spend now k).sstep = c.sstep := rfl
@[simp] theorem Cell.spend_clearUntil : (c.spend now k).clearUntil = c.clearUntil := rfl
@[simp] theorem Cell.spend_fork : (c.spend now k).fork = c.fork := rfl
end

section
variable (c : Cell) (now : Nat) (f : BitVec 8)
@[simp] theorem Cell.setFlags_dom : (c.setFlags now f).dom = c.dom := rfl
@[simp] theorem Cell.setFlags_sreg : (c.setFlags now f).sreg = c.sreg := rfl
@[simp] theorem Cell.setFlags_dfb : (c.setFlags now f).dfb = c.dfb := rfl
@[simp] theorem Cell.setFlags_pred : (c.setFlags now f).pred = c.pred := rfl
@[simp] theorem Cell.setFlags_pc : (c.setFlags now f).pc = c.pc := rfl
@[simp] theorem Cell.setFlags_loops : (c.setFlags now f).loops = c.loops := rfl
@[simp] theorem Cell.setFlags_rep : (c.setFlags now f).rep = c.rep := rfl
@[simp] theorem Cell.setFlags_repPend : (c.setFlags now f).repPend = c.repPend := rfl
@[simp] theorem Cell.setFlags_cellix : (c.setFlags now f).cellix = c.cellix := rfl
@[simp] theorem Cell.setFlags_block : (c.setFlags now f).block = c.block := rfl
@[simp] theorem Cell.setFlags_fb : (c.setFlags now f).fb = c.fb := rfl
@[simp] theorem Cell.setFlags_oor : (c.setFlags now f).oor = c.oor := rfl
@[simp] theorem Cell.setFlags_dfc : (c.setFlags now f).dfc = c.dfc := rfl
@[simp] theorem Cell.setFlags_tcause : (c.setFlags now f).tcause = c.tcause := rfl
@[simp] theorem Cell.setFlags_tdbg : (c.setFlags now f).tdbg = c.tdbg := rfl
@[simp] theorem Cell.setFlags_tval : (c.setFlags now f).tval = c.tval := rfl
@[simp] theorem Cell.setFlags_tpc : (c.setFlags now f).tpc = c.tpc := rfl
@[simp] theorem Cell.setFlags_tblk : (c.setFlags now f).tblk = c.tblk := rfl
@[simp] theorem Cell.setFlags_spovf : (c.setFlags now f).spovf = c.spovf := rfl
@[simp] theorem Cell.setFlags_inject : (c.setFlags now f).inject = c.inject := rfl
@[simp] theorem Cell.setFlags_injStarted : (c.setFlags now f).injStarted = c.injStarted := rfl
@[simp] theorem Cell.setFlags_injFlits : (c.setFlags now f).injFlits = c.injFlits := rfl
@[simp] theorem Cell.setFlags_xinj : (c.setFlags now f).xinj = c.xinj := rfl
@[simp] theorem Cell.setFlags_xinjCount : (c.setFlags now f).xinjCount = c.xinjCount := rfl
@[simp] theorem Cell.setFlags_spc : (c.setFlags now f).spc = c.spc := rfl
@[simp] theorem Cell.setFlags_uec : (c.setFlags now f).uec = c.uec := rfl
@[simp] theorem Cell.setFlags_ctxs : (c.setFlags now f).ctxs = c.ctxs := rfl
@[simp] theorem Cell.setFlags_ctx : (c.setFlags now f).ctx = c.ctx := rfl
@[simp] theorem Cell.setFlags_vreg : (c.setFlags now f).vreg = c.vreg := rfl
@[simp] theorem Cell.setFlags_vmeta : (c.setFlags now f).vmeta = c.vmeta := rfl
@[simp] theorem Cell.setFlags_mask : (c.setFlags now f).mask = c.mask := rfl
@[simp] theorem Cell.setFlags_tiles : (c.setFlags now f).tiles = c.tiles := rfl
@[simp] theorem Cell.setFlags_images : (c.setFlags now f).images = c.images := rfl
@[simp] theorem Cell.setFlags_accErr : (c.setFlags now f).accErr = c.accErr := rfl
@[simp] theorem Cell.setFlags_accPoison : (c.setFlags now f).accPoison = c.accPoison := rfl
@[simp] theorem Cell.setFlags_regErr : (c.setFlags now f).regErr = c.regErr := rfl
@[simp] theorem Cell.setFlags_regPoison : (c.setFlags now f).regPoison = c.regPoison := rfl
@[simp] theorem Cell.setFlags_sp : (c.setFlags now f).sp = c.sp := rfl
@[simp] theorem Cell.setFlags_genV : (c.setFlags now f).genV = c.genV := rfl
@[simp] theorem Cell.setFlags_genD : (c.setFlags now f).genD = c.genD := rfl
@[simp] theorem Cell.setFlags_genX : (c.setFlags now f).genX = c.genX := rfl
@[simp] theorem Cell.setFlags_code : (c.setFlags now f).code = c.code := rfl
@[simp] theorem Cell.setFlags_codeStandby : (c.setFlags now f).codeStandby = c.codeStandby := rfl
@[simp] theorem Cell.setFlags_codeErr : (c.setFlags now f).codeErr = c.codeErr := rfl
@[simp] theorem Cell.setFlags_codePoison : (c.setFlags now f).codePoison = c.codePoison := rfl
@[simp] theorem Cell.setFlags_limL : (c.setFlags now f).limL = c.limL := rfl
@[simp] theorem Cell.setFlags_limC : (c.setFlags now f).limC = c.limC := rfl
@[simp] theorem Cell.setFlags_limOB : (c.setFlags now f).limOB = c.limOB := rfl
@[simp] theorem Cell.setFlags_limSOV : (c.setFlags now f).limSOV = c.limSOV := rfl
@[simp] theorem Cell.setFlags_run : (c.setFlags now f).run = c.run := rfl
@[simp] theorem Cell.setFlags_wait : (c.setFlags now f).wait = c.wait := rfl
@[simp] theorem Cell.setFlags_firing : (c.setFlags now f).firing = c.firing := rfl
@[simp] theorem Cell.setFlags_t : (c.setFlags now f).t = c.t := rfl
@[simp] theorem Cell.setFlags_ready : (c.setFlags now f).ready = c.ready := rfl
@[simp] theorem Cell.setFlags_pend : (c.setFlags now f).pend = c.pend := rfl
@[simp] theorem Cell.setFlags_seqr : (c.setFlags now f).seqr = c.seqr := rfl
@[simp] theorem Cell.setFlags_seqBusy : (c.setFlags now f).seqBusy = c.seqBusy := rfl
@[simp] theorem Cell.setFlags_seqHeld : (c.setFlags now f).seqHeld = c.seqHeld := rfl
@[simp] theorem Cell.setFlags_stepNo : (c.setFlags now f).stepNo = c.stepNo := rfl
@[simp] theorem Cell.setFlags_coNo : (c.setFlags now f).coNo = c.coNo := rfl
@[simp] theorem Cell.setFlags_ramp : (c.setFlags now f).ramp = c.ramp := rfl
@[simp] theorem Cell.setFlags_queue : (c.setFlags now f).queue = c.queue := rfl
@[simp] theorem Cell.setFlags_vloads : (c.setFlags now f).vloads = c.vloads := rfl
@[simp] theorem Cell.setFlags_flagsAt : (c.setFlags now f).flagsAt = c.flagsAt := rfl
@[simp] theorem Cell.setFlags_vecAt : (c.setFlags now f).vecAt = c.vecAt := rfl
@[simp] theorem Cell.setFlags_ldspAt : (c.setFlags now f).ldspAt = c.ldspAt := rfl
@[simp] theorem Cell.setFlags_hreq : (c.setFlags now f).hreq = c.hreq := rfl
@[simp] theorem Cell.setFlags_haltAt : (c.setFlags now f).haltAt = c.haltAt := rfl
@[simp] theorem Cell.setFlags_sstep : (c.setFlags now f).sstep = c.sstep := rfl
@[simp] theorem Cell.setFlags_clearUntil : (c.setFlags now f).clearUntil = c.clearUntil := rfl
@[simp] theorem Cell.setFlags_fork : (c.setFlags now f).fork = c.fork := rfl
end

section
variable (c : Cell) (r : SReg) (v : Word) (d : Bool)
@[simp] theorem Cell.setS_dom : (c.setS r v d).dom = c.dom := by unfold Cell.setS; split <;> rfl
@[simp] theorem Cell.setS_pred : (c.setS r v d).pred = c.pred := by unfold Cell.setS; split <;> rfl
@[simp] theorem Cell.setS_pc : (c.setS r v d).pc = c.pc := by unfold Cell.setS; split <;> rfl
@[simp] theorem Cell.setS_loops : (c.setS r v d).loops = c.loops := by unfold Cell.setS; split <;> rfl
@[simp] theorem Cell.setS_rep : (c.setS r v d).rep = c.rep := by unfold Cell.setS; split <;> rfl
@[simp] theorem Cell.setS_repPend : (c.setS r v d).repPend = c.repPend := by unfold Cell.setS; split <;> rfl
@[simp] theorem Cell.setS_cellix : (c.setS r v d).cellix = c.cellix := by unfold Cell.setS; split <;> rfl
@[simp] theorem Cell.setS_block : (c.setS r v d).block = c.block := by unfold Cell.setS; split <;> rfl
@[simp] theorem Cell.setS_fb : (c.setS r v d).fb = c.fb := by unfold Cell.setS; split <;> rfl
@[simp] theorem Cell.setS_sticky : (c.setS r v d).sticky = c.sticky := by unfold Cell.setS; split <;> rfl
@[simp] theorem Cell.setS_stickyNow : (c.setS r v d).stickyNow = c.stickyNow := by unfold Cell.setS; split <;> rfl
@[simp] theorem Cell.setS_stickyAt : (c.setS r v d).stickyAt = c.stickyAt := by unfold Cell.setS; split <;> rfl
@[simp] theorem Cell.setS_oor : (c.setS r v d).oor = c.oor := by unfold Cell.setS; split <;> rfl
@[simp] theorem Cell.setS_dfc : (c.setS r v d).dfc = c.dfc := by unfold Cell.setS; split <;> rfl
@[simp] theorem Cell.setS_tcause : (c.setS r v d).tcause = c.tcause := by unfold Cell.setS; split <;> rfl
@[simp] theorem Cell.setS_tdbg : (c.setS r v d).tdbg = c.tdbg := by unfold Cell.setS; split <;> rfl
@[simp] theorem Cell.setS_tval : (c.setS r v d).tval = c.tval := by unfold Cell.setS; split <;> rfl
@[simp] theorem Cell.setS_tpc : (c.setS r v d).tpc = c.tpc := by unfold Cell.setS; split <;> rfl
@[simp] theorem Cell.setS_tblk : (c.setS r v d).tblk = c.tblk := by unfold Cell.setS; split <;> rfl
@[simp] theorem Cell.setS_spovf : (c.setS r v d).spovf = c.spovf := by unfold Cell.setS; split <;> rfl
@[simp] theorem Cell.setS_inject : (c.setS r v d).inject = c.inject := by unfold Cell.setS; split <;> rfl
@[simp] theorem Cell.setS_injStarted : (c.setS r v d).injStarted = c.injStarted := by unfold Cell.setS; split <;> rfl
@[simp] theorem Cell.setS_injFlits : (c.setS r v d).injFlits = c.injFlits := by unfold Cell.setS; split <;> rfl
@[simp] theorem Cell.setS_xinj : (c.setS r v d).xinj = c.xinj := by unfold Cell.setS; split <;> rfl
@[simp] theorem Cell.setS_xinjCount : (c.setS r v d).xinjCount = c.xinjCount := by unfold Cell.setS; split <;> rfl
@[simp] theorem Cell.setS_spc : (c.setS r v d).spc = c.spc := by unfold Cell.setS; split <;> rfl
@[simp] theorem Cell.setS_uec : (c.setS r v d).uec = c.uec := by unfold Cell.setS; split <;> rfl
@[simp] theorem Cell.setS_ctxs : (c.setS r v d).ctxs = c.ctxs := by unfold Cell.setS; split <;> rfl
@[simp] theorem Cell.setS_ctx : (c.setS r v d).ctx = c.ctx := by unfold Cell.setS; split <;> rfl
@[simp] theorem Cell.setS_vreg : (c.setS r v d).vreg = c.vreg := by unfold Cell.setS; split <;> rfl
@[simp] theorem Cell.setS_vmeta : (c.setS r v d).vmeta = c.vmeta := by unfold Cell.setS; split <;> rfl
@[simp] theorem Cell.setS_mask : (c.setS r v d).mask = c.mask := by unfold Cell.setS; split <;> rfl
@[simp] theorem Cell.setS_tiles : (c.setS r v d).tiles = c.tiles := by unfold Cell.setS; split <;> rfl
@[simp] theorem Cell.setS_images : (c.setS r v d).images = c.images := by unfold Cell.setS; split <;> rfl
@[simp] theorem Cell.setS_accErr : (c.setS r v d).accErr = c.accErr := by unfold Cell.setS; split <;> rfl
@[simp] theorem Cell.setS_accPoison : (c.setS r v d).accPoison = c.accPoison := by unfold Cell.setS; split <;> rfl
@[simp] theorem Cell.setS_sp : (c.setS r v d).sp = c.sp := by unfold Cell.setS; split <;> rfl
@[simp] theorem Cell.setS_genV : (c.setS r v d).genV = c.genV := by unfold Cell.setS; split <;> rfl
@[simp] theorem Cell.setS_genD : (c.setS r v d).genD = c.genD := by unfold Cell.setS; split <;> rfl
@[simp] theorem Cell.setS_genX : (c.setS r v d).genX = c.genX := by unfold Cell.setS; split <;> rfl
@[simp] theorem Cell.setS_code : (c.setS r v d).code = c.code := by unfold Cell.setS; split <;> rfl
@[simp] theorem Cell.setS_codeStandby : (c.setS r v d).codeStandby = c.codeStandby := by unfold Cell.setS; split <;> rfl
@[simp] theorem Cell.setS_codeErr : (c.setS r v d).codeErr = c.codeErr := by unfold Cell.setS; split <;> rfl
@[simp] theorem Cell.setS_codePoison : (c.setS r v d).codePoison = c.codePoison := by unfold Cell.setS; split <;> rfl
@[simp] theorem Cell.setS_limL : (c.setS r v d).limL = c.limL := by unfold Cell.setS; split <;> rfl
@[simp] theorem Cell.setS_limC : (c.setS r v d).limC = c.limC := by unfold Cell.setS; split <;> rfl
@[simp] theorem Cell.setS_limOB : (c.setS r v d).limOB = c.limOB := by unfold Cell.setS; split <;> rfl
@[simp] theorem Cell.setS_limSOV : (c.setS r v d).limSOV = c.limSOV := by unfold Cell.setS; split <;> rfl
@[simp] theorem Cell.setS_run : (c.setS r v d).run = c.run := by unfold Cell.setS; split <;> rfl
@[simp] theorem Cell.setS_wait : (c.setS r v d).wait = c.wait := by unfold Cell.setS; split <;> rfl
@[simp] theorem Cell.setS_firing : (c.setS r v d).firing = c.firing := by unfold Cell.setS; split <;> rfl
@[simp] theorem Cell.setS_t : (c.setS r v d).t = c.t := by unfold Cell.setS; split <;> rfl
@[simp] theorem Cell.setS_ready : (c.setS r v d).ready = c.ready := by unfold Cell.setS; split <;> rfl
@[simp] theorem Cell.setS_pend : (c.setS r v d).pend = c.pend := by unfold Cell.setS; split <;> rfl
@[simp] theorem Cell.setS_seqr : (c.setS r v d).seqr = c.seqr := by unfold Cell.setS; split <;> rfl
@[simp] theorem Cell.setS_seqBusy : (c.setS r v d).seqBusy = c.seqBusy := by unfold Cell.setS; split <;> rfl
@[simp] theorem Cell.setS_seqHeld : (c.setS r v d).seqHeld = c.seqHeld := by unfold Cell.setS; split <;> rfl
@[simp] theorem Cell.setS_stepNo : (c.setS r v d).stepNo = c.stepNo := by unfold Cell.setS; split <;> rfl
@[simp] theorem Cell.setS_coNo : (c.setS r v d).coNo = c.coNo := by unfold Cell.setS; split <;> rfl
@[simp] theorem Cell.setS_ramp : (c.setS r v d).ramp = c.ramp := by unfold Cell.setS; split <;> rfl
@[simp] theorem Cell.setS_queue : (c.setS r v d).queue = c.queue := by unfold Cell.setS; split <;> rfl
@[simp] theorem Cell.setS_vloads : (c.setS r v d).vloads = c.vloads := by unfold Cell.setS; split <;> rfl
@[simp] theorem Cell.setS_flagsAt : (c.setS r v d).flagsAt = c.flagsAt := by unfold Cell.setS; split <;> rfl
@[simp] theorem Cell.setS_vecAt : (c.setS r v d).vecAt = c.vecAt := by unfold Cell.setS; split <;> rfl
@[simp] theorem Cell.setS_ldspAt : (c.setS r v d).ldspAt = c.ldspAt := by unfold Cell.setS; split <;> rfl
@[simp] theorem Cell.setS_hreq : (c.setS r v d).hreq = c.hreq := by unfold Cell.setS; split <;> rfl
@[simp] theorem Cell.setS_haltAt : (c.setS r v d).haltAt = c.haltAt := by unfold Cell.setS; split <;> rfl
@[simp] theorem Cell.setS_sstep : (c.setS r v d).sstep = c.sstep := by unfold Cell.setS; split <;> rfl
@[simp] theorem Cell.setS_clearUntil : (c.setS r v d).clearUntil = c.clearUntil := by unfold Cell.setS; split <;> rfl
@[simp] theorem Cell.setS_fork : (c.setS r v d).fork = c.fork := by unfold Cell.setS; split <;> rfl
end

section
variable (c : Cell) (p : PReg) (v : Bool)
@[simp] theorem Cell.setP_dom : (c.setP p v).dom = c.dom := by unfold Cell.setP; split <;> rfl
@[simp] theorem Cell.setP_sreg : (c.setP p v).sreg = c.sreg := by unfold Cell.setP; split <;> rfl
@[simp] theorem Cell.setP_dfb : (c.setP p v).dfb = c.dfb := by unfold Cell.setP; split <;> rfl
@[simp] theorem Cell.setP_pc : (c.setP p v).pc = c.pc := by unfold Cell.setP; split <;> rfl
@[simp] theorem Cell.setP_loops : (c.setP p v).loops = c.loops := by unfold Cell.setP; split <;> rfl
@[simp] theorem Cell.setP_rep : (c.setP p v).rep = c.rep := by unfold Cell.setP; split <;> rfl
@[simp] theorem Cell.setP_repPend : (c.setP p v).repPend = c.repPend := by unfold Cell.setP; split <;> rfl
@[simp] theorem Cell.setP_cellix : (c.setP p v).cellix = c.cellix := by unfold Cell.setP; split <;> rfl
@[simp] theorem Cell.setP_block : (c.setP p v).block = c.block := by unfold Cell.setP; split <;> rfl
@[simp] theorem Cell.setP_fb : (c.setP p v).fb = c.fb := by unfold Cell.setP; split <;> rfl
@[simp] theorem Cell.setP_sticky : (c.setP p v).sticky = c.sticky := by unfold Cell.setP; split <;> rfl
@[simp] theorem Cell.setP_stickyNow : (c.setP p v).stickyNow = c.stickyNow := by unfold Cell.setP; split <;> rfl
@[simp] theorem Cell.setP_stickyAt : (c.setP p v).stickyAt = c.stickyAt := by unfold Cell.setP; split <;> rfl
@[simp] theorem Cell.setP_oor : (c.setP p v).oor = c.oor := by unfold Cell.setP; split <;> rfl
@[simp] theorem Cell.setP_dfc : (c.setP p v).dfc = c.dfc := by unfold Cell.setP; split <;> rfl
@[simp] theorem Cell.setP_tcause : (c.setP p v).tcause = c.tcause := by unfold Cell.setP; split <;> rfl
@[simp] theorem Cell.setP_tdbg : (c.setP p v).tdbg = c.tdbg := by unfold Cell.setP; split <;> rfl
@[simp] theorem Cell.setP_tval : (c.setP p v).tval = c.tval := by unfold Cell.setP; split <;> rfl
@[simp] theorem Cell.setP_tpc : (c.setP p v).tpc = c.tpc := by unfold Cell.setP; split <;> rfl
@[simp] theorem Cell.setP_tblk : (c.setP p v).tblk = c.tblk := by unfold Cell.setP; split <;> rfl
@[simp] theorem Cell.setP_spovf : (c.setP p v).spovf = c.spovf := by unfold Cell.setP; split <;> rfl
@[simp] theorem Cell.setP_inject : (c.setP p v).inject = c.inject := by unfold Cell.setP; split <;> rfl
@[simp] theorem Cell.setP_injStarted : (c.setP p v).injStarted = c.injStarted := by unfold Cell.setP; split <;> rfl
@[simp] theorem Cell.setP_injFlits : (c.setP p v).injFlits = c.injFlits := by unfold Cell.setP; split <;> rfl
@[simp] theorem Cell.setP_xinj : (c.setP p v).xinj = c.xinj := by unfold Cell.setP; split <;> rfl
@[simp] theorem Cell.setP_xinjCount : (c.setP p v).xinjCount = c.xinjCount := by unfold Cell.setP; split <;> rfl
@[simp] theorem Cell.setP_spc : (c.setP p v).spc = c.spc := by unfold Cell.setP; split <;> rfl
@[simp] theorem Cell.setP_uec : (c.setP p v).uec = c.uec := by unfold Cell.setP; split <;> rfl
@[simp] theorem Cell.setP_ctxs : (c.setP p v).ctxs = c.ctxs := by unfold Cell.setP; split <;> rfl
@[simp] theorem Cell.setP_ctx : (c.setP p v).ctx = c.ctx := by unfold Cell.setP; split <;> rfl
@[simp] theorem Cell.setP_vreg : (c.setP p v).vreg = c.vreg := by unfold Cell.setP; split <;> rfl
@[simp] theorem Cell.setP_vmeta : (c.setP p v).vmeta = c.vmeta := by unfold Cell.setP; split <;> rfl
@[simp] theorem Cell.setP_mask : (c.setP p v).mask = c.mask := by unfold Cell.setP; split <;> rfl
@[simp] theorem Cell.setP_tiles : (c.setP p v).tiles = c.tiles := by unfold Cell.setP; split <;> rfl
@[simp] theorem Cell.setP_images : (c.setP p v).images = c.images := by unfold Cell.setP; split <;> rfl
@[simp] theorem Cell.setP_accErr : (c.setP p v).accErr = c.accErr := by unfold Cell.setP; split <;> rfl
@[simp] theorem Cell.setP_accPoison : (c.setP p v).accPoison = c.accPoison := by unfold Cell.setP; split <;> rfl
@[simp] theorem Cell.setP_regErr : (c.setP p v).regErr = c.regErr := by unfold Cell.setP; split <;> rfl
@[simp] theorem Cell.setP_regPoison : (c.setP p v).regPoison = c.regPoison := by unfold Cell.setP; split <;> rfl
@[simp] theorem Cell.setP_sp : (c.setP p v).sp = c.sp := by unfold Cell.setP; split <;> rfl
@[simp] theorem Cell.setP_genV : (c.setP p v).genV = c.genV := by unfold Cell.setP; split <;> rfl
@[simp] theorem Cell.setP_genD : (c.setP p v).genD = c.genD := by unfold Cell.setP; split <;> rfl
@[simp] theorem Cell.setP_genX : (c.setP p v).genX = c.genX := by unfold Cell.setP; split <;> rfl
@[simp] theorem Cell.setP_code : (c.setP p v).code = c.code := by unfold Cell.setP; split <;> rfl
@[simp] theorem Cell.setP_codeStandby : (c.setP p v).codeStandby = c.codeStandby := by unfold Cell.setP; split <;> rfl
@[simp] theorem Cell.setP_codeErr : (c.setP p v).codeErr = c.codeErr := by unfold Cell.setP; split <;> rfl
@[simp] theorem Cell.setP_codePoison : (c.setP p v).codePoison = c.codePoison := by unfold Cell.setP; split <;> rfl
@[simp] theorem Cell.setP_limL : (c.setP p v).limL = c.limL := by unfold Cell.setP; split <;> rfl
@[simp] theorem Cell.setP_limC : (c.setP p v).limC = c.limC := by unfold Cell.setP; split <;> rfl
@[simp] theorem Cell.setP_limOB : (c.setP p v).limOB = c.limOB := by unfold Cell.setP; split <;> rfl
@[simp] theorem Cell.setP_limSOV : (c.setP p v).limSOV = c.limSOV := by unfold Cell.setP; split <;> rfl
@[simp] theorem Cell.setP_run : (c.setP p v).run = c.run := by unfold Cell.setP; split <;> rfl
@[simp] theorem Cell.setP_wait : (c.setP p v).wait = c.wait := by unfold Cell.setP; split <;> rfl
@[simp] theorem Cell.setP_firing : (c.setP p v).firing = c.firing := by unfold Cell.setP; split <;> rfl
@[simp] theorem Cell.setP_t : (c.setP p v).t = c.t := by unfold Cell.setP; split <;> rfl
@[simp] theorem Cell.setP_ready : (c.setP p v).ready = c.ready := by unfold Cell.setP; split <;> rfl
@[simp] theorem Cell.setP_pend : (c.setP p v).pend = c.pend := by unfold Cell.setP; split <;> rfl
@[simp] theorem Cell.setP_seqr : (c.setP p v).seqr = c.seqr := by unfold Cell.setP; split <;> rfl
@[simp] theorem Cell.setP_seqBusy : (c.setP p v).seqBusy = c.seqBusy := by unfold Cell.setP; split <;> rfl
@[simp] theorem Cell.setP_seqHeld : (c.setP p v).seqHeld = c.seqHeld := by unfold Cell.setP; split <;> rfl
@[simp] theorem Cell.setP_stepNo : (c.setP p v).stepNo = c.stepNo := by unfold Cell.setP; split <;> rfl
@[simp] theorem Cell.setP_coNo : (c.setP p v).coNo = c.coNo := by unfold Cell.setP; split <;> rfl
@[simp] theorem Cell.setP_ramp : (c.setP p v).ramp = c.ramp := by unfold Cell.setP; split <;> rfl
@[simp] theorem Cell.setP_queue : (c.setP p v).queue = c.queue := by unfold Cell.setP; split <;> rfl
@[simp] theorem Cell.setP_vloads : (c.setP p v).vloads = c.vloads := by unfold Cell.setP; split <;> rfl
@[simp] theorem Cell.setP_flagsAt : (c.setP p v).flagsAt = c.flagsAt := by unfold Cell.setP; split <;> rfl
@[simp] theorem Cell.setP_vecAt : (c.setP p v).vecAt = c.vecAt := by unfold Cell.setP; split <;> rfl
@[simp] theorem Cell.setP_ldspAt : (c.setP p v).ldspAt = c.ldspAt := by unfold Cell.setP; split <;> rfl
@[simp] theorem Cell.setP_hreq : (c.setP p v).hreq = c.hreq := by unfold Cell.setP; split <;> rfl
@[simp] theorem Cell.setP_haltAt : (c.setP p v).haltAt = c.haltAt := by unfold Cell.setP; split <;> rfl
@[simp] theorem Cell.setP_sstep : (c.setP p v).sstep = c.sstep := by unfold Cell.setP; split <;> rfl
@[simp] theorem Cell.setP_clearUntil : (c.setP p v).clearUntil = c.clearUntil := by unfold Cell.setP; split <;> rfl
@[simp] theorem Cell.setP_fork : (c.setP p v).fork = c.fork := by unfold Cell.setP; split <;> rfl
end

section
variable (c : Cell) (n : Nat)
@[simp] theorem Cell.stepPc_dom : (c.stepPc n).dom = c.dom := by rw [Cell.stepPc_eq]
@[simp] theorem Cell.stepPc_sreg : (c.stepPc n).sreg = c.sreg := by rw [Cell.stepPc_eq]
@[simp] theorem Cell.stepPc_dfb : (c.stepPc n).dfb = c.dfb := by rw [Cell.stepPc_eq]
@[simp] theorem Cell.stepPc_pred : (c.stepPc n).pred = c.pred := by rw [Cell.stepPc_eq]
@[simp] theorem Cell.stepPc_cellix : (c.stepPc n).cellix = c.cellix := by rw [Cell.stepPc_eq]
@[simp] theorem Cell.stepPc_block : (c.stepPc n).block = c.block := by rw [Cell.stepPc_eq]
@[simp] theorem Cell.stepPc_fb : (c.stepPc n).fb = c.fb := by rw [Cell.stepPc_eq]
@[simp] theorem Cell.stepPc_sticky : (c.stepPc n).sticky = c.sticky := by rw [Cell.stepPc_eq]
@[simp] theorem Cell.stepPc_stickyNow : (c.stepPc n).stickyNow = c.stickyNow := by rw [Cell.stepPc_eq]
@[simp] theorem Cell.stepPc_stickyAt : (c.stepPc n).stickyAt = c.stickyAt := by rw [Cell.stepPc_eq]
@[simp] theorem Cell.stepPc_oor : (c.stepPc n).oor = c.oor := by rw [Cell.stepPc_eq]
@[simp] theorem Cell.stepPc_dfc : (c.stepPc n).dfc = c.dfc := by rw [Cell.stepPc_eq]
@[simp] theorem Cell.stepPc_tcause : (c.stepPc n).tcause = c.tcause := by rw [Cell.stepPc_eq]
@[simp] theorem Cell.stepPc_tdbg : (c.stepPc n).tdbg = c.tdbg := by rw [Cell.stepPc_eq]
@[simp] theorem Cell.stepPc_tval : (c.stepPc n).tval = c.tval := by rw [Cell.stepPc_eq]
@[simp] theorem Cell.stepPc_tpc : (c.stepPc n).tpc = c.tpc := by rw [Cell.stepPc_eq]
@[simp] theorem Cell.stepPc_tblk : (c.stepPc n).tblk = c.tblk := by rw [Cell.stepPc_eq]
@[simp] theorem Cell.stepPc_spovf : (c.stepPc n).spovf = c.spovf := by rw [Cell.stepPc_eq]
@[simp] theorem Cell.stepPc_inject : (c.stepPc n).inject = c.inject := by rw [Cell.stepPc_eq]
@[simp] theorem Cell.stepPc_injStarted : (c.stepPc n).injStarted = c.injStarted := by rw [Cell.stepPc_eq]
@[simp] theorem Cell.stepPc_injFlits : (c.stepPc n).injFlits = c.injFlits := by rw [Cell.stepPc_eq]
@[simp] theorem Cell.stepPc_xinj : (c.stepPc n).xinj = c.xinj := by rw [Cell.stepPc_eq]
@[simp] theorem Cell.stepPc_xinjCount : (c.stepPc n).xinjCount = c.xinjCount := by rw [Cell.stepPc_eq]
@[simp] theorem Cell.stepPc_spc : (c.stepPc n).spc = c.spc := by rw [Cell.stepPc_eq]
@[simp] theorem Cell.stepPc_uec : (c.stepPc n).uec = c.uec := by rw [Cell.stepPc_eq]
@[simp] theorem Cell.stepPc_ctxs : (c.stepPc n).ctxs = c.ctxs := by rw [Cell.stepPc_eq]
@[simp] theorem Cell.stepPc_ctx : (c.stepPc n).ctx = c.ctx := by rw [Cell.stepPc_eq]
@[simp] theorem Cell.stepPc_vreg : (c.stepPc n).vreg = c.vreg := by rw [Cell.stepPc_eq]
@[simp] theorem Cell.stepPc_vmeta : (c.stepPc n).vmeta = c.vmeta := by rw [Cell.stepPc_eq]
@[simp] theorem Cell.stepPc_mask : (c.stepPc n).mask = c.mask := by rw [Cell.stepPc_eq]
@[simp] theorem Cell.stepPc_tiles : (c.stepPc n).tiles = c.tiles := by rw [Cell.stepPc_eq]
@[simp] theorem Cell.stepPc_images : (c.stepPc n).images = c.images := by rw [Cell.stepPc_eq]
@[simp] theorem Cell.stepPc_accErr : (c.stepPc n).accErr = c.accErr := by rw [Cell.stepPc_eq]
@[simp] theorem Cell.stepPc_accPoison : (c.stepPc n).accPoison = c.accPoison := by rw [Cell.stepPc_eq]
@[simp] theorem Cell.stepPc_regErr : (c.stepPc n).regErr = c.regErr := by rw [Cell.stepPc_eq]
@[simp] theorem Cell.stepPc_regPoison : (c.stepPc n).regPoison = c.regPoison := by rw [Cell.stepPc_eq]
@[simp] theorem Cell.stepPc_sp : (c.stepPc n).sp = c.sp := by rw [Cell.stepPc_eq]
@[simp] theorem Cell.stepPc_genV : (c.stepPc n).genV = c.genV := by rw [Cell.stepPc_eq]
@[simp] theorem Cell.stepPc_genD : (c.stepPc n).genD = c.genD := by rw [Cell.stepPc_eq]
@[simp] theorem Cell.stepPc_genX : (c.stepPc n).genX = c.genX := by rw [Cell.stepPc_eq]
@[simp] theorem Cell.stepPc_code : (c.stepPc n).code = c.code := by rw [Cell.stepPc_eq]
@[simp] theorem Cell.stepPc_codeStandby : (c.stepPc n).codeStandby = c.codeStandby := by rw [Cell.stepPc_eq]
@[simp] theorem Cell.stepPc_codeErr : (c.stepPc n).codeErr = c.codeErr := by rw [Cell.stepPc_eq]
@[simp] theorem Cell.stepPc_codePoison : (c.stepPc n).codePoison = c.codePoison := by rw [Cell.stepPc_eq]
@[simp] theorem Cell.stepPc_limL : (c.stepPc n).limL = c.limL := by rw [Cell.stepPc_eq]
@[simp] theorem Cell.stepPc_limC : (c.stepPc n).limC = c.limC := by rw [Cell.stepPc_eq]
@[simp] theorem Cell.stepPc_limOB : (c.stepPc n).limOB = c.limOB := by rw [Cell.stepPc_eq]
@[simp] theorem Cell.stepPc_limSOV : (c.stepPc n).limSOV = c.limSOV := by rw [Cell.stepPc_eq]
@[simp] theorem Cell.stepPc_run : (c.stepPc n).run = c.run := by rw [Cell.stepPc_eq]
@[simp] theorem Cell.stepPc_wait : (c.stepPc n).wait = c.wait := by rw [Cell.stepPc_eq]
@[simp] theorem Cell.stepPc_firing : (c.stepPc n).firing = c.firing := by rw [Cell.stepPc_eq]
@[simp] theorem Cell.stepPc_t : (c.stepPc n).t = c.t := by rw [Cell.stepPc_eq]
@[simp] theorem Cell.stepPc_ready : (c.stepPc n).ready = c.ready := by rw [Cell.stepPc_eq]
@[simp] theorem Cell.stepPc_pend : (c.stepPc n).pend = c.pend := by rw [Cell.stepPc_eq]
@[simp] theorem Cell.stepPc_seqr : (c.stepPc n).seqr = c.seqr := by rw [Cell.stepPc_eq]
@[simp] theorem Cell.stepPc_seqBusy : (c.stepPc n).seqBusy = c.seqBusy := by rw [Cell.stepPc_eq]
@[simp] theorem Cell.stepPc_seqHeld : (c.stepPc n).seqHeld = c.seqHeld := by rw [Cell.stepPc_eq]
@[simp] theorem Cell.stepPc_stepNo : (c.stepPc n).stepNo = c.stepNo := by rw [Cell.stepPc_eq]
@[simp] theorem Cell.stepPc_coNo : (c.stepPc n).coNo = c.coNo := by rw [Cell.stepPc_eq]
@[simp] theorem Cell.stepPc_ramp : (c.stepPc n).ramp = c.ramp := by rw [Cell.stepPc_eq]
@[simp] theorem Cell.stepPc_queue : (c.stepPc n).queue = c.queue := by rw [Cell.stepPc_eq]
@[simp] theorem Cell.stepPc_vloads : (c.stepPc n).vloads = c.vloads := by rw [Cell.stepPc_eq]
@[simp] theorem Cell.stepPc_flagsAt : (c.stepPc n).flagsAt = c.flagsAt := by rw [Cell.stepPc_eq]
@[simp] theorem Cell.stepPc_vecAt : (c.stepPc n).vecAt = c.vecAt := by rw [Cell.stepPc_eq]
@[simp] theorem Cell.stepPc_ldspAt : (c.stepPc n).ldspAt = c.ldspAt := by rw [Cell.stepPc_eq]
@[simp] theorem Cell.stepPc_hreq : (c.stepPc n).hreq = c.hreq := by rw [Cell.stepPc_eq]
@[simp] theorem Cell.stepPc_haltAt : (c.stepPc n).haltAt = c.haltAt := by rw [Cell.stepPc_eq]
@[simp] theorem Cell.stepPc_sstep : (c.stepPc n).sstep = c.sstep := by rw [Cell.stepPc_eq]
@[simp] theorem Cell.stepPc_clearUntil : (c.stepPc n).clearUntil = c.clearUntil := by rw [Cell.stepPc_eq]
@[simp] theorem Cell.stepPc_fork : (c.stepPc n).fork = c.fork := by rw [Cell.stepPc_eq]
end

end Sys2Proof.Machine
end

