-- ==== Sys2Proof/Laws/Ops.lean ====
section
/-! SUPPORT. The shared operations of an issue: what each can do, said once. -/

namespace Sys2Proof.Machine

/-! Results. -/

@[simp] theorem Ret.bind_ok {α β : Type} (a : α) (s : State) (f : α → State → Ret β) : (Ret.ok a s).bind f = f a s := rfl

@[simp] theorem Ret.bind_trap {α β : Type} (c : Cause) (v : Word) (s : State) (f : α → State → Ret β) :
    (Ret.trap c v s : Ret α).bind f = .trap c v s := rfl

/-- A chain answers a value only through a value of its first part. -/
theorem Ret.bind_eq_ok {α β : Type} {r : Ret α} {f : α → State → Ret β} {b : β} {t : State} (h : r.bind f = .ok b t) :
    ∃ a s, r = .ok a s ∧ f a s = .ok b t := by
  cases r with
  | ok a s => exact ⟨a, s, rfl, h⟩
  | trap c v s => cases h

@[simp] theorem Ret.need_true (s : State) (c : Cause) (v : Word) : Ret.need s true c v = .ok () s := rfl

@[simp] theorem Ret.need_false (s : State) (c : Cause) (v : Word) : Ret.need s false c v = .trap c v s := rfl

@[simp] theorem finish_ok (s : State) (k : State → State) : finish (.ok () s) k = .next (k s) := rfl

@[simp] theorem finish_trap (c : Cause) (v : Word) (s : State) (k : State → State) : finish (.trap c v s) k = .next (takeTrap s c v) := rfl

/-! The issue (R25): under a true guard the body, under a false one a slot. -/

theorem issue_true {s : State} {g : PReg} {size slots : Nat} {body : State → Ret Unit} (h : s.me.getP g = true) :
    issue s g size slots body = finish (body s) fun s => advance s size slots := by simp [issue, h]

theorem issue_false {s : State} {g : PReg} {size slots : Nat} {body : State → Ret Unit} (h : s.me.getP g = false) :
    issue s g size slots body = .next (advance s size 1) := by simp [issue, h]

theorem issue_ok {s t : State} {g : PReg} {size slots : Nat} {body : State → Ret Unit} (h : s.me.getP g = true)
    (hb : body s = .ok () t) : issue s g size slots body = .next (advance t size slots) := by simp [issue, h, hb]

theorem issue_trap {s t : State} {g : PReg} {size slots : Nat} {body : State → Ret Unit} {c : Cause} {v : Word}
    (h : s.me.getP g = true) (hb : body s = .trap c v t) : issue s g size slots body = .next (takeTrap t c v) := by
  simp [issue, h, hb]

/-- Every issue answers a next state. -/
theorem issue_next (s : State) (g : PReg) (size slots : Nat) (body : State → Ret Unit) : ∃ t, issue s g size slots body = .next t := by
  unfold issue finish
  split
  · split <;> exact ⟨_, rfl⟩
  · exact ⟨_, rfl⟩

/-! The end of an issue (R25, R87, R88, R304). -/

theorem afterIssue_of_not_step {s : State} (h : s.me.sstep = false) : afterIssue s = s := by simp [afterIssue, h]

theorem advance_of_not_step {s : State} (size slots : Nat) (h : s.me.sstep = false) :
    advance s size slots = s.modMe fun c => (c.stepPc size).spend s.now slots := by
  unfold advance
  exact afterIssue_of_not_step (by simpa using h)

/-- The acting cell after an issue that transferred nothing. -/
theorem advance_me (s : State) (size slots : Nat) :
    (advance s size slots).me = { (s.me.stepPc size).spend s.now slots with sstep := false } := by
  unfold advance afterIssue
  cases h : s.me.sstep
  · have : (s.me.stepPc size).spend s.now slots = { (s.me.stepPc size).spend s.now slots with sstep := false } := by
      rw [← h, ← Cell.stepPc_sstep s.me size]; rfl
    simp only [State.me_modMe, Cell.spend_sstep, Cell.stepPc_sstep, h, Bool.false_eq_true, if_false]
    exact this
  · simp [h]

theorem State.modMe_rest (s : State) (f : Cell → Cell) : ∃ l e, s.modMe f = { s with cells := l, engines := e } := by
  unfold State.modMe State.setMe State.setCell
  split <;> exact ⟨_, _, rfl⟩

/-- Outside the acting cell an issue's end changes the agenda alone, and that only under a single step. -/
theorem advance_rest (s : State) (size slots : Nat) :
    ∃ l e a, advance s size slots = { s with cells := l, engines := e, agenda := a } := by
  unfold advance afterIssue
  split
  · obtain ⟨l, e, h⟩ := State.modMe_rest (s.modMe fun c => (c.stepPc size).spend s.now slots) fun c => { c with sstep := false }
    obtain ⟨l', e', h'⟩ := State.modMe_rest s fun c => (c.stepPc size).spend s.now slots
    rw [h, h']
    exact ⟨_, _, _, rfl⟩
  · obtain ⟨l, e, h⟩ := State.modMe_rest s fun c => (c.stepPc size).spend s.now slots
    rw [h]
    exact ⟨_, _, _, rfl⟩

theorem advance_cell_ne (s : State) (size slots : Nat) {c : Nat} (h : c ≠ s.cur) : (advance s size slots).cell c = s.cell c := by
  unfold advance afterIssue
  split
  · rw [State.sched_cell, State.cell_modMe_ne _ _ (by simpa using h), State.cell_modMe_ne _ _ h]
  · exact State.cell_modMe_ne _ _ h

section
variable (s : State) (size slots : Nat)
@[simp] theorem advance_now : (advance s size slots).now = s.now := by obtain ⟨_, _, _, h⟩ := advance_rest s size slots; rw [h]
@[simp] theorem advance_cur : (advance s size slots).cur = s.cur := by obtain ⟨_, _, _, h⟩ := advance_rest s size slots; rw [h]
@[simp] theorem advance_clusters : (advance s size slots).clusters = s.clusters := by
  obtain ⟨_, _, _, h⟩ := advance_rest s size slots; rw [h]
@[simp] theorem advance_dies : (advance s size slots).dies = s.dies := by obtain ⟨_, _, _, h⟩ := advance_rest s size slots; rw [h]
@[simp] theorem advance_doms : (advance s size slots).doms = s.doms := by obtain ⟨_, _, _, h⟩ := advance_rest s size slots; rw [h]
@[simp] theorem advance_hub : (advance s size slots).hub = s.hub := by obtain ⟨_, _, _, h⟩ := advance_rest s size slots; rw [h]
@[simp] theorem advance_host : (advance s size slots).host = s.host := by obtain ⟨_, _, _, h⟩ := advance_rest s size slots; rw [h]
@[simp] theorem advance_nextId : (advance s size slots).nextId = s.nextId := by
  obtain ⟨_, _, _, h⟩ := advance_rest s size slots; rw [h]
@[simp] theorem advance_free : (advance s size slots).free = s.free := by obtain ⟨_, _, _, h⟩ := advance_rest s size slots; rw [h]
end

/-! Sources (R14, R15, R96). -/

/-- A scalar register that a read delivers as it stands: without poison, and with no flipped bit to correct (R309). -/
def Cell.Plain (c : Cell) (r : SReg) : Prop :=
  r.toNat < 28 ∧ c.regBad r.toNat = false ∧ (c.regErr.any fun x => x.1 % 256 == r.toNat) = false

theorem readSrc_plain {s : State} {r : SReg} (p : List (SReg × Word)) (h : s.me.Plain r) : readSrc s r p = .ok (s.me.getS r, p) s := by
  have : scrubReg s r.toNat = s := by rw [scrubReg, h.2.2]; rfl
  simp [readSrc, h.1, h.2.1, this]

/-- A read of a register with one flipped bit delivers it corrected, and the flip is gone (R309). -/
theorem readSrc_corrects {s : State} {r : SReg} (p : List (SReg × Word)) (h : r.toNat < 28) (b : s.me.regBad r.toNat = false)
    (e : (s.me.regErr.any fun x => x.1 % 256 == r.toNat) = true) :
    readSrc s r p = .ok (s.me.getS r, p) (s.modMe fun c => { c with regErr := dropPlace c.regErr r.toNat }) := by
  have : scrubReg s r.toNat = s.modMe fun c => { c with regErr := dropPlace c.regErr r.toNat } := by rw [scrubReg, e]; rfl
  simp [readSrc, h, b, this]

theorem readSrcs_one {s : State} {a : SReg} (ha : s.me.Plain a) :
    readSrcs s [a] [] = .ok ⟨[s.me.getS a], if s.me.getD a then some a else none⟩ s := by
  simp [readSrcs, readSrc_plain _ ha, ha.1]

theorem readSrcs_two {s : State} {a b : SReg} (ha : s.me.Plain a) (hb : s.me.Plain b) :
    readSrcs s [a, b] [] =
      .ok ⟨[s.me.getS a, s.me.getS b], if s.me.getD a then some a else if s.me.getD b then some b else none⟩ s := by
  simp [readSrcs, readSrc_plain _ ha, readSrc_plain _ hb, ha.1, hb.1]

theorem readClean_one {s : State} {a : SReg} (ha : s.me.Plain a) (da : s.me.getD a = false) :
    readClean s [a] = .ok ⟨[s.me.getS a], none⟩ s := by simp [readClean, readSrcs_one ha, da]

theorem readClean_two {s : State} {a b : SReg} (ha : s.me.Plain a) (hb : s.me.Plain b) (da : s.me.getD a = false)
    (db : s.me.getD b = false) : readClean s [a, b] = .ok ⟨[s.me.getS a, s.me.getS b], none⟩ s := by
  simp [readClean, readSrcs_two ha hb, da, db]

/-- An output port named as a source reads zero and sets QMIS (R14). -/
theorem readSrc_output (s : State) (r : SReg) (p : List (SReg × Word)) (h : 30 ≤ r.toNat) :
    readSrc s r p = .ok (0, p) (s.modMe fun c => c.setFlags s.now flagQMIS) := by
  simp [readSrc, show ¬ r.toNat < 28 by omega, show ¬ r.toNat < 30 by omega]

/-- An input port is popped, once for each instruction (R96). -/
theorem readSrc_input (s : State) (r : SReg) (h : 28 ≤ r.toNat) (h' : r.toNat < 30) :
    readSrc s r [] = (popPort s r.toNat).bind fun v s => .ok (v, [(r, v)]) s := by
  simp [readSrc, show ¬ r.toNat < 28 by omega, h']

/-! Destinations (R14, R15, R96). -/

theorem writeDst_register (s : State) (d : SReg) (v : Word) (dfr : Option SReg) (lat : Nat) (h : d.toNat < 28) :
    writeDst s d v dfr lat = .ok () (s.modMe fun c => (c.setS d v dfr.isSome).setReady d.toNat (s.now + lat)) := by
  simp [writeDst, h]

theorem writeDst_input (s : State) (d : SReg) (v : Word) (dfr : Option SReg) (lat : Nat) (h : 28 ≤ d.toNat) (h' : d.toNat < 30) :
    writeDst s d v dfr lat = .ok () (s.modMe fun c => c.setFlags s.now flagQMIS) := by
  simp [writeDst, show ¬ d.toNat < 28 by omega, h']

theorem writeDst_output (s : State) (d : SReg) (v : Word) (lat : Nat) (h : 30 ≤ d.toNat) :
    writeDst s d v none lat = pushPort s d.toNat v := by
  simp [writeDst, show ¬ d.toNat < 28 by omega, show ¬ d.toNat < 30 by omega]

theorem writeDst_deferred (s : State) (d r : SReg) (v : Word) (lat : Nat) (h : 30 ≤ d.toNat) :
    writeDst s d v (some r) lat = .trap .memerr (memPlace 0 r.toNat) s := by
  simp [writeDst, show ¬ d.toNat < 28 by omega, show ¬ d.toNat < 30 by omega]

/-! The agenda. -/

theorem insertTimed_mem (l : List Timed) (x y : Timed) : y ∈ insertTimed l x ↔ y = x ∨ y ∈ l := by
  induction l with
  | nil => simp [insertTimed]
  | cons z r ih =>
    simp only [insertTimed]
    split
    · simp
    · simp only [List.mem_cons, ih]
      constructor <;> (rintro (h | h | h) <;> simp [h])

/-- An event put on the agenda stands there, and nothing leaves it. -/
theorem State.mem_sched (s : State) (t : Nat) (i : Instr) (y : Timed) :
    y ∈ (s.sched t i).agenda ↔ y = ⟨t, eventPrio i, i⟩ ∨ y ∈ s.agenda := insertTimed_mem _ _ _

end Sys2Proof.Machine
end

