-- ==== Sys2Proof/Tests/Slice0.lean ====
section
/-! SUPPORT. The model's own tests: words written out from the manual's encodings, an ill-formed term for each check, one-step tests
against values of the manual, and for every statement a named witness that meets its hypotheses. -/

namespace Sys2Proof.Tests

open Sys2Proof Sys2Proof.Machine

/-! ### Small states -/

/-- Two channels of stage 0: it pops channel 0 through q0 and pushes channel 1 through q2, two records each. -/
def chanIn (kind scope : Nat) : Chan :=
  { fstg := 1, fport := 30, tport := 28, tstg := 0, fmt := 0, scope := scope, push := 2, pop := 2, size := 8, init := 0, carry := false,
    dataOfs := 0, cap := 4, kind := kind, home := 0, base := 0x1000 }
def chanOut (kind scope : Nat) : Chan := { chanIn kind scope with fstg := 0, tstg := 1, base := 0x2000 }

/-- A plain entry of block 5 from cycle 100 to 3000 with fallback 6, CAD as given, for a set of 2^n cells. -/
def entryA (kind cad n : Nat) : Entry :=
  { word := BitVec.ofNat 128 (5 + 6 * 2 ^ 16 + 100 * 2 ^ 52 + 3000 * 2 ^ 84 + kind * 2 ^ 96 + n * 2 ^ 100 + cad * 2 ^ 105 + 3 * 2 ^ 106 +
      7 * 2 ^ 112) }

def firingA (cad n : Nat) : Firing :=
  { id := 9, dom := 0, base := 0, logsz := n, entry := entryA 0 cad n, blk := 5, fb := false, start := 100, deadline := 3000, release := 100,
    fsel := 0 }

def tableA (chans : List Chan) (col : List Entry) : Table :=
  { id := 0, period := 1, stages := [{ blk := 5, alt := 0, fix := 0, at0 := some 0 }, { blk := 5, alt := 0, fix := 0, at0 := some 1 }],
    chans := chans, columns := [(0, col), (1, col)] }

def bindA (chans : List Chan) (col : List Entry) : Binding :=
  { blocks := [(6, { id := 6, wcet := 300 })], tables := [tableA chans col] }

/-- Domain 0 runs the table with a firing, its channel 0 holding the records given. -/
def domA (chans : List Chan) (f : Firing) (queue : List Word) : Domain :=
  { grant := { cells := 3, granules := [(0, [0])], semBase := 0, semCnt := 4, barBase := 0, barCnt := 4 }, state := 2, running := true,
    active := some (bindA chans [entryA 0 0 0]), firings := [f], chans := [(0, { queue := queue }), (1, {})] }

/-- Registers: s1 = 5, s2 = 16, s3 = 2^40, s4 = 7 with a deferred fault, s6 not deliverable, s7 = 0x1003; p1 true; eight `nop`s. -/
def cellA : Cell :=
  { code := [(1, List.replicate 8 0x58000000)], block := 1, run := .running, firing := 9, limC := 0x8000, limL := 0x10000, limOB := 0x4000,
    limSOV := 0x1000, sreg := [(1, 5), (2, 16), (3, 0x10000000000), (4, 7), (6, 1), (7, 0x1003), (8, 4), (9, 12), (10, 40)], dfb := [(4, true)],
    pred := [(1, true)], regErr := [(6, 3)] }

/-- Cell 0 of the supervisor's domain, with no firing. -/
def sB : State := { cells := [(0, { cellA with dom := 8, firing := 0 })], hub := { up := true } }

/-- Cell 0 runs a firing of domain 0. -/
def sA (chans : List Chan) (f : Firing) (queue : List Word) : State :=
  { now := 200, cells := [(0, cellA)], doms := [(0, domA chans f queue)], hub := { up := true } }

/-- The same with a change of the cell. -/
def withCell (s : State) (c : Cell) : State := { s with cells := [(0, c)] }

def sPorts (pop : Nat) (queue : List Word) (kind : Nat) : State :=
  sA [chanIn kind 2, chanOut kind 2] { firingA 0 0 with pop0 := pop } queue

/-! ### Witnesses: scalar registers and ports -/

theorem witness_source_registers :
    (∀ r ∈ ([0, 1, 27] : List SReg), r.toNat < 28 ∧ sB.me.regBad r.toNat = false) ∧ 30 ≤ (31 : SReg).toNat ∧
    sB.me.getP 1 = true ∧ (6 : SReg).toNat < 28 ∧ sB.me.regBad (6 : SReg).toNat = true := by decide

theorem witness_source_ports :
    (∃ f n c, (sPorts 2 [8, 9] 1).myFiring = some f ∧ portChan (sPorts 2 [8, 9] 1).me' f 28 = some (n, c) ∧ c.pop ≤ f.pops 28) ∧
    (∃ f n c, (sPorts 1 [8] 3).myFiring = some f ∧ portChan (sPorts 1 [8] 3).me' f 28 = some (n, c) ∧ f.pops 28 < c.pop ∧
      ((sPorts 1 [8] 3).me'.chan n).queue.length ≤ f.pops 28 ∧ c.kind = 3) ∧
    (∃ f n c, (sPorts 1 [8, 9] 1).myFiring = some f ∧ portChan (sPorts 1 [8, 9] 1).me' f 28 = some (n, c) ∧ f.pops 28 < c.pop ∧
      f.pops 28 < ((sPorts 1 [8, 9] 1).me'.chan n).queue.length ∧ c.kind ≠ 3) :=
  ⟨⟨_, _, _, rfl, rfl, by decide⟩, ⟨_, _, _, rfl, rfl, by decide, by decide, rfl⟩, ⟨_, _, _, rfl, rfl, by decide, by decide, by decide⟩⟩

theorem witness_destination_ports :
    28 ≤ (29 : SReg).toNat ∧ (29 : SReg).toNat < 30 ∧ sB.myFiring = none ∧
    (∃ f n c, (sPorts 0 [] 1).myFiring = some f ∧ portChan (sPorts 0 [] 1).me' f 30 = some (n, c) ∧ (f.pushes 30).length < c.push ∧
      portChan (sPorts 0 [] 1).me' f 31 = none) ∧
    (∃ s f n c, s = sA [chanIn 1 2, chanOut 1 2] { firingA 0 0 with push2 := [1, 2] } [] ∧ s.myFiring = some f ∧
      portChan s.me' f 30 = some (n, c) ∧ c.push ≤ (f.pushes 30).length) :=
  ⟨by decide, by decide, rfl, ⟨_, _, _, rfl, rfl, by decide, rfl⟩, ⟨_, _, _, _, rfl, rfl, rfl, by decide⟩⟩

/-! ### Witnesses: scalar integers, control flow, compares -/

theorem witness_scalar_arithmetic :
    ∃ f x u, scalarForm (.add 1 5 1 2 .w32 false true) = some f ∧ isArithmetic f.op = true ∧ sB.me.getP f.g = true ∧
      readSrcs sB f.sources [] = .ok x u := ⟨_, _, _, rfl, rfl, rfl, rfl⟩

theorem witness_scalar_bits :
    ∃ f x u, scalarForm (.wideImmediate 0 5 1 9 (.bfi .w64)) = some f ∧ isArithmetic f.op = false ∧ sB.me.getP f.g = true ∧
      readSrcs sB f.sources [] = .ok x u := ⟨_, _, _, rfl, rfl, rfl, rfl⟩

theorem witness_false_guard :
    (Instr.loop 2 1 5 9).isProgram = true ∧ (Instr.loop 2 1 5 9).wf = true ∧ sB.me.getP (guardOf (.loop 2 1 5 9)) = false ∧
    sB.me.underRep = false ∧ sB.me.dom = 8 ∧ sB.me.pc / 4 + (5 : BitVec 15).toNat < (SMap.get [] sB.me.code sB.me.block).length ∧
    (Instr.semWait 3 1 2).wf = true ∧ sB.me.getP (guardOf (.semWait 3 1 2)) = false := by decide

/-- Loops from word 2 to word 4 within one from 1 to 4, with the counts given; the PC stands at the end of both. -/
def cellLoop (n m : Nat) : Cell :=
  { cellA with pc := 16, loops := [(0, { st := 1, en := 4, cnt := n, act := true }), (1, { st := 2, en := 4, cnt := m, act := true })] }

theorem witness_next_pc :
    cellA.underRep = false ∧ (∀ k < 5, (cellA.loop k).act = false) ∧ (cellLoop 3 1).depth = 2 ∧ (cellLoop 3 1).underRep = false ∧
    ((cellLoop 3 1).loop 1).en = (cellLoop 3 1).pc / 4 ∧ 1 < ((cellLoop 3 2).loop 1).cnt ∧ ((cellLoop 3 1).loop 1).cnt ≤ 1 ∧
    ((cellLoop 3 1).loop 0).act = true ∧ ((cellLoop 3 1).loop 0).en = (cellLoop 3 1).pc / 4 ∧ 1 < ((cellLoop 3 1).loop 0).cnt ∧
    ({ cellLoop 3 1 with pc := 12 }.loop 1).en ≠ ({ cellLoop 3 1 with pc := 12 } : Cell).pc / 4 ∧
    (∀ k < 2, ((cellLoop 1 1).loop k).en = (cellLoop 1 1).pc / 4 ∧ ((cellLoop 1 1).loop k).cnt ≤ 1 ∧ ((cellLoop 1 1).loop k).act = true) ∧
    ({ cellA with repPend := some 2 } : Cell).repPend = some 2 ∧ ({ cellA with rep := 2 } : Cell).rep = 2 := by decide

theorem witness_transfers :
    sB.me.getP 1 = true ∧ sB.me.underRep = false ∧ InCode sB (branchTarget sB (7 : BitVec 23).toInt) ∧
    ¬ InCode sB (branchTarget sB (8 : BitVec 23).toInt) ∧ ¬ InCode sB (branchTarget sB (-1 : BitVec 23).toInt) ∧ sB.me.getD 4 = true ∧
    sB.me.getD 1 = false ∧ InCode sB (branchTarget sB (2 : BitVec 18).toInt) := by unfold InCode; decide

theorem witness_register_transfers :
    (∃ x u, readClean sB [2] = .ok x u ∧ (x.get 0).toNat % 4 = 0 ∧ InCode sB (x.get 0).toNat) ∧
    (∃ x u, readClean sB [1] = .ok x u ∧ (x.get 0).toNat % 4 ≠ 0) ∧
    (∃ x u, readClean sB [10] = .ok x u ∧ (x.get 0).toNat % 4 = 0 ∧ ¬ InCode sB (x.get 0).toNat) ∧
    isControl (.done 0) = true ∧ (withCell sB { cellA with rep := 2 }).me.underRep = true := by
  unfold InCode
  refine ⟨⟨_, _, rfl, ?_⟩, ⟨_, _, rfl, ?_⟩, ⟨_, _, rfl, ?_⟩, ?_, ?_⟩ <;> decide

theorem witness_loop_entry :
    (∃ x u, readClean sB [1] = .ok x u ∧ 0 < (x.get 0).toNat ∧ (x.get 0).toNat ≤ (5 : BitVec 32).toNat) ∧
    (∃ x u, readClean sB [0] = .ok x u ∧ (x.get 0).toNat = 0) ∧ sB.me.depth < 4 ∧
    sB.me.pc / 4 + (7 : BitVec 15).toNat < (SMap.get [] sB.me.code sB.me.block).length ∧
    ¬ sB.me.pc / 4 + (8 : BitVec 15).toNat < (SMap.get [] sB.me.code sB.me.block).length ∧ (4 : BitVec 32).toNat < 5 ∧
    (cellLoop 3 1).depth = 2 ∧ ¬ (4 + (3 : BitVec 15).toNat ≤ ((cellLoop 3 1).loop 1).en) := by
  refine ⟨⟨_, _, rfl, ?_⟩, ⟨_, _, rfl, ?_⟩, ?_⟩ <;> decide

theorem witness_carries_fault :
    (∃ u, CarriesFault sB u [4] 4) ∧ (∃ u, CarriesFault sB u [1, 4] 4) ∧
    (∃ u, CarriesFault (withCell sB { cellA with dfb := [(27, true)] }) u [27] 27) ∧ sB.me.getP 2 = false :=
  ⟨⟨_, _, rfl, rfl⟩, ⟨_, _, rfl, rfl⟩, ⟨_, _, rfl, rfl⟩, rfl⟩

theorem witness_source_traps :
    (∃ rs c v u, sourcesOf (.brr 1 6) = some (1, rs, false) ∧ ReadsSources sB (.brr 1 6) ∧ sB.me.getP 1 = true ∧ readSrcs sB rs [] = .trap c v u) ∧
    (∃ rs x u, sourcesOf (.semWait 1 4 2) = some (1, rs, false) ∧ ReadsSources sB (.semWait 1 4 2) ∧ readSrcs sB rs [] = .ok x u ∧
      x.dfr = some 4) ∧ ReadsSources sB (.rep 1 2) ∧ ReadsSources sB (.loop 1 2 7 9) ∧ ReadsSources sB (.cwput 1 2 0x28) ∧
    ReadsSources sB (.pwrGate 1 2) :=
  ⟨⟨_, _, _, _, rfl, rfl, rfl, rfl⟩, ⟨_, _, _, rfl, trivial, rfl, rfl⟩, ⟨rfl, rfl⟩, by constructor <;> decide, by constructor <;> decide, rfl⟩

theorem witness_rep_counts :
    (∃ x u, readClean sB [3] = .ok x u ∧ 2 ^ 32 ≤ (x.get 0).toNat) ∧ (∃ x u, readClean sB [1] = .ok x u ∧ 0 < (x.get 0).toNat) ∧
    sB.me.endsLoop (sB.me.pc / 4) = false ∧ (cellLoop 3 1).endsLoop ((cellLoop 3 1).pc / 4) = true := by
  refine ⟨⟨_, _, rfl, ?_⟩, ⟨_, _, rfl, ?_⟩, ?_⟩ <;> decide

theorem witness_immediates :
    sB.me.getP 1 = true ∧ sB.me.underRep = false ∧ (∃ x u, readSrcs sB [4] [] = .ok x u) ∧ sB.myFiring = none ∧
    ∃ f, (sPorts 0 [] 1).myFiring = some f := ⟨rfl, rfl, ⟨_, _, rfl⟩, rfl, ⟨_, rfl⟩⟩

theorem witness_compare : sB.me.getP 1 = true ∧ (∃ x u, readClean sB [1, 2] = .ok x u) ∧ ∃ x u, readClean sB [1] = .ok x u :=
  ⟨rfl, ⟨_, _, rfl⟩, ⟨_, _, rfl⟩⟩

/-! ### Witnesses: memory -/

/-- A cell with the accesses given in flight. -/
def sPend (l : List Access) : State := withCell sB { cellA with pend := l }

/-- A store of eight bytes at address 16 by stream 0, and an atomic at 24. -/
def storeX : Access :=
  { id := 7, starts := 0, strm := 0, space := .sp, strong := false, tok := 0, due := 8, pc := 0,
    upd := .store [(16, 0x5A, 0xFF), (17, 0, 0xFF)] }
def atomX (op : Nat) : Access := { storeX with strong := true, upd := .amo op 24 false 5 0 3 24 0 }

/-- The scratchpad's words 2 and 3 with one flipped bit and two. -/
def sErr : State := withCell sB { cellA with sp := { bytes := [(16, 1)], err := [(2, 1), (3, 3)] } }

theorem witness_access_targets :
    0 < 8 ∧ (20 : Word).toNat % 8 ≠ 0 ∧ (16 : Word).toNat % 8 = 0 ∧
    (let s := sA [] (firingA 0 0) []
     let share := s.shareSize s.me.dom (clusterOf s.cur)
     share ≤ (0x800000 : Word).toNat ∧ (16 : Word).toNat < share ∧ (16 : Word).toNat < s.me.limC ∧ s.me.limC ≤ (0x8000 : Word).toNat ∧
     (0xFFF8 : Word).toNat < s.me.limL ∧ s.me.limL ≤ (0xF000 : Word).toNat + s.me.limSOV ∧
     s.me.limOB + ((0xF000 : Word).toNat + s.me.limSOV - s.me.limL) < share ∧ (0xEFF8 : Word).toNat + s.me.limSOV < s.me.limL) ∧
    (let s := withCell (sA [] (firingA 0 0) []) { cellA with limOB := 0x800000 }
     s.shareSize s.me.dom (clusterOf s.cur) ≤ s.me.limOB + ((0xF000 : Word).toNat + s.me.limSOV - s.me.limL)) := by decide

theorem witness_loads :
    ∃ f x u, loadForm (.ldD 1 5 2 0 (-1)) = some f ∧ sB.me.getP f.g = true ∧ readClean sB [f.a] = .ok x u ∧
      (∃ v, target u f.a f.sp (f.address (x.get 0)) f.n = .ok (.mem .sp 8 8) v ∧ Delivered v f.strm .sp 8 f.n) :=
  ⟨_, _, _, rfl, rfl, rfl, _, rfl, fun w h1 h2 => by
    have : w = 1 := by simp at h1 h2; omega
    subst this; decide⟩

theorem witness_loads_beyond :
    (∃ f x u v, loadForm (.ldW 1 5 1 0 0) = some f ∧ readClean sB [f.a] = .ok x u ∧
      target u f.a f.sp (f.address (x.get 0)) f.n = .trap .align 5 v) ∧
    (∃ f x u v ad, loadForm (.ld 1 5 3 0 0 .w true ⟨false, .sp, 0⟩) = some f ∧ readClean sB [f.a] = .ok x u ∧
      target u f.a f.sp (f.address (x.get 0)) f.n = .ok (.out ad) v) ∧
    (∃ f x u v, loadForm (.ldD 1 5 2 0 1) = some f ∧ readClean sErr [f.a] = .ok x u ∧
      target u f.a f.sp (f.address (x.get 0)) f.n = .ok (.mem .sp 24 24) v ∧
      ∃ w, 24 / 8 ≤ w ∧ w ≤ (24 + f.n - 1) / 8 ∧ (v.seen f.strm .sp).bad w = true) :=
  ⟨⟨_, _, _, _, rfl, rfl, rfl⟩, ⟨_, _, _, _, _, rfl, rfl, rfl⟩, _, _, _, _, rfl, rfl, rfl, 3, by decide⟩

theorem witness_loads_correct :
    ∃ f x u v, loadForm (.ldD 1 5 2 0 0) = some f ∧ sErr.me.getP f.g = true ∧ readClean sErr [f.a] = .ok x u ∧ f.d.toNat < 28 ∧ f.d ≠ 0 ∧
      target u f.a f.sp (f.address (x.get 0)) f.n = .ok (.mem .sp 16 16) v ∧ (v.seen f.strm .sp).anyBad 16 f.n = false ∧
      (v.seen f.strm .sp).oneBit 16 f.n ≠ [] :=
  ⟨_, _, _, _, rfl, rfl, rfl, by decide, by decide, rfl, by decide, by decide⟩

theorem witness_speculative :
    sErr.me.getP 1 = true ∧ (∃ x u, readSrcs sErr [4] [] = .ok x u ∧ x.dfr ≠ none) ∧
    (∃ x u, readSrcs sErr [2] [] = .ok x u ∧ x.dfr = none ∧
      (∃ w y, target u 2 .sp (x.get 0 + 1) 8 = .trap .align w y) ∧
      (∃ y, target u 2 .sp (x.get 0) 8 = .ok (.mem .sp 16 16) y ∧ ∃ w, 16 / 8 ≤ w ∧ w ≤ (16 + 8 - 1) / 8 ∧ (y.seen 0 .sp).bad w = false) ∧
      (∃ y, target u 2 .sp (x.get 0 + 8) 8 = .ok (.mem .sp 24 24) y ∧
        ∃ w, 24 / 8 ≤ w ∧ w ≤ (24 + 8 - 1) / 8 ∧ (y.seen 0 .sp).bad w = true)) ∧
    (∃ x u ad y, readSrcs sErr [3] [] = .ok x u ∧ target u 3 .sp (x.get 0) 8 = .ok (.out ad) y) ∧
    (∃ x u w y, readSrcs sErr [2] [] = .ok x u ∧ target u 26 .sp (x.get 0) 8 = .trap .spill w y) :=
  ⟨rfl, ⟨_, _, rfl, by decide⟩, ⟨_, _, rfl, rfl, ⟨_, _, rfl⟩, ⟨_, rfl, 2, by decide⟩, ⟨_, rfl, 3, by decide⟩⟩, ⟨_, _, _, _, rfl, rfl⟩,
    _, _, _, _, rfl, rfl⟩

theorem witness_stores :
    (∃ f x u v, storeForm (.stD 1 5 2 0 0) = some f ∧ sB.me.getP f.g = true ∧ readClean sB [f.a, f.d] = .ok x u ∧
      target u f.a f.sp (f.address (x.get 0)) f.n = .ok (.mem .sp 16 16) v ∧ (v.seen f.strm .sp).partBad 16 f.n = false) ∧
    (∃ f x u v, storeForm (.stW 1 5 2 0 2) = some f ∧ readClean sErr [f.a, f.d] = .ok x u ∧
      target u f.a f.sp (f.address (x.get 0)) f.n = .ok (.mem .sp 24 24) v ∧ (v.seen f.strm .sp).partBad 24 f.n = true) ∧
    (∃ f x u ad v, storeForm (.stD 1 5 3 0 0) = some f ∧ readClean sB [f.a, f.d] = .ok x u ∧
      target u f.a f.sp (f.address (x.get 0)) f.n = .ok (.out ad) v) ∧
    (∃ f x u c w v, storeForm (.stD 1 5 1 0 0) = some f ∧ readClean sB [f.a, f.d] = .ok x u ∧
      target u f.a f.sp (f.address (x.get 0)) f.n = .trap c w v) :=
  ⟨⟨_, _, _, _, rfl, rfl, rfl, rfl, by decide⟩, ⟨_, _, _, _, rfl, rfl, rfl, by decide⟩, ⟨_, _, _, _, _, rfl, rfl, rfl⟩,
    _, _, _, _, _, _, rfl, rfl, rfl⟩

theorem witness_atomics :
    (∃ op f b x u v, atomicForm (.amoAdd 1 5 2 0 0 false .sp 0 1) = some (op, f, b) ∧ sB.me.getP f.g = true ∧
      readClean sB (f.a :: b :: if op = 6 then [f.d] else []) = .ok x u ∧
      target u f.a f.sp (f.address (x.get 0)) f.n = .ok (.mem .sp 16 16) v) ∧
    (∃ op f b x u v c w, atomicForm (.amoCas 1 5 1 0 0 true .sp 0 1) = some (op, f, b) ∧
      readClean sB (f.a :: b :: if op = 6 then [f.d] else []) = .ok x u ∧
      target u f.a f.sp (f.address (x.get 0)) f.n = .trap c w v) ∧
    (∃ op f b x u ad v, atomicForm (.amoAmax 1 5 3 0 0 true .sp 0 1) = some (op, f, b) ∧
      readClean sB (f.a :: b :: if op = 6 then [f.d] else []) = .ok x u ∧
      target u f.a f.sp (f.address (x.get 0)) f.n = .ok (.out ad) v) :=
  ⟨⟨_, _, _, _, _, _, rfl, rfl, rfl, rfl⟩, ⟨_, _, _, _, _, _, _, _, rfl, rfl, rfl⟩, _, _, _, _, _, _, _, rfl, rfl, rfl⟩

theorem witness_store_performed :
    ∃ bs, ((sPend [storeX]).cell 0).pend.find? (fun y => y.id == 7) = some storeX ∧ storeX.upd = .store bs ∧
      (bs.map fun w => w.1).Nodup := ⟨_, rfl, rfl, by decide⟩

theorem witness_atomic_performed :
    ∀ op < 8, ((sPend [atomX op]).cell 0).pend.find? (fun y => y.id == 7) = some (atomX op) ∧
      (atomX op).upd = .amo op 24 false 5 0 3 24 0 ∧ ((sPend [atomX op]).ramOf 0 .sp).anyBad 24 4 = false ∧ (3 : SReg).toNat < 28 := by decide

/-! ### Witnesses: traps, fences, control words -/

theorem witness_trap_taken :
    let s := sA [] (firingA 0 0) []
    s.cur < 256 ∧ s.myFiring = some (firingA 0 0) ∧ (firingA 0 0).ended = false ∧ (firingA 0 0).logsz = 0 ∧ (firingA 0 0).base = s.cur ∧
      (firingA 0 0).out = [] ∧ (∀ g ∈ s.me'.firings, g.id = (firingA 0 0).id → g = firingA 0 0) ∧ s.me.seqr = [] ∧
      (s.dom s.me.dom).frozen = none ∧ (firingA 0 0).fb = false := by decide

theorem witness_traps_raised :
    sB.me.getP 1 = true ∧ (∃ x u, readClean sB [1] = .ok x u) ∧ isPrivileged (.lnkTrain 0 1 2) = true ∧ (sA [] (firingA 0 0) []).me.dom ≠ 8 ∧
    128 ≤ (0x80 : BitVec 8).toNat ∧ (0x09 : BitVec 8).toNat < 128 ∧ sB.me.dom = 8 ∧
    (0x09 : BitVec 8).toNat ∉ [0, 1, 2, 3, 4, 5, 6, 7, 8, 0x10, 0x11, 0x12, 0x18, 0x19, 0x1A, 0x20, 0x21, 0x22, 0x23,
          0x24, 0x28, 0x29, 0x2A, 0x2C, 0x80, 0x81, 0x82, 0x83, 0x84, 0x85, 0x86, 0x87] :=
  ⟨rfl, ⟨_, _, rfl⟩, by decide⟩

theorem witness_pass_through :
    sB.me.getP 1 = true ∧ sB.me.underRep = false ∧ 8 ≤ sB.me.dom ∧ (sA [] (firingA 0 0) []).me.dom < 8 ∧
    (sA [] (firingA 0 0) []).hub.dbgenNow.getLsbD 0 = false ∧ ({ dbgenNow := 1 } : Hub).dbgenNow.getLsbD 0 = true := by decide

theorem witness_fences :
    sB.me.getP 1 = true ∧ sB.me.pend = [] ∧ sB.me.queue = [] ∧ sB.me.seqr = [] ∧
    (∃ x ∈ (sPend [storeX]).me.pend, (fun x : Access => (1 : BitVec 11).getLsbD x.strm) x = true) ∧
    (∃ x ∈ (sPend [{ storeX with tok := 3 }]).me.pend, x.tok = (3 : Tok).toNat) ∧ (0 : Tok) = 0 ∧ (3 : Tok) ≠ 0 := by decide

theorem witness_control_reads :
    sB.cur < 256 ∧ sB.me.getP 1 = true ∧ sB.me.dom = 8 ∧
    ∃ f, (sA [] (firingA 0 0) []).myFiring = some f ∧ ((sA [] (firingA 0 0) []).dom (sA [] (firingA 0 0) []).me.dom).frozen = none :=
  ⟨by decide, rfl, rfl, _, rfl, rfl⟩

theorem witness_control_writes :
    sB.me.getP 1 = true ∧ (∃ x u, readClean sB [10] = .ok x u ∧ LegalFormat (x.get 0)) ∧
    (∃ x u, readClean sB [1] = .ok x u ∧ ¬ LegalFormat (x.get 0)) := by
  unfold LegalFormat
  exact ⟨rfl, ⟨_, _, rfl, by decide⟩, _, _, rfl, by decide⟩

theorem witness_supervisor_words :
    (LegalInjection 0x500000 ∧ LegalInjection 1 ∧ LegalInjection 0x40000002) ∧
    (¬ LegalInjection 0x600000 ∧ ¬ LegalInjection 0x2000001 ∧ ¬ LegalInjection 0x60000002 ∧ ¬ LegalInjection 3) ∧
    (∃ x u, readClean sB [1] = .ok x u ∧ x.get 0 = 5 ∧ (5 : Word).toNat < 2 ^ 16) ∧ sB.me.dom = 8 ∧
    (5 : Word).extractLsb' 56 8 = 0 ∧ (5 : Word).getLsbD 8 = false ∧ (5 : Word).extractLsb' 6 2 = 0 ∧ (5 : Word).extractLsb' 11 53 = 0 ∧
    (∃ s : State, s = { sA [] (firingA 0 0) [] with hub := { dbgenNow := 1 } } ∧ (s.cell 0).run = .running ∧ (s.cell 0).dom < 8 ∧
      s.hub.dbgenNow.getLsbD (s.cell 0).dom = true) ∧
    ((sA [] (firingA 0 0) []).dom 0).grant.cells ≠ 0 ∧ ((sA [] (firingA 0 0) []).dom 0).thawAt = none ∧
    (sA [] (firingA 0 0) []).hub.tfreeze.getLsbD 0 = false ∧
    (∃ s : State, s = { doms := [(0, { frozen := some 4100 })], hub := { tfreeze := 1 } } ∧ (0 : Word).getLsbD 0 = false ∧
      s.hub.tfreeze.getLsbD 0 = true ∧ (s.dom 0).frozen = some 4100) :=
  ⟨by simp [LegalInjection], by simp [LegalInjection], ⟨_, _, rfl, rfl, by decide⟩, rfl, by decide, by decide, by decide, by decide, ⟨_, rfl, by decide⟩, by decide, rfl,
    by decide, _, rfl, by decide⟩

/-! ### Witnesses: semaphores, barriers, publication -/

theorem witness_sync_issue :
    let s := sA [] (firingA 0 0) []
    s.me.getP 1 = true ∧ (∃ x u, readClean s [7, 1] = .ok x u ∧ 256 ≤ (x.get 0).toNat) ∧
    (∃ x u, readClean s [1, 2] = .ok x u ∧ (x.get 0).toNat < 64 ∧ ¬ (x.get 0).toNat < u.me'.grant.semBase + u.me'.grant.semCnt) ∧
    (∃ x u, readClean s [0, 2] = .ok x u ∧ u.me'.grant.semBase ≤ (x.get 0).toNat ∧ (x.get 0).toNat < u.me'.grant.semBase + u.me'.grant.semCnt) ∧
    (∃ x u, readClean s [0] = .ok x u ∧ u.me'.grant.barBase ≤ (x.get 0).toNat ∧ (x.get 0).toNat < u.me'.grant.barBase + u.me'.grant.barCnt) :=
  ⟨rfl, ⟨_, _, rfl, by decide⟩, ⟨_, _, rfl, by decide, by decide⟩, ⟨_, _, rfl, by decide, by decide⟩, _, _, rfl, by decide, by decide⟩

theorem witness_sync_performed :
    (∃ x b, ((sPend [{ storeX with upd := .sem 3 (-1) }]).cell 0).pend.find? (fun y => y.id == 7) = some x ∧ x.upd = .sem 3 b) ∧
    (∃ x, ((sPend [{ storeX with upd := .barAdd 3 1 }]).cell 0).pend.find? (fun y => y.id == 7) = some x ∧ x.upd = .barAdd 3 1 ∧
      (SMap.get 0 ((sPend []).cluster 0).bars 3).toNat + 1 < 2 ^ 32) ∧
    (∃ s x, s = { sPend [{ storeX with upd := .barAdd 3 1 }] with clusters := [(0, { bars := [(3, 0xFFFFFFFF)] })] } ∧
      (s.cell 0).pend.find? (fun y => y.id == 7) = some x ∧ x.upd = .barAdd 3 1 ∧ 2 ^ 32 ≤ (SMap.get 0 (s.cluster 0).bars 3).toNat + 1) ∧
    (∃ s x, s = { sPend [{ storeX with upd := .barSub 3 2 }] with clusters := [(0, { bars := [(3, 2)] })] } ∧
      (s.cell 0).pend.find? (fun y => y.id == 7) = some x ∧ x.upd = .barSub 3 2 ∧ 2 ≤ (SMap.get 0 (s.cluster 0).bars 3).toNat) ∧
    (SMap.get 0 ((sPend [{ storeX with upd := .barSub 3 1 }]).cluster 0).bars 3).toNat < 1 ∧
    (∃ s : State, s = { cells := [(3, { wait := .sem 3 2 })] } ∧ 16 * 0 ≤ 3 ∧ 3 < 16 * 0 + 16 ∧ 3 ≠ 0 ∧ (s.cell 3).wait = .sem 3 2) :=
  ⟨⟨_, _, rfl, rfl⟩, ⟨_, rfl, rfl, by decide⟩, ⟨_, _, rfl, rfl, rfl, by decide⟩, ⟨_, _, rfl, rfl, rfl, by decide⟩, by decide, _, rfl, by decide⟩

theorem witness_sync_passes :
    (∃ s : State, s = { cells := [(3, { wait := .sem 3 2 })], clusters := [(0, { sems := [(3, 2)] })] } ∧ (s.cell 3).wait = .sem 3 2 ∧
      2 ≤ (SMap.get 0 (s.cluster (clusterOf 3)).sems 3).toNat) ∧
    (∃ s : State, s = { cells := [(3, { wait := .bar 3 })] } ∧ (s.cell 3).wait = .bar 3 ∧ SMap.get 0 (s.cluster (clusterOf 3)).bars 3 = 0) :=
  ⟨⟨_, rfl, by decide⟩, _, rfl, by decide⟩

/-- Buffer 4, written by block 5, and a record at address 16 that publishes it with 9 elements and layout word `hi`. -/
def sPub (buf hi writer : Nat) : State :=
  { withCell (sA [] (firingA 0 0) []) { cellA with
      sp := { bytes := [(16, BitVec.ofNat 8 buf), (20, 9), (24, BitVec.ofNat 8 hi), (25, BitVec.ofNat 8 (hi / 256)),
                        (27, BitVec.ofNat 8 (hi / 2 ^ 24))] } } with
    doms := [(0, { domA [] (firingA 0 0) [] with active := some { bindA [] [] with pubs := [(4, { writer := writer, kind := false })] } })] }

theorem witness_publish_issue :
    let at16 (s : State) : Prop := ∃ x u, readClean s [2] = .ok x u ∧ (x.get 0).toNat = 16 ∧ 16 + 16 ≤ u.me.limC ∧ u = s
    at16 (sPub 4 3 5) ∧ (sPub 4 3 5).me.getP 1 = true ∧ Delivered (sPub 4 3 5) 0 .sp 16 16 ∧
    (∃ x u, readClean sB [1] = .ok x u ∧ (x.get 0).toNat % 8 ≠ 0) ∧
    (let d1 (s : State) : Word := BitVec.ofNat 64 (s.load 0 .sp 24 8)
     (d1 (sPub 4 0x80000000 5)).extractLsb' 18 14 ≠ 0 ∧ (d1 (sPub 4 3 5)).extractLsb' 18 14 = 0 ∧ (sPub 5 3 5).me'.pubBuf 5 = none ∧
     (∃ p f, (sPub 4 3 6).me'.pubBuf 4 = some p ∧ (sPub 4 3 6).myFiring = some f ∧ p.writer ≠ f.blk ∧ f.fb = false) ∧
     (∃ p f, (sPub 4 0x303 5).me'.pubBuf 4 = some p ∧ (sPub 4 0x303 5).myFiring = some f ∧ p.writer = f.blk ∧
       (d1 (sPub 4 0x303 5)).extractLsb' 8 2 = 3) ∧
     (d1 (sPub 4 0xFF 5)).extractLsb' 8 2 ≠ 3 ∧ fmtOf ((d1 (sPub 4 0xFF 5)).setWidth 8).toNat 0 = none ∧
     fmtOf ((d1 (sPub 4 3 5)).setWidth 8).toNat 0 ≠ none) := by
  refine ⟨⟨_, _, rfl, by decide, by decide, rfl⟩, rfl, ?_, ⟨_, _, rfl, by decide⟩, by decide, by decide, by decide,
    ⟨_, _, rfl, rfl, by decide, rfl⟩, ⟨_, _, rfl, rfl, rfl, by decide⟩, by decide, by decide, by decide⟩
  intro w h1 h2
  have : w = 2 ∨ w = 3 := by omega
  rcases this with rfl | rfl <;> decide

theorem witness_publish_swaps :
    let s := { sPub 4 3 5 with cells := [(0, { cellA with wait := .pub 4 9 3 0 })] }
    (s.cell 0).wait = .pub 4 9 3 0 ∧ ∃ p b, (s.dom (s.cell 0).dom).pubBuf 4 = some p ∧ (s.dom (s.cell 0).dom).active = some b :=
  ⟨rfl, _, _, rfl, rfl⟩

theorem witness_buffer_read :
    (∃ x u, readClean (sPub 4 3 5) [8] = .ok x u ∧ (x.get 0).toNat < 2 ^ 17 ∧ ∃ p, u.me'.pubBuf ((x.get 0).toNat % 2 ^ 16) = some p) ∧
    (6 : SReg).toNat % 2 = 0 ∧ 2 ≤ (6 : SReg).toNat ∧ (6 : SReg).toNat ≤ 26 ∧
    (∃ x u, readClean (sPub 4 3 5) [3] = .ok x u ∧ 2 ^ 17 ≤ (x.get 0).toNat) ∧
    (∃ x u, readClean (sPub 4 3 5) [1] = .ok x u ∧ u.me'.pubBuf ((x.get 0).toNat % 2 ^ 16) = none) :=
  ⟨⟨_, _, rfl, by decide, _, rfl⟩, by decide, by decide, by decide, ⟨_, _, rfl, by decide⟩, _, _, rfl, by decide⟩

theorem witness_atomic_ports :
    (∃ op f b x u v z n c, atomicForm (.amoAdd 1 30 2 0 0 false .sp 0 1) = some (op, f, b) ∧ (sPorts 0 [] 1).me.getP f.g = true ∧
      readClean (sPorts 0 [] 1) (f.a :: b :: if op = 6 then [f.d] else []) = .ok x u ∧
      target u f.a f.sp (f.address (x.get 0)) f.n = .ok (.mem .sp 16 16) v ∧ v.myFiring = some z ∧
      portChan v.me' z f.d.toNat = some (n, c) ∧ (z.pushes f.d.toNat).length < c.push) ∧
    (∃ s : State, s = withCell sB { cellA with pend := [atomX 0], sp := { bytes := [(16, 1)], err := [(3, 3)] } } ∧
      (s.cell 0).pend.find? (fun y => y.id == 7) = some (atomX 0) ∧ (s.ramOf 0 .sp).anyBad 24 4 = true) :=
  ⟨⟨_, _, _, _, _, _, _, _, _, rfl, rfl, rfl, rfl, rfl, rfl, by decide⟩, _, rfl, rfl, by decide⟩

/-! ### Witnesses: modes, debug, freeze -/

theorem witness_mode_and_translation :
    let s := sA [] (firingA 0 0) []
    s.me.getP 1 = true ∧ s.cur < 256 ∧
    (∃ x u b f, readClean s [0] = .ok x u ∧ u.me'.active = some b ∧ u.myFiring = some f ∧ f.dom = u.me.dom ∧ (x.get 0).toNat < 16 ∧
      (b.tables.any fun y => y.id == (x.get 0).toNat) = true) ∧
    (∃ x u b, readClean s [1] = .ok x u ∧ u.me'.active = some b ∧ (b.tables.any fun y => y.id == (x.get 0).toNat) = false) ∧
    (∃ x u, readClean s [2] = .ok x u ∧ 16 ≤ (x.get 0).toNat ∧ (x.get 0).toNat < 2 ^ 17) ∧
    (∃ x u, readClean s [3] = .ok x u ∧ 2 ^ 17 ≤ (x.get 0).toNat) ∧
    s.me.wait = .none :=
  ⟨rfl, by decide, ⟨_, _, _, _, rfl, rfl, rfl, rfl, by decide, by decide⟩, ⟨_, _, _, rfl, rfl, by decide⟩, ⟨_, _, rfl, by decide⟩,
    ⟨_, _, rfl, by decide⟩, rfl⟩

theorem witness_injection :
    (let s (w : Word) (b : Bool) : State := withCell sB { cellA with inject := w, injStarted := b }
     (s 0x8000000000000001 false).me.inject.getLsbD 63 = true ∧ (s 0x8000000000000001 false).me.injStarted = false ∧
       (s 0x8000000000000001 false).me.inject.toNat % 4 = 1 ∧ (s 0x8000000000000002 false).me.inject.toNat % 4 = 2 ∧
       ((s 0x8000000000000002 false).port (injectPort (dieOf 0) ((s 0x8000000000000002 false).me.inject.extractLsb' 8 24).toNat)).st ≠ 4 ∧
       (s 1 false).me.inject.getLsbD 63 = false ∧ (s 0x8000000000000001 true).me.injStarted = true ∧
       (s 0x8000000000000000 false).me.inject.toNat % 4 = 0 ∧
       (({ s 0x8000000000000002 false with hub := { ports := [(0, { st := 4 })] } } : State).port
         (injectPort (dieOf 0) ((s 0x8000000000000002 false).me.inject.extractLsb' 8 24).toNat)).st = 4) := by
  refine ⟨?_, rfl, ?_, ?_, ?_, ?_, rfl, ?_, ?_⟩ <;> decide

theorem witness_debug_halts :
    (sB.cell 0).run = .running ∧ stopsNow sB 0 = false ∧ (sB.cell 0).seqr = [] ∧ 8 ≤ (sB.cell 0).dom ∧
    ((sA [] (firingA 0 0) []).cell 0).dom < 8 ∧ ({ dbgenNow := 0x100 } : Hub).dbgenNow.getLsbD (8 + 0) = true ∧
    (sB.cell 1).run ≠ .running ∧
    (∃ s : State, s = { cur := 16, cells := [(16, { cellA with dom := 8 }), (0, { cellA with dom := 0, run := .held })] } ∧
      s.me.getP 1 = true ∧ s.me.dom = 8 ∧ s.selected (dieOf s.cur) ≠ s.cur ∧ (s.cell (s.selected (dieOf s.cur))).seqr = [] ∧
      s.cur < 256 ∧ (s.cell (s.selected (dieOf s.cur))).run = .held ∧ stopsNow s (s.selected (dieOf s.cur)) = false) := by
  refine ⟨rfl, ?_, rfl, ?_, ?_, ?_, ?_, _, rfl, ?_⟩ <;> decide

theorem witness_frozen_time :
    (∃ s : State, s = { doms := [(0, { frozen := some 100, heldEvents := [(120, .fallbackRelease 0 1)] })], now := 300 } ∧
      (s.dom 0).frozen = some 100 ∧ ∃ e, e ∈ (s.dom 0).heldEvents) ∧
    (∃ s : State, s = { agenda := [⟨9, 0, .fallbackRelease 0 1⟩, ⟨9, 0, .tick⟩] } ∧ (s.dom 0).frozen = none ∧
      (∃ x ∈ s.agenda, phaseDom s x.ev = some 0) ∧ ∃ x ∈ s.agenda, phaseDom s x.ev ≠ some 0) :=
  ⟨⟨_, rfl, rfl, _, .head _⟩, _, rfl, rfl, ⟨_, .head _, rfl⟩, ⟨9, 0, .tick⟩, by decide, by decide⟩

/-! ### Witnesses: numbers and vectors -/

theorem witness_round_exact :
    ∀ f ∈ floatFormats, 1 < 2 ^ codeWidth f ∧ ∃ neg m e, decodeElem f 1 = .fin neg m e false := by
  intro f h
  simp [floatFormats] at h
  rcases h with rfl | rfl | rfl | rfl | rfl | rfl | rfl | rfl <;> exact ⟨by decide, _, _, _, rfl⟩

/-- 3/4 of the smallest E2M1 step: RNE takes 1/2 of it up to 1 of it. -/
theorem witness_round_nearest :
    ∃ c fl n1 n2 m1 m2 e1 e2, .e2m1 ∈ floatFormats ∧ round (.fin false 3 (-3) false) .e2m1 .rne 0 = (c, fl) ∧ fl &&& flagOVERFLOW = 0 ∧
      decodeElem .e2m1 c = .fin n1 m1 e1 false ∧ decodeElem .e2m1 2 = .fin n2 m2 e2 false ∧ (-9 : Int) ≤ -3 ∧ -9 ≤ e1 ∧ -9 ≤ e2 :=
  ⟨_, _, _, _, _, _, _, _, by decide, rfl, by decide, rfl, rfl, by decide, by decide, by decide⟩

theorem witness_integer_lanes : Fmt.isInt .i8 = true ∧ Fmt.realCompute .i8 = true ∧ 0x80 < 2 ^ Fmt.width .i8 ∧ Fmt.isInt .n8 = true := by
  decide

/-- Element 0 alone let in by m1; v3 real-dimensional, v4 poisoned metadata tag 1, v5 tag 3; v6 and v7 hold numbers. -/
def cellV : Cell :=
  { cellA with dom := 8, firing := 0, mask := [(1, 1)], vreg := [(6, 0x807F01), (7, 0x0302)],
               vmeta := [(4, { tag := 1 }), (5, { tag := 3 })], regErr := [] }

def sV : State := withCell sB cellV

theorem witness_vector_elementwise :
    ∃ f k v x, vectorForm (.vadd 5 1 3 6 7 1) = some f ∧ isElementwise f.op = true ∧ VOp.accepts f.op f.fmt = true ∧ sV.me.getP f.g = true ∧
      VectorReady sV v f k x := ⟨_, _, _, _, rfl, rfl, rfl, rfl, _, rfl, rfl, rfl⟩

theorem witness_vector_moves :
    ∃ f k v x, vectorForm (.vrot 0 1 3 6 2 1) = some f ∧ f.op = .vrot ∧ VOp.accepts f.op f.fmt = true ∧ sV.me.getP f.g = true ∧
      VectorReady sV v f k x := ⟨_, _, _, _, rfl, rfl, rfl, rfl, _, rfl, rfl, rfl⟩

theorem witness_vector_compares :
    ∃ f k v x, vectorForm (.vclt 5 1 2 6 7 1) = some f ∧ VOp.isCompare f.op = true ∧ f.vd.toNat < 8 ∧ VOp.accepts f.op f.fmt = true ∧
      sV.me.getP f.g = true ∧ VectorReady sV v f k x := ⟨_, _, _, _, rfl, rfl, by decide, rfl, rfl, _, rfl, rfl, rfl⟩

theorem witness_vector_extract :
    (∃ f k v x, vectorForm (.vext 5 1 5 6 1 0) = some f ∧ f.op = .vext ∧ VOp.accepts f.op f.fmt = true ∧ sV.me.getP f.g = true ∧
      VectorReady sV v f k x ∧ f.vd.toNat < 28) ∧
    (∃ f k v x, vectorForm (.vext 5 1 30 6 1 0) = some f ∧ VectorReady sV v f k x ∧ 28 ≤ f.vd.toNat) :=
  ⟨⟨_, _, _, _, rfl, rfl, rfl, rfl, ⟨_, rfl, rfl, rfl⟩, by decide⟩, _, _, _, _, rfl, ⟨_, rfl, rfl, rfl⟩, by decide⟩

theorem witness_vector_folds :
    (∃ f k v x, vectorForm (.vrsum 2 1 3 6 0) = some f ∧ f.op = .vrsum ∧ VOp.accepts f.op f.fmt = true ∧ sV.me.getP f.g = true ∧
      VectorReady sV v f k x ∧ Fmt.isInt f.fmt = true) ∧
    (∃ f k v x, vectorForm (.vscanx 0 1 3 6 1) = some f ∧ f.op = .vscanx ∧ VOp.accepts f.op f.fmt = true ∧
      VectorReady sV v f k x ∧ Fmt.isInt f.fmt = false ∧ v.me.masks f.m (Fmt.count f.fmt) 0 = true ∧
      v.me.masks f.m (Fmt.count f.fmt) 1 = false) :=
  ⟨⟨_, _, _, _, rfl, rfl, rfl, rfl, ⟨_, rfl, rfl, rfl⟩, rfl⟩, _, _, _, _, rfl, rfl, rfl, ⟨_, rfl, rfl, rfl⟩, rfl, by decide⟩

theorem witness_vector_metadata :
    (∃ f k u v, vectorForm (.vadd 5 1 3 6 5 0) = some f ∧ sV.me.getP f.g = true ∧ readClean sV (vScalars f.op f.va f.vb) = .ok k u ∧
      meetRegs u (vKeys (vSources f.op f.vd f.va f.vb) (if f.op = .vext then 0 else f.m)) = .ok () v ∧ (v.me.metaOf f.vb).tag = 3) ∧
    (∃ f k u v, vectorForm (.vmul 5 1 3 6 4 0) = some f ∧ readClean sV (vScalars f.op f.va f.vb) = .ok k u ∧
      meetRegs u (vKeys (vSources f.op f.vd f.va f.vb) (if f.op = .vext then 0 else f.m)) = .ok () v ∧ (v.me.metaOf f.vb).tag ≠ 0) :=
  ⟨⟨_, _, _, _, rfl, rfl, rfl, rfl, by decide⟩, _, _, _, _, rfl, rfl, rfl, by decide⟩

theorem witness_vector_conversions :
    (∃ i v x, i = Instr.vcvt 1 3 6 0 0 .fp32 .rne .i8 ∧ i.wf = true ∧ sV.me.getP 1 = true ∧
      checkC (encode i) [.fp32, .i8] 3 [6] 6 0 sV = .ok x v ∧ Fmt.isComplex .fp32 = false) ∧
    (∃ i v x, i = Instr.vdequant 1 3 6 0 .fp32 .rne .mxfp8 ∧ i.wf = true ∧ checkC (encode i) [] 3 [6, 6 + 1] 6 0 sV = .ok x v) ∧
    (∃ i v x, i = Instr.vquant 1 8 6 0 .mxfp8 .rne .fp32 ∧ i.wf = true ∧ checkC (encode i) [] 8 [6] 6 0 sV = .ok x v) ∧
    (∃ i u, i = Instr.vamax 1 3 6 1 .bf16 .rne ∧ i.wf = true ∧ meetRegs sV (vKeys [6, 3] 1) = .ok () u ∧ (u.me.metaOf 6).tag = 0 ∧
      (u.me.metaOf 3).tag ≠ 3 ∧ (u.me.metaOf 6).eoff = (u.me.metaOf 3).eoff) :=
  ⟨⟨_, _, _, rfl, by decide, rfl, rfl, rfl⟩, ⟨_, _, _, rfl, by decide, rfl⟩, ⟨_, _, _, rfl, by decide, rfl⟩,
    _, _, rfl, by decide, rfl, by decide, by decide, by decide⟩

theorem element_zero_alone (f : VectorAccess) (v : State) (h1 : f.m = 1) (h2 : Fmt.count f.fmt = 128) (h3 : v.me.mask = [(1, 1)]) (j : Nat)
    (h : f.letIn v j = true) : j = 0 := by
  rw [VectorAccess.letIn, h1, h2, Cell.masks, h3, Bool.and_eq_true, decide_eq_true_eq] at h
  exact (by decide : ∀ q < 128, ((1 : MReg) = 0 || (SMap.get 0 [(1, (1 : BitVec 256))] (1 : MReg).toNat).getLsbD (if 128 = 512 then q / 2 else q))
    = true → q = 0) j h.1 h.2

theorem delivered_clean (s : State) (strm : Nat) (z : Space) (b n : Nat) (h1 : (s.seen strm z).err = [])
    (h2 : (s.seen strm z).poison = []) : Delivered s strm z b n := by
  intro w _ _
  constructor
  · rw [Ram.bad, h1, h2]; exact (by decide : (false || decide (2 ≤ popcount 64 (0 : Word).toNat)) = false)
  · rw [h1]; rfl

/-- Element j at address 24 + 4 j, for a load and for a store. -/
def accV (store : Bool) : VectorAccess := ⟨1, store, 6, 2, some 8, none, 0, 1, .bf16, ⟨false, .sp, 0⟩, 1⟩

theorem witness_vector_load :
    vectorAccess (.vlds 1 6 2 8 0 1 .bf16 ⟨false, .sp, 0⟩ 1) = some (accV false) ∧
      Instr.wf (.vlds 1 6 2 8 0 1 .bf16 ⟨false, .sp, 0⟩ 1) = true ∧ sV.me.getP 1 = true ∧
      ∃ k v, (accV false).ready sV v k ∧ (accV false).passes v k ∧ (accV false).letIn v 0 = true ∧ (accV false).inside v k 0 = true := by
  refine ⟨rfl, by decide, rfl, _, _, ⟨_, rfl, rfl, rfl, ?_⟩, ⟨fun h => ?_, fun j h => ?_⟩, ?_, ?_⟩
  · decide
  · cases h
  · cases element_zero_alone _ _ rfl rfl rfl j h
    refine ⟨fun _ => ?_, fun h => ?_, fun _ _ _ => delivered_clean _ _ _ _ _ ?_ ?_⟩
    · decide
    · cases h
    · decide
    · decide
  · decide
  · decide

theorem witness_vector_store :
    vectorAccess (.vsts 1 6 2 8 0 1 .bf16 ⟨false, .sp, 0⟩ 1) = some (accV true) ∧
      Instr.wf (.vsts 1 6 2 8 0 1 .bf16 ⟨false, .sp, 0⟩ 1) = true ∧
      ∃ k v, (accV true).ready sV v k ∧ (accV true).passes v k ∧ (accV true).letIn v 0 = true ∧ (accV true).inside v k 0 = true := by
  refine ⟨rfl, by decide, _, _, ⟨_, rfl, rfl, rfl, ?_⟩, ⟨fun h => ?_, fun j h => ?_⟩, ?_, ?_⟩
  · decide
  · cases h
  · cases element_zero_alone _ _ rfl rfl rfl j h
    refine ⟨fun _ => ?_, fun h => ?_, fun _ _ _ => delivered_clean _ _ _ _ _ ?_ ?_⟩
    · decide
    · cases h
    · decide
    · decide
  · decide
  · decide

theorem witness_vector_access_traps :
    (∃ f k u v, vectorAccess (.vld 1 6 2 0 0 .ffa ⟨false, .sp, 0⟩ 0) = some f ∧ readClean sV (f.a :: f.step.toList) = .ok k u ∧
      meetRegs u (vKeys ((if f.store then [f.vd] else []) ++ f.index.toList) f.m) = .ok () v ∧ ffHolds v.me.ffWords f.fmt = false) ∧
    (∃ f k u v, vectorAccess (.vld 1 5 2 0 0 .fp32 ⟨false, .sp, 0⟩ 0) = some f ∧ readClean sV (f.a :: f.step.toList) = .ok k u ∧
      meetRegs u (vKeys ((if f.store then [f.vd] else []) ++ f.index.toList) f.m) = .ok () v ∧ (v.me.metaOf f.vd).tag = 3) ∧
    (∃ f k u v, vectorAccess (.vld 1 6 1 0 0 .fp32 ⟨false, .sp, 0⟩ 0) = some f ∧ readClean sV (f.a :: f.step.toList) = .ok k u ∧
      meetRegs u (vKeys ((if f.store then [f.vd] else []) ++ f.index.toList) f.m) = .ok () v ∧ (f.base k).toNat % 8 ≠ 0) ∧
    (∃ f k u v, vectorAccess (.vlds 1 6 1 8 0 1 .fp32 ⟨false, .sp, 0⟩ 0) = some f ∧ readClean sV (f.a :: f.step.toList) = .ok k u ∧
      meetRegs u (vKeys ((if f.store then [f.vd] else []) ++ f.index.toList) f.m) = .ok () v ∧ f.letIn v 0 = true ∧
      f.address v.me k 0 % (Fmt.width f.fmt / 8) ≠ 0) ∧
    (∃ f k u v, vectorAccess (.vld 1 6 3 0 1 .fp32 ⟨false, .cb, 0⟩ 0) = some f ∧ readClean sV (f.a :: f.step.toList) = .ok k u ∧
      meetRegs u (vKeys ((if f.store then [f.vd] else []) ++ f.index.toList) f.m) = .ok () v ∧ f.letIn v 0 = true ∧
      f.inside v k 0 = false ∧ (f.base k).toNat % 8 = 0) :=
  ⟨⟨_, _, _, _, rfl, rfl, rfl, by decide⟩, ⟨_, _, _, _, rfl, rfl, rfl, by decide⟩, ⟨_, _, _, _, rfl, rfl, rfl, by decide⟩,
    ⟨_, _, _, _, rfl, rfl, rfl, by decide, by decide⟩, _, _, _, _, rfl, rfl, rfl, by decide, by decide, by decide⟩

/-- A cell of domain 0 whose class of debug is on, with vector work until a cycle. -/
def sDbg (busy : Nat) (q : List SeqOp) : State :=
  { withCell (sA [] (firingA 0 0) []) { cellA with vecAt := busy, seqr := q } with hub := { up := true, dbgenNow := 0x101 } }

theorem witness_halts_and_flits :
    (∀ b ∈ [0, 300], ((sDbg b []).cell 0).run = .running ∧ stopsNow (sDbg b []) 0 = false ∧ ((sDbg b []).cell 0).dom < 8 ∧
      (sDbg b []).hub.dbgenNow.getLsbD ((sDbg b []).cell 0).dom = true ∧ (sDbg b []).hub.dbgenNow.getLsbD (8 + ((sDbg b []).cell 0).dom) = true) ∧
    ((sDbg 0 []).cell 0).vecAt ≤ (sDbg 0 []).now ∧ (sDbg 300 []).now < ((sDbg 300 []).cell 0).vecAt ∧
    (∃ s : State, s = { cells := [(65, { injStarted := true, inject := 0x8000000040000002 })], hub := { stage := 6 } } ∧ s.hub.stage = 6 ∧
      64 / 64 = 65 / 64 ∧ (s.cells.map fun y => y.1).Nodup ∧ (s.cell 65).injStarted = true ∧ (s.cell 65).inject.toNat % 4 = 2 ∧
      2 ≤ ((s.cell 65).inject.extractLsb' 29 3).toNat ∧ ∀ j, j ≠ 65 → (s.cell j).injStarted = false) ∧
    ∀ tl ix info, (sB.cell 0).wait ≠ .tag tl ix info := by
  refine ⟨by decide, by decide, by decide, ⟨_, rfl, rfl, rfl, by decide, rfl, by decide, by decide, fun j h => ?_⟩, fun _ _ _ h => nomatch h⟩
  have e : ¬65 = j := fun e => h e.symm
  by_cases hj : j < 256
  · simp [State.cell, hj, SMap.get, e]
  · simp [State.cell, hj, State.engine, SMap.get]

/-! ### Witnesses: the array and the transform unit -/

/-- s1 is an operand word of 64 rows at 0x100 with 64 along k, s2 one at 0x2000, s5 the same without a count, s9 an address, s11 a word
with a reserved bit; tiles 2 and 3 spectral, tile 4 of integers; v8 and v9 spectra, v10 packed ones. -/
def cellM : Cell :=
  { cellA with dom := 8, firing := 0, regErr := [], dfb := [],
               sreg := [(1, 0x3F004000100), (2, 0x04002000), (3, 0x04000104), (4, 0x00400100), (5, 0x04000100), (9, 0x3000),
                        (11, 0x8000000004000100)],
               tiles := [(2, { info := { tag := 1, bsz := 1 } }), (3, { info := { tag := 1, bsz := 1 } }), (4, { info := { ty := true } })],
               ctxs := [(0, { sda := 0x60005, sdb := 5 })],
               vmeta := [(8, { tag := 2, bsz := 1 }), (9, { tag := 2, bsz := 1 }), (10, { tag := 1, bsz := 1 })] }

def sM : State := withCell sB cellM

theorem witness_matrix_products :
    (∃ x, readWords sM [1, 2] false false false = .ok x sM ∧ Shaped (x.get 0) (x.get 1) .bf16 (opK (x.get 0)) (opK (x.get 0))) ∧
    (∃ x, readWords sM [1, 2] true false false = .ok x sM) ∧ (∀ fr, sM.myFiring = some fr → fr.logsz = 0) ∧
    TileFits sM.me .bf16 (0 : BitVec 3).toNat true ∧ TileFits sM.me .i8 (4 : BitVec 3).toNat false ∧
    (0 : BitVec 3).toNat < 6 ∧ (0 : BitVec 3).toNat % 2 = 0 ∧ sM.me.getP 1 = true :=
  ⟨⟨_, rfl, by unfold Shaped; decide⟩, ⟨_, rfl⟩, (fun _ h => nomatch (h : none = some _)), ⟨⟨nofun, nofun, nofun⟩, ⟨rfl, fun _ => rfl⟩, rfl, fun _ => rfl⟩,
    ⟨⟨nofun, nofun, nofun⟩, ⟨rfl, nofun⟩, rfl, nofun⟩, by decide, by decide, rfl⟩

theorem witness_matrix_long_products :
    (∃ x, readWords sM [1, 2] false true false = .ok x sM ∧ Shaped (x.get 0) (x.get 1) .bf16 (opK (x.get 0)) (opK (x.get 0))) ∧
    (∃ v, meetRegs sM [64 + 6] = .ok () v) ∧
    (∃ x, readWords sM [1, 2, 9] false true false = .ok x sM ∧ (x.get 2).toNat % 8 = 0 ∧ opK (x.get 0) % patM .p24 = 0 ∧
      Shaped (x.get 0) (x.get 1) .bf16 (opK (x.get 0) * patN .p24 / patM .p24) (opK (x.get 0))) ∧
    (∃ x, readWords sM [1, 2] false true true = .ok x sM) ∧ ComplexFits sM.me (2 : BitVec 3).toNat .b8 :=
  ⟨⟨_, rfl, by unfold Shaped; decide⟩, ⟨_, rfl⟩, ⟨_, rfl, by decide, by decide, by unfold Shaped; decide⟩, ⟨_, rfl⟩,
    by decide, by decide, by decide, by decide, by decide, by rintro _ (rfl | rfl) <;> decide⟩

/-- The same cell in domain 0, which has a granule of the share. -/
def sMa : State := withCell (sA [] (firingA 0 0) []) { cellM with dom := 0, firing := 9 }

theorem witness_matrix_moves :
    (∃ x, readWord sM [5] false = .ok x sM) ∧ (sM.me.accInfo 0).ty = false ∧ (sM.me.accInfo 4).ty = true ∧
    (∃ x, readWord sM [5] true = .ok x sM) ∧ DrainFits sM.me (0 : BitVec 3).toNat 0 .bf16 ∧
    (∃ x sp m place v, readWord sMa [5, 9] true = .ok x sMa ∧ DrainFits sMa.me (0 : BitVec 3).toNat 9 .bf16 ∧
      target sMa 9 .cb (x.get 1) 4 = .ok (.mem sp m place) v ∧ (v.ramOf v.cur .cb).err = [] ∧ (v.ramOf v.cur .cb).poison = []) ∧
    (∃ x k w v, readWord sM [5, 3] true = .ok x sM ∧ target sM 3 .cb (x.get 1) 4 = .trap k w v) := by
  refine ⟨⟨_, rfl⟩, rfl, rfl, ⟨_, rfl⟩, ⟨⟨nofun, nofun, nofun⟩, fun _ => ⟨rfl, Or.inl rfl⟩, fun h => absurd rfl h⟩, ?_, ?_⟩
  · refine ⟨_, _, _, _, _, rfl, ?_, rfl, ?_, ?_⟩
    · exact ⟨⟨nofun, nofun, nofun⟩, fun _ => ⟨rfl, Or.inr rfl⟩, fun h => absurd rfl h⟩
    · rfl
    · rfl
  · exact ⟨_, _, _, _, rfl, rfl⟩

theorem witness_matrix_checks :
    (∃ x, readClean sM [11] = .ok x sM ∧ (x.get 0).extractLsb' 60 4 ≠ 0) ∧
    (∃ x, readClean sM [3] = .ok x sM ∧ (x.get 0).extractLsb' 60 4 = 0 ∧ (x.get 0).extractLsb' 36 12 = 0 ∧ (x.get 0).getLsbD 57 = false ∧
      (x.get 0).extractLsb' 58 2 = 0 ∧ (x.get 0).extractLsb' 48 8 = 0 ∧ opAddr (x.get 0) % 8 ≠ 0) ∧
    (∃ x, readClean sM [4] = .ok x sM ∧ (x.get 0).extractLsb' 60 4 = 0 ∧ (x.get 0).extractLsb' 36 12 = 0 ∧ opAddr (x.get 0) % 8 = 0 ∧
      opStride (x.get 0) % 8 ≠ 0) ∧
    (∃ x, readClean sM [5] = .ok x sM ∧ opAddr (x.get 0) % 8 = 0 ∧ opStride (x.get 0) % 8 = 0 ∧ (sM.me.accInfo 4).ty ≠ false) := by
  refine ⟨⟨_, rfl, ?_⟩, ⟨_, rfl, ?_⟩, ⟨_, rfl, ?_⟩, _, rfl, ?_⟩ <;> decide

/-- The checks of a product, of complex ones and of a drain fail; a tagged tile takes no real product and drains to no real format. -/
theorem witness_matrix_checks_fail :
    (∃ x, readWords sM [1, 2] false false false = .ok x sM ∧ Shaped (x.get 0) (x.get 1) .bf16 (opK (x.get 0)) (opK (x.get 0)) ∧
      ¬ TileTyped sM.me .bf16 4 false ∧ TileTyped sM.me .bf16 2 false ∧ ¬ TileUntagged sM.me 2 false) ∧
    ¬ FormatHeld sM.me .ffa ∧ ¬ ComplexFits sM.me 0 .b8 ∧ ¬ ComplexFits sM.me 4 .b8 ∧ ¬ DrainFits sM.me 0 0 .cbf16 ∧
    ¬ DrainFits sM.me 2 0 .bf16 ∧ FormatHeld sM.me .bf16 ∧ (sM.me.accInfo 0).tag = 0 ∧ (sM.me.accInfo 2).tag ≠ 0 := by
  refine ⟨⟨_, rfl, by unfold Shaped; decide, by unfold TileTyped; decide, by unfold TileTyped; decide, by unfold TileUntagged; decide⟩,
    fun h => ?_, fun h => ?_, fun h => ?_, fun h => ?_, fun h => ?_, ⟨nofun, nofun, nofun⟩, rfl, by decide⟩
  · have : ¬ LegalFormat ((0 : BitVec 6).zeroExtend 64) := by unfold LegalFormat; decide
    exact this (h.1 rfl)
  · exact absurd (h.2.2.2.2.2 0 (Or.inl rfl)).2.1 (by decide)
  · exact absurd (h.2.2.2.2.2 4 (Or.inl rfl)).1 (by decide)
  · exact absurd (h.2.1 rfl).1 (by decide)
  · exact absurd (h.2.2 (by decide)).1 (by decide)

/-- A cell whose sequencer holds one instruction. -/
def sSeq (x : SeqOp) : State := withCell sB { cellA with seqr := [x] }

theorem clean_cell (x : SeqOp) : CleanMemory ((sSeq x).cell 0) := ⟨rfl, rfl, rfl, rfl, fun _ => rfl⟩

def seqZero : SeqOp := { op := .zero, acc := 1, ctx := {}, pc := 0, issued := 0, n := 4 }
def seqLoad : SeqOp := { seqZero with op := .load 0x10000100, n := 64, step := 3, done := 48 }
def seqMul : SeqOp :=
  { seqZero with op := .mma false 0x3F004000100 0x04002000 .i8, k := 64, full := 16, n := 16, ws := 4100, ramp := 4 }

theorem witness_tile_steps :
    ((sSeq seqZero).cell 0).run ≠ .idle ∧ ((sSeq seqZero).cell 0).inject.getLsbD 63 = false ∧ CleanMemory ((sSeq seqZero).cell 0) ∧
    seqZero.rows = [] ∧ seqZero.split = false ∧ seqZero.n = 4 ∧ seqZero.step = 0 ∧ seqLoad.op = .load 0x10000100 ∧ seqLoad.n = 64 ∧
    seqLoad.step < 4 ∧ seqLoad.done = 16 * seqLoad.step ∧ PlainWord ((sSeq seqLoad).cell 0) 0x10000100 64 256 :=
  ⟨by decide, rfl, clean_cell _, rfl, rfl, rfl, rfl, rfl, rfl, by decide, rfl, by unfold PlainWord; decide⟩

theorem witness_integer_product :
    CleanMemory ((sSeq seqMul).cell 0) ∧ seqMul.op = .mma false 0x3F004000100 0x04002000 .i8 ∧ seqMul.aCell = 0 ∧ seqMul.bCell = 0 ∧
    seqMul.k = opK 0x3F004000100 ∧ seqMul.k ≤ 64 ∧ seqMul.oor = none ∧
    kAfter (seqMul.ws - seqMul.ramp) seqMul.full seqMul.k (min 16 seqMul.n) = seqMul.k ∧
    PlainWord ((sSeq seqMul).cell 0) 0x3F004000100 64 64 ∧ PlainWord ((sSeq seqMul).cell 0) 0x04002000 seqMul.k 64 :=
  ⟨clean_cell _, rfl, rfl, rfl, by decide, by decide, rfl, by decide, by unfold PlainWord; decide, by unfold PlainWord; decide⟩

theorem witness_tile_stored :
    ∃ m : SeqOp, m = { seqZero with op := .save 0x10000100, n := 64, step := 3, done := 48, rows := ((List.range 48).map fun i =>
        (List.range 64).flatMap fun j => (List.range 4).map fun b => (opAddr 0x10000100 + i * opStride 0x10000100 + 4 * j + b,
          ((cellA.acc 1 i j) >>> (8 * b)).setWidth 8, (0xFF : Byte))).flatten } ∧
      CleanMemory ((sSeq m).cell 0) ∧ m.split = false ∧ PlainWord ((sSeq m).cell 0) 0x10000100 64 256 ∧ 256 ≤ opStride 0x10000100 :=
  ⟨_, rfl, clean_cell _, rfl, by unfold PlainWord; exact ⟨rfl, rfl, rfl, by decide⟩, by decide⟩

/-- Nothing is read yet of the chunk that opens. -/
theorem open_lines_start (m : SeqOp) (d : m.read = m.done) (k : m.read < m.k) (l : m.k ≤ 4096) (p : m.part0 = {})
    (f : ∃ f ck, realFormat m.op = some (f, ck)) : OpenLines m := by
  obtain ⟨f, ck, h⟩ := f
  refine ⟨d ▸ Nat.le_refl _, fun _ => ?_, Nat.le_of_lt k, l, fun e => absurd e (Nat.ne_of_lt k), fun _ => p, fun e => absurd d e⟩
  rw [h, d]
  simp only
  split <;> omega

def seqSparse : SeqOp := { seqMul with op := .sparse 0x3F004000100 0x04002000 0x3000 .bf16 .p24, k := 32, full := 64, n := 64 }
def seqGather : SeqOp := { seqMul with op := .gather 0x3F004000100 0x04002000 .fp16 (List.replicate 64 3), k := 64, full := 128, n := 144 }
def seqPair : SeqOp := { seqMul with op := .complex 0x3F004000100 0x04002000 .b8, full := 512, n := 512 }
def seqDrain (f : Fmt) (n : Nat) (am : Option (Nat × Nat)) : SeqOp := { seqZero with op := .drain 0x10000100 am f, n := n }

theorem witness_product_steps :
    (∀ f ck, OpenLines { seqMul with op := .mma ck 0x3F004000100 0x04002000 f }) ∧ OpenLines seqSparse ∧ OpenLines seqGather ∧
    (∀ m ∈ [seqMul, seqSparse, seqGather, seqPair], m.split = false ∧ m.apart = false ∧ m.acc < 5 ∧ SMap.risesFrom 0 m.part = true) ∧
    opK 0x3F004000100 % 4 = 0 ∧ seqSparse.k = opK 0x3F004000100 * 2 / 4 ∧ (List.replicate 64 3).length = 64 ∧
    seqPair.read < seqPair.done + 8 ∧ seqPair.read = seqPair.done ∧ seqPair.part0 = {} ∧ seqPair.read ≤ seqPair.k ∧ seqPair.k ≤ 4096 :=
  ⟨fun f ck => open_lines_start _ rfl (by show (0 : Nat) < 64; decide) (by show 64 ≤ 4096; decide) rfl ⟨f, ck, rfl⟩,
    open_lines_start _ rfl (by decide) (by decide) rfl ⟨_, _, rfl⟩, open_lines_start _ rfl (by decide) (by decide) rfl ⟨_, _, rfl⟩,
    by decide, by decide, by decide, by decide, by decide, rfl, rfl, by decide, by decide⟩

/-- A chunk of two values of k is open: one value has been read of it. -/
theorem witness_open_chunk :
    ∃ m : SeqOp, m = { seqMul with k := 2, read := 1, part0 := { a := List.replicate 64 [.fin false 1 0 false], b := List.replicate 64 [.nan] } } ∧
      OpenLines m ∧ m.read ≠ m.done := by
  refine ⟨_, rfl, ⟨by decide, fun _ => by decide, by decide, by decide, by decide, by decide, fun _ => ?_⟩, by decide⟩
  refine ⟨by decide, rfl, by decide, fun l h => ?_⟩
  rcases List.mem_append.1 h with h | h <;> rw [List.eq_of_mem_replicate h] <;> rfl

theorem witness_drain_steps :
    (∀ x ∈ [(Fmt.bf16, 1, none), (Fmt.cbf16, 2, none), (Fmt.fp32, 1, some (0x40, 0x40))],
      let m := seqDrain x.1 (64 * x.2.1) x.2.2
      m.rows = [] ∧ m.split = false ∧ m.acc < 6 ∧ m.op = .drain 0x10000100 x.2.2 x.1 ∧
        x.2.1 = (if Fmt.isComplex x.1 then 2 else 1) ∧ m.n = 64 * x.2.1 ∧ m.step < 4 * x.2.1 ∧ m.done = 16 / x.2.1 * m.step) := by decide

/-- Two members of a K split have done their work. -/
def seqHalf (apart : Bool) : SeqOp :=
  { seqZero with op := .coop 0x23F004000100 0x04002000 .bf16, k := 64, read := 64, done := 64, n := 400, step := 24, ws := 3000, split := true,
                 apart := apart }
def sHalves : State :=
  { sA [] (firingA 0 1) [] with cells := [(0, { cellA with regErr := [], seqr := [seqHalf false] }), (1, { cellA with regErr := [], seqr := [seqHalf true] })] }

theorem witness_split_joined :
    (∀ a, (seqHalf a).split = true ∧ (seqHalf a).done = (seqHalf a).k ∧ (seqHalf a).read = (seqHalf a).k ∧
      (seqHalf a).n ≤ 16 * ((seqHalf a).step + 1) ∧ (seqHalf a).rows = [] ∧ (seqHalf a).ws ≠ 0 ∧ (seqHalf a).acc < 6 ∧
      (seqHalf a).joined = false ∧ SMap.risesFrom 0 (seqHalf a).part = true) ∧
    (sHalves.dom (sHalves.cell 0).dom).firing (sHalves.cell 0).firing = some (firingA 0 1) ∧ 0 ∈ (firingA 0 1).cells ∧
    (firingA 0 1).cells.Nodup ∧ (sHalves.cell 0).run ≠ .idle ∧ (sHalves.cell 0).seqr = [seqHalf false] ∧ (sHalves.cell 1).seqr = [seqHalf true] :=
  ⟨by decide, rfl, by decide, by decide, by decide, rfl, rfl⟩

/-- Cells 0 and 1 of domain 0 run a set's firing, cell 1 waits at its first rendezvous. -/
def coOp : SeqOp := { seqZero with op := .coop 0x3F004000100 0x04002000 .bf16, n := 0, ramp := 4 }
def sCo (l : List SeqOp) : State :=
  { sA [] (firingA 0 1) [] with
    cells := [(0, { cellA with regErr := [], sreg := [(1, 0x3F004000100), (2, 0x04002000)], seqr := l }), (1, { cellA with seqr := [coOp] })] }

theorem witness_cooperation :
    (∃ fr x, (sCo []).myFiring = some fr ∧ 0 < fr.logsz ∧ readWords (sCo []) [1, 2] true false false = .ok x (sCo []) ∧
      Shaped (x.get 0) (x.get 1) .bf16 (opK (x.get 0)) (opK (x.get 0)) ∧ TileFits (sCo []).me .bf16 0 false ∧
      (∀ i, i < 2 ^ fr.logsz → fr.base + i ≠ (sCo []).cur → coOp ∈ ((sCo []).cell (fr.base + i)).seqr) ∧
      coOp.ordinal = (sCo []).me.coNo ∧ coOp.ws = 0 ∧ coOp.op = .coop 0x3F004000100 0x04002000 .bf16) ∧
    (∃ f, ((sCo [coOp]).dom 0).firing 9 = some f ∧ f.ended = false ∧
      ∀ i, i < 2 ^ f.logsz → coWaits (sCo [coOp]) (f.base + i) 0 = some coOp ∧
        ∀ x ∈ ((sCo [coOp]).cell (f.base + i)).seqr, x.ws = 0 → x.ordinal = 0 → x = coOp) := by
  refine ⟨⟨firingA 0 1, _, rfl, by decide, rfl, ?_, ?_, ?_, rfl, rfl, rfl⟩, firingA 0 1, rfl, rfl, ?_⟩
  · unfold Shaped; decide
  · exact ⟨⟨nofun, nofun, nofun⟩, ⟨rfl, nofun⟩, rfl, nofun⟩
  · intro i h n
    have : i = 1 := by
      have h : i < 2 := h
      have : 0 + i ≠ 0 := n
      omega
    subst this; exact List.mem_singleton.2 rfl
  · intro i h
    have : i = 0 ∨ i = 1 := by
      have h : i < 2 := h
      omega
    rcases this with rfl | rfl <;> refine ⟨rfl, fun x hx _ _ => ?_⟩ <;> simpa using (show x ∈ [coOp] from hx)

/-- Cell 0 of a set names a port, or another format than the partner that waits. -/
theorem witness_cooperation_refused :
    (29 : SReg).toNat ≥ 28 ∧ ∃ fr, (sCo []).myFiring = some fr ∧ 1 ∈ fr.cells ∧ coOp ∈ ((sCo []).cell 1).seqr ∧
      (∀ p q, coOp.op ≠ .coop p q .i8) := by
  refine ⟨by decide, _, rfl, by decide, List.mem_singleton.2 rfl, ?_⟩
  intro p q h; injection h with _ _ h; exact nomatch h

theorem witness_transform_moves :
    (∃ v, Instr.wf (.xfmPack 1 .b8 4 8) = true ∧ meetRegs sM ((List.range 2).map fun q => 64 + ((8 : VReg) + BitVec.ofNat 5 q).toNat) = .ok () v ∧
      (∀ q, q < 2 → v.me.metaOf ((8 : VReg) + BitVec.ofNat 5 q) = v.me.metaOf 8) ∧ (v.me.metaOf 8).tag = 2 ∧
      (v.me.metaOf 8).bsz.toNat = Bsz.code .b8) ∧
    (∃ v, Instr.wf (.xfmUnpack 1 .b8 4 10) = true ∧ meetRegs sM ((List.range 1).map fun q => 64 + ((10 : VReg) + BitVec.ofNat 5 q).toNat) = .ok () v ∧
      (v.me.metaOf 10).tag = 1 ∧ (v.me.metaOf 10).bsz.toNat = Bsz.code .b8) ∧
    (∃ v, meetRegs sM ((List.range 1).map fun q => 64 + ((3 : VReg) + BitVec.ofNat 5 q).toNat) = .ok () v ∧ (v.me.metaOf 3).tag ≠ 1) :=
  ⟨⟨_, by decide, rfl, by decide, by decide, by decide⟩, ⟨_, by decide, rfl, by decide, by decide⟩, _, rfl, by decide⟩

theorem witness_transforms :
    (∃ v, Instr.wf (.xfmFwd 1 .b8 4 3) = true ∧ meetRegs sM ((List.range 1).map fun q => 64 + ((3 : VReg) + BitVec.ofNat 5 q).toNat) = .ok () v ∧
      (v.me.metaOf 3).tag = 0 ∧ (v.me.metaOf 3).eoff.toInt = 0) ∧
    (∃ v, Instr.wf (.xfmInv 1 .b8 4 10) = true ∧ meetRegs sM ((List.range 1).map fun q => 64 + ((10 : VReg) + BitVec.ofNat 5 q).toNat) = .ok () v ∧
      (v.me.metaOf 10).tag = 1 ∧ (v.me.metaOf 10).bsz.toNat = Bsz.code .b8) ∧ 0 * Bsz.size .b8 < 64 * Bsz.group .b8 :=
  ⟨⟨_, by decide, rfl, by decide, by decide⟩, ⟨_, by decide, rfl, by decide, by decide⟩, by decide⟩

theorem witness_metadata_written :
    let s (w : Word) : State := withCell sM { cellM with sreg := [(1, w)] }
    (∃ x, readClean (s 0x80) [1] = .ok x (s 0x80) ∧ 4 ≤ ((x.get 0).extractLsb' 5 3).toNat) ∧
    (∃ x, readClean (s 0x301) [1] = .ok x (s 0x301) ∧ (x.get 0).extractLsb' 16 48 = 0 ∧ ((x.get 0).extractLsb' 5 3).toNat = 0) ∧
    (∃ x, readClean (s 0x322) [1] = .ok x (s 0x322) ∧ ((x.get 0).extractLsb' 5 3).toNat = 1 ∧ ((x.get 0).setWidth 5).toNat < 6 ∧
      ((s 0x322).me.accInfo ((x.get 0).setWidth 5).toNat).ty = false) ∧
    (∃ x, readClean (s 0x300340) [1] = .ok x (s 0x300340) ∧ (x.get 0).extractLsb' 24 40 = 0 ∧ ((x.get 0).setWidth 5).toNat = 0 ∧
      ((x.get 0).extractLsb' 5 3).toNat = 2 ∧ ((x.get 0).extractLsb' 16 8).toNat ∈ [0x30, 0x31, 0x32]) ∧
    (∃ x, readClean (s 0x360) [1] = .ok x (s 0x360) ∧ (x.get 0).extractLsb' 16 48 = 0 ∧ ((x.get 0).setWidth 5).toNat = 0 ∧
      ((x.get 0).extractLsb' 5 3).toNat = 3) := by
  refine ⟨⟨_, rfl, ?_⟩, ⟨_, rfl, ?_⟩, ⟨_, rfl, ?_⟩, ⟨_, rfl, ?_⟩, _, rfl, ?_⟩ <;> decide

/-- The word comes from a port: the register it names is free, or written until a later cycle. -/
theorem witness_metadata_from_port :
    let s (r : List (Nat × Nat)) : State :=
      { sPorts 0 [0x301] 1 with cells := [(0, { cellA with dfb := [], ready := r })] }
    ∀ r ∈ ([[], [(65, 5000)]] : List (List (Nat × Nat))), ∃ x u, readClean (s r) [28] = .ok x u ∧ x.get 0 = 0x301 ∧ u.me.seqr = [] ∧
      (r = [] → u.me.readyAt 65 ≤ u.now) ∧ (r ≠ [] → u.now < u.me.readyAt 65) := by
  intro s r h
  have : r = [] ∨ r = [(65, 5000)] := by simpa using h
  rcases this with rfl | rfl <;> refine ⟨_, _, rfl, ?_, ?_, fun h => ?_, fun h => ?_⟩
  all_goals first | rfl | decide | exact absurd rfl h | exact nomatch h

/-! ### Witnesses: the end of a firing, ports -/

theorem witness_firings_end :
    sB.me.getP 1 = true ∧ sB.me.underRep = false ∧ sB.cur < 256 ∧ sB.myFiring = none ∧
    (let s := sA [chanIn 1 2, chanOut 1 2] { firingA 0 0 with pop0 := 2, push2 := [1] } [5, 6]
     ∃ f, s.myFiring = some f ∧ f.dom = s.me.dom ∧ f.logsz = 0 ∧ f.doneBy = [] ∧ f.fb = false ∧
       (∃ n c, portChan s.me' f 30 = some (n, c) ∧ (f.pushes 30).length < c.push) ∧ (∃ n c, portChan s.me' f 28 = some (n, c) ∧ ¬ f.pops 28 < c.pop) ∧
       portChan s.me' f 29 = none) ∧
    (∀ cad < 2, let s := sA [chanIn 1 2, chanOut 1 2] { firingA cad 0 with pop0 := 2, push2 := [1, 2] } [5, 6]
     ∃ f n c m d, s.myFiring = some f ∧ portChan s.me' f 28 = some (n, c) ∧ ¬ f.pops 28 < c.pop ∧ portChan s.me' f 30 = some (m, d) ∧
       ¬ (f.pushes 30).length < d.push ∧ portChan s.me' f 29 = none ∧ portChan s.me' f 31 = none ∧ f.trapped = [] ∧ f.causes = [] ∧
       f.entry.cad = decide (cad = 1) ∧ m ≠ n ∧ d.crosses = false) := by
  refine ⟨rfl, rfl, by decide, rfl, ⟨_, rfl, rfl, rfl, rfl, rfl, ⟨_, _, rfl, by decide⟩, ⟨_, _, rfl, by decide⟩, rfl⟩, fun cad h => ?_⟩
  have : cad = 0 ∨ cad = 1 := by omega
  rcases this with rfl | rfl <;>
    exact ⟨_, _, _, _, _, rfl, rfl, by decide, rfl, by decide, rfl, rfl, rfl, rfl, by decide, by decide, by decide⟩

theorem witness_tickw_and_counts :
    (∃ x u f, readClean (sA [] (firingA 0 0) []) [2] = .ok x u ∧ u.myFiring = some f ∧ f.dom = u.me.dom ∧ u.me'.frozen = none ∧
      (x.get 0).toNat ≤ u.now - f.release + 1) ∧
    (∃ x u f, readClean (sA [] (firingA 0 0) []) [7] = .ok x u ∧ u.myFiring = some f ∧ u.now - f.release + 1 < (x.get 0).toNat) ∧
    (∃ f n c, (sPorts 1 [8, 9] 1).myFiring = some f ∧ portChan (sPorts 1 [8, 9] 1).me' f (28 + (0 : BitVec 2).toNat) = some (n, c)) ∧
    (∃ f n c, (sPorts 1 [8, 9] 1).myFiring = some f ∧ portChan (sPorts 1 [8, 9] 1).me' f (28 + (2 : BitVec 2).toNat) = some (n, c) ∧
      c.crosses = false) ∧
    (∃ s : State, s = withCell sB { cellA with wait := .tickw } ∧ (s.cell 0).wait = .tickw) :=
  ⟨⟨_, _, _, rfl, rfl, rfl, rfl, by decide⟩, ⟨_, _, _, rfl, rfl, by decide⟩, ⟨_, _, _, rfl, rfl⟩, ⟨_, _, _, rfl, rfl, rfl⟩, _, rfl, rfl⟩

theorem witness_stream_send :
    (∃ x u f n c, readClean (sPorts 0 [] 1) [1] = .ok x u ∧ u.myFiring = some f ∧ portChan u.me' f (30 + (0 : BitVec 1).toNat) = some (n, c) ∧
      c.kind ≠ 3) ∧
    (∃ x u f n c, readClean (sPorts 0 [] 3) [1] = .ok x u ∧ u.myFiring = some f ∧ portChan u.me' f (30 + (0 : BitVec 1).toNat) = some (n, c) ∧
      c.kind = 3 ∧ (f.pushes (30 + (0 : BitVec 1).toNat)).length < c.push) ∧
    (∃ s x u f n c, s = sA [chanIn 3 2, chanOut 3 2] { firingA 0 0 with push2 := [1, 2] } [] ∧ readClean s [1] = .ok x u ∧ u.myFiring = some f ∧
      portChan u.me' f (30 + (0 : BitVec 1).toNat) = some (n, c) ∧ c.kind = 3 ∧ c.push ≤ (f.pushes (30 + (0 : BitVec 1).toNat)).length) :=
  ⟨⟨_, _, _, _, _, rfl, rfl, rfl, by decide⟩, ⟨_, _, _, _, _, rfl, rfl, rfl, rfl, by decide⟩, _, _, _, _, _, _, rfl, rfl, rfl, rfl, rfl, by decide⟩

theorem witness_stream_receive :
    let late : State := { sPorts 1 [8] 3 with doms := [(0, { domA [chanIn 3 2, chanOut 3 2] { firingA 0 0 with pop0 := 1 } [8] with
      chans := [(0, { queue := [8], owed := 1 })] })] }
    (∃ f n c, (sPorts 1 [8, 9] 3).myFiring = some f ∧ portChan (sPorts 1 [8, 9] 3).me' f (28 + (0 : BitVec 1).toNat) = some (n, c) ∧ c.kind = 3 ∧
      f.pops 28 < c.pop ∧ f.pops 28 < ((sPorts 1 [8, 9] 3).me'.chan n).queue.length) ∧
    (∃ f n c, late.myFiring = some f ∧ portChan late.me' f (28 + (0 : BitVec 1).toNat) = some (n, c) ∧ c.kind = 3 ∧ f.pops 28 < c.pop ∧
      (late.me'.chan n).queue.length ≤ f.pops 28 ∧ 0 < (late.me'.chan n).owed) ∧
    (∃ f n c, (sPorts 1 [8] 3).myFiring = some f ∧ portChan (sPorts 1 [8] 3).me' f (28 + (0 : BitVec 1).toNat) = some (n, c) ∧ c.kind = 3 ∧
      f.pops 28 < c.pop ∧ ((sPorts 1 [8] 3).me'.chan n).queue.length ≤ f.pops 28 ∧ ((sPorts 1 [8] 3).me'.chan n).owed = 0) ∧
    (∃ f n c, (sPorts 1 [8] 1).myFiring = some f ∧ portChan (sPorts 1 [8] 1).me' f (28 + (0 : BitVec 1).toNat) = some (n, c) ∧ c.kind ≠ 3) :=
  ⟨⟨_, _, _, rfl, rfl, rfl, by decide, by decide⟩, ⟨_, _, _, rfl, rfl, rfl, by decide, by decide, by decide⟩,
    ⟨_, _, _, rfl, rfl, rfl, by decide, by decide, rfl⟩, _, _, _, rfl, rfl, by decide⟩

theorem witness_receive_pass :
    ∀ q ∈ ([[8], [8, 9]] : List (List Word)), let s := withCell (sPorts 1 q 3) { cellA with wait := .recv 5 28 0 }
      (s.cell 0).wait = .recv 5 (28 + (0 : BitVec 1).toNat) 0 ∧ s.cur = 0 ∧ (5 : SReg).toNat < 28 ∧
      ∃ f n c, s.myFiring = some f ∧ portChan s.me' f (28 + (0 : BitVec 1).toNat) = some (n, c) ∧ c.kind = 3 ∧ f.pops 28 < c.pop := by
  intro q h
  simp at h
  rcases h with rfl | rfl <;> exact ⟨rfl, rfl, by decide, _, _, _, rfl, rfl, rfl, by decide⟩

/-! ### Witnesses: copy engines and LP6 -/

/-- Eight bytes from 0x100 to 0x200 of the scratchpad. -/
def descA : List Word := [0x20200, 0x100, 0x200, 0, 7, 0, 1, 0, 0, 1, 0, 0, 0, 0, 0, 0]
def askA : CopyAsk :=
  { eng := 0, op := 0, words := 0, pc := 0, due := 200, dfr := none, a := 0x400, b := 0, tok := 0, rnd := .rne, desc := descA, ff := [0, 0, 0] }
def cmdA : Cmd := { id := 3, eng := 0, op := 0, pc := 0, issue := 190, tok := 0, rnd := .rne, b := 0, desc := descA, ff := [0, 0, 0], h := 200 }

/-- Cell 0 of domain 0 in cycle 200. -/
def sC (w : Wait) (q : List Cmd) (l : List Access) : State :=
  withCell (sA [] (firingA 0 0) []) { cellA with wait := w, queue := q, pend := l }

theorem witness_copy_issue :
    ∃ f x u, copyForm (.cpCrc 1 true 2 1 3) = some f ∧ sB.me.getP f.g = true ∧ readSrcs sB (f.a :: f.b.toList) [] = .ok x u ∧ x.dfr = none ∧
      (x.get 0).toNat % 8 = 0 ∧ (x.get 0).toNat + 128 ≤ u.me.limC ∧ Delivered u 0 .sp (x.get 0).toNat 128 :=
  ⟨_, _, _, rfl, rfl, rfl, rfl, by decide, by decide, delivered_clean _ _ _ _ _ rfl rfl⟩

theorem witness_copy_checks :
    ((sC (.copy askA) [] []).cell 0).wait = .copy askA ∧ askA.due = (sC (.copy askA) [] []).now ∧ copyTrap (sC (.copy askA) [] []) 0 askA = none ∧
    ({ askA with dfr := some 4 } : CopyAsk).dfr = some 4 ∧ ({ askA with a := 4 } : CopyAsk).a.toNat % 8 ≠ 0 ∧
    6 ≤ ((({ askA with desc := [6] } : CopyAsk).desc.getD 0 0).setWidth 3).toNat ∧ (({ askA with desc := [0x20] } : CopyAsk).desc.getD 0 0).getLsbD 5 = true ∧
    (∃ m, ((sC (.copy askA) [{ cmdA with started := true }] []).cell 0).queue.find? (fun y => y.eng == askA.eng) = some m ∧ m.started = true) ∧
    (∀ y ∈ ((sC (.copy askA) [] [{ storeX with due := 220 }]).cell 0).queue, y.eng ≠ askA.eng) ∧
    (∃ a ∈ ((sC (.copy askA) [] [{ storeX with due := 220 }]).cell 0).pend, a.strm = 0 ∧ (sC (.copy askA) [] []).now < a.due) :=
  ⟨rfl, rfl, rfl, rfl, by decide, by decide, by decide, ⟨_, rfl, rfl⟩, (fun _ h => nomatch h), _, .head _, rfl, by decide⟩

theorem witness_copy_start :
    OnlyCommand (sC .none [cmdA] []) 0 0 cmdA ∧ ((sC .none [cmdA] []).cell 0).wait = .none ∧ cmdA.started = false ∧ cmdA.h ≤ (sC .none [cmdA] []).now ∧
    cmdA.op = 0 ∧ cmdA.walking = none ∧ dKind cmdA.desc false ≠ 2 ∧ dKind cmdA.desc true ≠ 2 ∧ ((sC .none [cmdA] []).engine 0).busy = false :=
  ⟨⟨by decide, rfl, rfl, rfl⟩, rfl, rfl, by decide, rfl, rfl, by decide, by decide, rfl⟩

def beatA : Beat := { n := 8, src := .mem 0x800, dst := .mem 0x1000 }
def cmdB : Cmd := { cmdA with started := true, beats := [beatA] }

theorem witness_engine_step :
    OnlyCommand (sC .none [cmdB] []) 0 0 cmdB ∧ ((sC .none [cmdB] []).engine 0).owner = none ∧ ((sC .none [cmdB] []).cell 1).queue = [] ∧
    ((sC .none [cmdB] []).cell 0).sp.err = [] ∧ cmdB.finishing = none ∧ cmdB.lpWrites = 0 ∧ cmdB.heldAt = none ∧ cmdB.beats = [beatA] ∧
    dKind cmdB.desc false = 0 ∧ dKind cmdB.desc true = 0 ∧ dSww cmdB.desc false = 0 ∧ dSww cmdB.desc true = 0 ∧ dBits cmdB.desc false = 8 ∧
    dBits cmdB.desc true = 8 ∧ 0x800 % 8 = 0 ∧ 0x1000 % 8 = 0 ∧ beatA.n * 8 % 8 = 0 ∧ 0 < beatA.n * 8 ∧
    (∀ k, k / 16 = 0 / 2 → k ≠ 0 → ∀ y ∈ ((sC .none [cmdB] []).cell k).queue, y.eng ≠ 0) := by
  refine ⟨⟨by decide, rfl, rfl, rfl⟩, rfl, rfl, rfl, rfl, rfl, rfl, rfl, by decide, by decide, by decide, by decide, by decide, by decide,
    by decide, by decide, by decide, by decide, fun k h1 h2 y hy => ?_⟩
  have hk : ∀ q < 16, q ≠ 0 → ((sC .none [cmdB] []).cell q).queue = [] := by decide
  rw [hk k (by omega) h2] at hy
  cases hy

/-- `ttsync` with nothing to wait for, with a copy command to wait for, and its wait's end. -/
theorem witness_sync_waits :
    (∀ s ∈ [sC .none [] [], sC .none [cmdA] []], ∃ x u, readClean s [0] = .ok x u ∧ (x.get 0).toNat < 2 ^ 17 ∧ u.cur < 256 ∧
      u.me.seqr = [] ∧ (∀ y ∈ u.me.pend, y.due ≤ u.now) ∧ u.me.wait = .none ∧ u.me.getP 0 = true) ∧
    (sC .none [] []).me.queue = [] ∧ (sC .none [cmdA] []).me.queue ≠ [] ∧
    (∀ q ∈ [[], [cmdA]], ((sC (.sync 3 false 7) q []).cell 0).wait = .sync 3 false 7 ∧ ((sC (.sync 3 false 7) q []).cell 0).queue = q ∧
      ((sC (.sync 3 false 7) q []).cell 0).seqr = [] ∧ 7 ≤ (sC (.sync 3 false 7) q []).now) := by
  refine ⟨?_, rfl, by decide, by decide⟩
  intro s h
  simp only [List.mem_cons, List.not_mem_nil, or_false] at h
  rcases h with rfl | rfl <;> exact ⟨_, _, rfl, by decide, by decide, by decide, by decide, by decide, by decide⟩

theorem witness_completion :
    ∃ m : Cmd, m = { cmdB with finishing := some 200, desc := 0xA0020200 :: descA.drop 1 } ∧ OnlyCommand (sC .none [m] []) 0 0 m ∧
      ((sC .none [m] []).cell 0).wait = .none ∧ m.finishing = some (sC .none [m] []).now ∧ dBarv m.desc = false ∧ m.flags = 0 ∧
      dSemv m.desc = true ∧ dCmpv m.desc = true ∧ Fmt.isMx ((dFmt m.desc true).getD .n8) = false ∧
      dCmpofs m.desc + 8 ≤ (sC .none [m] []).shareSize ((sC .none [m] []).cell 0).dom 0 :=
  ⟨_, rfl, ⟨by decide, rfl, rfl, rfl⟩, rfl, rfl, by decide, rfl, by decide, by decide, by decide, by decide⟩

/-- A tensor in LP6 with its table at 0x2000, tiles of 4,096 bytes, and a command that walks for its tile 0. -/
def walkS (v : List (Nat × Byte)) : State :=
  { sC .none [{ cmdA with started := true, walking := some (some 200), tiles := [(true, 0)], desc := 0x20280 :: descA.drop 1 }] [] with
    doms := [(0, { domA [] (firingA 0 0) [] with active := some { bindA [] [] with
      tensors := [(0, 0x100000000000000000000000000000000000000000000000000000000000000020000000000000000000)] } })],
    dies := [(0, { lp6 := { bytes := v } })] }

set_option exponentiation.threshold 600 in
theorem witness_tile_walk :
    (∃ m d v, m = { cmdA with started := true, walking := some (some 200), tiles := [(true, 0)], desc := 0x20280 :: descA.drop 1 } ∧
      v = (0x3003 : Word) ∧ OnlyCommand (walkS [(0x2000, 3), (0x2001, 0x30)]) 0 0 m ∧ m.walking = some (some (walkS []).now) ∧
      sideTensor (walkS [(0x2000, 3), (0x2001, 0x30)]) 0 m true = some d ∧ tHome d = 0 ∧ tDie d = 0 ∧
      (let a := tileTable (walkS []) 0 (dTid m.desc true) m.dstVer d
       a = 0x2000 + 8 * 0 ∧ Mem.readN ((walkS [(0x2000, 3), (0x2001, 0x30)]).die (tDie d)).lp6.bytes a 8 = v.toNat) ∧
      ((List.range 64).countP fun i => v.getLsbD i) % 2 = 0 ∧ v.getLsbD 0 = true ∧ v.getLsbD 1 = true ∧ v.getLsbD 2 = false ∧
      v.extractLsb' 3 2 = 0 ∧ v.extractLsb' 5 7 = 0 ∧ v.extractLsb' 48 15 = 0 ∧ (v.extractLsb' 12 36).toNat * 4096 % 2 ^ 12 = 0 ∧
      tBytes d ≤ 2 ^ 12) ∧
    (Mem.readN ((walkS []).die 0).lp6.bytes 0x2000 8 = (0 : Word).toNat ∧ (0 : Word).getLsbD 0 = false) :=
  ⟨⟨_, _, _, rfl, rfl, ⟨by decide, rfl, rfl, rfl⟩, rfl, rfl, by decide, by decide, by decide, by decide, by decide⟩, by decide, by decide⟩

theorem witness_routines :
    ∃ (m : Cmd) (s : State), m = { cmdA with op := 5, phase := 1 } ∧ s = { sC .none [m] [] with engines := [(0, { owner := some 0 })] } ∧
      OnlyCommand s 0 0 m ∧ (s.engine 0).owner = some 0 ∧ (s.engine 0).core.run ≠ .running :=
  ⟨_, _, rfl, rfl, ⟨by decide, rfl, rfl, rfl⟩, rfl, by decide⟩

/-- A line's read, a write of one byte, and a walk at channel 1 of die 0. -/
def reqA (op : LpOp) : LpReq := { id := 8, dom := 0, cls := .best, ready := 100, cmd := 3, addr := 0x40, op := op }
def sLp (op : LpOp) : State := { sC .none [cmdA] [] with dies := [(0, { reqs := [reqA op], inFlight := [reqA op] })] }

set_option exponentiation.threshold 600 in
theorem witness_lp6 :
    ∀ op ∈ ([.read, .walk, .write [(0x41, 7, 0xFF)] []] : List LpOp), ((sLp op).die 0).reqs = [reqA op] ∧ (reqA op).addr / 64 % 8 = 1 ∧
      (reqA op).ready ≤ (sLp op).now ∧ ((sLp op).cell (reqA op).cell).queue = [cmdA] ∧ cmdA.id = (reqA op).cmd ∧ (sLp op).tcyc / 8 % 32 ≠ 15 ∧
      slotOwners (sLp op) 0 1 ((sLp op).tcyc / 8) = [] ∧ (reqA op).cls = .best ∧
      ((sLp op).die 0).inFlight.find? (fun y => y.id == 8) = some (reqA op) ∧ (reqA op).host = false ∧
      SMap.get 0 ((sLp op).die 0).lineErr ((reqA op).addr / 64) = 0 ∧ ([(0x41, 7, 0xFF)].map fun w : Nat × Byte × Byte => w.1).Nodup := by
  intro op h
  simp at h
  rcases h with rfl | rfl | rfl <;> refine ⟨rfl, ?_, ?_, rfl, rfl, ?_, ?_, rfl, rfl, rfl, rfl, ?_⟩ <;> decide

/-! ### Witnesses: what an engine moves, slots with several requests -/

/-- Commands of the other operations with one beat of 8 elements: bytes, FP32 to BF16, out of a tensor, or to and from the routine core. -/
def cmdOf (op : Nat) (word : Word) (src dst : Loc) (phase : Nat) (lines : List Line) : Cmd :=
  { cmdB with op := op, desc := word :: descA.drop 1, beats := [{ n := 8, src := src, dst := dst }], phase := phase, lines := lines, b := 0x55 }
def lineA : Line := { tile := 3, idx := 1, bytes := List.replicate 64 7, poison := [] }
def sOp (m : Cmd) (owner : Option Nat) : State :=
  { sC .none [m] [] with
    doms := [(0, { domA [] (firingA 0 0) [] with active := some { bindA [] [] with tensors := [(0, BitVec.ofNat 512 (2 ^ 320))] } })]
    engines := [(0, { owner := owner })] }

set_option exponentiation.threshold 600 in
theorem witness_engine_operations :
    (∀ x ∈ ([(1, 0x222000, 0x800, 0x1000, 0), (2, 0x20200, 0x800, 0x1000, 0), (3, 0x20200, 0, 0x1000, 0), (5, 0x20200, 0x800, 0x1000, 0),
        (5, 0x20200, 0x800, 0x1000, 2)] : List (Nat × Word × Nat × Nat × Nat)),
      let m := cmdOf x.1 x.2.1 (if x.1 = 3 ∨ x.2.2.2.2 = 2 then .out else .mem x.2.2.1) (.mem x.2.2.2.1) x.2.2.2.2 []
      let s := sOp m (if x.1 = 5 then some 0 else none)
      m.op < 6 ∧ (s.engine 0).owner = (if m.op = 5 then some 0 else none) ∧ (s.cell 0).queue = [m] ∧ (s.cell 0).sp.err = [] ∧
      (s.cell 0).sp.poison = [] ∧ m.heldAt = none ∧ m.crcBits = (0, 0) ∧ m.sbPos % 8 = 0 ∧
      dKind m.desc false = 0 ∧ dKind m.desc true = 0 ∧ dSww m.desc false = 0 ∧ dSww m.desc true = 0 ∧
      dBits m.desc false = (if x.1 = 1 then 32 else 8) ∧ dBits m.desc true = (if x.1 = 1 then 16 else 8)) ∧
    dFmt (cmdOf 1 0x222000 .out .out 0 []).desc false = some .fp32 ∧ dFmt (cmdOf 1 0x222000 .out .out 0 []).desc true = some .bf16 ∧
    dFmt (cmdOf 1 0x606600 .out .out 0 []).desc false = some .cfp32 ∧ dFmt (cmdOf 1 0x606600 .out .out 0 []).desc true = some .cbf16 ∧
    (let m := cmdOf 4 0x20210 (.tile 3 512) (.mem 0x1000) 0 [lineA]
     sideTensor (sOp m none) 0 m false = some (BitVec.ofNat 512 (2 ^ 320)) ∧ tHome (BitVec.ofNat 512 (2 ^ 320)) = 0 ∧ dKind m.desc false = 2 ∧ dKind m.desc true = 0 ∧ m.tiles = [] ∧
     512 / 8 % 64 + 8 * 8 / 8 ≤ 64 ∧ lineA.idx = 512 / 512 ∧ lineA.bytes.length = 64 ∧ ((sOp m none).engine 0).cache = []) := by
  refine ⟨?_, ?_, ?_, ?_, ?_, ?_⟩ <;> decide

/-- Two best-effort lines and a walk wait for one channel; the supervisor's walk for another. -/
def reqN (n : Nat) (op : LpOp) : LpReq := { reqA op with id := n, ready := 90 + n }
def sSlots : State := { sC .none [cmdA] [] with dies := [(0, { reqs := [reqN 1 .read, reqN 2 .walk, reqN 3 (.gather 16)] })] }

set_option exponentiation.threshold 600 in
theorem witness_lp6_slots :
    (∀ r ∈ (sSlots.die 0).reqs, r.addr / 64 % 8 = 1 ∧ r.ready ≤ sSlots.now ∧ r.cell < 256 ∧ r.cell / 64 = 0 ∧ r.host = false ∧
      (∃ m ∈ (sSlots.cell r.cell).queue, m.id = r.cmd) ∧ (r.op = .read ∨ (∃ w, r.op = .gather w) ∨ r.op = .walk)) ∧
    ((sSlots.die 0).reqs.map fun r => r.id).Nodup ∧ ((sSlots.die 0).reqs.Pairwise fun x y => x.ready ≤ y.ready) ∧
    (slotOwners sSlots 0 1 (sSlots.tcyc / 8)).length ≤ 1 ∧ sSlots.tcyc / 8 % 32 ≠ 31 := by
  refine ⟨fun r h => ?_, by decide, by decide, by decide, by decide⟩
  have : r = reqN 1 .read ∨ r = reqN 2 .walk ∨ r = reqN 3 (.gather 16) := by simpa [sSlots, State.die, SMap.get] using h
  rcases this with rfl | rfl | rfl
  · exact ⟨rfl, by decide, by decide, rfl, rfl, ⟨_, .head _, rfl⟩, Or.inl rfl⟩
  · exact ⟨rfl, by decide, by decide, rfl, rfl, ⟨_, .head _, rfl⟩, Or.inr (Or.inr rfl)⟩
  · exact ⟨rfl, by decide, by decide, rfl, rfl, ⟨_, .head _, rfl⟩, Or.inr (Or.inl ⟨_, rfl⟩)⟩

/-- The last member of a set of two ends, on a channel that two ports share, and on one whose records cross. -/
theorem witness_sets_end :
    let f : Firing := { firingA 1 1 with doneBy := [1], pop0 := 2, push2 := [1, 2] }
    let s (scope : Nat) : State := sA [chanIn 1 scope, chanOut 3 scope] f [5, 6]
    (∀ scope, (s scope).myFiring = some f) ∧ f.dom = (s 3).me.dom ∧ ((s 3).cur % 2 ^ f.logsz :: f.doneBy).length = 2 ^ f.logsz ∧
    ({ f with doneBy := [] } : Firing).doneBy.length + 1 ≠ 2 ^ f.logsz ∧ f.entry.cad = true ∧ f.trapped = [] ∧ f.causes = [] ∧
    (∀ p, 28 ≤ p → p < 32 → ¬ portShort (s 3).me' f p) ∧ (∃ n c, portChan (s 3).me' f 30 = some (n, c) ∧ c.crosses = true) ∧
    portShort (s 2).me' { f with push2 := [] } 30 := by
  refine ⟨fun _ => rfl, rfl, by decide, by decide, by decide, rfl, rfl, ?_, ⟨1, _, rfl, by decide⟩, 1, _, rfl, by decide⟩
  intro p h1 h2
  have : p = 28 ∨ p = 29 ∨ p = 30 ∨ p = 31 := by omega
  rcases this with rfl | rfl | rfl | rfl
  · rintro ⟨n, c, h, h'⟩; cases h; revert h'; decide
  · rintro ⟨n, c, h, h'⟩; cases h
  · rintro ⟨n, c, h, h'⟩; cases h; revert h'; decide
  · rintro ⟨n, c, h, h'⟩; cases h

/-! ### Witnesses: links and power -/

/-- A supervisor's cell of die 0 with s1 = 0, s2 = 1, s3 = 7, s4 = 4, s5 = 300, s6 = 2, dies 0 and 1 in use, and port 0 in a state. -/
def sL (st : BitVec 3) : State :=
  { cells := [(0, { cellA with dom := 8, firing := 0, dfb := [], regErr := [],
                               sreg := [(2, 1), (3, 7), (4, 4), (5, 300), (6, 2), (7, 3), (8, 512), (9, 2000)] })],
    hub := { up := true, dieMap := 3, ports := [(0, { st := st })] }, dies := [(0, { bud := 400 }), (1, { bud := 400 })] }

theorem witness_link_status :
    (∃ x, readClean (sL 0) [3] = .ok x (sL 0) ∧ 6 ≤ (x.get 0).toNat) ∧ (∃ x, readClean (sL 0) [7] = .ok x (sL 0) ∧ (x.get 0).toNat = 3) ∧
    (∃ x, readClean (sL 4) [1] = .ok x (sL 4) ∧ (x.get 0).toNat < 2 ∧ ((sL 4).port 0).st = 4) ∧
    (∃ x, readClean (sL 0) [6] = .ok x (sL 0) ∧ (x.get 0).toNat = 2 ∧ ((sL 0).port 8).st ≠ 4) ∧
    (∃ x, readClean (sL 0) [4] = .ok x (sL 0) ∧ (x.get 0).toNat = 4 ∧ ((sL 0).port 12).st ≠ 4) ∧ ((sL 0).port 0).st ≠ 4 ∧ (sL 0).me.getP 1 = true ∧
    (sL 0).cur < 288 ∧ (sL 4).cur < 288 := by
  refine ⟨⟨_, rfl, ?_⟩, ⟨_, rfl, ?_⟩, ⟨_, rfl, ?_⟩, ⟨_, rfl, ?_⟩, ⟨_, rfl, ?_⟩, ?_⟩ <;> decide

theorem witness_link_control :
    (∃ x, readClean (sL 0) [1] = .ok x (sL 0) ∧ (x.get 0).toNat ∈ [0, 1, 4, 5] ∧ ((sL 0).port 0).st = 0 ∧ (sL 0).me.dom = 8 ∧ (sL 0).cur < 256) ∧
    (∃ x, readClean (sL 1) [1, 7] = .ok x (sL 1) ∧ ((sL 1).port 0).st = 1 ∧ (x.get 1).toNat < 2 ^ 8 ∧ (x.get 1).toNat < 2 ^ 9 ∧
      SMap.get 0 ((sL 1).port 0).used 6 < 4 ∧ dieOf (sL 1).cur < 4) ∧
    (∃ x, readClean (sL 1) [1, 8] = .ok x (sL 1) ∧ 2 ^ 9 ≤ (x.get 1).toNat) ∧ (∃ x, readClean (sL 1) [3] = .ok x (sL 1) ∧ (x.get 0).toNat ∉ [0, 1, 4, 5]) ∧
    (∃ s : State, s = { hub := { ports := [(0, { st := 1, used := [(6, 4)] })] } } ∧ 4 ≤ SMap.get 0 (s.port 0).used 6) ∧
    (∃ s : State, s = { hub := { ports := [(0, { st := 2 }), (1, { modhalf := 1, used := [(0, 4)] })] } } ∧ (s.port 0).st = 2 ∧ (s.port 1).st ≠ 4 ∧
      ¬ SMap.get 0 (s.port 1).used 0 < 4 ∧ (s.port 1).modhalf.getLsbD 0 = true) := by
  refine ⟨⟨_, rfl, ?_⟩, ⟨_, rfl, ?_⟩, ⟨_, rfl, ?_⟩, ⟨_, rfl, ?_⟩, ⟨_, rfl, ?_⟩, _, rfl, ?_⟩ <;> decide

/-- A channel from cell 0 on die 0 to cell 64 on die 1, with a record staged, in the slot of its firing. -/
def chanX : Chan := { chanOut 3 3 with phome := 0, pbase := 0x3000 }
def tableX : Table :=
  { id := 0, chans := [chanX], columns := [(0, [{ entryA 0 0 0 with slots := [(0, 304)] }])],
    stages := [{ blk := 5, alt := 0, fix := 0, at0 := some 0 }, { blk := 5, alt := 0, fix := 0, at0 := some 64 }] }
def sX : State :=
  { now := 304, hub := { up := true },
    doms := [(0, { running := true, state := 2, chans := [(0, { staged := [{ ofs := 0x3000, k := 0 }] })],
                   active := some { tables := [tableX] } })] }

theorem witness_link_slot :
    ∃ e i m, slotEntry sX 0 (sendDir 1) = some (e, i, m) ∧ slotTaken sX 0 (sendDir 1) 38 = false ∧ carrying sX 1 = true ∧
      (sX.port 1).replayAt ≠ sX.now ∧ (sentBy sX 0 1).filter (fun y => y.2.fstg == e.stage) = [(0, chanX)] ∧
      ((sX.dom 0).chan 0).staged = [{ ofs := 0x3000, k := 0 }] ∧ e.k = 0 ∧ 0 < chanX.size ∧ chanX.size ≤ payloadNow 1 (sX.port 1) ∧
      chanX.spanOut = false :=
  ⟨_, _, _, rfl, by decide, by decide, by decide, by decide, by decide, rfl, by decide, by decide, by decide⟩

/-- A record's bytes arrive at a ring port; a cell beside it has armed the flip of byte 3. -/
def sSeg (x : Word) : State := { hub := { ports := [(1, { segs := [⟨300, 0, 0, 7, 0, 8⟩] })] }, now := 300, cells := [(70, { xinj := x })] }

theorem witness_segments :
    (∀ x, ((sSeg x).cells.map fun y => y.1).Nodup ∧ ((sSeg x).port 1).segs = [⟨300, 0, 0, 7, 0, 8⟩] ∧ 300 ≤ (sSeg x).now) ∧
    ((sSeg 0).cell 70).xinj.getLsbD 63 = false ∧
    (((sSeg 0x8000000000000300).cell 70).xinj.getLsbD 63 = true ∧ 1 % 2 ≠ 0 ∧ (1 / 2 + 1) % 4 = 70 / 64 ∧
      ((sSeg 0x8000000000000300).cell 70).xinj.setWidth 2 = (0 : BitVec 2) ∧
      (((sSeg 0x8000000000000300).cell 70).xinj.extractLsb' 8 24).toNat < ((sSeg 0x8000000000000300).cell 70).xinjCount + 8) ∧
    ((sSeg 0x8000000000000301).cell 70).xinj.setWidth 2 ≠ (0 : BitVec 2) :=
  ⟨fun _ => ⟨by simp [sSeg], rfl, Nat.le_refl 300⟩, by decide, by decide, by decide⟩

theorem witness_arrivals :
    (∃ b tab, (sX.dom 0).active = some b ∧ (sX.dom 0).table = some tab ∧ tab.chans[0]? = some chanX ∧ ((sX.dom 0).chan 0).queue.length + 1 ≤ chanX.cap) ∧
    (∃ s : State, s = { sX with doms := [(0, { chans := [(0, { lateFlight := [{ ofs := 0, k := 0, sent := [(1, false)] }] })] })] } ∧
      ((s.dom 0).chan 0).lateFlight = { ofs := 0, k := 0, sent := [(1, false)] } :: [] ∧ ((s.dom 0).chan 0).queue.length < chanX.cap) ∧
    (∃ s : State, s = { doms := [(0, { running := true, active := some (bindA [{ chanX with fstg := 0xFFFE }] []) })] } ∧
      (∃ c tab, (s.dom 0).table = some tab ∧ tab.chans[0]? = some c ∧ c.fstg = 0xFFFE) ∧ (s.dom 0).running = true) ∧
    (∃ s : State, s = { hub := { ports := [(0, { st := 4 })] } } ∧ (s.port 0).st = 4 ∧ (s.port 1).st ≠ 4) :=
  ⟨⟨_, _, rfl, rfl, rfl, by decide⟩, ⟨_, rfl, rfl, by decide⟩, ⟨_, rfl, ⟨_, _, rfl, rfl, rfl⟩, rfl⟩, _, rfl, by decide, by decide⟩

theorem witness_power_transfers :
    (∃ x, readClean (sL 0) [2, 5] = .ok x (sL 0) ∧ x.get 0 = 1 ∧ 0 < (x.get 1).toNat ∧ (x.get 1).toNat ≤ 1020 ∧ dieOf (sL 0).cur < 4 ∧
      (sL 0).hub.dieMap.getLsbD 1 = true ∧ (sL 0).hub.dieMap.getLsbD 5 = false ∧ ((sL 0).die 0).last ≠ 3 ∧
      ¬ (((max (diePeak (sL 0) 0) 120 : Nat) : Int) ≤ ((sL 0).die 0).bud.toNat + ((sL 0).die 0).pend - ((sL 0).die 0).promised - 300)) ∧
    (∃ x, readClean (sL 0) [1, 5] = .ok x (sL 0) ∧ x.get 0 = 0 ∧ (sL 0).hub.dieMap.getLsbD 3 = false) ∧
    (∃ s x, s = { sL 0 with dies := [(0, { bud := 500, loanR := 300 })] } ∧ readClean s [2, 5] = .ok x s ∧ ¬ (s.die 0).loanR < 300 ∧
      (((max (diePeak s 0) 120 : Nat) : Int) ≤ (s.die 0).bud.toNat + (s.die 0).pend - (s.die 0).promised - 300)) ∧
    (∃ x, readClean (sL 0) [6, 5] = .ok x (sL 0) ∧ 2 ≤ (x.get 0).toNat) ∧ (∃ x, readClean (sL 0) [2, 9] = .ok x (sL 0) ∧ 1020 < (x.get 1).toNat) := by
  refine ⟨⟨_, rfl, ?_⟩, ⟨_, rfl, ?_⟩, ⟨_, _, rfl, rfl, ?_⟩, ⟨_, rfl, ?_⟩, _, rfl, ?_⟩ <;> decide

theorem witness_power_budgets :
    (∃ s : State, s = { dies := [(0, { pend := 40, givers := [(true, some 2), (false, none)] })], now := 3 } ∧ 0 < (s.die 0).pend ∧
      ∃ g ∈ (s.die 0).givers, ∀ m, g.2 = some m → s.now < m) ∧
    (∃ s : State, s = { dies := [(0, { pend := 40, givers := [(true, some 2)] })], now := 3 } ∧ 0 < (s.die 0).pend ∧
      ∀ g ∈ (s.die 0).givers, g.2 = some 2) ∧
    (∃ s : State, s = { dies := [(0, { pend := -40 })] } ∧ (s.die 0).pend ≤ 0 ∧ 0 ≤ (s.die 0).bud.toNat + (s.die 0).pend ∧
      (s.die 0).bud.toNat + (s.die 0).pend < 2 ^ 11) ∧
    (∃ x, readClean (sL 0) [6] = .ok x (sL 0) ∧ (x.get 0).toNat < 4 ∧ ((sL 0).cluster 2).gate = 0 ∧ ¬ ClusterInUse (sL 0) 2) ∧
    (∃ x, readClean (sL 0) [4] = .ok x (sL 0) ∧ 4 ≤ (x.get 0).toNat) ∧ ClusterInUse (sA [] (firingA 0 0) []) 0 ∧
    (∃ s : State, s = { clusters := [(1, { gate := 2 })] } ∧ (s.cluster 1).gate = 2 ∧ (s.cluster 0).gate ≠ 2) := by
  refine ⟨⟨_, rfl, by decide, _, .tail _ (.head _), fun m h => nomatch h⟩, ⟨_, rfl, by decide, by decide⟩, ⟨_, rfl, by decide⟩, ⟨_, rfl, by decide, rfl, ?_⟩,
    ⟨_, rfl, by decide⟩, ⟨0, by decide, _, .head _, Or.inr (Or.inl ⟨_, .head _, _, .head _, rfl⟩)⟩, _, rfl, by decide, by decide⟩
  rintro ⟨d, h, b, hb, -⟩
  have : ∀ d < 9, ((sL 0).dom d).boundBanks = [] := by decide
  rw [this d h] at hb; exact nomatch hb

/-! ### Witnesses: the escapement and the modes -/

/-- Domain 0 whose columns hold one entry of a kind, in a cycle; the fork decision as given. -/
def sE (kind now : Nat) (fork : Option (Entry × Nat × List Nat)) : State :=
  { sA [] (firingA 0 0) [] with
    now := now, cells := [(0, { cellA with fork := fork, seqr := [] }), (1, { cellA with firing := 0 })],
    doms := [(0, { domA [] (firingA 0 0) [] with firings := [], active := some (bindA [] [entryA kind 0 0]) })] }

theorem sound_entry (kind now : Nat) (fork : Option (Entry × Nat × List Nat)) (h : kind < 2) :
    SoundEntry ((sE kind now fork).dom ((sE kind now fork).cell 0).dom) (sE kind now fork).now 0 0 (entryA kind 0 0) := by
  have : kind = 0 ∨ kind = 1 := by omega
  have one : ∀ k < 2, 2 ^ (entryA k 0 0).logsz = 1 := by decide
  rcases this with rfl | rfl
  · refine ⟨rfl, by decide, by decide, by decide, rfl, fun m h1 h2 => ?_⟩
    rw [one 0 (by decide)] at h2
    cases (show m = 0 by omega)
    exact ⟨Nat.zero_le _, _, rfl, by decide⟩
  · refine ⟨rfl, by decide, by decide, by decide, rfl, fun m h1 h2 => ?_⟩
    rw [one 1 (by decide)] at h2
    cases (show m = 0 by omega)
    exact ⟨Nat.zero_le _, _, rfl, by decide⟩

theorem witness_releases :
    SoundEntry ((sE 0 100 none).dom ((sE 0 100 none).cell 0).dom) (sE 0 100 none).now 0 0 (entryA 0 0 0) ∧ (entryA 0 0 0).kind = 0 ∧
    (sE 0 100 none).now = ((sE 0 100 none).dom 0).t0 + 0 * ((sE 0 100 none).dom 0).periodCycles + (entryA 0 0 0).start ∧
    MayRelease (sE 0 100 none) 0 (2 ^ (entryA 0 0 0).logsz) ∧
    (∃ s : State, s = { sE 0 100 none with clusters := [(0, { allowed := 200 })] } ∧ s.now < 200 ∧ (s.cluster 0).allowed = 200 ∧
      MayRelease { s with now := 200 } 0 (2 ^ (entryA 0 0 0).logsz)) := by
  refine ⟨sound_entry 0 _ _ (by decide), by decide, by decide, ⟨by decide, ?_, ?_⟩, _, rfl, by decide, rfl, by decide, ?_, ?_⟩
  · intro f h; cases h
  · intro m h1 h2
    have : m = 0 := by have : 2 ^ (entryA 0 0 0).logsz = 1 := by decide
                       omega
    subst this; decide
  · intro f h; cases h
  · intro m h1 h2
    have : m = 0 := by have : 2 ^ (entryA 0 0 0).logsz = 1 := by decide
                       omega
    subst this; decide

/-- An entry of the reserved KIND 5 at its start, and a cell that is held. -/
theorem witness_corrupt_entries :
    ((sE 5 100 none).dom 0).frozen = none ∧ ((sE 5 100 none).dom 0).entry 0 0 = some (entryA 5 0 0) ∧ (entryA 5 0 0).corrupt = true ∧
    0 < ((sE 5 100 none).dom 0).periodCycles ∧
    (sE 5 100 none).now = ((sE 5 100 none).dom 0).t0 + 0 * ((sE 5 100 none).dom 0).periodCycles +
      (entryA 5 0 0).start % ((sE 5 100 none).dom 0).periodCycles ∧
    (∃ x : Domain, x = { (sE 0 100 none).dom 0 with heldTo := [(0, 101)] } ∧ x.entry 0 0 = some (entryA 0 0 0) ∧
      (entryA 0 0 0).corrupt = false ∧ (entryA 0 0 0).logsz = 0 ∧ (sE 0 100 none).now < SMap.get 0 x.heldTo 0) := by
  refine ⟨rfl, rfl, by decide, by decide, by decide, _, rfl, rfl, by decide, by decide, by decide⟩

theorem witness_forks :
    (∀ ch, SoundEntry ((sE 1 164 (some (entryA 1 0 0, ch, []))).dom ((sE 1 164 (some (entryA 1 0 0, ch, []))).cell 0).dom) (sE 1 164 (some (entryA 1 0 0, ch, []))).now 0 0 (entryA 1 0 0) ∧
      ((sE 1 164 (some (entryA 1 0 0, ch, []))).cell 0).fork = some (entryA 1 0 0, ch, [])) ∧ (entryA 1 0 0).kind = 1 ∧
    (sE 1 100 none).now = ((sE 1 100 none).dom 0).t0 + 0 * ((sE 1 100 none).dom 0).periodCycles + (entryA 1 0 0).start ∧
    8 * (entryA 1 0 0).fix + 8 ≤ (sE 1 100 none).shareSize 0 (0 / 16) ∧ (sE 1 100 none).shareByte 0 0 (8 * (entryA 1 0 0).fix) % 8 = 0 ∧
    ((sE 1 100 none).cluster 0).slice.err = [] ∧
    (∃ s : State, s = { sE 1 100 none with clusters := [(0, { slice := { poison := [((sE 1 100 none).shareByte 0 0 (8 * (entryA 1 0 0).fix) / 8, true)] } })] } ∧
      Ram.bad (s.cluster 0).slice ((sE 1 100 none).shareByte 0 0 (8 * (entryA 1 0 0).fix) / 8) = true) ∧
    (sE 1 164 none).now = (entryA 1 0 0).start + 64 ∧ (entryA 1 0 0).fbk ≠ 0 :=
  ⟨fun _ => ⟨sound_entry 1 _ _ (by decide), rfl⟩, by decide, by decide, by decide, by decide, rfl, ⟨_, rfl, by decide⟩, by decide, by decide⟩

theorem witness_ramp_starts : sB.me.ramp = none ∧ ({ cellA with ramp := some 3 } : Cell).ramp ≠ none := by decide

/-- Domain 0 with one firing, in a cycle. -/
def sF (f : Firing) (now : Nat) : State := { sA [chanIn 1 2, chanOut 1 2] f [5, 6] with now := now }

theorem witness_ends :
    ((sF (firingA 0 0) 3000).dom 0).firing 9 = some (firingA 0 0) ∧ (firingA 0 0).dom = 0 ∧ ((sF (firingA 0 0) 3000).dom 0).frozen = none ∧
    (firingA 0 0).base % 2 ^ (firingA 0 0).logsz = 0 ∧ (firingA 0 0).base < 256 ∧ (firingA 0 0).logsz < 5 ∧ (firingA 0 0).out = [] ∧
    (firingA 0 0).ended = false ∧ (firingA 0 0).trapped = [] ∧ (firingA 0 0).causes = [] ∧ (firingA 0 0).fb = false ∧
    ((sF (firingA 0 0) 3000).cell 0).seqr = [] ∧ ({ firingA 0 0 with fb := true } : Firing).fb = true ∧
    (firingA 0 0).deadline ≤ (sF { firingA 0 0 with ended := true } 3000).now ∧ ({ firingA 0 0 with ended := true } : Firing).stopped = false := by
  refine ⟨rfl, rfl, rfl, ?_, ?_, ?_, ?_, ?_, ?_, ?_, ?_, ?_, ?_, ?_, ?_⟩ <;> decide

theorem witness_fallbacks :
    (∃ f : Firing, f = { firingA 0 0 with ended := true, stopped := true } ∧ f.entry.fbk ≠ 0 ∧
      (sF f 3064).now < f.deadline + 64 + ((sF f 3064).dom 0).wcet f.entry.fbk ∧ (sF f 3064).dom 0 = (sF f 3064).dom 0 ∧
      ((sF f 3064).cluster 0).allowed ≤ (sF f 3064).now ∧ ((sF f 3064).cell 0).clearUntil ≤ (sF f 3064).now ∧ (sF f 3064).hub.firstTable = none) ∧
    (∃ f : Firing, f = { firingA 0 0 with entry := { word := 5 } } ∧ f.entry.fbk = 0) ∧
    (∃ f n c m d, f = { firingA 0 0 with ended := true, pop0 := 1, push2 := [7] } ∧ portChan ((sF f 3000).dom 0) f 28 = some (n, c) ∧
      portChan ((sF f 3000).dom 0) f 30 = some (m, d) ∧ n ≠ m ∧ d.crosses = false) :=
  ⟨⟨_, rfl, by decide, by decide, rfl, by decide, by decide, rfl⟩, ⟨_, rfl, by decide⟩, _, _, _, _, _, rfl, rfl, rfl, by decide, by decide⟩

/-- Tables of modes 0 and 1, the second safe; an entry that names mode 1. -/
def bindM : Binding :=
  { tables := [{ id := 0, columns := [(0, [{ word := BitVec.ofNat 128 (2 ^ 112) }])] }, { id := 1, safe := true }] }
def sMode (x : Domain) : State := { now := 20000, hub := { up := true }, doms := [(0, x)] }
def domM : Domain := { running := true, state := 2, active := some bindM, grant := { cells := 1 } }

/-- Two modes over one stage pair: a channel that carries over, with less room in mode 1, and one that each mode fills anew. -/
def chanM (cap base : Nat) (carry : Bool) : Chan :=
  { fstg := 0, fport := if carry then 30 else 31, tport := if carry then 28 else 29, tstg := 1, fmt := 10, scope := 1, push := 1, pop := 1,
    size := 8, init := 1, carry := carry, dataOfs := 0, cap := cap, kind := 1, home := 0, base := base }
def tableM (id cap : Nat) : Table :=
  { id := id, safe := id == 1, stages := [{ blk := 1, alt := 0, fix := 0, at0 := some 0 }, { blk := 2, alt := 0, fix := 0, at0 := some 1 }],
    chans := [chanM cap 0x1000 true, chanM 2 0x1100 false] }
def bindChans : Binding := { tables := [tableM 0 4, tableM 1 2], data := [7, 0, 0, 0, 0, 0, 0, 0] }

theorem witness_channels_start :
    NothingInFlight (sMode { domM with active := some bindChans }) 0 ∧
    CarriedBy (some (bindChans, tableM 0 4)) bindChans (tableM 1 2) (chanM 2 0x1000 true) 0 (chanM 4 0x1000 true) ∧
    (∀ m q, ¬ CarriedBy (some (bindChans, tableM 0 4)) bindChans (tableM 1 2) (chanM 2 0x1100 false) m q) ∧
    RecordsInShares (sMode { domM with active := some bindChans, grant := { cells := 3, granules := [(0, [2])] } }) 0 (tableM 1 2) := by
  refine ⟨⟨(fun p _ g h => nomatch (show g ∈ [] from h)), (fun y h => nomatch (show y ∈ [] from h))⟩,
    ⟨_, _, rfl, rfl, ⟨rfl, rfl, rfl, rfl, rfl, rfl, rfl, by decide, Or.inr ⟨by decide, by decide, _, _, rfl, rfl, rfl, rfl, rfl, Or.inr rfl, Or.inl rfl⟩,
      Or.inr ⟨by decide, by decide, _, _, rfl, rfl, rfl, rfl, rfl, Or.inr rfl, Or.inl rfl⟩⟩, (fun k z h => absurd h (Nat.not_lt_zero k))⟩,
    ?_, by decide, ?_, ?_⟩
  · rintro m q ⟨a, ta, -, -, ⟨-, h, -⟩, -⟩
    exact absurd h (by decide)
  · intro k
    match k with
    | 0 => decide
    | k + 1 => exact List.nodup_nil
  · intro n c h
    match n, h with
    | 0, h => cases h; exact ⟨rfl, by decide, by decide, by decide, by decide, by decide, by decide, by decide, by decide, fun m e he hm _ =>
        match m, he, hm with
        | 0, _, hm => absurd rfl hm
        | 1, he, _ => by cases he; exact Or.inr (by decide)⟩
    | 1, h => cases h; exact ⟨rfl, by decide, by decide, by decide, by decide, by decide, by decide, by decide, by decide, fun m e he hm _ =>
        match m, he, hm with
        | 0, he, _ => by cases he; exact Or.inl (by decide)
        | 1, _, hm => absurd rfl hm⟩

theorem witness_mode_requests :
    ((sMode domM).dom 0).running = true ∧ ((sMode {}).dom 0).running = false ∧ ((sMode domM).dom 0).degraded = none ∧
    ((sMode { domM with degraded := some (1, 3) }).dom 0).degraded ≠ none ∧ ((sMode domM).dom 0).frozen = none ∧ ((sMode domM).dom 0).standby = none ∧
    (∃ b, ((sMode { domM with standby := some bindM, fresh := true }).dom 0).standby = some b ∧ b.writtenAt < (sMode domM).now) ∧
    (∃ tb, bindM.table domM.mode = some tb ∧ latchedFor domM = none ∧ namedBy tb = some 1 ∧ (bindM.table 1).isSome = true ∧ domM.fresh = false) ∧
    (∃ tb, bindM.table 1 = some tb ∧ namedBy tb = none) ∧ latchedFor { domM with latched := [(1, 1)] } = some 1 := by
  refine ⟨rfl, rfl, rfl, ?_, rfl, rfl, ⟨_, rfl, ?_⟩, ⟨_, rfl, rfl, ?_, ?_, ?_⟩, ⟨_, rfl, ?_⟩, ?_⟩ <;> decide

theorem witness_switches :
    (∀ tb, bindM.table 0 = some tb → SwitchesTo domM bindM tb 1) ∧ (∀ tb, bindM.table 0 = some tb → SwitchesTo { domM with latched := [(1, 0)] } bindM tb 0) ∧
    (∃ tb, bindM.table 1 = some tb ∧ ∀ m, ¬ SwitchesTo { domM with mode := 1 } bindM tb m) ∧ (∀ s, NoReserveEnds s domM) ∧
    (bindA [] []).Places 0 5 ∧ (bindA [] []).Places 0 0 ∧ ¬ (bindA [] []).Places 0 9 := by
  refine ⟨?_, ?_, ⟨_, rfl, ?_⟩, (fun _ f h => nomatch h), ?_, ?_, ?_⟩
  · intro tb h; cases h; exact ⟨by decide, Or.inr ⟨(fun k h => nomatch (show none = some k from h)), by decide⟩⟩
  · intro tb h; cases h; exact ⟨by decide, Or.inl rfl⟩
  · rintro m ⟨-, h | ⟨-, h⟩⟩
    · exact nomatch (show none = some m from h)
    · exact nomatch (show none = some m from h)
  · exact ⟨_, .head _, _, .head _, 0, rfl, by decide, by decide, Or.inl rfl⟩
  · exact ⟨_, .head _, _, .head _, 0, rfl, by decide, by decide, Or.inr (Or.inl rfl)⟩
  · rintro ⟨tb, h, y, hy, a, ha, _, _, h3⟩
    cases List.mem_singleton.1 h
    have : y = { blk := 5, alt := 0, fix := 0, at0 := some 0 } ∨ y = { blk := 5, alt := 0, fix := 0, at0 := some 1 } := by
      simpa [bindA, tableA] using hy
    rcases this with rfl | rfl <;> revert h3 <;> decide

/-- A fallback's reserve ends in the cycle of the point, in a mode whose binding has no other. -/
theorem witness_reserve_ends :
    let f : Firing := { firingA 0 0 with fb := true, deadline := 20000 }
    let x : Domain := { domM with mode := 1, firings := [f] }
    x.running = true ∧ x.active = some bindM ∧ (∃ tb, bindM.table x.mode = some tb ∧ ∀ m, ¬ SwitchesTo x bindM tb m) ∧ x.frozen = none ∧
    x.degraded = none ∧ x.firings = [f] ∧ f.dom = 0 ∧ f.fb = true ∧ f.deadline ≤ (sMode x).now ∧ f.ended = false ∧ f.trapped = [] ∧ f.causes = [] ∧
    f.out = [] ∧ f.base < 256 ∧ f.logsz < 5 ∧ f.base % 2 ^ f.logsz = 0 ∧ (∀ c, f.base ≤ c → c < f.base + 2 ^ f.logsz → ((sMode x).cell c).seqr = []) ∧
    x.standby = none := by
  refine ⟨rfl, rfl, ⟨_, rfl, ?_⟩, rfl, rfl, rfl, rfl, rfl, by decide, rfl, rfl, rfl, rfl, by decide, by decide, by decide, fun c h1 h2 => ?_, rfl⟩
  · rintro m ⟨-, h | ⟨-, h⟩⟩
    · exact nomatch (show none = some m from h)
    · exact nomatch (show none = some m from h)
  · have : c = 0 := by
      have h2 : c < 0 + 1 := h2
      omega
    subst this; rfl

theorem witness_rebinding :
    let x : Domain := { domM with standby := some bindM, fresh := true, bindReady := some 1 }
    x.running = true ∧ x.active = some bindM ∧ (∃ tb, bindM.table x.mode = some tb) ∧ x.standby = some bindM ∧ x.bindReady = some 1 ∧
    1 ≤ x.pointNo ∧ x.frozen = none ∧ x.degraded = none ∧ bindM.tables ≠ [] ∧ (∀ y ∈ bindM.tables, y.id < 16) :=
  ⟨rfl, rfl, ⟨_, rfl⟩, rfl, rfl, by decide, rfl, rfl, by decide, by decide⟩

theorem witness_tables_start :
    (∃ b tb, ({ domM with launching := some (0, 3, 1, 9, 5) } : Domain).launching = some (0, 3, 1, 9, 5) ∧
      (if domM.fresh then domM.standby else domM.active) = some b ∧ b.table 1 = some tb ∧ domM.frozen = none ∧ ∀ y ∈ b.tensors, tHome y.2 ≠ 2) ∧
    (bindM.tables.find? fun y => y.safe).map (fun y => y.id) = some 1 ∧ 1 ≠ domM.mode ∧
    (∃ b : Binding, b = { tables := [{ id := 0 }] } ∧ (b.tables.find? fun y => y.safe).map (fun y => y.id) ≠ some 0 ∧ ∀ y ∈ b.tables, y.safe = false) :=
  ⟨⟨_, _, rfl, rfl, rfl, rfl, fun _ h => nomatch h⟩, by decide, by decide, _, rfl, by decide, by decide⟩

theorem witness_partition_reset :
    ((sMode domM).dom 0).grant.cells ≠ 0 ∧ ((sMode {}).dom 0).grant.cells = 0 ∧ Owns (sMode domM) 0 0 ∧ ¬ Owns (sMode domM) 0 1 ∧
    (∃ r, ((sMode { domM with resetAt := some 19936 }).dom 0).resetAt = some r ∧ (sMode domM).now = r + 64) ∧
    (∃ r i tag, ((sMode { domM with resetAt := some 11744, resetWaits := [(1, 2, 20000)] }).dom 0).resetAt = some r ∧ (sMode domM).now = r + 8256 ∧
      ((sMode { domM with resetWaits := [(1, 2, 20000)] }).dom 0).resetWaits = [(i, tag, (sMode domM).now)]) := by
  unfold Owns
  refine ⟨by decide, by decide, by decide, by decide, ⟨_, rfl, by decide⟩, _, _, _, rfl, by decide, rfl⟩

theorem witness_bindings :
    ((sMode { domM with fresh := true }).dom 0).fresh = true ∧ ((sMode domM).dom 0).binding = none ∧
    (∃ r : BindResult, r = { status := 0, record := [], tables := some bindM } ∧ ((sMode { domM with binding := some (0, 3, r) }).dom 0).binding = some (0, 3, r) ∧
      r.tables = some bindM ∧ ∀ y ∈ bindM.tensors, tHome y.2 ≠ 2) ∧
    (∃ r : BindResult, r = { status := 2, record := [] } ∧ r.tables = none) :=
  ⟨rfl, rfl, ⟨_, rfl, rfl, rfl, fun _ h => nomatch h⟩, _, rfl, rfl⟩

theorem witness_launches :
    let x : Domain := { domM with state := 1, running := false }
    (9 < 2 ^ 48) ∧ x.state = 1 ∧ (if x.fresh then x.standby else x.active) = some bindM ∧ (bindM.table 1).isSome = true ∧
    (sMode x).clock + 8192 ≤ 9 * 4096 ∧ ¬ (sMode x).clock + 8192 ≤ 6 * 4096 ∧ x.launching = none ∧ bindM.usesSpan = false ∧
    (∃ b : Binding, b = { tables := [{ id := 0, chans := [{ chanIn 3 4 with fstg := 0xFFFE }] }] } ∧ b.usesSpan = true) ∧ domM.state ≠ 1 ∧
    bindM.table 2 = none := by
  refine ⟨by decide, rfl, rfl, by decide, by decide, by decide, rfl, by decide, ⟨_, rfl, by decide⟩, by decide, rfl⟩

/-! ### Witnesses: the host -/

/-- Domain 0, running, with channel 0 from the host, channel 1 to it and channel 2 inside. -/
def domH (q : List Word) : Domain :=
  { domA [{ chanIn 0 4 with fstg := 0xFFFF, size := 8 }, { chanOut 0 4 with tstg := 0xFFFF, size := 8 }, chanOut 1 2] (firingA 0 0) [] with
    chans := [(0, { queue := q }), (1, { queue := q })] }
def sH (q : List Word) : State := { now := 50, doms := [(0, domH q)], hub := { up := true, stage := 6, dieMap := 3 } }

theorem witness_host_channels :
    (∃ tb c, HostChannel (sH [1]) 0 0 tb c ∧ tb.stages.length ≤ 0xFFFF ∧ c.fstg = 0xFFFF ∧ ((domH [1]).chan 0).queue.length < c.cap ∧
      (∃ k, stageCluster tb c.tstg = some k ∧ 0x210 + 16 * 0 ≤ (sH [1]).shareSize 0 k) ∧ ((domH [1]).chan 0).tail + 1 < countMod c.cap) ∧
    (∃ tb c, HostChannel (sH [1, 2, 3, 4]) 0 0 tb c ∧ c.cap ≤ ((domH [1, 2, 3, 4]).chan 0).queue.length) ∧
    (∃ tb c w r, HostChannel (sH [1]) 0 1 tb c ∧ c.tstg = 0xFFFF ∧ ((domH [1]).chan 1).queue = w :: r) ∧
    (∃ tb c, HostChannel (sH []) 0 1 tb c ∧ ((domH []).chan 1).queue = []) ∧
    (∃ tb c, ((sH []).dom 0).table = some tb ∧ tb.chans[2]? = some c ∧ c.fstg ≠ 0xFFFF ∧ c.tstg ≠ 0xFFFF ∧ tb.chans[3]? = none) :=
  ⟨⟨_, _, ⟨rfl, rfl, rfl, .inl rfl⟩, by decide, rfl, by decide, ⟨_, rfl, by decide⟩, by decide⟩, ⟨_, _, ⟨rfl, rfl, rfl, .inl rfl⟩, by decide⟩,
    ⟨_, _, _, _, ⟨rfl, rfl, rfl, .inr rfl⟩, rfl, rfl⟩, ⟨_, _, ⟨rfl, rfl, rfl, .inr rfl⟩, rfl⟩, _, _, rfl, rfl, by decide, by decide, rfl⟩

theorem witness_host_commands :
    (∃ b, (domH []).active = some b ∧ (b.table 0).isSome = true ∧ b.table 3 = none) ∧ (domH []).running = true ∧
    ((domH []).ring 1).syncing = none ∧ (({ rings := [(1, { syncing := some 0 })] } : Domain).ring 1).syncing = some 0 ∧ ¬ HostWriteWaits (sH []) (sH []).nextId ∧
    (∃ s : State, s = { dies := [(0, { reqs := [{ id := 1, dom := 9, cls := .best, ready := 5, cmd := 0, addr := 0, op := .hostWrite 7 }] })] } ∧ HostWriteWaits s 2) ∧
    clusterUsable (sH []) 0 = true ∧ ((sH []).engine 0).storeBytes 3 + 8 ≤ 2 ^ 14 ∧ 8 % 4 = 0 ∧ InCluster (sH []) 0 0 ∧
    (∃ s : State, s = { hub := { dieMap := 1 } } ∧ clusterUsable s 0 = true ∧ ∀ p, p < 8 → (s.dom p).running = false) :=
  ⟨⟨_, rfl, by decide, rfl⟩, rfl, rfl, rfl, (fun ⟨_, h, _⟩ => nomatch h), ⟨_, rfl, _, .head _, _, .head _, by decide, _, rfl⟩, by decide, by decide, by decide, ⟨0, by decide, rfl, by unfold Owns; decide⟩, _, rfl, by decide, fun _ _ => rfl⟩

/-- Ring 1 of domain 0, of 16 entries at host address 0x4000, whose entry 0 is RESET with tag 5. -/
def sR (r : Ring) : State :=
  { hub := { up := true, stage := 6, slots := [(3, (0, 1))] }, doms := [(0, { ren := 2, rings := [(1, r)] })], host := [(0x4000, 3), (0x4002, 5)] }
def ringR : Ring := { reg := 0x4004, slot := some 3, head := 0, tail := 0 }

theorem witness_command_rings :
    (sR ringR).hub.stage = 6 ∧ (((sR ringR).dom 0).ring 1).slot ≠ none ∧ (((sR ringR).dom 0).ring 1).stopped = false ∧
    (((sR ringR).dom 0).ring 1).busy = false ∧ ((sR ringR).dom 0).ren.getLsbD 1 = true ∧ (ringR.reg.setWidth 5).toNat = 4 ∧ ringR.head ≠ 1 ∧
    ((1 : BitVec 32) - ringR.head).toNat ≤ 2 ^ 4 ∧ 2 ^ 4 < ((17 : BitVec 32) - ringR.head).toNat ∧
    EntryWords (sR ringR) ((ringR.reg.extractLsb' 12 52).toNat * 4096 + 64 * (ringR.head.toNat % 2 ^ 4)) ((3 + 5 * 2 ^ 16) :: []) ∧
    (∃ r, ((sR { ringR with slot := none }).dom 0).ring 1 = r ∧ r.slot = none) ∧
    (∃ s : State, s = { hub := { slots := [] } } ∧ (∀ y ∈ s.hub.slots, y.1 ≠ 5) ∧ ((s.dom 0).ring 1).slot = none) ∧
    (∃ s : State, s = { hub := { stage := 1 } } ∧ s.hub.stage ≠ 6) := by
  unfold EntryWords
  refine ⟨rfl, by decide, rfl, rfl, by decide, by decide, by decide, by decide, by decide, by decide, ⟨_, rfl, rfl⟩, ⟨_, rfl, (fun _ h => nomatch h), rfl⟩,
    _, rfl, by decide⟩

/-- An unused bit of each kind makes an entry bad, and the RESET of `sR` is not. -/
theorem witness_bad_entries :
    (∀ l ∈ ([[0x0103], [0x100000003], [10], [3, 1], [1, 0, 0, 16], [2, 0, 2 ^ 48], [4, 2 ^ 16], [4, 0, 2]] : List (List Nat)),
      BadEntry fun k => l.getD k 0) ∧ ¬ BadEntry fun k => [3 + 5 * 2 ^ 16].getD k 0 := by
  constructor
  · intro l h
    simp only [List.mem_cons, List.not_mem_nil, or_false] at h
    rcases h with rfl | rfl | rfl | rfl | rfl | rfl | rfl | rfl <;> simp [BadEntry, entryLength]
    exact ⟨1, by omega, by omega, by decide⟩
  · rintro (h | h | h | h | ⟨k, h1, h2, h3⟩ | h | h | h)
    · exact absurd h (by decide)
    · exact absurd h (by decide)
    · exact absurd h (by decide)
    · exact absurd h (by decide)
    · cases k with
      | zero => exact absurd h1 (by decide)
      | succ k => exact h3 (by cases k <;> rfl)
    · exact absurd h.1 (by decide)
    · exact absurd h.1 (by decide)
    · exact absurd h.1 (by decide)

/-- Domain 0 is about to read ring 1, or no ring; ring 1 holds two commands. -/
def sRead (k : Option Nat) : State :=
  { sR ringR with doms := [(0, { ren := 2, reading := k, rings := [(1, { ringR with tail := 2 })] })] }

theorem witness_round_robin :
    (∀ k ∈ ([none, some 1, some 2] : List (Option Nat)), HasCommand ((sRead k).dom 0) 1 ∧ ((sRead k).dom 0).reading = k ∧ ((((sRead k).dom 0).turn + 1) % 8 = 1)) ∧
    (∀ k, k < 8 → ¬ HasCommand ((sR ringR).dom 0) k) ∧ (∀ j, j < 1 → ¬ HasCommand ((sRead none).dom 0) j) := by
  unfold HasCommand
  refine ⟨?_, ?_, ?_⟩ <;> decide

/-- Every slot is taken, slot n by ring n mod 8 of domain n / 8. -/
def sFull : State :=
  { hub := { up := true, stage := 6, slots := (List.range 64).map fun n => (n, (n / 8, n % 8)) }
    doms := (List.range 8).map fun d => (d, { rings := (List.range 8).map fun i => (i, { slot := some (8 * d + i) }) }) }

theorem witness_full_slots :
    sFull.hub.stage = 6 ∧ ((sFull.dom 8).ring 0).slot = none ∧ (∀ y ∈ sFull.hub.slots, y.1 ≠ 64) ∧
    (∀ m, m < 64 → ¬ ∀ y ∈ sFull.hub.slots, y.1 ≠ m) ∧
    (∀ m, m < 64 → let y := SMap.get (9, 9) sFull.hub.slots m; y.1 < 9 ∧ y.2 < 8 ∧ ((sFull.dom y.1).ring y.2).slot = some m) ∧
    (∃ s : State, s = { hub := { stage := 6, slots := [(0, (1, 1))] } } ∧ ((s.dom 0).ring 1).slot = none ∧ (∀ y ∈ s.hub.slots, y.1 ≠ 64) ∧
      (∀ y ∈ s.hub.slots, y.1 ≠ 1) ∧ ∀ m, m < 1 → ¬ ∀ y ∈ s.hub.slots, y.1 ≠ m) := by
  refine ⟨rfl, rfl, ?_, ?_, ?_, _, rfl, rfl, ?_, ?_, ?_⟩ <;> decide

/-- Domains 0, bound, and 1, idle with nothing granted, on a device of two dies. -/
def sG (g : Grant) : State := { hub := { stage := 6, dieMap := 3 }, doms := [(0, { state := 1, grant := { cells := 1 } }), (1, { grant := g })] }

theorem witness_grants :
    (sG {}).hub.stage = 6 ∧ ((sG {}).dom 0).state ≠ 0 ∧ ((sG {}).dom 1).state = 0 ∧ Owns (sG {}) 0 (64 * 0 + 0) ∧ (1 : Word).getLsbD 0 = true ∧
    (sG {}).hub.dieMap.getLsbD 2 = false ∧
    (∀ c, c < 64 → (2 : Word).getLsbD c = true → (∀ p, p < 9 → p ≠ 1 → ¬ Owns (sG {}) p (64 * 0 + c)) ∧ (sG {}).hub.dieMap.getLsbD 0 = true ∧
      (sG {}).hub.dieMap.getLsbD (4 + 0) = false ∧ (sG {}).hub.dieMap.getLsbD (24 + (64 * 0 + c) / 16) = false) ∧
    ((300 : Word).setWidth 9).toNat > 256 ∧ ((256 : Word).setWidth 9).toNat ≤ 256 ∧
    (∀ i, i < 4 → ((0x200 : Word).extractLsb' (16 * i) 16).toNat ≤ 512) ∧ 512 < ((0x201 : Word).extractLsb' (16 * 0) 16).toNat ∧
    (∀ i, i < 8 → ¬ (128 < ((0x80 : Word).extractLsb' (8 * i) 8).toNat)) ∧ 128 < ((0x81 : Word).extractLsb' (8 * 0) 8).toNat ∧
    (∀ i, i < 4 → ((0x1E0 : Word).extractLsb' (16 * i) 16).toNat ≤ 480) ∧ 480 < ((0x1E1 : Word).extractLsb' (16 * 0) 16).toNat ∧
    256 < ((0x201 : Word).extractLsb' 0 9).toNat + ((0x201 : Word).extractLsb' 9 9).toNat + 255 := by
  unfold Owns
  refine ⟨?_, ?_, ?_, ?_, ?_, ?_, ?_, ?_, ?_, ?_, ?_, ?_, ?_, ?_, ?_, ?_⟩ <;> decide

/-- Overlapping semaphores in a cluster that two domains use, and a grant that meets none. -/
theorem witness_objects :
    let s : State := { doms := [(0, { grant := { cells := 1, semBase := 0, semCnt := 4 } })] }
    ObjectsOverlap s 1 { cells := 2, semBase := 3, semCnt := 2 } ∧ ¬ ObjectsOverlap s 1 { cells := 2, semBase := 4, semCnt := 2 } := by
  refine ⟨⟨0, 0, by decide, by decide, ⟨0, by decide, rfl, ?_⟩, ⟨1, by decide, rfl, by decide⟩, Or.inl ⟨3, ?_⟩⟩, ?_⟩
  · unfold Owns; decide
  · decide
  · rintro ⟨p, k, hp, -, -, -, h⟩
    rcases h with ⟨n, h1, h2, h3, h4⟩ | ⟨n, h1, h2, h3, h4⟩
    · have h3' : 4 ≤ n := h3
      have : ∀ p < 9, (({ doms := [(0, { grant := { cells := 1, semBase := 0, semCnt := 4 } })] } : State).dom p).grant.semBase +
          (({ doms := [(0, { grant := { cells := 1, semBase := 0, semCnt := 4 } })] } : State).dom p).grant.semCnt ≤ 4 := by decide
      exact absurd (Nat.lt_of_lt_of_le h2 (this p hp)) (Nat.not_lt.mpr h3')
    · exact absurd h4 (Nat.not_lt.mpr (Nat.zero_le n))

theorem witness_fault_ring_and_windows :
    let x : Domain := { fltTail := 5, fltHead := 2, winC := some 0, winF := some 0 }
    (2 ^ 31 ≤ ((4 : BitVec 32) - x.fltTail).toNat) ∧ (6 : BitVec 32) ≠ x.fltTail ∧ ((6 : BitVec 32) - x.fltTail).toNat < 2 ^ 31 ∧
    x.winC = some ({} : State).now ∧ x.winF = some ({} : State).now ∧ ({} : Domain).winC ≠ some ({} : State).now ∧ (∀ i, i < 8 → (x.ring i).slot = none) ∧
    (∃ s : State, s = { hub := { stage := 6, dieMap := 1, lp6Gb := [8] } } ∧ s.hub.dieMap.getLsbD 0 = true ∧ s.hub.dieMap.getLsbD (4 + 0) = false ∧
      0x88 / 8 * 8 < s.hub.lp6Gb.getD 0 0 * 2 ^ 30 ∧ SMap.get false (s.die 0).slotting (0x88 / 64 % 8) = false ∧ s.hub.dieMap.getLsbD 1 = false) ∧
    (∃ s : State, s = { cells := [(0, { run := .held })] } ∧ (s.cell 0).run = .held ∧ (s.cell 1).run ≠ .held) := by
  refine ⟨by decide, by decide, by decide, rfl, rfl, by decide, fun _ _ => rfl, ⟨_, rfl, by decide⟩, _, rfl, by decide⟩

/-! ### Witnesses: time, boot, errors, the step -/

theorem witness_regulator :
    let h : Hub := { en := true, rstate := 1, cset := true, sampled := true, pherr := 5, age := 2000, within := 255 }
    (h.rstate = 1 ∨ h.rstate = 2) ∧ h.cset = true ∧ h.sampled = true ∧ -1024 ≤ h.pherr.toInt ∧ h.pherr.toInt ≤ 1024 ∧ -858993 ≤ h.fofs.toInt ∧ h.fofs.toInt ≤ 858993 ∧
    256 ≤ h.within + 1 ∧ h.en = true ∧ h.rstate ≠ 3 ∧ h.holdth.toNat ≤ h.age.toNat + 1 ∧
    1024 < ({ h with pherr := 2000 } : Hub).pherr.toInt ∧ ({ h with rstate := 3 } : Hub).rstate = 3 ∧ h.epoch.toNat ≤ 700 ∧
    (700 - h.epoch.toNat) * 7 / 5 < 2 ^ 59 ∧ ({ h with cset := false } : Hub).cset = false ∧ h.anyTable = false ∧ ((3 : Word).setWidth 2 = (3 : BitVec 2)) := by
  decide

/-- What the root key hash and the signatures come to is not known to the model (log 5), so the clauses of Boot split on them; what else they
ask of the boot is met here. -/
theorem witness_boot :
    let die : DieBoot := { inPackage := true, harvested := false, trains := true, derives := true, puf := [1], hubNonce := [2], dieNonce := [3], memoryOk := true, firmware := [] }
    let f : BootFind :=
      { firmware := [1], firmwareSig := [], config := [2], configSig := [], pufOk := true, hubPuf := [4], dieKeys := [[1], [2]], hubKey := [3], pcieOk := true,
        dies := [die, die, { die with inPackage := false }, { die with trains := false }], harvest := 0, spanNumber := 0,
        spanRing := false, spanCount := 1, lp6Gb := [8, 8, 8, 8], imageKeys := [], rootKey := [], signature := 0 }
    f.config ≠ [] ∧ f.pufOk = true ∧ f.dies.length = 4 ∧ f.pcieOk = true ∧ f.dies[0]? = some die ∧
    (∀ rom : Bool, rom = true ∨ ¬ rom = true) := by
  refine ⟨by decide, rfl, rfl, rfl, rfl, by decide⟩

theorem witness_soft_errors :
    (3 < 256 ∧ 4 < 32 ∧ 5 < 8 ∧ 31 < 32) ∧
    ∃ bd tb y, ((sA [] (firingA 0 0) []).dom 0).active = some bd ∧ bd.table ((sA [] (firingA 0 0) []).dom 0).mode = some tb ∧
      ((sA [] (firingA 0 0) []).dom 0).entry 0 0 = some y ∧ y.bad = false ∧ (tb.columns.map fun z => z.1).Nodup :=
  ⟨by decide, _, _, _, rfl, rfl, rfl, rfl, by decide⟩

/-- The supervisor's cell with a clean code store. -/
def sN (words : List (BitVec 32)) : State := withCell sB { cellA with dom := 8, firing := 0, code := [(1, words)] }

theorem witness_step_issue :
    (sN [0x58000000]).hub.up = true ∧ nextTurn (sN [0x58000000]) = some (.issue 0 0) ∧
    ((sN [0x58000000]).cell 0).codeClean (((sN [0x58000000]).cell 0).codeKeys 0) = true ∧
    decodeWords (0x58000000 : BitVec 32).toNat none = .ok (.nop 0) ∧
    decodeWords (0xFC000000 : BitVec 32).toNat none = .error .unassignedMajor ∧ nextTurn (sN [0xFC000000]) = some (.issue 0 0) ∧
    (SMap.get [] ((sN []).cell 0).code ((sN []).cell 0).block).length ≤ ((sN []).cell 0).pc / 4 ∧ nextTurn (sN []) = some (.issue 0 0) ∧
    routineOk (.nop 0) = true ∧ routineOk (.semWait 0 1 2) = false := by
  refine ⟨rfl, rfl, ?_, rfl, rfl, rfl, ?_, rfl, rfl, rfl⟩ <;> decide

theorem witness_step_other :
    (∃ e, nextTurn State.reset = some (.event e)) ∧ nextTurn ({ hub := { up := true } } : State) = none ∧
    nextTurn (withCell sB { cellA with dom := 8, firing := 0, hreq := true }) = some (.halt 0 0) ∧
    (∃ x : Cell, x = { cellA with codePoison := [(codeKey 1 0, true)] } ∧ ∃ k ∈ x.codeKeys 0, x.codeBad k = true) ∧
    ({} : State).hub.up = false := ⟨⟨_, rfl⟩, rfl, rfl, ⟨_, rfl, codeKey 1 0, by decide, by decide⟩, rfl⟩

theorem witness_canonical : memoriesWf State.reset = true ∧ ∃ t, step State.reset = .next t := ⟨by decide, _, rfl⟩

theorem witness_clock :
    (∀ f, (Instr.nop 0) ≠ .deviceReset f) ∧ (∃ t, exec (.nop 0) sB = .next t) ∧ ({ cset := true } : Hub).cset = true ∧
    ∃ t, step State.reset = .next t := ⟨fun _ h => Instr.noConfusion h, ⟨_, rfl⟩, rfl, _, rfl⟩

theorem witness_decode_encode :
    (Instr.vectorLong 1 2 3 0 4 .vneg .fp32 .rtz).isProgram = true ∧ (Instr.vectorLong 1 2 3 0 4 .vneg .fp32 .rtz).wf = true ∧
    decodeWords 0xE8008002 (some 0x10) = .ok (.loop 0 1 2 16) ∧ 0xE8008002 < 2 ^ 32 ∧ 0x10 < 2 ^ 32 := ⟨rfl, by decide, rfl, by decide⟩

/-! ### Decoding: words put together field by field from the manual's tables of encodings, for every instruction that has words -/

/-- Each word decodes to its instruction. -/
def reads (l : List (Nat × Instr)) : Bool :=
  l.all fun x => match decodeWords x.1 none with | .ok i => decide (i = x.2) | .error _ => false

def readsLong (l : List (Nat × Nat × Instr)) : Bool :=
  l.all fun x => match decodeWords x.1 (some x.2.1) with | .ok i => decide (i = x.2.2) | .error _ => false

theorem test_decode_scalar_1 : reads [
    (0x010CA607, .add 2 3 5 6 .w32 true true), (0x010CA617, .sub 2 3 5 6 .w32 true true), (0x010CA627, .mul 2 3 5 6 .w32 true true),
    (0x010CA637, .madd 2 3 5 6 .w32 true true), (0x050CA604, .mulh 2 3 5 6 .w32), (0x050CA614, .div 2 3 5 6 .w32),
    (0x050CA624, .rem 2 3 5 6 .w32), (0x050CA634, .min 2 3 5 6 .w32), (0x050CA644, .max 2 3 5 6 .w32), (0x050CA654, .sra 2 3 5 6 .w32),
    (0x050CA064, .sext 2 3 5 .w32), (0x050CA674, .bfx 2 3 5 6 .w32), (0x090CA604, .mulhn 2 3 5 6 .w32), (0x090CA614, .divn 2 3 5 6 .w32),
    (0x090CA624, .remn 2 3 5 6 .w32), (0x090CA634, .minn 2 3 5 6 .w32), (0x090CA644, .maxn 2 3 5 6 .w32), (0x090CA654, .shr 2 3 5 6 .w32),
    (0x090CA064, .zext 2 3 5 .w32), (0x0D0CA604, .and 2 3 5 6 .w32), (0x0D0CA614, .or 2 3 5 6 .w32), (0x0D0CA624, .xor 2 3 5 6 .w32),
    (0x0D0CA634, .andn 2 3 5 6 .w32), (0x0D0CA644, .orn 2 3 5 6 .w32)] = true := by decide

theorem test_decode_scalar_2 : reads [
    (0x0D0CA654, .shl 2 3 5 6 .w32), (0x0D0CA664, .rol 2 3 5 6 .w32), (0x0D0CA074, .clz 2 3 5 .w32), (0x0D0CA084, .ctz 2 3 5 .w32),
    (0x0D0CA094, .pop 2 3 5 .w32), (0x0D0CA6A4, .bfi 2 3 5 6 .w32), (0x110CA60C, .sel 2 3 5 6 .w32 4), (0x110CA623, .ix 2 3 5 6 3)] = true := by decide

theorem test_decode_immediate_and_control : reads [
    (0x210CB234, .addImm 2 3 5 0x1234), (0x250CB234, .andImm 2 3 5 0x1234), (0x290CB234, .orImm 2 3 5 0x1234),
    (0x2D0CB234, .xorImm 2 3 5 0x1234), (0x310CB234, .shlImm 2 3 5 0x1234), (0x350CB234, .shrImm 2 3 5 0x1234),
    (0x390CB234, .sraImm 2 3 5 0x1234), (0x414CC8A6, .cmp 2 4 6 .any .lt 5 6), (0x454CC8B5, .cmpImm 2 4 6 .any .lt 5 21),
    (0x512BCDEF, .br 2 0x2bcdef), (0x552BCDEF, .call 2 0x2bcdef), (0x59000000, .nop 2), (0x59000001, .done 2), (0x59000002, .ret 2),
    (0x5900A003, .brr 2 5), (0x5900A004, .rep 2 5), (0x5900A005, .tickw 2 5), (0x590C0006, .fsel 2 3), (0x5D152345, .chk 2 5 0x12345)] = true := by decide

theorem test_decode_memory_and_system : reads [
    (0x610CB3AB, .ldD 2 3 5 9 0x1ab), (0x650CB3AB, .ldW 2 3 5 9 0x1ab), (0x690CB3AB, .stD 2 3 5 9 0x1ab),
    (0x6D0CB3AB, .stW 2 3 5 9 0x1ab), (0x710C0029, .cwget 2 3 41), (0x7100A129, .cwput 2 5 41), (0x710FC200, .qcnt 2 3 2),
    (0x75000004, .fence 2 .system), (0x75100603, .sbar 2 0x603), (0x75200009, .tokw 2 9), (0x7900A600, .semAdd 2 5 6),
    (0x7900A601, .semWait 2 5 6), (0x7900A602, .barInit 2 5 6), (0x7900A003, .barArrive 2 5), (0x7900A004, .barWait 2 5),
    (0x7900A005, .pub 2 5), (0x7920A006, .hres 2 8 5), (0x7D00A000, .trap 2 5), (0x7D000001, .brk 2), (0x7D000002, .tret 2),
    (0x7D00A003, .modeReq 2 5), (0x7D000004, .inject 2), (0x7D00A005, .ttsync 2 5)] = true := by decide

theorem test_decode_vector_a_1 : reads [
    (0x850CA680, .vadd 1 2 3 5 6 4), (0x850CA681, .vsub 1 2 3 5 6 4), (0x850CA682, .vmul 1 2 3 5 6 4), (0x850CA683, .vfma 1 2 3 5 6 4),
    (0x850CA684, .vfnma 1 2 3 5 6 4), (0x850CA685, .vmin 1 2 3 5 6 4), (0x850CA686, .vmax 1 2 3 5 6 4), (0x850CA087, .vabs 1 2 3 5 4),
    (0x850CA088, .vneg 1 2 3 5 4), (0x850CA089, .vrcp 1 2 3 5 4), (0x850CA08A, .vrsqrt 1 2 3 5 4), (0x850CA08B, .vexp2 1 2 3 5 4),
    (0x850CA08C, .vlog2 1 2 3 5 4), (0x850CA08D, .vtanh 1 2 3 5 4), (0x850CA08E, .vsigm 1 2 3 5 4), (0x9D0CA68F, .vcmul 7 2 3 5 6 4),
    (0x850CA690, .vceq 1 2 3 5 6 4), (0x850CA691, .vcne 1 2 3 5 6 4), (0x850CA692, .vclt 1 2 3 5 6 4), (0x850CA693, .vcle 1 2 3 5 6 4),
    (0x850CA694, .vsel 1 2 3 5 6 4), (0x950CA695, .vand 5 2 3 5 6 4), (0x950CA696, .vor 5 2 3 5 6 4), (0x950CA697, .vxor 5 2 3 5 6 4)] = true := by decide

theorem test_decode_vector_a_2 : reads [
    (0x950CA698, .vshl 5 2 3 5 6 4), (0x950CA699, .vshr 5 2 3 5 6 4), (0x950CA69A, .vsra 5 2 3 5 6 4), (0x850CA09B, .vrelu 1 2 3 5 4),
    (0x850CA09C, .vsplat 1 2 3 5 4), (0x850CA69D, .vins 1 2 3 5 6 4), (0x850CA69E, .vext 1 2 3 5 6 4), (0x850CA09F, .vmov 1 2 3 5 4)] = true := by decide

theorem test_decode_vector_b : reads [
    (0xA50CA080, .vrsum 1 2 3 5 4), (0xA50CA081, .vrmax 1 2 3 5 4), (0xA50CA082, .vrmin 1 2 3 5 4), (0xA50CA083, .vramax 1 2 3 5 4),
    (0xA50CA084, .vscan 1 2 3 5 4), (0xA50CA085, .vscanx 1 2 3 5 4), (0xA50CA686, .vperm 1 2 3 5 6 4), (0xA50CA687, .vshuf 1 2 3 5 6 4),
    (0xA50CA688, .vrot 1 2 3 5 6 4), (0xA50CA689, .vzip 1 2 3 5 6 4), (0xA50CA68A, .vunzip 1 2 3 5 6 4), (0xA50CA68B, .vbcl 1 2 3 5 6 4)] = true := by decide

theorem test_decode_matrix_and_spectral : reads [
    (0xB1229844, .mma 2 2 5 6 .bf16), (0xB1229845, .mmaCk 2 2 5 6 .bf16), (0xB1229846, .mmaCo 2 2 5 6 .bf16), (0xB5200014, .mz 2 2 true),
    (0xB5228015, .mld 2 2 5 true), (0xB5228016, .mst 2 2 5 true), (0xB5229847, .mdrain 2 2 5 6 .bf16), (0xB9200040, .cfgsel 2 2),
    (0xBD262000, .xfmFwd 2 .b16 12 8), (0xBD262080, .xfmInv 2 .b16 12 8), (0xBD262100, .xfmPack 2 .b16 12 8),
    (0xBD262180, .xfmUnpack 2 .b16 12 8), (0xBD228201, .dtag 2 .b16 5 1), (0xC1229900, .mmaC 2 2 5 6 .b16)] = true := by decide

theorem test_decode_copies_streams_links_power : reads [
    (0xC9414120, .cpNd 2 true 5 9), (0xC9494138, .cpCvt 2 true 5 9 .rst), (0xC9514D20, .cpCrc 2 true 5 6 9),
    (0xC9594D20, .cpFill 2 true 5 6 9), (0xC9614120, .cpAlias 2 true 5 9), (0xC9694D20, .cpRtn 2 true 5 6 9),
    (0xCD03E600, .strSend 2 1 6), (0xCD0FA001, .strRecv 2 3 1), (0xD10CA000, .lnkStat 2 3 5), (0xD100A001, .lnkPause 2 5),
    (0xD100A602, .lnkRemap 2 5 6), (0xD100A603, .lnkTrain 2 5 6), (0xD100A004, .lnkResume 2 5), (0xD500A600, .pwrBorrow 2 5 6),
    (0xD500A601, .pwrRepay 2 5 6), (0xD500A002, .pwrGate 2 5)] = true := by decide

/-- R63, R64: the long scalar forms; AMO words differ in op alone. -/
theorem test_decode_long_scalar : readsLong [
    (0xE4142007, 0x10, .wideImmediate 0 5 1 7 (.sub .w64 false false)), (0xE0240020, 0x0C800000, .ld 0 9 0 0 32 .d false ⟨false, .cb, 0⟩),
    (0xE0244001, 0x1C000000, .ldsp 0 9 2 0 1 .d false ⟨false, .sp, 0⟩), (0xE0040060, 0x2C800000, .st 0 1 0 0 0x60 .d ⟨false, .cb, 0⟩),
    (0xE01D0000, 0x3D048000, .amoAdd 0 7 8 0 0 true .sp 0 9), (0xE01D0000, 0x4D048000, .amoMin 0 7 8 0 0 true .sp 0 9),
    (0xE01D0000, 0x5D048000, .amoMax 0 7 8 0 0 true .sp 0 9), (0xE01D0000, 0x6D048000, .amoMinn 0 7 8 0 0 true .sp 0 9),
    (0xE01D0000, 0x7D048000, .amoMaxn 0 7 8 0 0 true .sp 0 9), (0xE01D0000, 0x8D048000, .amoSwap 0 7 8 0 0 true .sp 0 9),
    (0xE0296001, 0x99060000, .amoCas 0 10 11 0 1 false .sp 0 12), (0xE01D0000, 0xADB48000, .amoAmax 0 7 8 0 0 true .cb 3 9),
    (0xE8048009, 8, .loop 0 9 9 8), (0xE8128000, 0, .liLow 0 5 0), (0xE8228000, 1, .liHigh 0 5 1), (0xE8328000, 0x40, .adr 0 5 0x40)] = true := by
  decide

/-- R70, R71, R73: the long vector and matrix forms. -/
theorem test_decode_long_vector_and_matrix : readsLong [
    (0xEC0C2200, 0x10C00000, .vectorLong 0 3 1 2 0 .vadd .fp32 .rst), (0xEC102100, 0x11204000, .vcvt 0 4 1 1 0 .bf16 .rne .fp32),
    (0xEC202001, 0x28204000, .vquant 0 8 1 0 .mxfp8 .rne .fp32), (0xEC0D0002, 0x1020A000, .vdequant 0 3 8 0 .fp32 .rne .mxfp8),
    (0xEC0C2043, 0x11200000, .vamax 0 3 1 2 .bf16 .rne), (0xF0144000, 0x10020020, .vld 0 5 2 0 0 .fp32 ⟨false, .sp, 1⟩ 32),
    (0xF0188526, 0x11520000, .vlds 0 6 4 5 2 3 .bf16 ⟨false, .cb, 1⟩ 0), (0xF0188526, 0x11920000, .vldx 0 6 4 5 2 3 .bf16 ⟨false, .cb, 1⟩ 0),
    (0xF0188027, 0x11120000, .vst 0 6 4 2 3 .bf16 ⟨false, .cb, 1⟩ 0), (0xF0188527, 0x11520000, .vsts 0 6 4 5 2 3 .bf16 ⟨false, .cb, 1⟩ 0),
    (0xF0188527, 0x11920000, .vstx 0 6 4 5 2 3 .bf16 ⟨false, .cb, 1⟩ 0), (0xF4008804, 0x48000000, .mmaG 0 0 1 2 .i8 9),
    (0xF4108889, 0x18000000, .mmaSp 0 1 1 2 .e2m1 3 .p24)] = true := by decide

/-- R74: the manual's table of words that are no instruction, and reserved fields of the long forms. -/
theorem test_decode_refuses :
    ([0xFC000000, 0x000000C0, 0x40142483, 0x58000100, 0x8C002509, 0x74000005, 0x70002000, 0xB8200044] : List Nat).all (fun w =>
      (match decodeWords w none with | .error _ => true | .ok _ => false)) = true ∧
    ([(0xE4142007, 0x60), (0xE4142007, 0x500), (0xE01D0000, 0x3C048000), (0xE01D0000, 0x31048000), (0xE8048001, 8), (0xE8128001, 0),
      (0xEC0C2200, 0x10F00000), (0xF0144000, 0x10C20020), (0xF4008804, 0x49000000), (0xF4108889, 0x1B000000)] : List (Nat × Nat)).all (fun w =>
      (match decodeWords w.1 (some w.2) with | .error _ => true | .ok _ => false)) = true ∧
    decodeWords 0x8C002500 none = .ok (.vadd 3 0 0 1 5 0) := ⟨by decide, by decide, rfl⟩

/-- One ill-formed term for each check of operands against R69 and the encodings: the check refuses it. -/
theorem test_ill_formed : ([
    .wideImmediate 0 1 2 0 (.sext .w32), .vfma 7 0 1 2 3 0, .vfnma 7 0 1 2 3 0, .vmin 7 0 1 2 3 0, .vmax 7 0 1 2 3 0, .vabs 7 0 1 2 0,
    .vneg 7 0 1 2 0, .vrcp 3 0 1 2 0, .vrsqrt 4 0 1 2 0, .vexp2 5 0 1 2 0, .vlog2 6 0 1 2 0, .vtanh 7 0 1 2 0, .vsigm 3 0 1 2 0,
    .vcmul 0 0 1 2 3 0, .vceq 7 0 1 2 3 0, .vcne 7 0 1 2 3 0, .vclt 7 0 1 2 3 0, .vcle 7 0 1 2 3 0, .vand 0 0 1 2 3 0, .vor 1 0 1 2 3 0,
    .vxor 2 0 1 2 3 0, .vshl 7 0 1 2 3 0, .vshr 0 0 1 2 3 0, .vsra 1 0 1 2 3 0, .vrelu 7 0 1 2 0, .vectorLong 0 1 2 3 0 .vand .fp32 .rne,
    .vectorLong 0 1 2 3 0 .vneg .fp32 .rne, .vectorLong 0 8 2 3 0 .vceq .fp32 .rne] : List Instr).all (fun i => !i.wf) = true ∧ ([
    .vcvt 0 1 2 0 0 .mxfp8 .rne .fp32, .vcvt 0 1 2 0 0 .cfp32 .rne .fp32, .vcvt 0 1 2 2 0 .fp32 .rne .bf16, .vquant 0 3 1 0 .mxfp8 .rne .fp32,
    .vquant 0 8 1 0 .mxfp8 .rne .i8, .vdequant 0 3 8 0 .fp32 .rne .bf16, .vdequant 0 3 8 4 .fp32 .rne .mxfp8, .vamax 0 1 2 0 .i8 .rne,
    .vlds 0 1 2 3 0 0 .i4 ⟨false, .sp, 0⟩ 0, .vldx 0 1 2 3 0 0 .e3m2 ⟨false, .sp, 0⟩ 0, .vsts 0 1 2 3 0 0 .i4 ⟨false, .sp, 0⟩ 0,
    .vstx 0 1 2 3 0 0 .mxfp4 ⟨false, .sp, 0⟩ 0, .mma 0 6 1 2 .bf16, .mma 0 0 1 2 .fp32, .mmaCk 0 1 1 2 .bf16, .mmaCo 0 7 1 2 .bf16, .mz 0 6 false,
    .mld 0 6 1 false, .mst 0 7 1 false, .mdrain 0 0 1 2 .mxfp8, .mdrain 0 6 1 2 .bf16, .xfmFwd 0 .b256 2 4, .xfmInv 0 .b128 3 4, .xfmPack 0 .b4 1 3,
    .xfmUnpack 0 .b4 1 2, .mmaC 0 1 1 2 .b4, .mmaG 0 0 1 2 .mxfp8 3, .mmaSp 0 6 1 2 .bf16 3 .p24, .hres 0 3 1, .hres 0 0 1, .hres 0 28 1, .loop 0 1 1 4, .loop 0 1 16384 4,
    .adr 0 1 2] : List Instr).all (fun i => !i.wf) = true := by decide

/-! ### One step each: expected values from the manual's rules, worked by hand -/

/-- What holds after an instruction at a state. -/
def after {α : Type} (i : Instr) (s : State) (f : State → α) : Option α :=
  match exec i s with | .next t => some (f t) | _ => none

/-- The supervisor's cell with s1 and s2 as given. -/
def s12 (a b : Word) : State := withCell sB { cellA with dom := 8, firing := 0, sreg := [(1, a), (2, b)] }

/-- R76, R77: 32-bit addition wraps and extends its sign; saturation clamps and sets SATD. -/
theorem test_add_wraps :
    after (.add 0 5 1 2 .w32 false false) (s12 0x7FFFFFFF 1) (fun t => t.me.getS 5) = some 0xFFFFFFFF80000000 := by decide
theorem test_add_saturates :
    after (.add 0 5 1 2 .w32 false true) (s12 0x7FFFFFFF 1) (fun t => (t.me.getS 5, t.me.sticky)) = some (0x7FFFFFFF, flagSATD) := by decide

/-- R78: a zero divisor gives all ones and the dividend. -/
theorem test_div_by_zero : after (.divn 0 5 1 2 .w32) (s12 7 0) (fun t => t.me.getS 5) = some 0xFFFFFFFF := by decide
theorem test_rem_by_zero : after (.rem 0 5 1 2 .w64) (s12 0xFFFFFFFFFFFFFFF9 0) (fun t => t.me.getS 5) = some 0xFFFFFFFFFFFFFFF9 := by decide
theorem test_rem_sign : after (.rem 0 5 1 2 .w64) (s12 0xFFFFFFFFFFFFFFF9 3) (fun t => t.me.getS 5) = some 0xFFFFFFFFFFFFFFFF := by decide

theorem test_mulh : after (.mulh 0 5 1 2 .w64) (s12 0xFFFFFFFFFFFFFFFF 2) (fun t => t.me.getS 5) = some 0xFFFFFFFFFFFFFFFF := by decide
theorem test_sra_count : after (.sra 0 5 1 2 .w32) (s12 0x80000000 36) (fun t => t.me.getS 5) = some 0xFFFFFFFFF8000000 := by decide
theorem test_clz_of_zero : after (.clz 0 5 2 .w16) (s12 1 0) (fun t => t.me.getS 5) = some 16 := by decide
theorem test_ix : after (.ix 0 4 1 2 3) (s12 0x100 5) (fun t => t.me.getS 4) = some 0x128 := by decide
theorem test_s0_takes_nothing : after (.or 0 0 1 2 .w64) (s12 3 4) (fun t => (t.me.getS 0, t.me.pc)) = some (0, 4) := by decide
theorem test_false_guard_keeps : after (.or 2 5 1 2 .w64) (s12 3 4) (fun t => (t.me.getS 5, t.me.pc, t.me.t)) = some (0, 4, 1) := by decide

/-- R83: `cmp.lt` is signed. -/
theorem test_cmp_signed :
    after (.cmp 0 1 2 .set .lt 1 2) (s12 0xFFFFFFFFFFFFFFFF 1) (fun t => (t.me.getP 1, t.me.getP 2)) = some (true, false) := by decide

/-- R85: a branch of 2 words on from word 0; a call saves the next word's byte address in s27. -/
theorem test_branch : after (.br 0 2) (s12 0 0) (fun t => (t.me.pc, t.me.t)) = some (8, 2) := by decide
theorem test_call : after (.call 0 3) (s12 0 0) (fun t => (t.me.pc, t.me.getS 27)) = some (12, 4) := by decide

/-- R87: the end of a loop's body goes back while the count lasts. -/
theorem test_loop_back : after (.nop 0) (withCell sB { cellLoop 3 2 with dom := 8, firing := 0 }) (fun t => (t.me.pc, (t.me.loop 1).cnt)) = some (8, 1) := by
  decide

/-- R90, R95: a byte load extends its sign; a store waits 4 cycles for its performing. -/
theorem test_load_sign :
    after (.ld 0 5 0 0 16 .b false ⟨false, .sp, 0⟩) (withCell sB { cellA with sp := { bytes := [(16, 0x80)] } }) (fun t => t.me.getS 5) =
      some 0xFFFFFFFFFFFFFF80 := by decide
theorem test_store_in_flight : after (.stW 0 1 2 0 0) sB (fun t => (Mem.byte t.me.sp.bytes 16, t.me.pend.map fun x => x.due)) = some (0, [4]) := by decide
theorem test_store_performed : after (.storePerformed 0 7) (sPend [storeX]) (fun t => (t.cell 0).sp.bytes) = some [(16, 0x5A)] := by decide
theorem test_atomic_max : after (.storePerformed 0 7) (sPend [atomX 2]) (fun t => (t.cell 0).sp.bytes) = some [(24, 5)] := by decide

/-- R95: a load of the same stream sees the store in flight. -/
theorem test_load_sees_store : after (.ldD 0 5 0 0 2) (sPend [storeX]) (fun t => t.me.getS 5) = some 0x5A := by decide

/-- R89, R292: an unaligned load raises ALIGN, code 3, with its address. -/
theorem test_align_trap :
    after (.ldD 0 5 1 0 0) (sA [] (firingA 0 0) []) (fun t => (t.me.tcause, t.me.tval, t.me.run)) = some (.align, 5, .idle) := by decide

theorem test_privilege : after (.lnkPause 0 1) (sA [] (firingA 0 0) []) (fun t => (t.me.tcause, t.me.tval)) = some (.priv, 0xD0002001) := by decide
theorem test_trap : after (.trap 0 2) (sA [] (firingA 0 0) []) (fun t => (t.me.tcause, t.me.tval)) = some (.trapi, 16) := by decide

/-! R152: integer elements clamp: 01 + 02, 7F + 03, 80 + 00. -/
theorem test_vadd_clamps :
    after (.vadd 5 0 3 6 7 0) sV (fun t => (SMap.get 0 t.me.vreg 3).setWidth 24) = some (0x807F03 : BitVec 24) := by decide +kernel
theorem test_vadd_mask : after (.vadd 5 0 6 6 7 1) sV (fun t => (SMap.get 0 t.me.vreg 6).setWidth 24) = some (0x807F03 : BitVec 24) := by decide +kernel

/-- R256: a semaphore clamps at zero and sets SATD. -/
theorem test_semaphore_clamps :
    after (.storePerformed 0 7) (sPend [{ storeX with upd := .sem 3 (-1) }]) (fun t => (SMap.get 0 (t.cluster 0).sems 3, (t.cell 0).sticky)) =
      some (0, flagSATD) := by decide

/-- R125: 1.5 is 0x3FC00000 and rounds to BF16 0x3FC0; 1 + 2^-8 lies half-way and rounds to even. -/
theorem test_round : round (decodeElem .fp32 0x3FC00000) .bf16 .rne 0 = (0x3FC0, 0) ∧
    (round (decodeElem .fp32 0x3F808000) .bf16 .rne 0).1 = 0x3F80 ∧ (round (decodeElem .fp32 0x3F818000) .bf16 .rne 0).1 = 0x3F82 := by decide

/-- R329: the power word of a die as reset leaves it: BUD 340. -/
theorem test_power_word :
    after (.lnkStat 0 5 1) (withCell { sB with dies := [(0, {})] } { cellA with dom := 8, firing := 0, sreg := [(1, 3)] }) (fun t => (t.me.getS 5).setWidth 11) =
      some (340 : BitVec 11) := by decide

/-- R74: a fetched word that is no instruction raises ILLEGAL with itself; R25: the first instruction after reset. -/
theorem test_fetch_runs :
    (match step (State.reset.withFetchWord 32 0x20040006) with | .next t => t.me.getS 1 | _ => 0) = 6 := by decide
theorem test_tick_reset : (match step State.reset with | .next t => t.now | _ => 0) = 4096 := by decide

end Sys2Proof.Tests
end

section
/-! SUPPORT. What the end of an issue and a write of the acting cell leave as they were, in the words of the statements. -/

namespace Sys2Proof.Machine

/-! Everything outside the acting cell. -/

theorem OutsideKept.refl (s : State) : OutsideKept s s :=
  ⟨rfl, rfl, rfl, rfl, rfl, rfl, rfl, fun _ _ => rfl, fun _ => rfl⟩

theorem OutsideKept.trans {s t u : State} (h : OutsideKept s t) (h' : OutsideKept t u) : OutsideKept s u := by
  obtain ⟨now, cur, clusters, dies, doms, hub, host, cells, engines⟩ := h
  obtain ⟨now', cur', clusters', dies', doms', hub', host', cells', engines'⟩ := h'
  refine ⟨now'.trans now, cur'.trans cur, clusters'.trans clusters, dies'.trans dies, doms'.trans doms, hub'.trans hub,
    host'.trans host, fun c hc => (cells' c (cur ▸ hc)).trans (cells c hc), fun e => ?_⟩
  have := congrArg (fun x : Engine => { x with core := (s.engine e).core }) (engines' e)
  exact this.trans (engines e)

/-- Of an engine whose routine core is written, all but the core is as before. -/
theorem engine_setEngine_core (s : State) (e e' : Nat) (x : Cell) :
    { (s.setEngine e { s.engine e with core := x }).engine e' with core := (s.engine e').core } = s.engine e' := by
  by_cases he : e' = e
  · subst he; rw [State.engine_setEngine]
  · rw [State.engine_setEngine_ne _ _ he]

theorem outsideKept_modMe (s : State) (f : Cell → Cell) : OutsideKept s (s.modMe f) := by
  by_cases h : s.cur < 256
  · refine ⟨State.modMe_now .., State.modMe_cur .., State.modMe_clusters .., State.modMe_dies .., State.modMe_doms ..,
      State.modMe_hub .., State.modMe_host .., fun c hc => State.cell_modMe_ne s f hc, fun e => ?_⟩
    simp [State.modMe, State.setMe, State.setCell, h, State.engine]
  · refine ⟨State.modMe_now .., State.modMe_cur .., State.modMe_clusters .., State.modMe_dies .., State.modMe_doms ..,
      State.modMe_hub .., State.modMe_host .., fun c hc => State.cell_modMe_ne s f hc, fun e => ?_⟩
    simpa only [State.modMe, State.setMe, State.setCell, h, if_false] using engine_setEngine_core s (s.cur - 256) e (f s.me)

theorem outsideKept_sched (s : State) (due : Nat) (i : Instr) : OutsideKept s (s.sched due i) :=
  ⟨rfl, rfl, rfl, rfl, rfl, rfl, rfl, fun _ _ => rfl, fun _ => rfl⟩

theorem outsideKept_afterIssue (s : State) : OutsideKept s (afterIssue s) := by
  unfold afterIssue
  split
  · exact (outsideKept_modMe s _).trans (outsideKept_sched _ _ _)
  · exact OutsideKept.refl s

theorem outsideKept_advance (s : State) (size slots : Nat) : OutsideKept s (advance s size slots) :=
  (outsideKept_modMe s _).trans (outsideKept_afterIssue _)

/-- A byte of a scratchpad other than the acting cell's lies outside it, so its own scratchpad is all that is left to see. -/
theorem OutsideKept.keepsAll {s t : State} {c : Cell} (h : OutsideKept s t) (sp : t.me.sp = s.me.sp) (me : t.me = c) :
    KeepsAll s t c := by
  obtain ⟨-, cur, clusters, dies, -, -, host, cells, -⟩ := id h
  refine ⟨h, fun a => ⟨fun k => ?_, fun k => ?_, fun d => ?_, by rw [host]⟩, me⟩
  · by_cases hk : k = s.cur
    · have : (t.cell k).sp = (s.cell k).sp := by rw [State.me, cur] at sp; rw [hk]; exact sp
      rw [this]
    · rw [cells k hk]
  · rw [State.cluster, clusters, ← State.cluster]
  · rw [State.die, dies, ← State.die]

/-! The acting cell at the end of an issue. -/

theorem afterIssue_me (s : State) : (afterIssue s).me = { s.me with sstep := false } := by
  unfold afterIssue
  cases h : s.me.sstep
  · simp only [Bool.false_eq_true, if_false]; rw [← h]
  · simp

@[simp] theorem afterIssue_doms (s : State) : (afterIssue s).doms = s.doms := by
  obtain ⟨-, -, -, -, doms, -⟩ := outsideKept_afterIssue s
  exact doms

/-! The program counter, the loops and the repeat counter choose the next PC, and nothing else of a cell does (R87, R88). -/

/-- Two cells stand at the same place of their code: PC, loops and repeat counter agree. -/
structure Cell.SamePlace (c d : Cell) : Prop where
  pc : c.pc = d.pc
  loops : c.loops = d.loops
  rep : c.rep = d.rep
  repPend : c.repPend = d.repPend

theorem Cell.SamePlace.trans {c d e : Cell} (h : c.SamePlace d) (h' : d.SamePlace e) : c.SamePlace e :=
  ⟨h.pc.trans h'.pc, h.loops.trans h'.loops, h.rep.trans h'.rep, h.repPend.trans h'.repPend⟩

theorem Cell.loop_congr {c d : Cell} (h : c.loops = d.loops) (k : Nat) : c.loop k = d.loop k := by unfold Cell.loop; rw [h]

theorem Cell.depth_congr {c d : Cell} (h : c.loops = d.loops) : c.depth = d.depth := by
  simp only [Cell.depth, Cell.loop_congr h]

theorem nextPcFrom_congr {c d : Cell} (h : c.loops = d.loops) (k x next : Nat) :
    (nextPcFrom c k x next).1.loops = (nextPcFrom d k x next).1.loops ∧ (nextPcFrom c k x next).2 = (nextPcFrom d k x next).2 := by
  induction k generalizing c d with
  | zero => exact ⟨h, rfl⟩
  | succ k ih =>
    unfold nextPcFrom
    simp only [Cell.loop_congr h]
    split
    · split
      · simp [Cell.setLoop, h]
      · exact ih (by simp [Cell.setLoop, h])
    · exact ⟨h, rfl⟩

/-- A pass goes by the loops and leaves the repeat counter; the PC before it does not matter. -/
theorem Cell.pass_samePlace {c d : Cell} (loops : c.loops = d.loops) (rep : c.rep = d.rep) (repPend : c.repPend = d.repPend)
    (x size : Nat) : (c.pass x size).SamePlace (d.pass x size) := by
  obtain ⟨hl, hn⟩ := nextPcFrom_congr loops d.depth x (x + size)
  refine ⟨?_, ?_, ?_, ?_⟩
  · simp only [Cell.pass, Cell.depth_congr loops, hn]
  · simpa only [Cell.pass, Cell.depth_congr loops] using hl
  · rw [Cell.pass_eq c, Cell.pass_eq d]; exact rep
  · rw [Cell.pass_eq c, Cell.pass_eq d]; exact repPend

section
variable {c : Cell} {n : Nat} (size : Nat)

theorem Cell.stepPc_of_pending (h : c.repPend = some n) (hn : 1 < n) : c.stepPc size = { c with repPend := none, rep := n - 1 } := by
  simp only [Cell.stepPc, h, hn, if_true]

theorem Cell.stepPc_of_pending_last (h : c.repPend = some n) (hn : n ≤ 1) :
    c.stepPc size = { c with repPend := none }.pass (c.pc / 4) size := by
  simp only [Cell.stepPc, h, Nat.not_lt.mpr hn, if_false]

theorem Cell.stepPc_of_repeating (h : c.repPend = none) (hr : 1 < c.rep) : c.stepPc size = { c with rep := c.rep - 1 } := by
  simp only [Cell.stepPc, h, hr, if_true]

theorem Cell.stepPc_of_last (h : c.repPend = none) (hr : c.rep ≤ 1) :
    c.stepPc size = { c with rep := 0 }.pass (c.pc / 4) size := by
  simp only [Cell.stepPc, h, Nat.not_lt.mpr hr, if_false]
end

theorem Cell.SamePlace.stepPc {c d : Cell} (h : c.SamePlace d) (size : Nat) : (c.stepPc size).SamePlace (d.stepPc size) := by
  obtain ⟨pc, loops, rep, repPend⟩ := h
  have hx : c.pc / 4 = d.pc / 4 := by rw [pc]
  cases hd : d.repPend with
  | some n =>
    have hc := repPend.trans hd
    rcases Nat.lt_or_ge 1 n with hn | hn
    · rw [Cell.stepPc_of_pending size hc hn, Cell.stepPc_of_pending size hd hn]
      exact ⟨pc, loops, rfl, rfl⟩
    · rw [Cell.stepPc_of_pending_last size hc hn, Cell.stepPc_of_pending_last size hd hn, hx]
      exact Cell.pass_samePlace (c := { c with repPend := none }) (d := { d with repPend := none }) loops rep rfl _ _
  | none =>
    have hc := repPend.trans hd
    rcases Nat.lt_or_ge 1 d.rep with hn | hn
    · rw [Cell.stepPc_of_repeating size hc (rep ▸ hn), Cell.stepPc_of_repeating size hd hn, rep]
      exact ⟨pc, loops, rfl, repPend⟩
    · rw [Cell.stepPc_of_last size hc (rep ▸ hn), Cell.stepPc_of_last size hd hn, hx]
      exact Cell.pass_samePlace (c := { c with rep := 0 }) (d := { d with rep := 0 }) loops rfl repPend _ _

/-- An issue that ends at `v` passes as seen from `u`, where the two stand at one place at one time. -/
theorem passes_advance {u v : State} (h : v.me.SamePlace u.me) (t : v.me.t = u.me.t) (now : v.now = u.now) (size : Nat) :
    Passes u (advance v size 1) size := by
  obtain ⟨pc, loops, rep, repPend⟩ := h.stepPc size
  have ht : (v.me.stepPc size).t = u.me.t := (Cell.stepPc_t ..).trans t
  simp only [Passes, PcPasses, advance_me, Cell.spend, pc, loops, rep, repPend, ht, now, Nat.max_def, and_self]

/-- An issue with no effect but its end. -/
theorem advance_passes_only (s : State) (size : Nat) :
    Passes s (advance s size 1) size ∧ (advance s size 1).doms = s.doms ∧
      KeepsAll s (advance s size 1) (s.me.issued (advance s size 1).me) := by
  refine ⟨passes_advance ⟨rfl, rfl, rfl, rfl⟩ rfl rfl size, advance_doms .., (outsideKept_advance ..).keepsAll ?_ ?_⟩
  · rw [advance_me]; exact Cell.stepPc_sp ..
  · rw [advance_me, Cell.stepPc_eq]; rfl

/-! An instruction that ends with a write of its destination. -/

@[simp] theorem Cell.readyAt_setReady (c : Cell) (k v q : Nat) :
    (c.setReady k v).readyAt q = if q = k then max v (c.readyAt q) else c.readyAt q := by
  unfold Cell.setReady Cell.readyAt
  rw [SMap.get_put]
  split
  · subst q; rfl
  · rfl

theorem Cell.le_readyAt_setReady (c : Cell) (k v : Nat) : v ≤ (c.setReady k v).readyAt k := by
  rw [Cell.readyAt_setReady, if_pos rfl]
  exact Nat.le_max_left ..

/-- Ready times are never lowered (R25). -/
theorem Cell.readyAt_le_setReady (c : Cell) (k v q : Nat) : c.readyAt q ≤ (c.setReady k v).readyAt q := by
  rw [Cell.readyAt_setReady]
  split
  · exact Nat.le_max_right ..
  · exact Nat.le_refl _

theorem Cell.setS_samePlace (c : Cell) (d : SReg) (r : Word) (b : Bool) : (c.setS d r b).SamePlace c := by
  unfold Cell.setS
  split <;> exact ⟨rfl, rfl, rfl, rfl⟩

@[simp] theorem Cell.getS_setReady (c : Cell) (k v : Nat) (q : SReg) : (c.setReady k v).getS q = c.getS q := rfl
@[simp] theorem Cell.getD_setReady (c : Cell) (k v : Nat) (q : SReg) : (c.setReady k v).getD q = c.getD q := rfl
@[simp] theorem Cell.getP_setReady (c : Cell) (k v : Nat) (p : PReg) : (c.setReady k v).getP p = c.getP p := rfl
theorem Cell.setReady_samePlace (c : Cell) (k v : Nat) : (c.setReady k v).SamePlace c := ⟨rfl, rfl, rfl, rfl⟩

@[simp] theorem Cell.readyAt_setS (c : Cell) (d : SReg) (r : Word) (b : Bool) (k : Nat) : (c.setS d r b).readyAt k = c.readyAt k := by
  simp [Cell.readyAt]

/-- Of a register's write only the scalar registers with their deferred-fault and check bits are touched. -/
theorem Cell.setS_eq (c : Cell) (d : SReg) (r : Word) (b : Bool) : c.setS d r b =
    { c with sreg := (c.setS d r b).sreg, dfb := (c.setS d r b).dfb, regErr := (c.setS d r b).regErr,
             regPoison := (c.setS d r b).regPoison } := by
  unfold Cell.setS
  split <;> rfl

section
variable (s : State) (size slots : Nat)
@[simp] theorem advance_getS (q : SReg) : (advance s size slots).me.getS q = s.me.getS q := by
  rw [advance_me, Cell.stepPc_eq]; rfl
@[simp] theorem advance_getD (q : SReg) : (advance s size slots).me.getD q = s.me.getD q := by
  rw [advance_me, Cell.stepPc_eq]; rfl
@[simp] theorem advance_getP (p : PReg) : (advance s size slots).me.getP p = s.me.getP p := by
  rw [advance_me, Cell.stepPc_eq]; rfl
@[simp] theorem advance_readyAt (k : Nat) : (advance s size slots).me.readyAt k = s.me.readyAt k := by
  rw [advance_me, Cell.stepPc_eq]; rfl
@[simp] theorem advance_sticky : (advance s size slots).me.sticky = s.me.sticky := by
  rw [advance_me, Cell.stepPc_eq]; rfl
end

/-- The acting cell of `v` is `u`'s but for what an issue may change of the scalar registers, and `v` ends the issue. -/
theorem advance_keepsAll_scalar {u : State} (f : Cell → Cell) (size : Nat) (h : f u.me = u.me.issuedScalar (f u.me)) :
    KeepsAll u (advance (u.modMe f) size 1) (u.me.issuedScalar (advance (u.modMe f) size 1).me) := by
  refine ((outsideKept_modMe u f).trans (outsideKept_advance ..)).keepsAll ?_ ?_
  · rw [advance_me, Cell.stepPc_eq, State.me_modMe, h]; rfl
  · rw [advance_me, Cell.stepPc_eq, State.me_modMe, h]; rfl

theorem delivers_of_finish {s u : State} {i : Instr} {d : SReg} {r : Word} {dfr : Option SReg} {lat size : Nat}
    (h : exec i s = finish (writeDst u d r dfr lat) fun v => advance v size 1) : Delivers s u i d r dfr lat size := by
  refine ⟨fun hd => ?_, fun _ => h⟩
  rw [h, writeDst_register _ _ _ _ _ hd, finish_ok]
  refine ⟨_, rfl, fun h0 => ?_, ?_, ?_, fun q hq => ?_, ?_, ?_, ?_⟩
  · rw [BitVec.ofNat_eq_ofNat] at h0
    simp [h0, Cell.getS_setS, Cell.getD_setS]
  · simp
  · exact passes_advance (by simpa using ((Cell.setReady_samePlace ..).trans (Cell.setS_samePlace ..)))
      (by simp) (State.modMe_now ..) size
  · simp [hq, Cell.getS_setS, Cell.getD_setS]
  · simp
  · simp
  · exact advance_keepsAll_scalar _ size (by rw [Cell.setS_eq]; rfl)

end Sys2Proof.Machine
end

section
/-! PROOFS. `li`, `adr`, `fsel` and the compares (R82 to R84, R96, R120). -/

namespace Sys2Proof.Machine

/-! `li`, `adr` and `fsel` (R82, R96, R120). -/

/-- A control instruction outside `rep` runs as it stands (R88). -/
theorem notRepeated_of_not_underRep {s : State} (i : Instr) (k : Out) (h : s.me.underRep = false) : notRepeated s i k = k := by
  simp [notRepeated, h]

/-- An issue whose body is a write of its destination delivers that. -/
theorem delivers_of_issue {s u : State} {i : Instr} {g : PReg} {d : SReg} {r : Word} {dfr : Option SReg} {lat size : Nat}
    {body : State → Ret Unit} (hi : exec i s = issue s g size 1 body) (hg : s.me.getP g = true)
    (hb : body s = writeDst u d r dfr lat) : Delivers s u i d r dfr lat size :=
  delivers_of_finish (by rw [hi, issue_true hg, hb])

section
variable {s : State} (g : PReg) (d : SReg) (h : s.me.underRep = false)
include h

theorem exec_liLow (imm : BitVec 32) :
    exec (.liLow g d imm) s = issue s g 2 1 fun s => writeDst s d (imm.signExtend 64) none 1 := notRepeated_of_not_underRep _ _ h

theorem exec_liHigh (imm : BitVec 32) : exec (.liHigh g d imm) s = issue s g 2 1 (runLiHigh d imm) :=
  notRepeated_of_not_underRep _ _ h

theorem exec_adr (off : BitVec 16) : exec (.adr g d off) s = issue s g 2 1 fun s => writeDst s d (off.zeroExtend 64) none 1 :=
  notRepeated_of_not_underRep _ _ h

theorem exec_fsel : exec (.fsel g d) s = issue s g 1 1 fun s => writeDst s d (forkWord s) none 1 :=
  notRepeated_of_not_underRep _ _ h
end

/-- An upper half over the lower half of a word is the two put side by side. -/
theorem upper_lower_eq_append (hi : BitVec 32) (lo : Word) :
    BitVec.ofNat 64 (hi.toNat * 2 ^ 32 + lo.toNat % 2 ^ 32) = hi ++ lo.setWidth 32 := by
  have h : lo.toNat % 2 ^ 32 < 2 ^ 32 := Nat.mod_lt _ (by decide)
  apply BitVec.eq_of_toNat_eq
  rw [BitVec.toNat_append, BitVec.toNat_setWidth, Nat.shiftLeft_eq, ← Nat.shiftLeft_eq, ← Nat.shiftLeft_add_eq_or_of_lt h,
    Nat.shiftLeft_eq, BitVec.toNat_ofNat]
  omega

theorem runLiHigh_of_read {s u : State} {d : SReg} {x : Srcs} (imm : BitVec 32) (h : readSrcs s [d] [] = .ok x u) :
    runLiHigh d imm s = writeDst u d (imm ++ (x.get 0).setWidth 32) x.dfr 1 := by
  rw [runLiHigh, h, Ret.bind_ok, upper_lower_eq_append]

theorem forkWord_of_firing {s : State} {f : Firing} (h : s.myFiring = some f) : forkWord s = f.fsel := by rw [forkWord, h]

theorem forkWord_of_no_firing {s : State} (h : s.myFiring = none) : forkWord s = 0 := by rw [forkWord, h]

theorem immediates : Rules.Immediates := by
  intro s g d hg hr
  refine ⟨fun imm => ?_, fun imm x u hx => ?_, fun off => ?_, fun f hf => ?_, fun hf => ?_⟩
  · exact delivers_of_issue (exec_liLow g d hr imm) hg rfl
  · exact delivers_of_issue (exec_liHigh g d hr imm) hg (runLiHigh_of_read imm hx)
  · exact delivers_of_issue (exec_adr g d hr off) hg rfl
  · exact delivers_of_issue (exec_fsel g d hr) hg (by rw [forkWord_of_firing hf])
  · exact delivers_of_issue (exec_fsel g d hr) hg (by rw [forkWord_of_no_firing hf])

/-! Compares (R83, R84). -/

/-- The kind and place of a scalar register are its number (R293). -/
theorem memPlace_register (r : SReg) : memPlace 0 r.toNat = r.zeroExtend 64 := by
  apply BitVec.eq_of_toNat_eq
  simp [memPlace]

/-- Sources of which one carries a deferred-fault bit do not pass (R15). -/
theorem readClean_of_carriesFault {s u : State} {rs : List SReg} {q : SReg} (h : CarriesFault s u rs q) :
    readClean s rs = .trap .memerr (q.zeroExtend 64) u := by
  obtain ⟨x, hx, hq⟩ := h
  rw [readClean, hx, Ret.bind_ok, hq, ← memPlace_register]

/-- The two predicates after a compare: the second stands where both are one (R83). -/
theorem Cell.getP_setP_setP (c : Cell) (p q r : PReg) (v w : Bool) :
    ((c.setP p v).setP q w).getP r = if r = q ∧ q ≠ 0 then w else if r = p ∧ p ≠ 0 then v else c.getP r := by
  simp only [Cell.getP_setP]

@[simp] theorem Cell.readyAt_setP (c : Cell) (p : PReg) (v : Bool) (k : Nat) : (c.setP p v).readyAt k = c.readyAt k := by
  simp [Cell.readyAt]

theorem Cell.setP_eq (c : Cell) (p : PReg) (v : Bool) : ∃ m, c.setP p v = { c with pred := m } := by
  unfold Cell.setP
  split
  · exact ⟨c.pred, rfl⟩
  · exact ⟨_, rfl⟩

/-- A compare writes predicates and their ready times, and no more. -/
theorem writePreds_me (u : State) (pd1 pd2 : PReg) (v : Bool × Bool) :
    ∃ m r, (writePreds u pd1 pd2 v).me = { u.me with pred := m, ready := r } := by
  obtain ⟨m, hm⟩ := u.me.setP_eq pd1 v.1
  obtain ⟨m', hm'⟩ := (u.me.setP pd1 v.1).setP_eq pd2 v.2
  rw [hm] at hm'
  exact ⟨m', _, by rw [writePreds, State.me_modMe, hm, hm']; rfl⟩

/-- Which predicates a compare reads and writes: what it puts into them is `v`, of `u`, and nothing else changes. -/
theorem advance_writePreds (u : State) (pd1 pd2 : PReg) (v : Bool × Bool) :
    let y := advance (writePreds u pd1 pd2 v) 1 1
    (pd2 ≠ 0 → y.me.getP pd2 = v.2) ∧ (pd1 ≠ 0 → pd1 ≠ pd2 → y.me.getP pd1 = v.1) ∧
      (∀ r, r ≠ pd1 → r ≠ pd2 → y.me.getP r = u.me.getP r) ∧ y.me.getP 0 = true ∧
      u.now + 1 ≤ y.me.readyAt (32 + pd1.toNat) ∧ u.now + 1 ≤ y.me.readyAt (32 + pd2.toNat) ∧ Passes u y 1 ∧ y.doms = u.doms ∧
      KeepsAll u y { u.me.issued y.me with pred := y.me.pred } := by
  have hp (r : PReg) : (advance (writePreds u pd1 pd2 v) 1 1).me.getP r =
      if r = pd2 ∧ pd2 ≠ 0 then v.2 else if r = pd1 ∧ pd1 ≠ 0 then v.1 else u.me.getP r := by
    rw [advance_getP, writePreds, State.me_modMe, Cell.getP_setReady, Cell.getP_setReady, Cell.getP_setP_setP]
  obtain ⟨m, r, hme⟩ := writePreds_me u pd1 pd2 v
  refine ⟨fun h => ?_, fun h hne => ?_, fun r h1 h2 => ?_, rfl, ?_, ?_, ?_, ?_, ?_⟩
  · rw [hp, if_pos ⟨rfl, h⟩]
  · rw [hp, if_neg fun e => hne e.1, if_pos ⟨rfl, h⟩]
  · rw [hp, if_neg fun e => h2 e.1, if_neg fun e => h1 e.1]
  · rw [advance_readyAt, writePreds, State.me_modMe]
    exact Nat.le_trans (Cell.le_readyAt_setReady _ (resPred pd1) _) (Cell.readyAt_le_setReady ..)
  · rw [advance_readyAt, writePreds, State.me_modMe]
    exact Cell.le_readyAt_setReady _ (resPred pd2) _
  · exact passes_advance (v := writePreds u pd1 pd2 v) (by rw [hme]; exact ⟨rfl, rfl, rfl, rfl⟩) (by rw [hme]) (State.modMe_now ..) 1
  · simp [writePreds]
  · refine OutsideKept.keepsAll (t := advance (writePreds u pd1 pd2 v) 1 1)
      ((outsideKept_modMe u _).trans (outsideKept_advance ..)) ?_ ?_
    · rw [advance_me, Cell.stepPc_eq, hme]; rfl
    · rw [advance_me, Cell.stepPc_eq, hme]; rfl

theorem imm5_eq (c : Cond) (imm : BitVec 5) :
    imm5 c imm = if c = .tb ∨ c = .tnb then imm.zeroExtend 64 else imm.signExtend 64 := by
  cases c <;> rfl

theorem getP_cmpGuard (x : Cell) (g : PReg) (t : Comb) : x.getP (cmpGuard g t) = (decide (t = .setz) || x.getP g) := by
  unfold cmpGuard
  by_cases h : t = .setz <;> simp [h, Cell.getP]

/-- A compare whose sources pass writes its predicates (R83, R84). -/
theorem runCmp_of_clean {s u : State} {rs : List SReg} {x : Srcs} {b imm : Word} (gv : Bool) (pd1 pd2 : PReg) (t : Comb) (c : Cond)
    (h : readClean s rs = .ok x u) (hb : (if rs.length = 2 then x.get 1 else imm) = b) :
    runCmp gv pd1 pd2 t c rs imm s = .ok () (writePreds u pd1 pd2
      (if gv then combine t (condHolds c (x.get 0) b) (u.me.getP pd1) (u.me.getP pd2) else (false, false))) := by
  rw [runCmp, h, Ret.bind_ok, hb]

theorem runCmp_of_carriesFault {s u : State} {rs : List SReg} {q : SReg} (gv : Bool) (pd1 pd2 : PReg) (t : Comb) (c : Cond) (imm : Word)
    (h : CarriesFault s u rs q) : runCmp gv pd1 pd2 t c rs imm s = .trap .memerr (q.zeroExtend 64) u := by
  rw [runCmp, readClean_of_carriesFault h, Ret.bind_trap]

/-- Either compare runs one body on its sources and its immediate. -/
theorem exec_compare {s : State} {i : Instr} {g pd1 pd2 : PReg} {t : Comb} {c : Cond} {rs : List SReg} {b : Word}
    (h : (∃ a r, i = .cmp g pd1 pd2 t c a r ∧ rs = [a, r]) ∨
      (∃ (a : SReg) (imm : BitVec 5), i = .cmpImm g pd1 pd2 t c a imm ∧ rs = [a] ∧
        b = if c = .tb ∨ c = .tnb then imm.zeroExtend 64 else imm.signExtend 64)) :
    ∃ imm, exec i s = issue s (cmpGuard g t) 1 1 (runCmp (s.me.getP g) pd1 pd2 t c rs imm) ∧ (rs.length ≠ 2 → imm = b) := by
  rcases h with ⟨a, r, rfl, rfl⟩ | ⟨a, imm, rfl, rfl, rfl⟩
  · exact ⟨0, rfl, fun h => absurd rfl h⟩
  · exact ⟨imm5 c imm, rfl, fun _ => imm5_eq c imm⟩

theorem compareResult : Rules.CompareResult := by
  intro s i g pd1 pd2 t c rs b hi
  obtain ⟨imm, hexec, himm⟩ := exec_compare (s := s) hi
  refine ⟨fun hg ht => ?_, fun hg q u hq => ?_, fun u x hg hx hb => ?_⟩
  · rw [hexec, issue_false (by simp [getP_cmpGuard, hg, ht])]
    exact ⟨_, rfl, advance_passes_only s 1⟩
  · exact hexec.trans (issue_trap (by simpa [getP_cmpGuard, or_comm] using hg) (runCmp_of_carriesFault _ _ _ _ _ _ hq))
  · intro a holds p q new
    have hsecond : (if rs.length = 2 then x.get 1 else imm) = b := by
      split
      · exact (hb ‹_›).symm
      · exact himm ‹_›
    have hholds : condHolds c a b = holds := by
      cases c <;> simp [condHolds, holds, BitVec.slt, BitVec.sle, BitVec.ult, BitVec.ule]
    have hnew : (if s.me.getP g then combine t holds p q else (false, false)) = new := by
      cases hgv : s.me.getP g with
      | true => cases t <;> simp [combine, new, hgv]
      | false =>
        obtain rfl : t = .setz := hg.resolve_left (by simp [hgv])
        simp [new, hgv]
    refine ⟨advance (writePreds u pd1 pd2 new) 1 1, ?_, advance_writePreds u pd1 pd2 new⟩
    rw [← hnew, ← hholds]
    exact hexec.trans (issue_ok (by simpa [getP_cmpGuard, or_comm] using hg) (runCmp_of_clean _ _ _ _ _ hx hsecond))

/-- Settles O8: each instruction's body is a write of its destination, or of the two predicates that the combining type gives. -/
theorem immediatesAndCompares : Obligations.ImmediatesAndCompares := ⟨immediates, compareResult⟩

end Sys2Proof.Machine
end

section
/-! PROOFS. The next PC through `rep` and nested loops (R87, R88). -/

namespace Sys2Proof.Machine

/-! The loops of a cell. -/

theorem Cell.setLoop_loops (c : Cell) (k : Nat) (l : HwLoop) : (c.setLoop k l).loops = SMap.set {} c.loops k l := rfl

theorem Cell.loop_setLoop (c : Cell) (k j : Nat) (l : HwLoop) : (c.setLoop k l).loop j = if j = k then l else c.loop j :=
  SMap.get_set _ _ _ _ _

@[simp] theorem Cell.loop_setLoop_same (c : Cell) (k : Nat) (l : HwLoop) : (c.setLoop k l).loop k = l := by simp [Cell.loop_setLoop]

theorem Cell.loop_setLoop_ne (c : Cell) {k j : Nat} (l : HwLoop) (h : j ≠ k) : (c.setLoop k l).loop j = c.loop j := by
  simp [Cell.loop_setLoop, h]

theorem Cell.depth_of_no_loop {c : Cell} (h : ∀ k, (c.loop k).act = false) : c.depth = 0 := by simp [Cell.depth, h]

theorem Cell.underRep_eq_false {c : Cell} : c.underRep = false ↔ c.repPend = none ∧ c.rep = 0 := by
  simp [Cell.underRep]

/-- Outside `rep` an instruction passes as the loops say (R87). -/
theorem Cell.stepPc_of_not_underRep {c : Cell} (size : Nat) (h : c.underRep = false) : c.stepPc size = c.pass (c.pc / 4) size := by
  obtain ⟨hp, hr⟩ := Cell.underRep_eq_false.mp h
  rw [Cell.stepPc_of_last size hp (by omega), ← hr]

/-! One loop of R87, from the innermost outward: it does not end here, or it goes round again, or it is left. -/

section
variable {c : Cell} {k x : Nat} (next : Nat)

theorem nextPcFrom_succ_of_not_end (h : ¬ ((c.loop k).act = true ∧ (c.loop k).en = x)) : nextPcFrom c (k + 1) x next = (c, next) := by
  rw [nextPcFrom]; exact if_neg h

theorem nextPcFrom_succ_of_again (h : (c.loop k).act = true ∧ (c.loop k).en = x) (hcnt : 1 < (c.loop k).cnt) :
    nextPcFrom c (k + 1) x next = (c.setLoop k { c.loop k with cnt := (c.loop k).cnt - 1 }, (c.loop k).st) := by
  rw [nextPcFrom]; exact (if_pos h).trans (if_pos hcnt)

theorem nextPcFrom_succ_of_left (h : (c.loop k).act = true ∧ (c.loop k).en = x) (hcnt : (c.loop k).cnt ≤ 1) :
    nextPcFrom c (k + 1) x next = nextPcFrom (c.setLoop k { c.loop k with cnt := 0, act := false }) k x next := by
  rw [nextPcFrom]
  refine (if_pos h).trans ((if_neg (Nat.not_lt.mpr hcnt)).trans ?_)
  rw [Nat.sub_eq_zero_of_le hcnt]
end

/-- Loops from `k` up are not looked at. -/
theorem nextPcFrom_loop_of_le (c : Cell) {k j : Nat} (x next : Nat) (h : k ≤ j) : (nextPcFrom c k x next).1.loop j = c.loop j := by
  induction k generalizing c with
  | zero => rfl
  | succ k ih =>
    by_cases he : (c.loop k).act = true ∧ (c.loop k).en = x
    · rcases Nat.lt_or_ge 1 (c.loop k).cnt with hc | hc
      · rw [nextPcFrom_succ_of_again _ he hc]
        exact c.loop_setLoop_ne _ (by omega)
      · rw [nextPcFrom_succ_of_left _ he hc, ih _ (by omega)]
        exact c.loop_setLoop_ne _ (by omega)
    · rw [nextPcFrom_succ_of_not_end _ he]

/-- A cell whose loops from `m` to `n` are left, the others as before. -/
def Cell.LeavesLoops (c d : Cell) (m n : Nat) : Prop :=
  (∀ k, m ≤ k → k < n → d.loop k = { c.loop k with cnt := 0, act := false }) ∧ ∀ k, k < m ∨ n ≤ k → d.loop k = c.loop k

/-- Every loop that ends here and whose count runs out is left, and the loop outside them is looked at next (R87). -/
theorem nextPcFrom_leaves (c : Cell) {m n : Nat} (x next : Nat) (hmn : m ≤ n)
    (h : ∀ k, m ≤ k → k < n → ((c.loop k).act = true ∧ (c.loop k).en = x) ∧ (c.loop k).cnt ≤ 1) :
    ∃ d, nextPcFrom c n x next = nextPcFrom d m x next ∧ c.LeavesLoops d m n := by
  induction hmn generalizing c with
  | refl => exact ⟨c, rfl, fun k hk hk' => absurd hk' (by omega), fun _ _ => rfl⟩
  | @step n hmn ih =>
    have hmn : m ≤ n := hmn
    obtain ⟨he, hc⟩ := h n hmn (by omega)
    have hne (k : Nat) (hk : k ≠ n) := c.loop_setLoop_ne { c.loop n with cnt := 0, act := false } hk
    obtain ⟨d, hd, hleft, hkept⟩ := ih (c.setLoop n { c.loop n with cnt := 0, act := false }) fun k hk hk' => by
      rw [hne k (by omega)]; exact h k hk (by omega)
    refine ⟨d, by rw [nextPcFrom_succ_of_left _ he hc, hd], fun k hk hk' => ?_, fun k hk => ?_⟩
    · by_cases hkn : k = n
      · subst hkn
        rw [hkept k (.inr (Nat.le_refl k)), Cell.loop_setLoop_same]
      · rw [hleft k hk (by omega), hne k hkn]
    · rw [hkept k (by omega), hne k (by omega)]

/-! The cell that passes an instruction. -/

@[simp] theorem Cell.pass_loop (c : Cell) (x size k : Nat) : (c.pass x size).loop k = (nextPcFrom c c.depth x (x + size)).1.loop k := rfl
@[simp] theorem Cell.pass_pc (c : Cell) (x size : Nat) : (c.pass x size).pc = 4 * (nextPcFrom c c.depth x (x + size)).2 := rfl

/-- Where no loop is active the next instruction follows. -/
theorem Cell.pass_of_no_loop {c : Cell} (x size : Nat) (h : ∀ k, (c.loop k).act = false) :
    c.pass x size = { c with pc := 4 * (x + size) } := by
  rw [Cell.pass, Cell.depth_of_no_loop h]; rfl

section
variable {c : Cell} {m : Nat} {x : Nat} (size : Nat) (hm : m ≤ c.depth) (hact : ∀ k, k < c.depth → (c.loop k).act = true)
  (hleft : ∀ k, m ≤ k → k < c.depth → (c.loop k).en = x ∧ (c.loop k).cnt ≤ 1)
include hm hact hleft

/-- The loops from `m` inward are left, and the pass goes on with the loop outside them. -/
theorem Cell.pass_leaves : ∃ d, nextPcFrom c c.depth x (x + size) = nextPcFrom d m x (x + size) ∧ c.LeavesLoops d m c.depth :=
  nextPcFrom_leaves c x _ hm fun k hk hk' => by
    obtain ⟨hen, hcnt⟩ := hleft k hk hk'
    exact ⟨⟨hact k hk', hen⟩, hcnt⟩

theorem Cell.pass_loop_inner (k : Nat) (hk : m ≤ k) (hk' : k < c.depth) :
    (c.pass x size).loop k = { c.loop k with cnt := 0, act := false } := by
  obtain ⟨d, hd, hin, -⟩ := Cell.pass_leaves size hm hact hleft
  rw [Cell.pass_loop, hd, nextPcFrom_loop_of_le d x _ hk, hin k hk hk']

theorem Cell.pass_of_all_left (h0 : m = 0) : (c.pass x size).pc = 4 * (x + size) := by
  obtain ⟨d, hd, -⟩ := Cell.pass_leaves size hm hact hleft
  rw [Cell.pass_pc, hd, h0]; rfl

/-- The loop outside those left does not end here: the next instruction follows, and no other loop changes. -/
theorem Cell.pass_of_outer_not_end (k : Nat) (hk : m = k + 1) (hen : (c.loop k).en ≠ x) :
    (c.pass x size).pc = 4 * (x + size) ∧ ∀ j, j < m → (c.pass x size).loop j = c.loop j := by
  obtain ⟨d, hd, -, hkept⟩ := Cell.pass_leaves size hm hact hleft
  subst hk
  have hdk := hkept k (.inl (by omega))
  rw [nextPcFrom_succ_of_not_end _ (by rw [hdk]; exact fun h => hen h.2)] at hd
  exact ⟨by rw [Cell.pass_pc, hd], fun j hj => by rw [Cell.pass_loop, hd]; exact hkept j (.inl hj)⟩

/-- The loop outside those left goes round again: the PC goes to its start, its count falls by one, and no other loop changes. -/
theorem Cell.pass_of_outer_again (k : Nat) (hk : m = k + 1) (hen : (c.loop k).en = x) (hcnt : 1 < (c.loop k).cnt) :
    (c.pass x size).pc = 4 * (c.loop k).st ∧ (c.pass x size).loop k = { c.loop k with cnt := (c.loop k).cnt - 1 } ∧
      ∀ j, j < k → (c.pass x size).loop j = c.loop j := by
  obtain ⟨d, hd, -, hkept⟩ := Cell.pass_leaves size hm hact hleft
  subst hk
  have hdk := hkept k (.inl (by omega))
  rw [nextPcFrom_succ_of_again _ (by rw [hdk]; exact ⟨hact k (by omega), hen⟩) (by rw [hdk]; exact hcnt), hdk] at hd
  refine ⟨by rw [Cell.pass_pc, hd], by rw [Cell.pass_loop, hd, Cell.loop_setLoop_same], fun j hj => ?_⟩
  rw [Cell.pass_loop, hd, d.loop_setLoop_ne _ (by omega)]
  exact hkept j (.inl (by omega))
end

/-- Settles O5: under `rep` by the cases of the repeat counter, otherwise by induction over the loops from the innermost outward. -/
theorem nextPc : Obligations.NextPc := by
  intro c size
  refine ⟨fun hr hnone => ?_, fun n hn h1 => Cell.stepPc_of_pending size hn h1, fun n hn h1 hrep => ?_,
    fun hn h1 => Cell.stepPc_of_repeating size hn h1, fun hn h1 => ?_, fun m hr hm hact hleft => ?_⟩
  · rw [Cell.stepPc_of_not_underRep size hr, Cell.pass_of_no_loop _ _ hnone]
  · rw [Cell.stepPc_of_pending_last size hn h1, Cell.stepPc_of_not_underRep (c := { c with repPend := none }) size
      (Cell.underRep_eq_false.mpr ⟨rfl, hrep⟩)]
  · rw [Cell.stepPc_of_last size hn (by omega), Cell.stepPc_of_not_underRep (c := { c with rep := 0 }) size
      (Cell.underRep_eq_false.mpr ⟨hn, rfl⟩)]
  · rw [Cell.stepPc_of_not_underRep size hr]
    refine ⟨Cell.pass_eq .., Cell.pass_loop_inner size hm hact hleft, fun k hk => ?_, fun hout k hk => ?_,
      Cell.pass_of_all_left size hm hact hleft, fun k hk hen => ?_, fun k hk hen hcnt => ?_⟩
    · exact nextPcFrom_loop_of_le c _ _ hk
    · obtain ⟨j, rfl⟩ : ∃ j, m = j + 1 := ⟨m - 1, by omega⟩
      by_cases hen : (c.loop j).en = c.pc / 4
      · obtain ⟨-, -, hkept⟩ := Cell.pass_of_outer_again size hm hact hleft j rfl hen ((hout j rfl).resolve_left (not_not_intro hen))
        exact hkept k (by omega)
      · exact (Cell.pass_of_outer_not_end size hm hact hleft j rfl hen).2 k (by omega)
    · obtain ⟨hpc, hkept⟩ := Cell.pass_of_outer_not_end size hm hact hleft k hk hen
      exact ⟨hpc, hkept k (by omega)⟩
    · obtain ⟨hpc, hloop, -⟩ := Cell.pass_of_outer_again size hm hact hleft k hk hen hcnt
      exact ⟨hpc, hloop⟩

end Sys2Proof.Machine
end

section
/-! PROOFS. What reading sources leaves as it was, and `loop` and `rep` (R86, R88). -/

namespace Sys2Proof.Machine

/-! What reading sources leaves as it was. -/

/-- Sources read: time stands, and of the acting cell only the check bits of registers and the sticky flags may differ. -/
def SourcesReadFrom (s u : State) : Prop :=
  u.now = s.now ∧ u.cur = s.cur ∧ ∃ e f n a, u.me = { s.me with regErr := e, sticky := f, stickyNow := n, stickyAt := a }

theorem SourcesReadFrom.refl (s : State) : SourcesReadFrom s s := ⟨rfl, rfl, _, _, _, _, rfl⟩

theorem SourcesReadFrom.trans {s t u : State} (h : SourcesReadFrom s t) (h' : SourcesReadFrom t u) : SourcesReadFrom s u := by
  obtain ⟨now, cur, e, f, n, a, me⟩ := h
  obtain ⟨now', cur', e', f', n', a', me'⟩ := h'
  exact ⟨now'.trans now, cur'.trans cur, e', f', n', a', by rw [me', me]⟩

theorem sourcesReadFrom_scrubReg (s : State) (k : Nat) : SourcesReadFrom s (scrubReg s k) := by
  unfold scrubReg
  split
  · exact ⟨State.modMe_now .., State.modMe_cur .., _, _, _, _, State.me_modMe ..⟩
  · exact SourcesReadFrom.refl s

theorem sourcesReadFrom_popPort {s u : State} {port : Nat} {v : Word} (h : popPort s port = .ok v u) : SourcesReadFrom s u := by
  unfold popPort at h
  split at h
  · cases h
  · split at h
    · cases h
    · split at h
      · cases h
      · split at h
        · split at h <;> cases h
        · cases h
          exact ⟨rfl, rfl, _, _, _, _, rfl⟩

theorem sourcesReadFrom_readSrc {s u : State} {r : SReg} {p : List (SReg × Word)} {y : Word × List (SReg × Word)}
    (h : readSrc s r p = .ok y u) : SourcesReadFrom s u := by
  unfold readSrc at h
  split at h
  · split at h
    · cases h
    · cases h
      exact sourcesReadFrom_scrubReg s _
  · split at h
    · split at h
      · cases h
        exact SourcesReadFrom.refl s
      · obtain ⟨v, t, hv, ht⟩ := Ret.bind_eq_ok h
        cases ht
        exact sourcesReadFrom_popPort hv
    · cases h
      exact ⟨State.modMe_now .., State.modMe_cur .., _, _, _, _, State.me_modMe ..⟩

theorem sourcesReadFrom_readSrcs {s u : State} {rs : List SReg} {p : List (SReg × Word)} {x : Srcs}
    (h : readSrcs s rs p = .ok x u) : SourcesReadFrom s u := by
  induction rs generalizing s p x with
  | nil =>
    cases h
    exact SourcesReadFrom.refl _
  | cons r rest ih =>
    obtain ⟨y, t, hy, ht⟩ := Ret.bind_eq_ok h
    obtain ⟨z, t', hz, ht'⟩ := Ret.bind_eq_ok ht
    cases ht'
    exact (sourcesReadFrom_readSrc hy).trans (ih hz)

/-- Sources that pass are read, and none carries a deferred-fault bit. -/
theorem readClean_eq_ok {s u : State} {rs : List SReg} {x : Srcs} (h : readClean s rs = .ok x u) :
    readSrcs s rs [] = .ok x u ∧ x.dfr = none := by
  obtain ⟨y, t, hy, ht⟩ := Ret.bind_eq_ok h
  split at ht
  · cases ht
  · cases ht
    exact ⟨hy, ‹_›⟩

theorem sourcesReadFrom_readClean {s u : State} {rs : List SReg} {x : Srcs} (h : readClean s rs = .ok x u) : SourcesReadFrom s u :=
  sourcesReadFrom_readSrcs (readClean_eq_ok h).1

theorem SourcesReadFrom.samePlace {s u : State} (h : SourcesReadFrom s u) : u.me.SamePlace s.me := by
  obtain ⟨-, -, _, _, _, _, me⟩ := h
  rw [me]; exact ⟨rfl, rfl, rfl, rfl⟩

theorem SourcesReadFrom.now {s u : State} (h : SourcesReadFrom s u) : u.now = s.now := h.left

theorem SourcesReadFrom.t {s u : State} (h : SourcesReadFrom s u) : u.me.t = s.me.t := by
  obtain ⟨-, -, _, _, _, _, me⟩ := h
  rw [me]

theorem SourcesReadFrom.sizeAt {s u : State} (h : SourcesReadFrom s u) (x : Nat) : u.me.sizeAt x = s.me.sizeAt x := by
  obtain ⟨-, -, _, _, _, _, me⟩ := h
  rw [me]; rfl

/-! An issue that moves its cell to another place of its code. -/

/-- What an issue that only moves its cell leaves: the cell stands at the place of `y`, the next issue comes after the slots, and
nothing else changes. -/
structure MovesTo (u t : State) (y : Cell) (slots : Nat) : Prop where
  place : t.me.SamePlace y
  time : t.me.t = max u.me.t (u.now + slots)
  doms : t.doms = u.doms
  keeps : KeepsAll u t (u.me.issued t.me)

theorem movesTo_afterIssue {u v : State} {y : Cell} {slots : Nat} (outside : OutsideKept u v) (place : v.me.SamePlace y)
    (time : v.me.t = max u.me.t (u.now + slots)) (keeps : v.me = u.me.issued v.me) : MovesTo u (afterIssue v) y slots := by
  obtain ⟨-, -, -, -, doms, -⟩ := id outside
  refine ⟨?_, ?_, (afterIssue_doms v).trans doms, (outside.trans (outsideKept_afterIssue v)).keepsAll ?_ ?_⟩
  · rw [afterIssue_me]; exact ⟨place.pc, place.loops, place.rep, place.repPend⟩
  · rw [afterIssue_me]; exact time
  · rw [afterIssue_me, keeps]; rfl
  · rw [afterIssue_me, keeps]; rfl

/-! The loops that a word ends, and the loop that may be opened. -/

theorem Cell.depth_le (c : Cell) : c.depth ≤ 4 := by
  unfold Cell.depth
  repeat' split
  all_goals omega

theorem Cell.endsLoop_eq_false {c : Cell} {x k : Nat} (h : c.endsLoop x = false) (hk : k < 4) :
    ¬ ((c.loop k).act = true ∧ (c.loop k).en = x) := by
  have hk' : k ∈ [0, 1, 2, 3] := by simp; omega
  simpa using List.any_eq_false.mp h k hk'

theorem Cell.endsLoop_congr {c d : Cell} (h : c.loops = d.loops) (x : Nat) : c.endsLoop x = d.endsLoop x := by
  simp only [Cell.endsLoop, Cell.loop_congr h]

/-- A word that ends no loop's body passes to the next one. -/
theorem Cell.pass_of_not_endsLoop {c : Cell} {x : Nat} (size : Nat) (h : c.endsLoop x = false) :
    c.pass x size = { c with pc := 4 * (x + size) } := by
  unfold Cell.pass
  cases hd : c.depth with
  | zero => rfl
  | succ k => rw [nextPcFrom_succ_of_not_end _ (Cell.endsLoop_eq_false h (by have := c.depth_le; omega))]

/-- A body that starts at `st` and ends at `en` may be opened: fewer than four loops are active, and it lies inside the innermost. -/
def Cell.Nests (c : Cell) (st en : Nat) : Prop :=
  c.depth < 4 ∧ ∀ k, c.depth = k + 1 → (c.loop k).st ≤ st ∧ en ≤ (c.loop k).en

theorem Cell.nests_congr {c d : Cell} (h : c.loops = d.loops) (st en : Nat) : c.Nests st en ↔ d.Nests st en := by
  simp only [Cell.Nests, Cell.depth_congr h, Cell.loop_congr h]

theorem Cell.not_nests_iff (c : Cell) (st en : Nat) : (c.depth = 4 ∨ c.bodyInside st en = false) ↔ ¬ c.Nests st en := by
  have := c.depth_le
  unfold Cell.Nests Cell.bodyInside
  cases hd : c.depth with
  | zero => simp
  | succ k => simp; omega

/-! `loop` (R86). -/

section
variable {s u : State} {a : SReg} {x : Srcs} (dist : BitVec 15) (bound : BitVec 32)

theorem exec_loop_of_outside (g : PReg) (h : s.me.underRep = false)
    (ho : ¬ s.me.pc / 4 + dist.toNat < s.me.codeWords.length) : exec (.loop g a dist bound) s =
      .next (takeTrap s .illegal (wordsVal (encode (.loop g a dist bound)))) :=
  (notRepeated_of_not_underRep _ _ h).trans (if_pos (Nat.not_lt.mp ho))

theorem exec_loop_of_inside (g : PReg) (h : s.me.underRep = false)
    (hi : s.me.pc / 4 + dist.toNat < s.me.codeWords.length) : exec (.loop g a dist bound) s =
      if s.me.getP g then runLoop (.loop g a dist bound) a dist bound s else .next (advance s 2 1) :=
  (notRepeated_of_not_underRep _ _ h).trans (if_neg (Nat.not_le.mpr hi))

/-- A count that is read, where the body may be opened and the count is within the bound. -/
theorem runLoop_of_clean (i : Instr) (h : readClean s [a] = .ok x u)
    (hn : u.me.Nests (u.me.pc / 4 + 2) (u.me.pc / 4 + dist.toNat)) (hb : (x.get 0).toNat ≤ bound.toNat) :
    runLoop i a dist bound s =
      if (x.get 0).toNat = 0 then
        .next (afterIssue (u.modMe fun c =>
          (c.pass (u.me.pc / 4 + dist.toNat) (c.sizeAt (u.me.pc / 4 + dist.toNat))).spend u.now 2))
      else
        .next (afterIssue (u.modMe fun c =>
          { c.setLoop c.depth { st := u.me.pc / 4 + 2, en := u.me.pc / 4 + dist.toNat, cnt := (x.get 0).toNat, act := true } with
              pc := 4 * (u.me.pc / 4 + 2) }.spend u.now 1)) := by
  rw [runLoop, h]
  exact (if_neg fun e => (Cell.not_nests_iff ..).mp e hn).trans (if_neg (Nat.not_lt.mpr hb))

theorem runLoop_of_not_nested (i : Instr) (h : readClean s [a] = .ok x u)
    (hn : ¬ u.me.Nests (u.me.pc / 4 + 2) (u.me.pc / 4 + dist.toNat)) :
    runLoop i a dist bound s = .next (takeTrap u .loopbound (wordsVal (encode i))) := by
  rw [runLoop, h]
  exact if_pos ((Cell.not_nests_iff ..).mpr hn)

theorem runLoop_of_beyond_bound (i : Instr) (h : readClean s [a] = .ok x u)
    (hn : u.me.Nests (u.me.pc / 4 + 2) (u.me.pc / 4 + dist.toNat)) (hb : bound.toNat < (x.get 0).toNat) :
    runLoop i a dist bound s = .next (takeTrap u .loopbound (x.get 0)) := by
  rw [runLoop, h]
  exact (if_neg fun e => (Cell.not_nests_iff ..).mp e hn).trans (if_pos hb)

theorem runLoop_of_carriesFault (i : Instr) (h : CarriesFault s u [a] a) :
    runLoop i a dist bound s = .next (takeTrap u .memerr (a.zeroExtend 64)) := by
  rw [runLoop, readClean_of_carriesFault h]
end

/-- A loop opened: its cell moves to the body's start with the next loop active, the others as before. -/
theorem loop_opens {s u : State} (hu : SourcesReadFrom s u) (l : HwLoop) (pc : Nat) :
    let t := afterIssue (u.modMe fun c => { c.setLoop c.depth l with pc := pc }.spend u.now 1)
    t.me.pc = pc ∧ t.me.loop s.me.depth = l ∧ (∀ k, k ≠ s.me.depth → t.me.loop k = s.me.loop k) ∧
      t.me.t = max s.me.t (s.now + 1) ∧ t.doms = u.doms ∧ KeepsAll u t (u.me.issued t.me) := by
  have hp := hu.samePlace
  have hset : (u.me.setLoop u.me.depth l).loops = (s.me.setLoop s.me.depth l).loops := by
    rw [Cell.setLoop_loops, Cell.setLoop_loops, Cell.depth_congr hp.loops, hp.loops]
  have hplace : ({ u.me.setLoop u.me.depth l with pc := pc }.spend u.now 1).SamePlace { s.me.setLoop s.me.depth l with pc := pc } :=
    ⟨rfl, hset, hp.rep, hp.repPend⟩
  obtain ⟨place, time, doms, keeps⟩ := movesTo_afterIssue (slots := 1)
    (outsideKept_modMe u fun c => { c.setLoop c.depth l with pc := pc }.spend u.now 1) (by rw [State.me_modMe]; exact hplace)
    (by rw [State.me_modMe]; rfl) (by rw [State.me_modMe]; rfl)
  have hloop := Cell.loop_congr (d := s.me.setLoop s.me.depth l) place.loops
  exact ⟨place.pc, (hloop _).trans (Cell.loop_setLoop_same ..), fun k hk => (hloop k).trans (Cell.loop_setLoop_ne _ _ hk),
    by rw [time, hu.t, hu.now], doms, keeps⟩

/-- A body passed: its cell moves to where the word at `x`, the body's last, would pass (R87). -/
theorem movesTo_pass {s u v : State} {x slots : Nat} (hu : SourcesReadFrom s u) (hr : s.me.underRep = false) (outside : OutsideKept u v)
    (place : v.me.SamePlace (u.me.pass x (s.me.sizeAt x))) (time : v.me.t = max u.me.t (u.now + slots))
    (keeps : v.me = u.me.issued v.me) :
    MovesTo u (afterIssue v) ({ s.me with pc := 4 * x }.stepPc (s.me.sizeAt x)) slots := by
  have hp := hu.samePlace
  refine movesTo_afterIssue outside (place.trans ?_) time keeps
  rw [Cell.stepPc_of_not_underRep (c := { s.me with pc := 4 * x }) _ hr, Nat.mul_div_cancel_left x (by decide)]
  exact Cell.pass_samePlace (d := { s.me with pc := 4 * x }) hp.loops hp.rep hp.repPend _ _

theorem loopEntry : Rules.LoopEntry := by
  intro s g a dist bound hr w i words inner inside
  refine ⟨exec_loop_of_outside dist bound g hr, fun hi hg => ?_, fun hi hg u hu => ?_, fun u x hi hg hx => ?_⟩
  · refine ⟨advance s 2 1, ?_, advance_passes_only s 2⟩
    rw [exec_loop_of_inside dist bound g hr hi, hg]; rfl
  · rw [exec_loop_of_inside dist bound g hr hi, hg]
    exact runLoop_of_carriesFault dist bound i hu
  · have hexec : exec i s = runLoop i a dist bound s := by rw [exec_loop_of_inside dist bound g hr hi, hg]; rfl
    have hu := sourcesReadFrom_readClean hx
    have hp := hu.samePlace
    have hinner : inner ↔ u.me.Nests (u.me.pc / 4 + 2) (u.me.pc / 4 + dist.toNat) := by
      rw [Cell.nests_congr hp.loops, hp.pc]; rfl
    rw [hexec]
    refine ⟨fun hn => ?_, fun hn hb => ?_, fun hn h0 hb => ?_, fun hn h0 => ?_⟩
    · exact runLoop_of_not_nested dist bound i hx (mt hinner.mpr hn)
    · exact runLoop_of_beyond_bound dist bound i hx (hinner.mp hn) hb
    · rw [runLoop_of_clean dist bound i hx (hinner.mp hn) hb, if_neg (by omega), hp.pc]
      exact ⟨_, rfl, loop_opens hu _ _⟩
    · rw [runLoop_of_clean dist bound i hx (hinner.mp hn) (by omega), if_pos h0, hp.pc]
      obtain ⟨place, time, doms, keeps⟩ := movesTo_pass (x := w + dist.toNat) (slots := 2) hu hr
        (outsideKept_modMe u fun c => (c.pass (w + dist.toNat) (c.sizeAt (w + dist.toNat))).spend u.now 2)
        (by rw [State.me_modMe, hu.sizeAt]; exact ⟨rfl, rfl, rfl, rfl⟩)
        (by rw [State.me_modMe, Cell.pass_eq]; rfl) (by rw [State.me_modMe, Cell.pass_eq]; rfl)
      exact ⟨_, rfl, by rw [time, hu.t, hu.now], doms, keeps, place.pc, place.loops⟩

/-! `rep` (R88). -/

section
variable {s u : State} (g : PReg) {a : SReg} {x : Srcs}

theorem exec_rep_of_endsLoop (a : SReg) (h : s.me.underRep = false) (he : s.me.endsLoop (s.me.pc / 4) = true) :
    exec (.rep g a) s = .next (takeTrap s .illegal (wordsVal (encode (.rep g a)))) :=
  (notRepeated_of_not_underRep _ _ h).trans (if_pos he)

theorem exec_rep_of_guard (a : SReg) (h : s.me.underRep = false) (he : s.me.endsLoop (s.me.pc / 4) = false) (hg : s.me.getP g = true) :
    exec (.rep g a) s = runRep a s :=
  (notRepeated_of_not_underRep _ _ h).trans ((if_neg (by rw [he]; decide)).trans (if_pos hg))

theorem runRep_of_carriesFault (h : CarriesFault s u [a] a) : runRep a s = .next (takeTrap u .memerr (a.zeroExtend 64)) := by
  rw [runRep, readClean_of_carriesFault h]

theorem runRep_of_beyond (h : readClean s [a] = .ok x u) (hn : 2 ^ 32 ≤ (x.get 0).toNat) :
    runRep a s = .next (takeTrap u .loopbound (x.get 0)) := by
  rw [runRep, h]
  exact if_pos hn

theorem runRep_of_zero (h : readClean s [a] = .ok x u) (hn : (x.get 0).toNat = 0) : runRep a s =
    .next (afterIssue ((u.modMe fun c => (c.pass (c.pc / 4) 1).spend u.now 1).modMe fun c =>
      c.pass (c.pc / 4) (c.sizeAt (c.pc / 4)))) := by
  rw [runRep, h]
  exact (if_neg (by omega)).trans (if_pos hn)

theorem runRep_of_count (h : readClean s [a] = .ok x u) (hn : 0 < (x.get 0).toNat) (hn' : (x.get 0).toNat < 2 ^ 32) : runRep a s =
    .next (afterIssue (u.modMe fun c => { (c.pass (c.pc / 4) 1).spend u.now 1 with repPend := some (x.get 0).toNat })) := by
  rw [runRep, h]
  exact (if_neg (Nat.not_le.mpr hn')).trans (if_neg (Nat.pos_iff_ne_zero.mp hn))
end

/-- One word's value has no second word. -/
theorem wordsVal_rep (g : PReg) (a : SReg) : wordsVal (encode (.rep g a)) = BitVec.ofNat 64 ((encode (.rep g a)).getD 0 0) := by
  have : encode (.rep g a) = [encS3 0x16 g 0 a.toNat 0 4] := rfl
  rw [this]
  simp [wordsVal]

section
variable {s u : State} (hu : SourcesReadFrom s u) (he : s.me.endsLoop (s.me.pc / 4) = false)
include hu he

/-- `rep` itself goes on to the next word. -/
theorem rep_pass : u.me.pass (u.me.pc / 4) 1 = { u.me with pc := 4 * (s.me.pc / 4 + 1) } := by
  rw [hu.samePlace.pc, Cell.pass_of_not_endsLoop 1 (by rw [Cell.endsLoop_congr hu.samePlace.loops, he])]

theorem movesTo_rep_count (n : Nat) :
    MovesTo u (afterIssue (u.modMe fun c => { (c.pass (c.pc / 4) 1).spend u.now 1 with repPend := some n }))
      { s.me with pc := 4 * (s.me.pc / 4 + 1), repPend := some n } 1 := by
  refine movesTo_afterIssue (outsideKept_modMe ..) ?_ ?_ ?_ <;> rw [State.me_modMe, rep_pass hu he]
  · exact ⟨rfl, hu.samePlace.loops, hu.samePlace.rep, rfl⟩
  · rfl
  · rfl

theorem movesTo_rep_zero (hr : s.me.underRep = false) :
    MovesTo u (afterIssue ((u.modMe fun c => (c.pass (c.pc / 4) 1).spend u.now 1).modMe fun c =>
        c.pass (c.pc / 4) (c.sizeAt (c.pc / 4))))
      ({ s.me with pc := 4 * (s.me.pc / 4 + 1) }.stepPc (s.me.sizeAt (s.me.pc / 4 + 1))) 1 := by
  have hme : ((u.modMe fun c => (c.pass (c.pc / 4) 1).spend u.now 1).modMe fun c => c.pass (c.pc / 4) (c.sizeAt (c.pc / 4))).me =
      ({ u.me with pc := 4 * (s.me.pc / 4 + 1) }.spend u.now 1).pass (s.me.pc / 4 + 1) (s.me.sizeAt (s.me.pc / 4 + 1)) := by
    have hpc : ({ u.me with pc := 4 * (s.me.pc / 4 + 1) }.spend u.now 1).pc / 4 = s.me.pc / 4 + 1 :=
      Nat.mul_div_cancel_left _ (by decide)
    rw [State.me_modMe, State.me_modMe, rep_pass hu he, hpc, ← hu.sizeAt]
    rfl
  refine movesTo_pass hu hr ((outsideKept_modMe ..).trans (outsideKept_modMe ..)) ?_ ?_ ?_ <;> rw [hme]
  · exact Cell.pass_samePlace (c := { u.me with pc := 4 * (s.me.pc / 4 + 1) }.spend u.now 1) (d := u.me) rfl rfl rfl _ _
  · rw [Cell.pass_eq]; rfl
  · rw [Cell.pass_eq]; rfl
end

theorem repCounts : Rules.RepCounts := by
  refine ⟨fun s u g a hr he hg hu => ?_, fun s u g a x hr hx => ⟨fun he => ?_, fun he hg => ?_⟩⟩
  · exact (exec_rep_of_guard g a hr he hg).trans (runRep_of_carriesFault hu)
  · rw [exec_rep_of_endsLoop g a hr he, wordsVal_rep]
  · have hu := sourcesReadFrom_readClean hx
    rw [exec_rep_of_guard g a hr he hg]
    refine ⟨runRep_of_beyond hx, fun h0 hn => ?_, fun h0 => ?_⟩
    · obtain ⟨place, time, doms, keeps⟩ := movesTo_rep_count hu he (x.get 0).toNat
      exact ⟨_, runRep_of_count hx h0 hn, place.repPend, place.pc, fun k => Cell.loop_congr (d := s.me) place.loops k,
        by rw [time, hu.t, hu.now], doms, keeps⟩
    · obtain ⟨place, time, doms, keeps⟩ := movesTo_rep_zero hu he hr
      have hy := Cell.stepPc_of_not_underRep (c := { s.me with pc := 4 * (s.me.pc / 4 + 1) }) (s.me.sizeAt (s.me.pc / 4 + 1)) hr
      rw [Nat.mul_div_cancel_left _ (by decide)] at hy
      refine ⟨_, runRep_of_zero hx (by rw [h0]; rfl), ?_, by rw [time, hu.t, hu.now], doms, keeps, ⟨place.pc, place.loops⟩,
        fun hn => ?_⟩
      · rw [place.repPend, hy, Cell.pass_eq]
        exact (Cell.underRep_eq_false.mp hr).1
      · rw [hy, Cell.pass_of_not_endsLoop (c := { s.me with pc := 4 * (s.me.pc / 4 + 1) }) _ hn] at place
        exact ⟨place.pc, fun k => Cell.loop_congr (d := s.me) place.loops k⟩

/-- Settles O7: each outcome of the checks leaves the cell at a place of its code, and moves nothing else. -/
theorem loopsAndRepeat : Obligations.LoopsAndRepeat := ⟨loopEntry, repCounts⟩

end Sys2Proof.Machine
end

section
/-! PROOFS. The values of scalar integers: how the scalar operations of the model read, fit and write at a type (R76 to R80). -/

namespace Sys2Proof.Machine

/-! Widths. -/

theorem Width.sixteen_le_bits (w : Width) : 16 ≤ Width.bits w := by cases w <;> decide

theorem Width.bits_le (w : Width) : Width.bits w ≤ 64 := by cases w <;> decide

/-! Words cut to a width and extended again. -/

theorem setWidth_signExtend_of_le {W V : Nat} (y : BitVec W) (h : W ≤ V) : (y.signExtend V).setWidth W = y := by
  ext i hi
  rw [BitVec.getElem_setWidth, BitVec.getLsbD_signExtend, if_pos hi, decide_eq_true (Nat.lt_of_lt_of_le hi h), Bool.true_and,
    BitVec.getLsbD_eq_getElem]

theorem narrow_setWidth (w : Width) (n : Bool) (v : Word) : (narrow w n v).setWidth (Width.bits w) = v.setWidth (Width.bits w) := by
  unfold narrow
  split
  · exact (BitVec.setWidth_setWidth_of_le _ (Width.bits_le w)).trans (BitVec.setWidth_eq _)
  · exact setWidth_signExtend_of_le _ (Width.bits_le w)

/-- A register written at a type is the integer that it reads as there. -/
theorem narrow_eq_ofInt (w : Width) (n : Bool) (v : Word) : narrow w n v = BitVec.ofInt 64 (typed w n v) := by
  unfold narrow typed
  split
  · rw [BitVec.ofInt_natCast]; exact (BitVec.ofNat_toNat ..).symm
  · rfl

theorem typed_congr {w : Width} {n : Bool} {v v' : Word} (h : v.setWidth (Width.bits w) = v'.setWidth (Width.bits w)) :
    typed w n v = typed w n v' := by unfold typed; rw [h]

theorem typed_narrow (w : Width) (n m : Bool) (v : Word) : typed w n (narrow w m v) = typed w n v :=
  typed_congr (narrow_setWidth w m v)

theorem narrow_narrow (w : Width) (n m : Bool) (v : Word) : narrow w n (narrow w m v) = narrow w n v := by
  rw [narrow_eq_ofInt, typed_narrow, ← narrow_eq_ofInt]

/-- Values of a type lie between its bounds (R76). -/
theorem typed_mem (w : Width) (n : Bool) (v : Word) : smallest w n ≤ typed w n v ∧ typed w n v ≤ largest w n := by
  cases n with
  | false => exact ⟨BitVec.le_toInt _, BitVec.toInt_le⟩
  | true =>
    have hlt : ((v.setWidth (Width.bits w)).toNat : Int) < 2 ^ Width.bits w := by exact_mod_cast (v.setWidth (Width.bits w)).isLt
    exact ⟨Int.natCast_nonneg _, Int.le_sub_one_of_lt hlt⟩

/-- A value between the bounds of a type is what the register reads as (R76). -/
theorem typed_ofInt {w : Width} {n : Bool} {v : Int} (hlo : smallest w n ≤ v) (hhi : v ≤ largest w n) :
    typed w n (BitVec.ofInt 64 v) = v := by
  have hw := Width.bits_le w
  cases n with
  | false =>
    have hlo : -2 ^ (Width.bits w - 1) ≤ v := hlo
    have hhi : v ≤ 2 ^ (Width.bits w - 1) - 1 := hhi
    have hdvd : 2 ^ Width.bits w ∣ 2 ^ 64 := Nat.pow_dvd_pow 2 hw
    have hpow : (2 : Int) ^ Width.bits w = 2 * 2 ^ (Width.bits w - 1) := by
      rw [Int.mul_comm, ← Int.pow_succ, Nat.succ_eq_add_one, Nat.sub_add_cancel (by have := Width.sixteen_le_bits w; omega)]
    show ((BitVec.ofInt 64 v).setWidth (Width.bits w)).toInt = v
    rw [BitVec.toInt_setWidth, BitVec.toNat_ofInt, Int.toNat_of_nonneg (Int.emod_nonneg _ (by decide)),
      ← Int.emod_bmod, Int.emod_emod_of_dvd _ (by exact_mod_cast hdvd), Int.emod_bmod]
    exact Int.bmod_eq_of_le_mul_two (by push_cast; omega) (by push_cast; omega)
  | true =>
    obtain ⟨k, rfl⟩ := Int.eq_ofNat_of_zero_le hlo
    have hk : k < 2 ^ Width.bits w := by exact_mod_cast Int.lt_of_le_sub_one hhi
    show (((BitVec.ofInt 64 k).setWidth (Width.bits w)).toNat : Int) = k
    rw [BitVec.ofInt_natCast, BitVec.setWidth_ofNat_of_le hw, BitVec.toNat_ofNat, Nat.mod_eq_of_lt hk]

/-! The model's own words for the same. -/

theorem srcVal_eq_typed (w : Width) (n : Bool) (v : Word) : srcVal (Width.bits w) n v = typed w n v := by
  unfold srcVal typed
  split
  · rw [BitVec.toNat_setWidth]
  · exact (BitVec.toInt_setWidth v).symm

theorem extend_eq_narrow (w : Width) (n : Bool) (v : Word) : extend (Width.bits w) n v = narrow w n v := by
  unfold extend narrow
  split
  · rw [← BitVec.toNat_setWidth, BitVec.ofNat_toNat]
  · rw [BitVec.signExtend, BitVec.toInt_setWidth]

theorem fitWrap_eq_narrow (w : Width) (n : Bool) (v : Int) : fitWrap (Width.bits w) n v = narrow w n (BitVec.ofInt 64 v) :=
  extend_eq_narrow w n _

theorem typeLo_eq_smallest (w : Width) (n : Bool) : typeLo (Width.bits w) n = smallest w n := rfl

theorem typeHi_eq_largest (w : Width) (n : Bool) : typeHi (Width.bits w) n = largest w n := rfl

/-- The bounds of a type are values of it. -/
theorem smallest_le_largest (w : Width) (n : Bool) : smallest w n ≤ 0 ∧ 0 ≤ largest w n := by
  cases w <;> cases n <;> decide

/-- Fit is what R76 says. -/
theorem fit_fitsTo (w : Width) (n sat : Bool) (v : Int) :
    FitsTo w n sat v (fit (Width.bits w) n sat v).1 (fit (Width.bits w) n sat v).2 := by
  obtain ⟨hs, hl⟩ := smallest_le_largest w n
  simp only [fit, fitWrap_eq_narrow, typeLo_eq_smallest, typeHi_eq_largest, FitsTo]
  cases sat with
  | false => simp
  | true =>
    simp only [true_and, if_true]
    split
    · refine ⟨(narrow_narrow ..).symm, ?_, by simp [*]⟩
      rw [typed_narrow, typed_ofInt (Int.le_refl _) (by omega)]; omega
    · split
      · refine ⟨(narrow_narrow ..).symm, ?_, by simp [*]⟩
        rw [typed_narrow, typed_ofInt (by omega) (Int.le_refl _)]; omega
      · refine ⟨(narrow_narrow ..).symm, ?_, by simp [*]⟩
        rw [typed_narrow, typed_ofInt (by omega) (by omega)]; omega

/-! Results that need no clamp. -/

/-- A value that a register holds at a type, written at another of that width. -/
theorem fitWrap_typed (w : Width) (n : Bool) (v : Word) : fitWrap (Width.bits w) n (typed w n v) = narrow w n v := by
  rw [fitWrap_eq_narrow, ← narrow_eq_ofInt, narrow_narrow]

theorem fitWrap_word (w : Width) (n : Bool) (v : Word) : fitWrap (Width.bits w) n v.toNat = narrow w n v := by
  rw [fitWrap_eq_narrow, BitVec.ofInt_natCast, BitVec.ofNat_toNat, BitVec.setWidth_eq]

/-- A value of the width's own bits, read with its sign. -/
theorem fitWrap_toInt {w : Width} (y : BitVec (Width.bits w)) : fitWrap (Width.bits w) false y.toInt = y.signExtend 64 := by
  rw [fitWrap_eq_narrow, ← BitVec.signExtend, narrow, if_neg (by decide), setWidth_signExtend_of_le _ (Width.bits_le w)]

/-- A value of the width's own bits, read without a sign. -/
theorem fitWrap_toNat {w : Width} (y : BitVec (Width.bits w)) : fitWrap (Width.bits w) true y.toNat = y.setWidth 64 := by
  rw [fitWrap_eq_narrow, BitVec.ofInt_natCast, BitVec.ofNat_toNat, narrow, if_pos rfl,
    BitVec.setWidth_setWidth_of_le _ (Width.bits_le w), BitVec.setWidth_eq]

/-- Only the low bits of a value count. -/
theorem fitWrap_natCast (w : Width) (v : Nat) :
    fitWrap (Width.bits w) false v = (BitVec.ofNat (Width.bits w) v).signExtend 64 := by
  rw [fitWrap_eq_narrow, BitVec.ofInt_natCast, narrow, if_neg (by decide), BitVec.setWidth_ofNat_of_le (Width.bits_le w)]

/-- A small count is written as it stands. -/
theorem toNat_fitWrap_of_small (w : Width) {v : Nat} (h : v ≤ 64) : (fitWrap (Width.bits w) false v).toNat = v := by
  have hv := typed_ofInt (w := w) (n := false) (v := v) (by cases w <;> simp [smallest, Width.bits])
    (by cases w <;> simp [largest, Width.bits] <;> omega)
  rw [fitWrap_eq_narrow, narrow_eq_ofInt, hv, BitVec.ofInt_natCast, BitVec.toNat_ofNat]
  omega

/-- Bit i of a word written at a type is bit i of the word, the topmost bit of the type above it. -/
theorem getLsbD_signExtend_eq_min {W : Nat} (y : BitVec W) (hW : 0 < W) {i : Nat} (hi : i < 64) :
    (y.signExtend 64).getLsbD i = y.getLsbD (min i (W - 1)) := by
  rw [BitVec.getLsbD_signExtend, decide_eq_true hi, Bool.true_and]
  split
  · rw [Nat.min_eq_left (by omega)]
  · rw [Nat.min_eq_right (by omega), BitVec.msb_eq_getLsbD_last]

/-! Division (R78). -/

/-- A remainder has the sign of the dividend and is no larger, so it fits the type. -/
theorem remVal_mem (w : Width) (n : Bool) (a b : Word) :
    smallest w n ≤ remVal (typed w n a) (typed w n b) ∧ remVal (typed w n a) (typed w n b) ≤ largest w n := by
  obtain ⟨hlo, hhi⟩ := typed_mem w n a
  obtain ⟨hs, hl⟩ := smallest_le_largest w n
  unfold remVal
  split
  · exact ⟨hlo, hhi⟩
  · have hmod : ((typed w n a).tmod (typed w n b)).natAbs ≤ (typed w n a).natAbs := by
      rw [Int.natAbs_tmod]; exact Nat.mod_le _ _
    rcases Int.le_total 0 (typed w n a) with ha | ha
    · have := Int.tmod_nonneg (typed w n b) ha
      omega
    · have := Int.tmod_nonneg (typed w n b) (Int.neg_nonneg.mpr ha)
      rw [Int.neg_tmod] at this
      omega

theorem remVal_eq (x y : Int) : remVal x y = if y = 0 then x else x - y * x.tdiv y := by
  unfold remVal
  rw [Int.tmod_def]

theorem fitWrap_rem (w : Width) (n : Bool) (a b : Word) :
    let r := fitWrap (Width.bits w) n (remVal (typed w n a) (typed w n b))
    typed w n r = (if typed w n b = 0 then typed w n a else typed w n a - typed w n b * (typed w n a).tdiv (typed w n b)) ∧
      r = narrow w n r := by
  obtain ⟨hlo, hhi⟩ := remVal_mem w n a b
  simp only [fitWrap_eq_narrow]
  exact ⟨by rw [typed_narrow, typed_ofInt hlo hhi, remVal_eq], (narrow_narrow ..).symm⟩

/-- All ones are the quotient by zero, at either sign. -/
theorem narrow_div_by_zero (w : Width) (n : Bool) :
    narrow w n (BitVec.ofInt 64 (if n then (2 : Int) ^ Width.bits w - 1 else -1)) = narrow w n (BitVec.allOnes 64) := by
  cases w <;> cases n <;> decide

theorem fitWrap_div (w : Width) (n : Bool) (x y : Int) : fitWrap (Width.bits w) n (divVal (Width.bits w) n x y) =
    narrow w n (if y = 0 then BitVec.allOnes 64 else BitVec.ofInt 64 (x.tdiv y)) := by
  rw [fitWrap_eq_narrow]
  unfold divVal
  split
  · exact narrow_div_by_zero w n
  · rfl

/-! Minimum and maximum. -/

theorem fitWrap_min (w : Width) (n : Bool) (a b : Word) : fitWrap (Width.bits w) n (min (typed w n a) (typed w n b)) =
    narrow w n (if typed w n a ≤ typed w n b then a else b) := by
  rw [Int.min_def]
  split <;> exact fitWrap_typed w n _

theorem fitWrap_max (w : Width) (n : Bool) (a b : Word) : fitWrap (Width.bits w) n (max (typed w n a) (typed w n b)) =
    narrow w n (if typed w n a ≤ typed w n b then b else a) := by
  rw [Int.max_def]
  split <;> exact fitWrap_typed w n _

/-! Right shifts. -/

theorem fitWrap_sra (w : Width) (a : Word) (k : Nat) : fitWrap (Width.bits w) false (typed w false a / 2 ^ k) =
    ((a.setWidth (Width.bits w)).sshiftRight k).signExtend 64 := by
  rw [← fitWrap_toInt, BitVec.toInt_sshiftRight, Int.shiftRight_eq_div_pow]
  simp [typed]

theorem fitWrap_shr (w : Width) (a : Word) (k : Nat) : fitWrap (Width.bits w) true (typed w true a / 2 ^ k) =
    ((a.setWidth (Width.bits w)) >>> k).setWidth 64 := by
  rw [← fitWrap_toNat, BitVec.toNat_ushiftRight, Nat.shiftRight_eq_div_pow]
  simp [typed]

/-- Every operation of the add group, the signed group and the unsigned group computes what the statement says (R77, R78). -/
theorem sopEval_arith (op : SOp) (a b d : Word) (p : Bool) (h : isArithmetic op = true) :
    ArithResult op a b d (sopEval op a b d p).1 (sopEval op a b d p).2 := by
  cases op with
  | add w n o => simpa only [ArithResult, sopEval, srcVal_eq_typed] using fit_fitsTo w n o _
  | sub w n o => simpa only [ArithResult, sopEval, srcVal_eq_typed] using fit_fitsTo w n o _
  | mul w n o => simpa only [ArithResult, sopEval, srcVal_eq_typed] using fit_fitsTo w n o _
  | madd w n o => simpa only [ArithResult, sopEval, srcVal_eq_typed] using fit_fitsTo w n o _
  | mulh w => exact ⟨by simp only [sopEval, mulHigh, srcVal_eq_typed, fitWrap_eq_narrow], rfl⟩
  | mulhn w => exact ⟨by simp only [sopEval, mulHigh, srcVal_eq_typed, fitWrap_eq_narrow], rfl⟩
  | div w => exact ⟨rfl, by simp only [sopEval, srcVal_eq_typed, fitWrap_div]⟩
  | divn w => exact ⟨rfl, by simp only [sopEval, srcVal_eq_typed, fitWrap_div]⟩
  | rem w => exact ⟨rfl, by simpa only [sopEval, srcVal_eq_typed] using fitWrap_rem w false a b⟩
  | remn w => exact ⟨rfl, by simpa only [sopEval, srcVal_eq_typed] using fitWrap_rem w true a b⟩
  | min w => exact ⟨rfl, by simp only [sopEval, srcVal_eq_typed, fitWrap_min]⟩
  | max w => exact ⟨rfl, by simp only [sopEval, srcVal_eq_typed, fitWrap_max]⟩
  | minn w => exact ⟨rfl, by simp only [sopEval, srcVal_eq_typed, fitWrap_min]⟩
  | maxn w => exact ⟨rfl, by simp only [sopEval, srcVal_eq_typed, fitWrap_max]⟩
  | sra w => exact ⟨rfl, by simp only [sopEval, srcVal_eq_typed, fitWrap_sra]⟩
  | shr w => exact ⟨rfl, by simp only [sopEval, srcVal_eq_typed, fitWrap_shr]⟩
  | sext w => exact ⟨rfl, by simp only [sopEval, srcVal_eq_typed, fitWrap_typed]⟩
  | zext w => exact ⟨rfl, by simp only [sopEval, srcVal_eq_typed, fitWrap_typed]⟩
  | bfx | bfi | and | or | xor | andn | orn | shl | rol | clz | ctz | pop | sel | ix => cases h

end Sys2Proof.Machine
end

section
/-! PROOFS. The bits of scalar integers: bit fields, logic, shifts and counts of bits (R78 to R80). -/

namespace Sys2Proof.Machine

/-! Counts of bits (R79), by induction over the width. -/

theorem clzN_le (n v : Nat) : clzN n v ≤ n := by
  induction n with
  | zero => exact Nat.le_refl 0
  | succ n ih =>
    unfold clzN
    split <;> omega

theorem testBit_iff (v n : Nat) : v.testBit n = true ↔ v / 2 ^ n % 2 = 1 := by
  rw [Nat.testBit_eq_decide_div_mod_eq, decide_eq_true_iff]

/-- Above the leading one there are zeros, and there it stands. -/
theorem clzN_spec (n v : Nat) :
    (∀ i, i < clzN n v → v.testBit (n - 1 - i) = false) ∧ (clzN n v < n → v.testBit (n - 1 - clzN n v) = true) := by
  induction n with
  | zero => exact ⟨fun i hi => absurd hi (Nat.not_lt_zero i), fun h => absurd h (Nat.not_lt_zero _)⟩
  | succ n ih =>
    obtain ⟨hzeros, hone⟩ := ih
    by_cases hb : v / 2 ^ n % 2 = 1
    · have : clzN (n + 1) v = 0 := if_pos hb
      rw [this]
      exact ⟨fun i hi => absurd hi (Nat.not_lt_zero i), fun _ => (testBit_iff v n).mpr hb⟩
    · have : clzN (n + 1) v = 1 + clzN n v := if_neg hb
      rw [this]
      refine ⟨fun i hi => ?_, fun h => ?_⟩
      · cases i with
        | zero => exact Bool.eq_false_iff.mpr fun h => hb ((testBit_iff v n).mp h)
        | succ i =>
          rw [show n + 1 - 1 - (i + 1) = n - 1 - i by omega]
          exact hzeros i (by omega)
      · rw [show n + 1 - 1 - (1 + clzN n v) = n - 1 - clzN n v by omega]
        exact hone (by omega)

theorem ctzN_le (n v : Nat) : ctzN n v ≤ n := by
  induction n generalizing v with
  | zero => exact Nat.le_refl 0
  | succ n ih =>
    unfold ctzN
    split
    · omega
    · have := ih (v / 2)
      omega

/-- Below the trailing one there are zeros, and there it stands. -/
theorem ctzN_spec (n v : Nat) :
    (∀ i, i < ctzN n v → v.testBit i = false) ∧ (ctzN n v < n → v.testBit (ctzN n v) = true) := by
  induction n generalizing v with
  | zero => exact ⟨fun i hi => absurd hi (Nat.not_lt_zero i), fun h => absurd h (Nat.not_lt_zero _)⟩
  | succ n ih =>
    obtain ⟨hzeros, hone⟩ := ih (v / 2)
    by_cases hb : v % 2 = 1
    · have : ctzN (n + 1) v = 0 := if_pos hb
      rw [this]
      exact ⟨fun i hi => absurd hi (Nat.not_lt_zero i), fun _ => by rw [Nat.testBit_zero, decide_eq_true hb]⟩
    · have : ctzN (n + 1) v = ctzN n (v / 2) + 1 := (if_neg hb).trans (Nat.add_comm ..)
      rw [this]
      refine ⟨fun i hi => ?_, fun h => ?_⟩
      · cases i with
        | zero => rw [Nat.testBit_zero, decide_eq_false hb]
        | succ i =>
          rw [Nat.testBit_add_one]
          exact hzeros i (by omega)
      · rw [Nat.testBit_add_one]
        exact hone (by omega)

theorem popcount_eq_countP (n v : Nat) : popcount n v = (List.range n).countP fun i => v.testBit i := by
  induction n generalizing v with
  | zero => rfl
  | succ n ih =>
    rw [List.range_succ_eq_map, List.countP_cons, List.countP_map, popcount, ih (v / 2), Nat.add_comm]
    congr 1
    · exact List.countP_congr fun i _ => by rw [Function.comp, Nat.testBit_succ]
    · rw [Nat.testBit_zero]
      rcases Nat.mod_two_eq_zero_or_one v with h | h <;> simp [h]

theorem popcount_le (n v : Nat) : popcount n v ≤ n := by
  rw [popcount_eq_countP]
  exact Nat.le_trans List.countP_le_length (Nat.le_of_eq List.length_range)

/-! Bit fields (R78, R79). -/

/-- The field that the model finds is the one that the statement names, and it lies within the width. -/
theorem bitField_of_fieldLen_zero {w : Width} {b : Word} (h : fieldLen w b = 0) : bitField (Width.bits w) b = none := by
  unfold fieldLen at h
  unfold bitField
  split at h
  · exact if_pos (.inr ‹_›)
  · exact if_pos (.inl (by omega))

theorem bitField_of_fieldLen_pos {w : Width} {b : Word} (h : 0 < fieldLen w b) :
    bitField (Width.bits w) b = some (b.toNat % 64, fieldLen w b) ∧ b.toNat % 64 + fieldLen w b ≤ Width.bits w := by
  by_cases hpos : Width.bits w ≤ b.toNat % 64
  · rw [fieldLen, if_pos hpos] at h
    exact absurd h (Nat.lt_irrefl 0)
  · have hlen : fieldLen w b = min (b.toNat / 256 % 128) (Width.bits w - b.toNat % 64) := if_neg hpos
    rw [hlen] at h ⊢
    exact ⟨if_neg (by omega), by omega⟩

/-- A field extended by its topmost bit stands in any wider type as it is. -/
theorem narrow_signExtend_of_le (w : Width) {len : Nat} (y : BitVec len) (h0 : 0 < len) (hlen : len ≤ Width.bits w) :
    narrow w false (y.signExtend 64) = y.signExtend 64 := by
  have hpos := Width.sixteen_le_bits w
  have hw := Width.bits_le w
  apply BitVec.eq_of_getLsbD_eq
  intro i hi
  rw [narrow, if_neg (by decide), getLsbD_signExtend_eq_min _ (by omega) hi, BitVec.getLsbD_setWidth,
    getLsbD_signExtend_eq_min _ h0 (by omega), getLsbD_signExtend_eq_min _ h0 hi, decide_eq_true (by omega), Bool.true_and]
  congr 1
  omega

theorem fitWrap_bfx (w : Width) (a b : Word) :
    let r := fitWrap (Width.bits w) false (bfxVal (Width.bits w) a b)
    if fieldLen w b = 0 then r = 0
    else ∀ i, i < 64 → r.getLsbD i = a.getLsbD (b.toNat % 64 + min i (fieldLen w b - 1)) := by
  intro r
  split
  · have : bfxVal (Width.bits w) a b = 0 := by rw [bfxVal, bitField_of_fieldLen_zero ‹_›]
    simp only [r, this]
    cases w <;> decide
  · intro i hi
    have hpos : 0 < fieldLen w b := Nat.pos_of_ne_zero ‹_›
    obtain ⟨hfield, hle⟩ := bitField_of_fieldLen_pos hpos
    let y := BitVec.ofNat (fieldLen w b) (a.toNat / 2 ^ (b.toNat % 64))
    have hval : bfxVal (Width.bits w) a b = y.toInt := by
      rw [bfxVal, hfield, BitVec.toInt_eq_toNat_bmod, BitVec.toNat_ofNat]
    have hr : r = y.signExtend 64 := by
      simp only [r, hval]
      rw [fitWrap_eq_narrow, ← BitVec.signExtend, narrow_signExtend_of_le w y hpos (by omega)]
    rw [hr, getLsbD_signExtend_eq_min _ hpos hi, BitVec.getLsbD_ofNat, decide_eq_true (by omega), Bool.true_and,
      Nat.testBit_div_two_pow, Nat.add_comm]
    rfl

/-- A number with a field of it replaced, bit by bit. -/
theorem testBit_replace_field (d a pos len i : Nat) :
    (d - d / 2 ^ pos % 2 ^ len * 2 ^ pos + a % 2 ^ len * 2 ^ pos).testBit i =
      if pos ≤ i ∧ i < pos + len then a.testBit (i - pos) else d.testBit i := by
  have hsplit : d - d / 2 ^ pos % 2 ^ len * 2 ^ pos + a % 2 ^ len * 2 ^ pos =
      2 ^ pos * (2 ^ len * (d / 2 ^ pos / 2 ^ len) + a % 2 ^ len) + d % 2 ^ pos := by
    have h1 := Nat.div_add_mod d (2 ^ pos)
    have h2 := Nat.div_add_mod (d / 2 ^ pos) (2 ^ len)
    generalize d / 2 ^ pos / 2 ^ len = hi at *
    generalize d / 2 ^ pos % 2 ^ len = f at *
    generalize d % 2 ^ pos = lo at *
    rw [← h2] at h1
    rw [← h1]
    have : 2 ^ pos * (2 ^ len * hi + f) = 2 ^ pos * (2 ^ len * hi) + f * 2 ^ pos := by
      rw [Nat.mul_add, Nat.mul_comm f]
    have : 2 ^ pos * (2 ^ len * hi + a % 2 ^ len) = 2 ^ pos * (2 ^ len * hi) + a % 2 ^ len * 2 ^ pos := by
      rw [Nat.mul_add, Nat.mul_comm (a % 2 ^ len)]
    omega
  rw [hsplit, Nat.testBit_two_pow_mul_add _ (Nat.mod_lt _ (Nat.two_pow_pos _)),
    Nat.testBit_two_pow_mul_add _ (Nat.mod_lt _ (Nat.two_pow_pos _))]
  by_cases h1 : i < pos
  · rw [if_pos h1, if_neg (by omega), Nat.testBit_mod_two_pow, decide_eq_true h1, Bool.true_and]
  · by_cases h2 : i - pos < len
    · rw [if_neg h1, if_pos h2, if_pos (by omega), Nat.testBit_mod_two_pow, decide_eq_true h2, Bool.true_and]
    · rw [if_neg h1, if_neg h2, if_neg (by omega), Nat.testBit_div_two_pow, Nat.testBit_div_two_pow]
      congr 1
      omega

theorem testBit_bfiVal (w : Width) (a b d : Word) (i : Nat) : (bfiVal (Width.bits w) a b d).testBit i =
    if b.toNat % 64 ≤ i ∧ i < b.toNat % 64 + fieldLen w b then a.getLsbD (i - b.toNat % 64) else d.getLsbD i := by
  rcases Nat.eq_zero_or_pos (fieldLen w b) with h | h
  · rw [bfiVal, bitField_of_fieldLen_zero h, if_neg (by omega)]
    rfl
  · obtain ⟨hfield, -⟩ := bitField_of_fieldLen_pos h
    rw [bfiVal, hfield]
    exact testBit_replace_field ..

theorem fitWrap_bfi (w : Width) (a b d : Word) :
    let r := fitWrap (Width.bits w) false (bfiVal (Width.bits w) a b d)
    r = narrow w false r ∧ ∀ i, i < Width.bits w → r.getLsbD i =
      if b.toNat % 64 ≤ i ∧ i < b.toNat % 64 + fieldLen w b then a.getLsbD (i - b.toNat % 64) else d.getLsbD i := by
  refine ⟨by simp only [fitWrap_eq_narrow, narrow_narrow], fun i hi => ?_⟩
  have hw := Width.bits_le w
  rw [fitWrap_natCast, getLsbD_signExtend_eq_min _ (by omega) (by omega), Nat.min_eq_left (by omega), BitVec.getLsbD_ofNat,
    decide_eq_true hi, Bool.true_and, testBit_bfiVal]

/-! Shifts, rotations and scaled sums (R79, R80). -/

theorem fitWrap_shl (w : Width) (a : Word) (k : Nat) :
    fitWrap (Width.bits w) false (a.toNat * 2 ^ k) = narrow w false (a <<< k) := by
  have hcast : (a.toNat : Int) * 2 ^ k = ((a.toNat * 2 ^ k : Nat) : Int) := by push_cast; rfl
  have hshift : BitVec.ofNat 64 (a.toNat * 2 ^ k) = a <<< k :=
    BitVec.eq_of_toNat_eq (by rw [BitVec.toNat_ofNat, BitVec.toNat_shiftLeft, Nat.shiftLeft_eq])
  rw [fitWrap_eq_narrow, hcast, BitVec.ofInt_natCast, hshift]

/-- What leaves a word at its top comes in at its bottom. -/
theorem ofNat_rotate {W : Nat} (y : BitVec W) {k : Nat} (hk : k < W) :
    BitVec.ofNat W (y.toNat * 2 ^ k + y.toNat / 2 ^ (W - k)) = y.rotateLeft k := by
  have hlow : y.toNat / 2 ^ (W - k) < 2 ^ k := by
    rw [Nat.div_lt_iff_lt_mul (Nat.two_pow_pos _), ← Nat.pow_add, Nat.add_sub_cancel' (Nat.le_of_lt hk)]
    exact y.isLt
  apply BitVec.eq_of_getLsbD_eq
  intro i hi
  rw [BitVec.getLsbD_ofNat, decide_eq_true hi, Bool.true_and, Nat.mul_comm, Nat.testBit_two_pow_mul_add _ hlow,
    BitVec.getLsbD_rotateLeft, Nat.mod_eq_of_lt hk]
  by_cases h : i < k
  · simp [h, Nat.testBit_div_two_pow, BitVec.getLsbD, Nat.add_comm]
  · simp [h, hi, BitVec.getLsbD]

theorem fitWrap_rol (w : Width) (a : Word) {k : Nat} (hk : k < Width.bits w) :
    fitWrap (Width.bits w) false
        (a.toNat % 2 ^ Width.bits w * 2 ^ k + a.toNat % 2 ^ Width.bits w / 2 ^ (Width.bits w - k) : Nat) =
      ((a.setWidth (Width.bits w)).rotateLeft k).signExtend 64 := by
  rw [fitWrap_natCast, ← BitVec.toNat_setWidth, ofNat_rotate _ hk]

theorem mul_scale_eq_shift (b : Word) (k : Nat) : b * BitVec.ofNat 64 (2 ^ k) = b <<< k := by
  have : BitVec.ofNat 64 (2 ^ k) = BitVec.twoPow 64 k := BitVec.eq_of_toNat_eq (by rw [BitVec.toNat_ofNat, BitVec.toNat_twoPow])
  rw [this, BitVec.shiftLeft_eq_mul_twoPow]

/-- Every bit group's operation computes what the statement says (R78 to R80), and sets no flag. -/
theorem sopEval_bits (op : SOp) (a b d : Word) (p : Bool) (h : isArithmetic op = false) :
    BitResult op a b d p (sopEval op a b d p).1 ∧ (sopEval op a b d p).2 = false := by
  cases op with
  | bfx w => exact ⟨fitWrap_bfx w a b, rfl⟩
  | bfi w => exact ⟨fitWrap_bfi w a b d, rfl⟩
  | and w => exact ⟨fitWrap_word w false (a &&& b), rfl⟩
  | or w => exact ⟨fitWrap_word w false (a ||| b), rfl⟩
  | xor w => exact ⟨fitWrap_word w false (a ^^^ b), rfl⟩
  | andn w => exact ⟨fitWrap_word w false (a &&& ~~~b), rfl⟩
  | orn w => exact ⟨fitWrap_word w false (a ||| ~~~b), rfl⟩
  | sel w q => exact ⟨fitWrap_word w false (if p then a else b), rfl⟩
  | shl w => exact ⟨fitWrap_shl w a _, rfl⟩
  | rol w => exact ⟨fitWrap_rol w a (Nat.mod_lt _ (by have := Width.sixteen_le_bits w; omega)), rfl⟩
  | ix sc => exact ⟨congrArg (a + ·) (mul_scale_eq_shift b sc.toNat), rfl⟩
  | clz w =>
    have hr := toNat_fitWrap_of_small w (Nat.le_trans (clzN_le (Width.bits w) a.toNat) (Width.bits_le w))
    refine ⟨?_, rfl⟩
    rw [BitResult, sopEval, hr]
    exact ⟨clzN_le .., clzN_spec ..⟩
  | ctz w =>
    have hr := toNat_fitWrap_of_small w (Nat.le_trans (ctzN_le (Width.bits w) a.toNat) (Width.bits_le w))
    refine ⟨?_, rfl⟩
    rw [BitResult, sopEval, hr]
    exact ⟨ctzN_le .., ctzN_spec ..⟩
  | pop w =>
    have hr := toNat_fitWrap_of_small w (Nat.le_trans (popcount_le (Width.bits w) a.toNat) (Width.bits_le w))
    refine ⟨?_, rfl⟩
    rw [BitResult, sopEval, hr]
    exact popcount_eq_countP ..
  | add | sub | mul | madd | mulh | div | rem | min | max | sra | sext | mulhn | divn | remn | minn | maxn | shr | zext => cases h

end Sys2Proof.Machine
end

section
/-! PROOFS. The issue of a scalar integer: every scalar integer instruction reads its sources, may set SATD and hold the divider, and writes its
destination (R77 to R81). -/

namespace Sys2Proof.Machine

/-- Every scalar integer instruction runs its operation on the parts that its form names. -/
theorem exec_of_scalarForm {i : Instr} {f : ScalarForm} (s : State) (h : scalarForm i = some f) :
    exec i s = issue s f.g f.size 1 (runSop f.op f.d f.a f.b f.imm) := by
  unfold scalarForm at h
  split at h <;> cases h <;> rfl

/-- What an operation does beside its write: SATD where it clamped, and the divider held (R25, R77, R78). -/
def State.sopEffects (u : State) (op : SOp) (satd : Bool) : State :=
  let s := if satd then u.modMe fun c => c.setFlags u.now flagSATD else u
  if sopIsDiv op then s.modMe fun c => c.setReady unitDiv (s.now + 34) else s

/-- The result of an operation on the sources as read, and whether it clamped. -/
def ScalarForm.eval (f : ScalarForm) (x : Srcs) (u : State) : Word × Bool :=
  sopEval f.op (x.get 0) (f.second x) (f.third x) (u.me.getP (sopPredicate f.op))

theorem runSop_of_read {s u : State} {f : ScalarForm} {x : Srcs} (h : readSrcs s f.sources [] = .ok x u) :
    runSop f.op f.d f.a f.b f.imm s =
      writeDst (u.sopEffects f.op (f.eval x u).2) f.d (f.eval x u).1 x.dfr (sopLatency f.op) := by
  have h' : readSrcs s (sopRegs f.op f.d f.a f.b) [] = .ok x u := h
  rw [runSop, h', Ret.bind_ok]
  rfl

theorem classLatency_eq (op : SOp) : classLatency op = sopLatency op := by cases op <;> rfl

theorem sopIsDiv_iff (op : SOp) : sopIsDiv op = true ↔ classLatency op = 34 := by cases op <;> simp [sopIsDiv, classLatency]

theorem sopLatency_of_bits {op : SOp} (h : isArithmetic op = false) : sopIsDiv op = false ∧ sopLatency op = 1 := by
  cases op <;> simp_all [isArithmetic, sopIsDiv, sopLatency]

theorem scalar_delivers {i : Instr} {f : ScalarForm} {s u : State} {x : Srcs} (hf : scalarForm i = some f) (hg : s.me.getP f.g = true)
    (hx : readSrcs s f.sources [] = .ok x u) :
    Delivers s (u.sopEffects f.op (f.eval x u).2) i f.d (f.eval x u).1 x.dfr (classLatency f.op) f.size :=
  delivers_of_issue (exec_of_scalarForm s hf) hg (by rw [classLatency_eq]; exact runSop_of_read hx)

/-! What the effects leave. -/

section
variable (u : State) (op : SOp) (satd : Bool)

theorem sopEffects_me : (u.sopEffects op satd).me =
    (let c := if satd then u.me.setFlags u.now flagSATD else u.me
     if sopIsDiv op then c.setReady unitDiv (u.now + 34) else c) := by
  unfold State.sopEffects
  cases satd <;> cases sopIsDiv op <;> simp

theorem outsideKept_sopEffects : OutsideKept u (u.sopEffects op satd) := by
  have hflags : OutsideKept u (if satd then u.modMe fun c => c.setFlags u.now flagSATD else u) := by
    split
    · exact outsideKept_modMe ..
    · exact OutsideKept.refl u
  simp only [State.sopEffects]
  split
  · exact hflags.trans (outsideKept_modMe ..)
  · exact hflags

theorem sopEffects_keeps : let v := u.sopEffects op satd
    KeepsAll u v { u.me with sticky := if satd then u.me.sticky ||| flagSATD else u.me.sticky, stickyNow := v.me.stickyNow,
                             stickyAt := v.me.stickyAt, ready := v.me.ready } := by
  refine (outsideKept_sopEffects u op satd).keepsAll ?_ ?_ <;> rw [sopEffects_me] <;> cases satd <;> cases sopIsDiv op <;> rfl

theorem sopEffects_doms : (u.sopEffects op satd).doms = u.doms := by
  obtain ⟨-, -, -, -, doms, -⟩ := outsideKept_sopEffects u op satd
  exact doms

/-- The divider is held for 34 cycles, and no other resource's time changes. -/
theorem sopEffects_readyAt (q : Nat) : (u.sopEffects op satd).me.readyAt q =
    if q = unitDiv ∧ classLatency op = 34 then max (u.now + 34) (u.me.readyAt q) else u.me.readyAt q := by
  have hflags : (if satd then u.me.setFlags u.now flagSATD else u.me).readyAt q = u.me.readyAt q := by cases satd <;> rfl
  rw [sopEffects_me]
  by_cases h : sopIsDiv op = true
  · simp only [h, if_true, Cell.readyAt_setReady, hflags, (sopIsDiv_iff op).mp h, and_true]
  · simp only [h, if_false, Bool.false_eq_true, hflags, mt (sopIsDiv_iff op).mpr h, and_false]
end

theorem scalarArithmetic : Rules.ScalarArithmetic := by
  intro i f s u x hf hop hg hx
  exact ⟨u.sopEffects f.op (f.eval x u).2, (f.eval x u).1, (f.eval x u).2, sopEval_arith _ _ _ _ _ hop, sopEffects_keeps ..,
    sopEffects_doms .., sopEffects_readyAt _ _ _, scalar_delivers hf hg hx⟩

theorem scalarBits : Rules.ScalarBits := by
  intro i f s u x hf hop hg hx
  obtain ⟨hres, hflag⟩ := sopEval_bits f.op (x.get 0) (f.second x) (f.third x) (u.me.getP (sopPredicate f.op)) hop
  obtain ⟨hdiv, hlat⟩ := sopLatency_of_bits hop
  have hu : u.sopEffects f.op (f.eval x u).2 = u := by
    rw [ScalarForm.eval, hflag, State.sopEffects, hdiv]; rfl
  have := scalar_delivers hf hg hx
  rw [hu, classLatency_eq, hlat] at this
  exact ⟨_, hres, this⟩

/-- Settles O3: the instruction's form names its operation, whose value at its type is the exact one, and the issue writes it. -/
theorem scalarIntegers : Obligations.ScalarIntegers := ⟨scalarArithmetic, scalarBits⟩

end Sys2Proof.Machine
end
